-- ==== Sys2Proof/Word.lean ====
section
/-! DEFINITION. The word type and the index types of the JS460: what crosses a link or rests in memory is a 16-bit word
(spec/12, introduction), a level is one such word (spec/00, Levels), and every numbered thing of the part has an index type. -/

namespace Sys2Proof

/-- A 16-bit word of a link frame or of the external memory (spec/12). -/
abbrev Word := BitVec 16

/-- A level, 0 to 65535 in level units, full 65535 (spec/00, Levels). -/
abbrev Level := BitVec 16

/-- An input link IN0–IN3 and its port. -/
abbrev PortIx := Fin 4

/-- An output link OUT0–OUT5 and its port. -/
abbrev LinkIx := Fin 6

/-- A fade slot 0–5. -/
abbrev SlotIx := Fin 6

/-- A phase group 0–17. -/
abbrev GroupIx := Fin 18

/-- A production bank 0–3. -/
abbrev BankIx := Fin 4

/-- A control channel. Channel number c (1–1024) is the index c − 1. -/
abbrev Chan := Fin 1024

/-- A dimmer circuit. Circuit number c (1–768) is the index c − 1. -/
abbrev Circ := Fin 768

/-- The channel number 1–1024 of a channel. -/
def Chan.number (c : Chan) : Nat := c.val + 1

/-- The circuit number 1–768 of a circuit. -/
def Circ.number (c : Circ) : Nat := c.val + 1

end Sys2Proof
end

