-- ==== Sys2Proof/Syntax.lean ====
section
/-! DEFINITION. The commands of the JS460: one constructor of `Instr` per row of spec/opcode_table.json. A row is one step of
the part, whole and indivisible (spec/95). The operands are what the outside brings with the step: the port and the words of
a frame (of a bad-check frame, all its words as received, R105), the link whose timer expires, how far the memory had got when
an access is cut. -/

namespace Sys2Proof

/-- What every frame that completes on a forward lane brings besides its payload (R105, R107).
`stale` says that the frame's start delimiter arrived before the last enable of its input or before the end of the last reset:
such a frame is dropped when it ends (R107). -/
structure FrameHead where
  port  : PortIx
  seq   : Word
  stale : Bool
  deriving DecidableEq, Repr

/-- Where a frame ends whose sequence number is not known before its words are read: its port, and whether it is `stale` as a
`FrameHead` says it (R105, R107). -/
structure LaneEnd where
  port  : PortIx
  stale : Bool
  deriving DecidableEq, Repr

/-- How far the transaction in progress at the Memory Port had got when a fault or a reset cuts it (R192, R201): `accesses`
accesses more than the engine's place shows had ended normally, and, for a write, `landed` says whether the word of the cut
access took its new value ("the memory decides which", R192). -/
structure Cut where
  accesses : Nat
  landed   : Bool
  deriving DecidableEq, Repr

/-- The commands, in the order of spec/opcode_table.json. A request row carries its parameter words as received, in the order
of R224 and without the request code (and, for a SET row, without the item code, which the row fixes). -/
inductive Instr where
  | resetLineAsserted (cut : Cut)
  | resetLineReleased
  | levelFrame (head : FrameHead) (base flags : Word) (levels : List Word)
  | badCheckFrame (lane : LaneEnd) (words : List Word)
  | frameCut (port : PortIx) (stale : Bool)
  | unknownRequest (head : FrameHead) (code : Word) (args : List Word)
  | go (head : FrameHead) (args : List Word)
  | pause (head : FrameHead) (args : List Word)
  | pauseAll (head : FrameHead)
  | resume (head : FrameHead) (args : List Word)
  | resumeAll (head : FrameHead)
  | release (head : FrameHead) (args : List Word)
  | cueDataWrite (head : FrameHead) (args : List Word)
  | cueDataRead (head : FrameHead) (args : List Word)
  | storeCue (head : FrameHead) (args : List Word)
  | deleteCue (head : FrameHead) (args : List Word)
  | readCue (head : FrameHead) (args : List Word)
  | edit (head : FrameHead) (args : List Word)
  | update (head : FrameHead) (args : List Word)
  | discard (head : FrameHead) (args : List Word)
  | readTable (head : FrameHead) (args : List Word)
  | changeover (head : FrameHead) (args : List Word)
  | save (head : FrameHead) (args : List Word)
  | saveHouse (head : FrameHead) (args : List Word)
  | format (head : FrameHead) (args : List Word)
  | checkStart (head : FrameHead) (args : List Word)
  | checkNext (head : FrameHead) (args : List Word)
  | checkPrevious (head : FrameHead) (args : List Word)
  | checkStop (head : FrameHead) (args : List Word)
  | setInputEnable (head : FrameHead) (args : List Word)
  | setInputPermit (head : FrameHead) (args : List Word)
  | setAutoResync (head : FrameHead) (args : List Word)
  | setLossTimes (head : FrameHead) (args : List Word)
  | setAcceptMask (head : FrameHead) (args : List Word)
  | setOutputLink (head : FrameHead) (args : List Word)
  | setBudget (head : FrameHead) (args : List Word)
  | setStartBank (head : FrameHead) (args : List Word)
  | setEventEnables (head : FrameHead) (args : List Word)
  | setMemoryTiming (head : FrameHead) (args : List Word)
  | snapshot (head : FrameHead) (args : List Word)
  | statusRead (head : FrameHead) (args : List Word)
  | clearEvents (head : FrameHead) (args : List Word)
  | restart (head : FrameHead) (args : List Word)
  | replyFrameComplete (port : PortIx) (cut : Cut)
  | portInterval (port : PortIx)
  | lossTimerRunsOut (port : PortIx)
  | holdRunsOut (port : PortIx)
  | fadeRunsOut (port : PortIx)
  | playbackInterval
  | slotCompletes (slot : SlotIx)
  | followFires
  | fetchComplete
  | segmentComplete
  | rdyFault (cut : Cut)
  | refresh
  | lampCheckInterval
  | dwellExpires
  | outputFrameTimer (link : LinkIx)
  | outputFrameComplete (link : LinkIx)
  | holdreqAsserted
  | holdreqDeasserted
  deriving DecidableEq, Repr

end Sys2Proof
end

