-- ==== Sys2Proof/Config.lean ====
section
/-! DEFINITION. What the manual leaves open: the level that the memory gives RDY, the word that a faulting write leaves, and
the words of values of STATUS READ to which chapter 12 gives no code. Each is a free value, a constant with no body, so no
proof can see what it is. -/

namespace Sys2Proof

/-- FREE VALUE (log 2). The level of RDY, high or not, at the n-th sample that the Memory Port takes: RDY is an input, and the
memory decides how far it stretches an access (R189, R191). -/
opaque Config.rdyLevel : Nat → Bool

/-- FREE VALUE (log 2). Whether the word of a write access that the n-th sample ends as a fault holds its new value or keeps its
old one: "the memory decides which" (R192). -/
opaque Config.faultLanded : Nat → Bool

/-- FREE VALUE (log 6). The word in which STATUS READ EVENTS gives "the level of ALERT" (R210): the argument says whether the
part drives ALERT low. Chapter 12 gives no code. -/
opaque Config.alertWord : Bool → Word

/-- FREE VALUE (log 6). The word in which STATUS READ OUTPUTS gives "the level of HOLDREQ as last taken" (R176): the argument
says whether HOLDREQ was asserted. Chapter 12 gives no code. -/
opaque Config.holdreqWord : Bool → Word

end Sys2Proof
end

