-- ==== Sys2Proof/Machine/State.lean ====
section
/-! DEFINITION. The state of the JS460 as plain data: every item of state the manual gives a block, the external memory, the
queue of commands, the reasons a step could stop, and the state right after reset. -/

namespace Sys2Proof.Machine

/-- The vector whose i-th element is `f i`, built on a list so that the kernel evaluates it quickly. -/
def tab {α : Type} {n : Nat} (f : Fin n → α) : Vector α n :=
  Vector.mk (Array.mk (List.ofFn f)) (by simp)

/-! ### The external memory (R189, R226, R227) -/

/-- The external RAM as (word address, word) pairs, addresses strictly rising, no entry equal to `unlistedWord`. -/
abbrev Memory := List (Nat × Word)

/-- DESIGN CHOICE (log 1). What a word of the RAM that nothing has written reads as: the manual gives no contents at power-on. -/
def unlistedWord : Word := 0

/-- The canonical form of a memory, so that equal memories are equal data. -/
abbrev Memory.wf (m : Memory) : Prop :=
  m.Pairwise (fun x y => x.1 < y.1) ∧ ∀ c ∈ m, c.2 ≠ unlistedWord

/-! ### Input Ports (chapters 4 and 5) -/

/-- The states of a sync machine (R108). -/
inductive SyncState where
  | hunt | acquire | locked
  deriving DecidableEq, Repr

/-- The outcome of one frame in the window of a sync machine (R108). -/
inductive FrameMark where
  | good | bad
  deriving DecidableEq, Repr

/-- What the link receiver knows of a frame in progress (R104, R107): none that an event has told of, one it is taking, or one
it will drop when it ends. -/
inductive Receiver where
  | noFrame | receiving | dropping
  deriving DecidableEq, Repr

/-- The source states (R88). -/
inductive SourceState where
  | disabled | absent | live | holding | fading | lost
  deriving DecidableEq, Repr

/-- The six reception counters of a port, in the order of R115. -/
structure Counters where
  good      : BitVec 32
  bad       : BitVec 32
  gaps      : BitVec 32
  completed : BitVec 32
  aborted   : BitVec 32
  dropped   : BitVec 32
  deriving DecidableEq, Repr

/-- The result codes (R206), in the order of their codes (R223). -/
inductive Result where
  | done | accepted | unknown | notPermitted | starting | badArgument | busy | noCue | noBank | checkActive | slotsActive
  | stagingEdited | bankLive | notActive
  deriving DecidableEq, Repr

/-- A reply in a reply queue (R118): `request` is the sequence number of the REQUEST frame; `restart` marks a restart
reply (R216). -/
structure Reply where
  request : Word
  code    : Word
  result  : Result
  data    : List Word
  restart : Bool
  deriving DecidableEq, Repr

/-- An Input Port (R80, R104, R108, R115, R117, R118, R35). In the two sets, none is "not driven". `sending` holds the words
of the reply frame on the return lane; none is a transmitter IDLE. -/
structure Port where
  receiver   : Receiver
  sync       : SyncState
  expected   : Word
  goodCount  : Nat
  window     : List FrameMark
  counters   : Counters
  snapshot   : Counters
  assembly   : Vector (Option Level) 1024
  sweeping   : Bool
  live       : Vector (Option Level) 1024
  source     : SourceState
  lossTimer  : Nat
  hold       : Nat
  fade       : Nat
  factor     : Word
  record     : Vector Word 512
  replies    : List Reply
  sending    : Option (List Word)
  replySeq   : Word
  deriving DecidableEq, Repr

def Counters.zero : Counters := ⟨0, 0, 0, 0, 0, 0⟩

/-- A set in which every channel is not driven (R80). -/
def noLevels : Vector (Option Level) 1024 := Vector.replicate 1024 none

/-- An Input Port right after a reset (R80, R108, R115, R117, R118, R35). -/
def Port.reset : Port where
  receiver := .noFrame
  sync := .hunt
  expected := 0
  goodCount := 0
  window := []
  counters := Counters.zero
  snapshot := Counters.zero
  assembly := noLevels
  sweeping := false
  live := noLevels
  source := .absent
  lossTimer := 0
  hold := 0
  fade := 0
  factor := 65535
  record := Vector.replicate 512 0
  replies := []
  sending := none
  replySeq := 0

/-! ### Playback Unit (chapter 3) -/

/-- One entry of the live directory (R31). -/
structure DirEntry where
  cue  : Nat
  cell : Nat
  deriving DecidableEq, Repr

/-- The pending follow (R45, R73). -/
structure Follow where
  remaining : Nat
  paused    : Bool
  deriving DecidableEq, Repr

/-- The scope of a cue (R27). -/
inductive Scope where
  | full | part
  deriving DecidableEq, Repr

/-- What a FETCHING slot holds (R46). -/
structure Fetch where
  cue       : Nat
  cell      : Nat
  override  : Option Nat
  prior     : Option Nat
  priorLink : Option Nat
  deriving DecidableEq, Repr

/-- What a FADING or PAUSED slot holds (R46), its channel set aside. `cue` none is the RELEASE marker; `endTime` is E and
`elapsed` is e; `prior` and `priorLink` stand as the slot's GO set them, absent in a slot that a RELEASE took (log 23). -/
structure Fade where
  cue       : Option Nat
  scope     : Scope
  du        : Nat
  tu        : Nat
  dd        : Nat
  td        : Nat
  endTime   : Nat
  elapsed   : Nat
  order     : Nat
  prior     : Option Nat
  priorLink : Option Nat
  deriving DecidableEq, Repr

/-- A fade slot (R46, R47). -/
inductive Slot where
  | free
  | fetching (f : Fetch)
  | fading (f : Fade)
  | paused (f : Fade)
  deriving DecidableEq, Repr

/-- The owner of an owned channel with the channel's start level S and target level T (R46, R48). -/
structure Owned where
  slot   : SlotIx
  start  : Level
  target : Level
  deriving DecidableEq, Repr

/-- The Playback Unit (R45). The channel set of a slot is the part of `owner` that names it (R48). -/
structure Playback where
  directory : List DirEntry
  lastTaken : Option Nat
  takenLink : Option Nat
  follow    : Option Follow
  slots     : Vector Slot 6
  owner     : Vector (Option Owned) 1024
  resting   : Vector Level 1024
  deriving DecidableEq, Repr

def Playback.reset : Playback where
  directory := []
  lastTaken := none
  takenLink := none
  follow := none
  slots := Vector.replicate 6 .free
  owner := Vector.replicate 1024 none
  resting := Vector.replicate 1024 0

/-! ### Table Store (chapters 1 and 6) -/

/-- A patch entry (R4). -/
structure PatchEntry where
  channel    : Chan
  proportion : Fin 101
  deriving DecidableEq, Repr

/-- How a circuit answers to its channel (R5). -/
inductive Mode where
  | dim | switch | unused
  deriving DecidableEq, Repr

/-- A circuit record (R5). -/
structure CircuitRecord where
  mode      : Mode
  curve     : Fin 8
  group     : Option GroupIx
  load      : Fin 601
  exempt    : Bool
  threshold : Word
  park      : Option Level
  deriving DecidableEq, Repr

/-- One set of tables (R7). Point Pj of curve k stands at index (k − 1) × 17 + j of `curves` (R123). -/
structure TableSet where
  prodPatch     : Vector (Option PatchEntry) 768
  prodCircuits  : Vector (Option CircuitRecord) 768
  housePatch    : Vector (Option PatchEntry) 768
  houseCircuits : Vector (Option CircuitRecord) 768
  curves        : Vector Word 119
  deriving DecidableEq, Repr

def noEntries : Vector (Option PatchEntry) 768 := Vector.replicate 768 none
def noRecords : Vector (Option CircuitRecord) 768 := Vector.replicate 768 none

/-- The default points P[k] = min(4096 × k, 65535) of each of curves 1–7 (R7, R14). -/
def defaultCurves : Vector Word 119 := tab fun i => BitVec.ofNat 16 (min (4096 * (i.val % 17)) 65535)

def TableSet.reset : TableSet := ⟨noEntries, noRecords, noEntries, noRecords, defaultCurves⟩

/-- The staging states (R121). -/
inductive StagingState where
  | clean | edited | loading
  deriving DecidableEq, Repr

/-- The Table Store (R121). `liveBank` none is NONE. -/
structure Tables where
  live     : TableSet
  staging  : TableSet
  stage    : StagingState
  liveBank : Option BankIx
  deriving DecidableEq, Repr

def Tables.reset : Tables := ⟨TableSet.reset, TableSet.reset, .clean, none⟩

/-! ### Circuit Level Unit and Lamp Check Unit (chapters 1, 7 and 9) -/

/-- The status of a phase group (R151). -/
structure GroupStatus where
  lastDemand : Nat
  limited    : Bool
  deriving DecidableEq, Repr

/-- The Circuit Level Unit (R18). -/
structure Levels where
  image  : Vector Level 768
  groups : Vector GroupStatus 18
  deriving DecidableEq, Repr

def Levels.reset : Levels := ⟨Vector.replicate 768 0, Vector.replicate 18 ⟨0, false⟩⟩

/-- The sets of a lamp check (R178). -/
inductive CheckSet where
  | patched | all
  deriving DecidableEq, Repr

/-- The modes of a lamp check (R182). -/
inductive CheckMode where
  | auto | step
  deriving DecidableEq, Repr

/-- The five parameters of a lamp check (R177). -/
structure CheckParams where
  level : Level
  dwell : Nat
  set   : CheckSet
  start : Circ
  mode  : CheckMode
  deriving DecidableEq, Repr

/-- The Lamp Check Unit (R177): ACTIVE exactly while a circuit is under check. -/
structure Lamp where
  params    : Option CheckParams
  under     : Option Circ
  remaining : Nat
  deriving DecidableEq, Repr

def Lamp.reset : Lamp := ⟨none, none, 0⟩

/-- The state ACTIVE of the Lamp Check Unit (R177). -/
def Lamp.active (l : Lamp) : Bool := l.under.isSome

/-! ### Output Ports and hold control (chapter 8) -/

/-- The link states (R160), in the order of their codes. -/
inductive LinkState where
  | off | waiting | running | stopping | held
  deriving DecidableEq, Repr

/-- The resolutions of an output link (R167). -/
inductive Resolution where
  | r8 | r12 | r16
  deriving DecidableEq, Repr

/-- Settings of an output link (R160). -/
structure LinkSettings where
  enabled    : Bool
  resolution : Resolution
  deriving DecidableEq, Repr

/-- An Output Port (R160). `frame` holds the words of the frame in flight, none when there is none. -/
structure OutPort where
  state       : LinkState
  frame       : Option (List Word)
  position    : Nat
  forced      : Bool
  current     : LinkSettings
  pending     : LinkSettings
  pendingFlag : Bool
  deriving DecidableEq, Repr

def OutPort.reset : OutPort := ⟨.waiting, none, 0, false, ⟨true, .r16⟩, ⟨true, .r16⟩, false⟩

/-- The hold control (R169): the HOLDREQ line as it stands, as last taken, and HOLDACK; true is asserted. -/
structure Hold where
  line    : Bool
  holdreq : Bool
  holdack : Bool
  deriving DecidableEq, Repr

/-! ### Memory Port (chapter 10) -/

/-- An area of the external memory: a production bank or the house region (R189). -/
inductive Area where
  | prod (b : BankIx)
  | house
  deriving DecidableEq, Repr

/-- The kinds of transaction (R193), in the order of their codes. -/
inductive TxnKind where
  | cellRead | cellWrite | recordWrite | cueFetch
  deriving DecidableEq, Repr

/-- A waiting cue fetch (R195). -/
structure FetchReq where
  slot : SlotIx
  bank : BankIx
  cell : Nat
  deriving DecidableEq, Repr

/-- A segment of a bank operation as the bank slot holds it (R195): `crc` is the CRC start value. -/
structure Segment where
  kind : TxnKind
  area : Area
  cell : Nat
  crc  : Word
  deriving DecidableEq, Repr

/-- The granted transaction of a BUSY engine (R195). `slot` names the fade slot of a fetch; none is the Bank Controller.
`clock` counts the memory clocks of the access in progress, `wait` is the wait count it began with, `low` its consecutive low
samples of RDY. -/
structure Engine where
  kind  : TxnKind
  area  : Area
  cell  : Nat
  slot  : Option SlotIx
  place : Nat
  clock : Nat
  wait  : Fin 4
  low   : Nat
  crc   : Word
  deriving DecidableEq, Repr

/-- The last fault record (R200). -/
structure FaultRecord where
  slot  : Option SlotIx
  kind  : TxnKind
  area  : Area
  cell  : Nat
  place : Nat
  deriving DecidableEq, Repr

/-- The Memory Port (R190, R195, R200) and its lines (R189). `rdy` is the level of RDY that a memory clock sampled last;
`samples` counts the samples taken and is the model's own, the argument of the free level of the next one (log 2). -/
structure MemPort where
  waitP     : Fin 4
  waitH     : Fin 4
  queue     : List FetchReq
  bankSlot  : Option Segment
  engine    : Option Engine
  lastFault : Option FaultRecord
  address   : BitVec 17
  bankLines : BitVec 2
  rdy       : Bool
  samples   : Nat
  deriving DecidableEq, Repr

/-! ### Bank Controller (chapter 6) -/

/-- The kinds of bank operation (R225), in the order of their codes. -/
inductive OpKind where
  | changeover | save | saveHouse | format | storeCue | deleteCue | readCue | startUp
  deriving DecidableEq, Repr

/-- The states of the Bank Controller (R128). -/
inductive CtlState where
  | starting | idle | busy
  deriving DecidableEq, Repr

/-- Cell 0 of a bank: its header and its 246 directory places, 492 words (R131, R226). -/
structure Cell0 where
  mark       : Word
  writeCount : BitVec 32
  dirCheck   : Word
  patchCheck : Word
  circCheck  : Word
  count      : Word
  places     : List Word
  deriving DecidableEq, Repr

/-- The operation record of the Bank Controller (R128). `record` is the copy of the record of a STORE CUE without its check
word, `cell` the cell chosen or named, `cell0` the header and directory read in segment 1, `houseChecks` the five checks of the
house header; `crc` is the final value of the last segment's CRC and the checks are those accumulated so far. -/
structure OpRecord where
  kind        : OpKind
  bank        : Option BankIx
  segment     : Nat
  port        : Option PortIx
  cue         : Nat
  record      : List Word
  cell        : Nat
  cell0       : Option Cell0
  houseChecks : List Word
  crc         : Word
  maskCheck   : Word
  patchCheck  : Word
  circCheck   : Word
  curveCheck  : Word
  deriving DecidableEq, Repr

/-- The outcome of a check test in the last header read (R225), in the order of the codes. -/
inductive CheckOutcome where
  | notTested | matched | failed
  deriving DecidableEq, Repr

/-- The last header read (R128). -/
structure LastHeader where
  bank       : BankIx
  mark       : Word
  writeCount : BitVec 32
  count      : Word
  directory  : CheckOutcome
  patch      : CheckOutcome
  circuits   : CheckOutcome
  deriving DecidableEq, Repr

/-- The Bank Controller (R128). -/
structure BankCtl where
  state      : CtlState
  op         : Option OpRecord
  buffer     : Vector Word 512
  lastHeader : Option LastHeader
  deriving DecidableEq, Repr

/-- An operation record of a kind with nothing yet read or accumulated. -/
def OpRecord.new (kind : OpKind) (bank : Option BankIx) (port : Option PortIx) : OpRecord where
  kind := kind
  bank := bank
  segment := 1
  port := port
  cue := 0
  record := []
  cell := 0
  cell0 := none
  houseChecks := []
  crc := 0xFFFF
  maskCheck := 0
  patchCheck := 0
  circCheck := 0
  curveCheck := 0

/-- The Bank Controller as a reset leaves it, before the start-up load fills the operation record (R128). -/
def BankCtl.reset : BankCtl := ⟨.starting, none, Vector.replicate 512 0, none⟩

/-! ### Management Unit (chapter 11) -/

/-- The settings of one input (R207). `lossH` none is FOREVER. -/
structure InputSettings where
  enabled    : Bool
  permit     : Bool
  autoResync : Bool
  lossN      : Nat
  lossH      : Option Nat
  lossF      : Nat
  accept     : Vector Bool 1024
  deriving DecidableEq, Repr

/-- Reasons of the last bank operation (R215), in the order of their codes (R225). -/
inductive OpReason where
  | none | ok | bankBad | full | noCue | memoryFault
  deriving DecidableEq, Repr

/-- The last bank-operation record (R215). -/
structure LastOp where
  reason : OpReason
  kind   : Option OpKind
  bank   : Option BankIx
  deriving DecidableEq, Repr

/-- Causes of a reset (R217), in the order of their codes (R225). -/
inductive ResetCause where
  | line | restart
  deriving DecidableEq, Repr

/-- A set of event flags: bit i is the i-th flag in the order of flag words A and B (R212, R224). -/
abbrev EventSet := BitVec 19

/-- The Management Unit (R207, R212, R213, R215, R217). `alertLow` says that the part drives ALERT low. -/
structure Mgmt where
  inputs    : Vector InputSettings 4
  budgets   : Vector Nat 18
  startBank : Option BankIx
  flags     : EventSet
  enables   : EventSet
  alertLow  : Bool
  lastOp    : LastOp
  cause     : ResetCause
  deriving DecidableEq, Repr

/-- The settings of input i after a reset (R207). -/
def InputSettings.reset (i : PortIx) : InputSettings :=
  ⟨true, i == 0, true, 100, none, 300, Vector.replicate 1024 true⟩

/-- The Management Unit right after a reset of the given cause (R207, R217). -/
def Mgmt.reset (cause : ResetCause) : Mgmt where
  inputs := tab InputSettings.reset
  budgets := Vector.replicate 18 0
  startBank := none
  flags := 0
  enables := 0
  alertLow := false
  lastOp := ⟨.none, none, none⟩
  cause := cause

/-! ### Timers (R18, R66, R89, R160, R182) -/

/-- 10 ms in memory clocks of 50 ns (spec/00, Times; R189). -/
def tenMs : Nat := 200000

/-- 20 ms in memory clocks of 50 ns. -/
def twentyMs : Nat := 400000

/-- The time that each timer of the part has left, in memory clocks (log 3): the 10 ms intervals of the Input Ports, the
Playback Unit and the Lamp Check Unit, the refresh timer, and the frame timers. A timer at 0 is due: its expiry is the command
that its row names. -/
structure Timers where
  ports    : Vector Nat 4
  playback : Nat
  lamp     : Nat
  refresh  : Nat
  outs     : Vector Nat 6
  deriving DecidableEq, Repr

/-- The timers start from the end of a reset (R217). -/
def Timers.reset : Timers := ⟨Vector.replicate 4 tenMs, tenMs, tenMs, twentyMs, Vector.replicate 6 twentyMs⟩

/-! ### The machine -/

/-- The whole part, its memory, and the queue of commands that wait, first in, first out. `held` says that the RESET line is
held (R217). -/
structure State where
  held     : Bool
  ports    : Vector Port 4
  playback : Playback
  tables   : Tables
  levels   : Levels
  lamp     : Lamp
  outs     : Vector OutPort 6
  hold     : Hold
  memPort  : MemPort
  bank     : BankCtl
  mgmt     : Mgmt
  timers   : Timers
  mem      : Memory
  pending  : List Instr
  deriving DecidableEq, Repr

/-- The reasons for which the part stops. The manual gives none: its faults are events and outcomes, which are effects on the
state (INVENTORY.md, Faults), so no constructor stands here and no step ends in a fault. -/
inductive Fault where
  deriving DecidableEq, Repr

/-- The reasons for which a command has no meaning. -/
inductive Refusal where
  /-- Raised by an arm of `exec` for a command that has no meaning yet, by its mnemonic in spec/opcode_table.json (safe). No arm
  raises it now. -/
  | notModelled (mnemonic : String)
  deriving DecidableEq, Repr

/-- The operation record of the start-up load as a reset fills it (R144). -/
def OpRecord.startUp : OpRecord := OpRecord.new .startUp none none

/-- The Memory Port right after a reset: the start-up load's first segment, house cell 0, is granted in that event with both
wait counts 3 (R190, R195, R201). -/
def MemPort.reset : MemPort where
  waitP := 3
  waitH := 3
  queue := []
  bankSlot := none
  engine := some ⟨.cellRead, .house, 0, none, 0, 0, 3, 0, 0xFFFF⟩
  lastFault := none
  address := 0
  bankLines := 0
  rdy := true
  samples := 0

/-- The machine right after the reset of a power-on (R217): every block at its reset values, the start-up load begun, HOLDREQ
deasserted and RDY high (DESIGN CHOICE, log 8), nothing written in the RAM (log 1), no command waiting. -/
def State.reset : State where
  held := false
  ports := Vector.replicate 4 Port.reset
  playback := Playback.reset
  tables := Tables.reset
  levels := Levels.reset
  lamp := Lamp.reset
  outs := Vector.replicate 6 OutPort.reset
  hold := ⟨false, false, false⟩
  memPort := MemPort.reset
  bank := { BankCtl.reset with op := some OpRecord.startUp }
  mgmt := Mgmt.reset .line
  timers := Timers.reset
  mem := []
  pending := []

end Sys2Proof.Machine
end

