-- ==== Sys2Proof/Machine/Flags.lean ====
section
/-! DEFINITION. The event flags, the enable set and ALERT (R212–R214): raising, clearing and enabling events, each re-deciding
the level of ALERT in the same event. -/

namespace Sys2Proof.Machine

/-- The nineteen events (R212). -/
inductive Event where
  | syncChange (p : PortIx)
  | sourceChange (p : PortIx)
  | cueComplete
  | cueFailed
  | forcedCompletion
  | budgetLimit
  | memoryFault
  | bankOpDone
  | bankOpFailed
  | checkDone
  | holdChange
  | houseBad
  | requestDropped
  deriving DecidableEq, Repr

/-- The place of an event's flag in flag words A and B (R224): A holds bits 0–15, B the rest. -/
def Event.bit : Event → Nat
  | .syncChange p => p.val
  | .sourceChange p => 4 + p.val
  | .cueComplete => 8
  | .cueFailed => 9
  | .forcedCompletion => 10
  | .budgetLimit => 11
  | .memoryFault => 12
  | .bankOpDone => 13
  | .bankOpFailed => 14
  | .checkDone => 15
  | .holdChange => 16
  | .houseBad => 17
  | .requestDropped => 18

/-- The set of one event. -/
def Event.mask (e : Event) : EventSet := BitVec.twoPow 19 e.bit

/-- The flag of an event is in a set of flags. -/
def EventSet.has (f : EventSet) (e : Event) : Bool := f.getLsbD e.bit

/-- The set that flag words A and B carry (R224). Bits 3–15 of word B are zero in the layout and are not read (R218). -/
def EventSet.ofWords (a b : Word) : EventSet := (b ++ a).truncate 19

/-- Flag word A of a set (R224). -/
def EventSet.wordA (f : EventSet) : Word := f.truncate 16

/-- Flag word B of a set (R224). -/
def EventSet.wordB (f : EventSet) : Word := (f >>> 16).truncate 16

/-- ALERT decided afresh: low while at least one flag is both set and enabled (R213). -/
def Mgmt.redecide (m : Mgmt) : Mgmt := { m with alertLow := decide (m.flags &&& m.enables ≠ 0) }

/-- An event sets its flag, and ALERT is re-decided (R212, R213). -/
def Mgmt.raise (e : Event) (m : Mgmt) : Mgmt := { m with flags := m.flags ||| e.mask }.redecide

/-- CLEAR EVENTS clears each flag named and re-decides ALERT (R214). -/
def Mgmt.clear (f : EventSet) (m : Mgmt) : Mgmt := { m with flags := m.flags &&& ~~~f }.redecide

/-- A SET of EVENT ENABLES replaces the enable set and re-decides ALERT (R213). -/
def Mgmt.enable (f : EventSet) (m : Mgmt) : Mgmt := { m with enables := f }.redecide

/-- A block raises an event (R212). -/
def State.raise (e : Event) (s : State) : State := { s with mgmt := s.mgmt.raise e }

/-- A block raises an event when a condition holds. -/
def State.raiseIf (b : Bool) (e : Event) (s : State) : State := if b then s.raise e else s

end Sys2Proof.Machine
end

