-- ==== Sys2Proof/Machine/Operands.lean ====
section
/-! DEFINITION. The encodings of chapter 12: check words, optional values, patch entries, circuit records, cue records, bank
cell 0, settings values, result codes, and the decoding of every field that a frame or the memory carries. -/

namespace Sys2Proof.Machine

/-! ### Check words (R2) -/

/-- One bit of the CRC-16 of R2, most significant bit first, polynomial x^16 + x^12 + x^5 + 1. -/
def crcBit (c : Word) : Word := if c.msb then (c <<< 1) ^^^ 0x1021#16 else c <<< 1

/-- `n` bits of the CRC. -/
def crcBits : Nat → Word → Word
  | 0, c => c
  | n + 1, c => crcBits n (crcBit c)

/-- The running value of the CRC after one more word (R2). -/
def crcWord (c w : Word) : Word := crcBits 16 (c ^^^ w)

/-- The running value of the CRC after a list of words. -/
def crcRun (c : Word) (ws : List Word) : Word := ws.foldl crcWord c

/-- The check word of a list of words: initial value FFFF hex, no final inversion (R2). -/
def checkWord (ws : List Word) : Word := crcRun 0xFFFF ws

/-- The words of a frame followed by their check word (R2, R105, R222). -/
def withCheck (ws : List Word) : List Word := ws ++ [checkWord ws]

/-- The last word of a frame is the check word of the words before it (R2, R105). -/
def checkMatches (ws : List Word) : Bool := ws.getLast? == some (checkWord ws.dropLast)

/-! ### Plain values (R218) -/

/-- A word of a number; every number the part sends fits (R1). -/
def wordOf (n : Nat) : Word := BitVec.ofNat 16 n

/-- Word `i` of a list, zero beyond its end. -/
def at' (ws : List Word) (i : Nat) : Word := ws.getD i 0

/-- Yes/no and on/off values are 0001 and 0000 hex (R218). -/
def boolWord (b : Bool) : Word := if b then 1 else 0

/-- Any other value of a yes/no word is out of range (R218). -/
def boolOf? (w : Word) : Option Bool := if w = 0 then some false else if w = 1 then some true else none

/-- An index below n, from a word counted from 0. -/
def finOf? (n : Nat) (w : Word) : Option (Fin n) := if h : w.toNat < n then some ⟨w.toNat, h⟩ else none

/-- An index below n, from a number counted from 1. -/
def numberOf? (n : Nat) (w : Word) : Option (Fin n) :=
  if h : 1 ≤ w.toNat ∧ w.toNat ≤ n then some ⟨w.toNat - 1, by omega⟩ else none

/-- An optional time: FFFF hex is absent (R218). -/
def timeOf (w : Word) : Option Nat := if w = 0xFFFF then none else some w.toNat

def timeWord : Option Nat → Word
  | none => 0xFFFF
  | some t => wordOf t

/-- An optional cue number: 0000 hex is absent (R218). -/
def cueOf (w : Word) : Option Nat := if w = 0 then none else some w.toNat

def cueWord : Option Nat → Word
  | none => 0
  | some c => wordOf c

/-- A bank or NONE: NONE is FFFF hex (R218). -/
def bankWord : Option BankIx → Word
  | none => 0xFFFF
  | some b => wordOf b.val

/-- A bank 0–3 or NONE from a word; any other word is out of range (R207). -/
def startBankOf? (w : Word) : Option (Option BankIx) :=
  if w = 0xFFFF then some none else (finOf? 4 w).map some

/-- The two words of a 32-bit value, most significant first (R218). -/
def longWords (n : BitVec 32) : List Word := [(n >>> 16).truncate 16, n.truncate 16]

/-- A 32-bit value from its two words. -/
def longOf (hi lo : Word) : BitVec 32 := hi ++ lo

/-! ### Table elements (R4, R5, R219, R220) -/

def Mode.code : Mode → Word
  | .dim => 0
  | .switch => 1
  | .unused => 2

def Mode.of? (w : Word) : Option Mode :=
  if w = 0 then some .dim else if w = 1 then some .switch else if w = 2 then some .unused else none

/-- The two words of an optional patch entry (R219); an absent entry is two zero words (R218). -/
def patchWords : Option PatchEntry → List Word
  | none => [0, 0]
  | some e => [0x8000#16 ||| wordOf (Chan.number e.channel), wordOf e.proportion.val]

/-- A patch entry from its two words: the outer none is a present entry with a field out of range (R4, R6), `some none` an
absent entry, whose other bits are not read (R219). -/
def patchOf? (w0 w1 : Word) : Option (Option PatchEntry) :=
  if w0.msb then
    match numberOf? 1024 (w0 &&& 0x7FFF), finOf? 101 w1 with
    | some c, some p => some (some ⟨c, p⟩)
    | _, _ => none
  else some none

/-- The phase-group field of a circuit record: 7F hex is NONE (R220). -/
def groupOf? (w : Word) : Option (Option GroupIx) :=
  if w = 0x7F then some none else (finOf? 18 w).map some

def groupWord : Option GroupIx → Word
  | none => 0x7F
  | some g => wordOf g.val

/-- The four words of an optional circuit record (R220). -/
def recordWords : Option CircuitRecord → List Word
  | none => [0, 0, 0, 0]
  | some r =>
    [0x8000#16 ||| (boolWord r.park.isSome <<< 14) ||| (boolWord r.exempt <<< 13) ||| (r.mode.code <<< 11)
        ||| (wordOf r.curve.val <<< 7) ||| groupWord r.group,
      wordOf r.load.val, r.threshold, r.park.getD 0]

/-- A circuit record from its four words: the outer none is a present record with a field out of range (R5, R6). The park
level is read only when bit 14 is set (R220). -/
def recordOf? (w0 w1 w2 w3 : Word) : Option (Option CircuitRecord) :=
  if w0.msb then
    match Mode.of? ((w0 >>> 11) &&& 3), finOf? 8 ((w0 >>> 7) &&& 15), groupOf? (w0 &&& 0x7F), finOf? 601 w1 with
    | some m, some c, some g, some l => some (some ⟨m, c, g, l, w0.getLsbD 13, w2, if w0.getLsbD 14 then some w3 else none⟩)
    | _, _, _, _ => none
  else some none

/-- An entry as a load from memory holds it: out of range is held absent (R6). -/
def patchOf (w0 w1 : Word) : Option PatchEntry := (patchOf? w0 w1).getD none

/-- A record as a load from memory holds it: out of range is held absent (R6). -/
def recordOf (w0 w1 w2 w3 : Word) : Option CircuitRecord := (recordOf? w0 w1 w2 w3).getD none

/-- The entries of a run of words, two a piece; none when some entry is out of range. -/
def patchRun? : List Word → Option (List (Option PatchEntry))
  | a :: b :: ws =>
    match patchOf? a b, patchRun? ws with
    | some e, some es => some (e :: es)
    | _, _ => none
  | _ => some []

/-- The records of a run of words, four a piece; none when some record is out of range. -/
def recordRun? : List Word → Option (List (Option CircuitRecord))
  | a :: b :: c :: d :: ws =>
    match recordOf? a b c d, recordRun? ws with
    | some r, some rs => some (r :: rs)
    | _, _ => none
  | _ => some []

/-! ### Cue records (R27, R29, R221) -/

/-- A valid cue record (R27, R29), its check word aside. -/
structure CueRecord where
  cue    : Nat
  scope  : Scope
  tu     : Nat
  td     : Nat
  du     : Nat
  dd     : Nat
  follow : Option Nat
  link   : Option Nat
  look   : List (Chan × Level)
  deriving DecidableEq, Repr

/-- The n look entries at the head of a list of words, each channel 1–1024 and greater than the channel number `last` of the
entry before it (R29); none when some entry is not. -/
def lookOf? : Nat → Nat → List Word → Option (List (Chan × Level))
  | 0, _, _ => some []
  | n + 1, last, c :: l :: ws =>
    match numberOf? 1024 c with
    | some h => if last < Chan.number h then (lookOf? n (Chan.number h) ws).map ((h, l) :: ·) else none
    | none => none
  | _ + 1, _, _ => none

/-- The scope field of a record (R221). -/
def scopeOf? (w : Word) : Option Scope := if w = 0 then some .full else if w = 1 then some .part else none

/-- A word that is a timing 0–60000 (R27). -/
def isTime (w : Word) : Bool := decide (w.toNat ≤ 60000)

/-- A word that is a cue number 1–9999 (R27). -/
def isCue (w : Word) : Bool := decide (1 ≤ w.toNat ∧ w.toNat ≤ 9999)

/-- The record that words in the layout of R221 hold, when it is valid by R29; the check word plays no part. -/
def CueRecord.of? (ws : List Word) : Option CueRecord :=
  if isCue (at' ws 0) && isTime (at' ws 2) && isTime (at' ws 3) && isTime (at' ws 4) && isTime (at' ws 5)
      && (at' ws 6 == 0xFFFF || isTime (at' ws 6)) && (at' ws 7 == 0 || isCue (at' ws 7))
      && decide ((at' ws 8).toNat ≤ 248) then
    match scopeOf? (at' ws 1), lookOf? (at' ws 8).toNat 0 (ws.drop 9) with
    | some sc, some look =>
      some ⟨(at' ws 0).toNat, sc, (at' ws 2).toNat, (at' ws 3).toNat, (at' ws 4).toNat, (at' ws 5).toNat,
        timeOf (at' ws 6), cueOf (at' ws 7), look⟩
    | _, _ => none
  else none

/-! ### Cell 0 of a bank (R30, R131, R226) -/

/-- The mark VALID (R226). -/
def markValid : Word := 0xA55A

/-- The mark WRITING (R226). -/
def markWriting : Word := 0x5AA5

/-- Cell 0 from its 512 words; words marked zero are not read (R218). -/
def Cell0.ofWords (ws : List Word) : Cell0 where
  mark := at' ws 0
  writeCount := longOf (at' ws 1) (at' ws 2)
  dirCheck := at' ws 3
  patchCheck := at' ws 4
  circCheck := at' ws 5
  count := at' ws 6
  places := (ws.drop 16).take 492

/-- The 512 words of cell 0; words marked zero are written zero (R218). -/
def Cell0.toWords (c : Cell0) : List Word :=
  [c.mark] ++ longWords c.writeCount ++ [c.dirCheck, c.patchCheck, c.circCheck, c.count] ++ List.replicate 9 0
    ++ c.places ++ List.replicate 4 0

/-- The CRC over the cue count and all 246 places (R30). -/
def Cell0.computedDirCheck (c : Cell0) : Word := checkWord (c.count :: c.places)

/-- The first n directory entries of a list of places, in place order. -/
def entriesOf : Nat → List Word → List DirEntry
  | n + 1, q :: i :: ws => ⟨q.toNat, i.toNat⟩ :: entriesOf n ws
  | _, _ => []

/-- The directory that a cell 0 holds, as its list of entries (R30). -/
def Cell0.entries (c : Cell0) : List DirEntry := entriesOf c.count.toNat c.places

/-- Strictly ascending cue numbers, each 1–9999 and above `last`, and every cell index 10–255 (R30). -/
def ascendingFrom : Nat → List DirEntry → Bool
  | _, [] => true
  | last, e :: es =>
    decide (last < e.cue ∧ e.cue ≤ 9999 ∧ 10 ≤ e.cell ∧ e.cell ≤ 255) && ascendingFrom e.cue es

/-- No cell index appears twice (R30). -/
def distinctCells : List DirEntry → Bool
  | [] => true
  | e :: es => !es.any (fun f => f.cell == e.cell) && distinctCells es

/-- The form of a directory is sound (R30), its count aside. -/
def soundEntries (es : List DirEntry) : Bool := ascendingFrom 0 es && distinctCells es

/-- The bank is directory-sound: its directory check matches and the directory's form is sound (R30, R132). -/
def Cell0.sound (c : Cell0) : Bool :=
  c.computedDirCheck == c.dirCheck && decide (c.count.toNat ≤ 246) && soundEntries c.entries

/-- The 492 words of a directory: its entries, then empty places 0000, 0000 (R226). -/
def placesOf (es : List DirEntry) : List Word :=
  let ws := es.flatMap fun e => [wordOf e.cue, wordOf e.cell]
  ws ++ List.replicate (492 - ws.length) 0

/-- Cell 0 with another directory, its count and its check (R39, R41). -/
def Cell0.withEntries (c : Cell0) (es : List DirEntry) : Cell0 :=
  let d := { c with count := wordOf es.length, places := placesOf es }
  { d with dirCheck := d.computedDirCheck }

/-- The directory with an entry inserted at its place in number order, or its cell changed (R39). -/
def storeEntry (e : DirEntry) : List DirEntry → List DirEntry
  | [] => [e]
  | d :: ds => if e.cue < d.cue then e :: d :: ds else if e.cue = d.cue then e :: ds else d :: storeEntry e ds

/-- The directory with a cue's entry removed and the later entries closed up (R41). -/
def removeEntry (cue : Nat) (ds : List DirEntry) : List DirEntry := ds.filter fun d => d.cue != cue

/-- The entry of a cue number. -/
def entryOf? (cue : Nat) (ds : List DirEntry) : Option DirEntry := ds.find? fun d => d.cue == cue

/-- The lowest-numbered cell of 10–255 that no entry names (R39). -/
def freeCell? (ds : List DirEntry) : Option Nat :=
  ((List.range 246).map (· + 10)).find? fun n => !ds.any fun d => d.cell == n

/-! ### Codes -/

/-- The result codes (R223). -/
def Result.code : Result → Word
  | .done => 0x0
  | .accepted => 0x1
  | .unknown => 0x2
  | .notPermitted => 0x3
  | .starting => 0x4
  | .badArgument => 0x5
  | .busy => 0x6
  | .noCue => 0x7
  | .noBank => 0x8
  | .checkActive => 0x9
  | .slotsActive => 0xA
  | .stagingEdited => 0xB
  | .bankLive => 0xC
  | .notActive => 0xD

def Resolution.bits : Resolution → Nat
  | .r8 => 8
  | .r12 => 12
  | .r16 => 16

def resolutionOf? (w : Word) : Option Resolution :=
  if w = 8 then some .r8 else if w = 12 then some .r12 else if w = 16 then some .r16 else none

/-- The request codes that chapter 12 assigns are 0001–001A hex (R224). -/
def assignedCode (w : Word) : Bool := decide (1 ≤ w.toNat ∧ w.toNat ≤ 0x1A)

/-- The tables that EDIT and READ TABLE name (R123), by their codes (R224). -/
inductive TableName where
  | prodPatch | prodCircuits | housePatch | houseCircuits | curves
  deriving DecidableEq, Repr

def TableName.of? (w : Word) : Option TableName :=
  if w = 0 then some .prodPatch else if w = 1 then some .prodCircuits else if w = 2 then some .housePatch
  else if w = 3 then some .houseCircuits else if w = 4 then some .curves else none

/-- The words of one element of a table (R224). -/
def TableName.width : TableName → Nat
  | .prodPatch | .housePatch => 2
  | .prodCircuits | .houseCircuits => 4
  | .curves => 1

/-- The first index of a table: circuits count from 1, curve points from 0 (R123). -/
def TableName.base : TableName → Nat
  | .curves => 0
  | _ => 1

/-- The number of elements of a table (R123). -/
def TableName.size : TableName → Nat
  | .curves => 119
  | _ => 768

/-- The target of a GO (R52, R224). -/
inductive GoTarget where
  | next
  | previous
  | number (n : Nat)
  | unassigned
  deriving DecidableEq, Repr

def goTargetOf (target number : Word) : GoTarget :=
  if target = 0 then .next else if target = 1 then .previous else if target = 2 then .number number.toNat else .unassigned

/-- A time that is not absent is at most 60000: a larger value is taken as 60000 (R52, R75). -/
def clampTime (n : Nat) : Nat := min n 60000

/-- The override of a GO: FFFF hex is absent, a value above 60000 is taken as 60000 (R52). -/
def overrideOf (w : Word) : Option Nat := (timeOf w).map clampTime

/-- The values of a run of words as optional values: none when some value is out of range. -/
def allSome {α : Type} : List (Option α) → Option (List α)
  | [] => some []
  | x :: xs =>
    match x, allSome xs with
    | some a, some as => some (a :: as)
    | _, _ => none

/-- A vector with a run of values written from index `first` on (R35, R84, R123). -/
def setRun {α : Type} {n : Nat} (v : Vector α n) (first : Nat) (xs : List α) : Vector α n :=
  tab fun i => if first ≤ i.val then (xs[i.val - first]?).getD v[i] else v[i]

/-- The elements of a vector from index `first` on, `count` of them at most. -/
def getRun {α : Type} {n : Nat} (v : Vector α n) (first count : Nat) : List α := (v.toList.drop first).take count

/-! ### LOSS TIMES and the other settings values (R207) -/

/-- N, H and F of an input within their ranges (R207). -/
def lossOf? (n h f : Word) : Option (Nat × Option Nat × Nat) :=
  if decide (1 ≤ n.toNat ∧ n.toNat ≤ 1000) && (h == 0xFFFF || isTime h) && isTime f then
    some (n.toNat, timeOf h, f.toNat)
  else none

/-- A budget 0–10000 (R150). -/
def budgetOf? (w : Word) : Option Nat := if w.toNat ≤ 10000 then some w.toNat else none

/-- Mask word w as sixteen accept values, the lowest channel in bit 0 (R224). -/
def maskBits (w : Word) : List Bool := (List.range 16).map fun i => w.getLsbD i

/-- Sixteen accept values as a mask word (R224). -/
def maskWord (bs : List Bool) : Word :=
  (bs.take 16).foldr (fun b w => (w <<< 1) ||| boolWord b) 0

/-- The 64 mask words of an accept mask (R227). -/
def maskWords (v : Vector Bool 1024) : List Word := (List.range 64).map fun k => maskWord (getRun v (16 * k) 16)

end Sys2Proof.Machine
end

