-- ==== Sys2Proof/Machine/Ops.lean ====
section
/-! DEFINITION. The named operations over the state that several families share: words of the external memory, one port or one
output link of the part, counters, replies and their frames, and taking an event only while the RESET line is not held. -/

namespace Sys2Proof.Machine

/-! ### The external memory (R189, R226, R227) -/

/-- The word at an address; an unlisted address reads as `unlistedWord` (log 1). -/
def Memory.read (a : Nat) : Memory → Word
  | [] => unlistedWord
  | c :: m => if c.1 = a then c.2 else Memory.read a m

/-- The memory with one word written, in canonical form. -/
def Memory.write (a : Nat) (w : Word) : Memory → Memory
  | [] => if w = unlistedWord then [] else [(a, w)]
  | c :: m =>
    if a < c.1 then (if w = unlistedWord then c :: m else (a, w) :: c :: m)
    else if a = c.1 then (if w = unlistedWord then m else (a, w) :: m)
    else c :: Memory.write a w m

/-- `n` words from an address on. -/
def Memory.readRun (m : Memory) (a : Nat) : Nat → List Word
  | 0 => []
  | n + 1 => Memory.read a m :: Memory.readRun m (a + 1) n

/-- Words written in ascending address order from an address on (R131). -/
def Memory.writeRun (a : Nat) : List Word → Memory → Memory
  | [], m => m
  | w :: ws, m => Memory.writeRun (a + 1) ws (Memory.write a w m)

/-- The first word address of an area: the four banks of 256 cells, then the house region (R189). -/
def Area.base : Area → Nat
  | .prod b => 131072 * b.val
  | .house => 131072 * 4

/-- The word address of a place of a cell of an area (R189). -/
def wordAddress (area : Area) (cell place : Nat) : Nat := area.base + 512 * cell + place

/-! ### Single units of the part -/

/-- One Input Port changed. -/
def State.modPort (p : PortIx) (f : Port → Port) (s : State) : State :=
  { s with ports := s.ports.set p (f s.ports[p]) }

/-- Every Input Port changed. -/
def State.modPorts (f : PortIx → Port → Port) (s : State) : State :=
  { s with ports := tab fun p => f p s.ports[p] }

/-- The settings of one input changed. -/
def State.modInput (p : PortIx) (f : InputSettings → InputSettings) (s : State) : State :=
  { s with mgmt := { s.mgmt with inputs := s.mgmt.inputs.set p (f s.mgmt.inputs[p]) } }

/-- One Output Port changed. -/
def State.modOut (k : LinkIx) (f : OutPort → OutPort) (s : State) : State :=
  { s with outs := s.outs.set k (f s.outs[k]) }

/-- Every Output Port changed. -/
def State.modOuts (f : LinkIx → OutPort → OutPort) (s : State) : State :=
  { s with outs := tab fun k => f k s.outs[k] }

/-- An event taken by the part; while the RESET line is held no block takes one (R217). -/
def State.whenRunning (f : State → State) (s : State) : State := if s.held then s else f s

/-- A counter advanced by one, stopping at 4,294,967,295 (spec/00, Counters; R115). -/
def countUp (n : BitVec 32) : BitVec 32 := if n = BitVec.allOnes 32 then n else n + 1

/-! ### Replies (R117, R118, R222) -/

/-- The words of a reply frame with its check word, formed when the frame starts (R118, R222). -/
def replyFrame (seq : Word) (r : Reply) : List Word :=
  withCheck ([0x0003#16, seq, r.request, r.code, r.result.code, wordOf r.data.length] ++ r.data)

/-- An IDLE transmitter whose queue holds a reply begins to send the oldest at once (R118). -/
def Port.startReply (q : Port) : Port :=
  match q.sending, q.replies with
  | none, r :: _ => { q with sending := some (replyFrame q.replySeq r) }
  | _, _ => q

/-- A reply joins the queue (R117), and its frame starts in the same event when the transmitter is IDLE (R118). -/
def Port.enqueue (r : Reply) (q : Port) : Port := Port.startReply { q with replies := q.replies ++ [r] }

/-! ### Timers (spec/00, Times) -/

/-- One memory clock of every timer: a timer counts down to 0, where it is due (log 3). -/
def Timers.tick (t : Timers) : Timers where
  ports := t.ports.map (· - 1)
  playback := t.playback - 1
  lamp := t.lamp - 1
  refresh := t.refresh - 1
  outs := t.outs.map (· - 1)

/-- The interval of an Input Port starts again at its expiry (R89). -/
def State.restartPort (p : PortIx) (s : State) : State :=
  { s with timers := { s.timers with ports := s.timers.ports.set p tenMs } }

/-- The interval of the Playback Unit starts again at its expiry (R66). -/
def State.restartPlayback (s : State) : State := { s with timers := { s.timers with playback := tenMs } }

/-- The interval of the Lamp Check Unit starts again at its expiry (R182). -/
def State.restartLamp (s : State) : State := { s with timers := { s.timers with lamp := tenMs } }

/-- The refresh timer starts again at its expiry (R19). -/
def State.restartRefresh (s : State) : State := { s with timers := { s.timers with refresh := twentyMs } }

/-- The frame timer of a link starts again at its expiry (R161). -/
def State.restartFrame (k : LinkIx) (s : State) : State :=
  { s with timers := { s.timers with outs := s.timers.outs.set k twentyMs } }

/-! ### Operations in progress -/

/-- The kind of the bank operation in progress. -/
def State.opKind (s : State) : Option OpKind := s.bank.op.map OpRecord.kind

/-- The Bank Controller's operation in progress is a CHANGEOVER (R53, R75, R179). -/
def State.inChangeover (s : State) : Bool := s.opKind == some .changeover

/-- A fade slot is FREE. -/
def Slot.isFree : Slot → Bool
  | .free => true
  | _ => false

/-- A fade slot is FETCHING. -/
def Slot.isFetching : Slot → Bool
  | .fetching _ => true
  | _ => false

/-- The fade of a FADING or PAUSED slot. -/
def Slot.fade? : Slot → Option Fade
  | .fading f => some f
  | .paused f => some f
  | _ => none

/-- Every fade slot is FREE (R133, R179). -/
def Playback.allFree (pb : Playback) : Bool := pb.slots.toList.all Slot.isFree

end Sys2Proof.Machine
end

