-- ==== Sys2Proof/Machine/CellForms.lean ====
section
/-! DEFINITION. The segments of each bank operation and the words of every cell the part writes (chapter 6, R193, R199, R226,
R227), and the tables, masks, curves and settings read back from the words of a loaded cell. -/

namespace Sys2Proof.Machine

/-! ### Cells of tables (R226, R227) -/

/-- Cell j of a patch area: circuits 256j + 1 to 256j + 256 (R226). -/
def patchCell (v : Vector (Option PatchEntry) 768) (j : Nat) : List Word := (getRun v (256 * j) 256).flatMap patchWords

/-- Cell j of a circuit-table area: circuits 128j + 1 to 128j + 128 (R226). -/
def circuitCell (v : Vector (Option CircuitRecord) 768) (j : Nat) : List Word :=
  (getRun v (128 * j) 128).flatMap recordWords

/-- House cell 11: the points of curves 1–7, later words zero (R227). -/
def curveCell (v : Vector Word 119) : List Word := v.toList ++ List.replicate 393 0

/-- House cell 1: the accept masks, input i in words 64i to 64i + 63, later words zero (R227). -/
def maskCell (inputs : Vector InputSettings 4) : List Word :=
  (inputs.toList.flatMap fun i => maskWords i.accept) ++ List.replicate 256 0

/-- A patch with cell j of its area loaded; an entry out of range is held absent (R6, R135). -/
def loadPatchCell (v : Vector (Option PatchEntry) 768) (j : Nat) (ws : List Word) : Vector (Option PatchEntry) 768 :=
  tab fun c =>
    if c.val / 256 = j then patchOf (at' ws (2 * (c.val % 256))) (at' ws (2 * (c.val % 256) + 1)) else v[c]

/-- A circuit table with cell j of its area loaded; a record out of range is held absent (R6, R135). -/
def loadCircuitCell (v : Vector (Option CircuitRecord) 768) (j : Nat) (ws : List Word) :
    Vector (Option CircuitRecord) 768 :=
  tab fun c =>
    let i := 4 * (c.val % 128)
    if c.val / 128 = j then recordOf (at' ws i) (at' ws (i + 1)) (at' ws (i + 2)) (at' ws (i + 3)) else v[c]

/-- Curves 1–7 from the words of house cell 11 (R227). -/
def curvesOf (ws : List Word) : Vector Word 119 := tab fun i => at' ws i.val

/-- The accept mask of input p from the words of house cell 1 (R227). -/
def acceptOf (ws : List Word) (p : PortIx) : Vector Bool 1024 :=
  tab fun c => (at' ws (64 * p.val + c.val / 16)).getLsbD (c.val % 16)

/-! ### The settings record (R146, R227) -/

/-- The six words of an input in the settings record (R227). -/
def inputWords (i : InputSettings) : List Word :=
  [boolWord i.enabled, boolWord i.permit, boolWord i.autoResync, wordOf i.lossN, timeWord i.lossH, wordOf i.lossF]

/-- The two words of an output link in the settings record (R227). -/
def linkWords (l : LinkSettings) : List Word := [boolWord l.enabled, wordOf l.resolution.bits]

/-- The 55 words of the settings record, words 8–62 of house cell 0, from the settings now held (R142, R227). The setting
OUTPUT LINK is a port's pending settings (log 12). -/
def settingsWords (s : State) : List Word :=
  s.mgmt.inputs.toList.flatMap inputWords ++ (s.outs.toList.flatMap fun o => linkWords o.pending)
    ++ s.mgmt.budgets.toList.map wordOf ++ [bankWord s.mgmt.startBank]

/-- The stored settings of one input (R227). -/
structure StoredInput where
  enabled    : Bool
  permit     : Bool
  autoResync : Bool
  lossN      : Nat
  lossH      : Option Nat
  lossF      : Nat
  deriving DecidableEq, Repr

/-- The settings that a sound settings record holds (R146). -/
structure StoredSettings where
  inputs    : List StoredInput
  links     : List LinkSettings
  budgets   : List Nat
  startBank : Option BankIx
  deriving DecidableEq, Repr

/-- The settings of input i in the 55 words of a settings record (R227). -/
def storedInput? (ws : List Word) (i : Nat) : Option StoredInput :=
  match boolOf? (at' ws (6 * i)), boolOf? (at' ws (6 * i + 1)), boolOf? (at' ws (6 * i + 2)),
      lossOf? (at' ws (6 * i + 3)) (at' ws (6 * i + 4)) (at' ws (6 * i + 5)) with
  | some e, some p, some a, some (n, h, f) => some ⟨e, p, a, n, h, f⟩
  | _, _, _, _ => none

/-- The settings of output link k in the 55 words of a settings record (R227). -/
def storedLink? (ws : List Word) (k : Nat) : Option LinkSettings :=
  match boolOf? (at' ws (24 + 2 * k)), resolutionOf? (at' ws (25 + 2 * k)) with
  | some e, some r => some ⟨e, r⟩
  | _, _ => none

/-- The settings record is sound when every item lies within its range as SET accepts it and at least one input is both
enabled and manage-permitted (R146). -/
def StoredSettings.of? (ws : List Word) : Option StoredSettings :=
  match allSome ((List.range 4).map (storedInput? ws)), allSome ((List.range 6).map (storedLink? ws)),
      allSome ((List.range 18).map fun g => budgetOf? (at' ws (36 + g))), startBankOf? (at' ws 54) with
  | some is, some ls, some bs, some b => if is.any (fun i => i.enabled && i.permit) then some ⟨is, ls, bs, b⟩ else none
  | _, _, _, _ => none

/-! ### Cell 0 as each operation writes it -/

/-- Cell 0 of an empty bank: write count 0, cue count 0, every place empty, the given checks (R141). -/
def emptyCell0 (mark patch circ : Word) : Cell0 := Cell0.withEntries ⟨mark, 0, 0, patch, circ, 0, []⟩ []

/-- The patch check of an empty production patch, 1536 zero words (R141, R226). -/
def emptyPatchCheck : Word := checkWord (List.replicate 1536 0)

/-- The circuit check of an empty production circuit table, 3072 zero words (R141, R226). -/
def emptyCircuitCheck : Word := checkWord (List.replicate 3072 0)

/-- The header and directory kept from segment 1. -/
def OpRecord.header (op : OpRecord) : Cell0 := op.cell0.getD (emptyCell0 0 0 0)

/-- The directory that a STORE CUE or DELETE CUE writes (R39, R41). -/
def OpRecord.newEntries (op : OpRecord) : List DirEntry :=
  match op.kind with
  | .storeCue => storeEntry ⟨op.cue, op.cell⟩ op.header.entries
  | .deleteCue => removeEntry op.cue op.header.entries
  | _ => op.header.entries

/-- The words of the cell that a cell-write segment writes, formed at its grant from the live tables, the settings and the
operation record (R39, R41, R130, R139–R142). -/
def State.formCell (s : State) (op : OpRecord) : List Word :=
  let t := s.tables.live
  match op.kind with
  | .save =>
    if op.segment = 2 then Cell0.toWords { op.header with mark := markWriting }
    else if op.segment ≤ 5 then patchCell t.prodPatch (op.segment - 3)
    else if op.segment ≤ 11 then circuitCell t.prodCircuits (op.segment - 6)
    else Cell0.toWords { op.header with
      mark := markValid, writeCount := countUp op.header.writeCount
      patchCheck := op.patchCheck, circCheck := op.circCheck }
  | .format =>
    if op.segment = 1 then (emptyCell0 markWriting emptyPatchCheck emptyCircuitCheck).toWords
    else if op.segment ≤ 10 then List.replicate 512 0
    else (emptyCell0 markValid op.patchCheck op.circCheck).toWords
  | .saveHouse =>
    if op.segment = 1 then maskCell s.mgmt.inputs
    else if op.segment ≤ 4 then patchCell t.housePatch (op.segment - 2)
    else if op.segment ≤ 10 then circuitCell t.houseCircuits (op.segment - 5)
    else if op.segment = 11 then curveCell t.curves
    else
      let rec55 := settingsWords s
      [checkWord rec55, op.maskCheck, op.patchCheck, op.circCheck, op.curveCheck] ++ List.replicate 3 0 ++ rec55
        ++ List.replicate 449 0
  | .storeCue => Cell0.toWords { op.header.withEntries op.newEntries with mark := markValid }
  | _ => (op.header.withEntries op.newEntries).toWords

/-! ### The segments of each operation -/

/-- The area that a bank operation's segments name (R193). -/
def OpRecord.area (op : OpRecord) : Area :=
  match op.bank with
  | some b => .prod b
  | none => .house

/-- The segment that an operation offers at its segment index (R39, R41, R42, R134, R135, R139, R141, R142, R145), with the CRC
start value: FFFF hex for the first cell of an area, else the final value of the area's previous cell (R199). -/
def OpRecord.offer (op : OpRecord) : Segment :=
  let seg (kind : TxnKind) (cell : Nat) (first : Bool) : Segment := ⟨kind, op.area, cell, if first then 0xFFFF else op.crc⟩
  let n := op.segment
  match op.kind with
  | .changeover => seg .cellRead (n - 1) (n == 1 || n == 2 || n == 5)
  | .save =>
    if n = 1 then seg .cellRead 0 true
    else if n = 2 ∨ 12 ≤ n then seg .cellWrite 0 true
    else seg .cellWrite (n - 2) (n == 3 || n == 6)
  | .format => if n = 1 ∨ 11 ≤ n then seg .cellWrite 0 true else seg .cellWrite (n - 1) (n == 2 || n == 5)
  | .saveHouse => if 12 ≤ n then seg .cellWrite 0 true else seg .cellWrite n (n == 1 || n == 2 || n == 5 || n == 11)
  | .storeCue =>
    if n = 1 then seg .cellRead 0 true else if n = 2 then seg .recordWrite op.cell true else seg .cellWrite 0 true
  | .deleteCue => if n = 1 then seg .cellRead 0 true else seg .cellWrite 0 true
  | .readCue => if n = 1 then seg .cellRead 0 true else seg .cellRead op.cell true
  | .startUp => seg .cellRead (n - 1) (n == 1 || n == 2 || n == 3 || n == 6 || n == 12)

end Sys2Proof.Machine
end

