-- ==== Sys2Proof/Machine/MemoryPort.lean ====
section
/-! DEFINITION. The Memory Port (chapter 10): the accesses of a transaction, the arbiter and its grants, the completion of a
transaction, and the cut of one by a fault or a reset. -/

namespace Sys2Proof.Machine

/-- A transaction that writes the memory (R193). -/
def TxnKind.writes : TxnKind → Bool
  | .cellWrite | .recordWrite => true
  | .cellRead | .cueFetch => false

/-- The words that pass in a transaction, from place 0 up (R193, R194): the memory's for a read, the cell buffer's or the
operation record's for a write, a record followed by the check word the CRC unit supplies (R199). A fetch reads the nine header
words, and the look and check word only for a look count of 248 or less. -/
def State.txnWords (s : State) (e : Engine) : List Word :=
  match e.kind with
  | .cellRead => Memory.readRun s.mem (wordAddress e.area e.cell 0) 512
  | .cellWrite => s.bank.buffer.toList
  | .recordWrite =>
    let r := (s.bank.op.map OpRecord.record).getD []
    r ++ [crcRun 0xFFFF r]
  | .cueFetch =>
    let a := wordAddress e.area e.cell 0
    let n := (Memory.read (a + 8) s.mem).toNat
    Memory.readRun s.mem a (if 248 < n then 9 else 10 + 2 * n)

/-- How many words of a transaction its CRC covers (R199): all of a cell, all but the check word of a record, the nine words
of a fetch with a look count above 248. -/
def coveredWords (kind : TxnKind) (length : Nat) : Nat :=
  match kind with
  | .cellRead | .cellWrite => length
  | .recordWrite => length - 1
  | .cueFetch => if length = 9 then 9 else length - 1

/-- The wait count of the select line of an area (R190). -/
def MemPort.waitOf (m : MemPort) : Area → Fin 4
  | .prod _ => m.waitP
  | .house => m.waitH

/-- The address and bank lines of an access (R189). -/
def MemPort.drive (m : MemPort) (area : Area) (cell place : Nat) : MemPort :=
  { m with
    address := BitVec.ofNat 17 (512 * cell + place)
    bankLines := match area with
      | .prod b => BitVec.ofNat 2 b.val
      | .house => 0 }

/-- SEL-P asserted (R189). -/
def MemPort.selP (m : MemPort) : Bool :=
  match m.engine with
  | some e => e.area != .house
  | none => false

/-- SEL-H asserted (R189). -/
def MemPort.selH (m : MemPort) : Bool :=
  match m.engine with
  | some e => e.area == .house
  | none => false

/-- The read strobe active (R189, R191). -/
def MemPort.readStrobe (m : MemPort) : Bool :=
  match m.engine with
  | some e => !e.kind.writes
  | none => false

/-- The write strobe active (R189, R191). -/
def MemPort.writeStrobe (m : MemPort) : Bool :=
  match m.engine with
  | some e => e.kind.writes
  | none => false

/-- The word that the part drives on the data lines: that of a write access in progress. In a read access, between transactions
and in a reset it drives none, and the lines are high-impedance (R189, R191, R201). -/
def State.dataDrive (s : State) : Option Word :=
  match s.memPort.engine with
  | some e => if e.kind.writes then some (at' (s.txnWords e) e.place) else none
  | none => none

/-! ### Accesses (R191) -/

/-- One access of a granted transaction ends normally and the next begins, when another follows: a write leaves its word with
the memory, the covered word updates the running CRC, the next access reads the wait count of its select line (R190, R191,
R199). The end of the last access is the completion of the transaction. -/
def State.access (s : State) : State :=
  match s.memPort.engine with
  | none => s
  | some e =>
    let ws := s.txnWords e
    if e.place + 1 < ws.length then
      let w := at' ws e.place
      { s with
        mem := if e.kind.writes then Memory.write (wordAddress e.area e.cell e.place) w s.mem else s.mem
        memPort := { s.memPort.drive e.area e.cell (e.place + 1) with
          engine := some { e with
            place := e.place + 1
            clock := 0
            wait := s.memPort.waitOf e.area
            low := 0
            crc := if e.place < coveredWords e.kind ws.length then crcWord e.crc w else e.crc } } }
    else s

/-- `n` accesses more. -/
def State.accesses : Nat → State → State
  | 0, s => s
  | n + 1, s => State.accesses n s.access

/-! ### The arbiter (R195, R196) -/

/-- A transaction is taken by the engine and its first access begins (R191, R196). -/
def MemPort.start (m : MemPort) (kind : TxnKind) (area : Area) (cell : Nat) (slot : Option SlotIx) (crc : Word) : MemPort :=
  { m.drive area cell 0 with engine := some ⟨kind, area, cell, slot, 0, 0, m.waitOf area, 0, crc⟩ }

/-- The cell buffer from a list of words. -/
def bufferOf (ws : List Word) : Vector Word 512 := tab fun i => at' ws i.val

/-- The arbiter grants when the engine is IDLE and something waits: the head of the fetch queue, else the segment in the bank
slot (R196). The words of a cell write are formed in the cell buffer at its grant (R130). -/
def State.grant (s : State) : State :=
  match s.memPort.engine, s.memPort.queue, s.memPort.bankSlot with
  | none, f :: fs, _ =>
    { s with memPort := { s.memPort with queue := fs }.start .cueFetch (.prod f.bank) f.cell (some f.slot) 0xFFFF }
  | none, [], some g =>
    let memPort := { s.memPort with bankSlot := none }.start g.kind g.area g.cell none g.crc
    match g.kind, s.bank.op with
    | .cellWrite, some op => { s with memPort := memPort, bank := { s.bank with buffer := bufferOf (s.formCell op) } }
    | _, _ => { s with memPort := memPort }
  | _, _, _ => s

/-- A fetch joins the tail of the fetch queue, and is granted in the same event when the engine is IDLE (R195, R196). -/
def State.joinFetch (f : FetchReq) (s : State) : State :=
  State.grant { s with memPort := { s.memPort with queue := s.memPort.queue ++ [f] } }

/-- The Bank Controller hands over the segment of an operation record, which stands as the operation in progress (R130, R195). -/
def State.handOver (op : OpRecord) (s : State) : State :=
  { s with
    bank := { s.bank with op := some op }
    memPort := { s.memPort with bankSlot := some op.offer } }

/-- An operation is accepted: the record is filled, the Bank Controller goes BUSY and the first segment is handed to the
Memory Port (R129). -/
def State.beginOp (op : OpRecord) (s : State) : State :=
  (State.handOver op { s with bank := { s.bank with state := .busy } }).grant

/-! ### Completion and cut (R197, R192, R200, R201) -/

/-- What the engine hands over at a completion: the words that passed and the final CRC value (R197). -/
structure Handed where
  words : List Word
  crc   : Word
  deriving DecidableEq, Repr

/-- The outcome of the transaction in progress (R197, R199). -/
def State.handed (s : State) (e : Engine) : Handed :=
  let ws := s.txnWords e
  ⟨ws, crcRun e.crc ((ws.take (coveredWords e.kind ws.length)).drop e.place)⟩

/-- The transaction in progress performs its remaining accesses and the engine is IDLE (R197). The address lines keep the last
access (R189). -/
def State.finish (s : State) (e : Engine) : State :=
  let ws := s.txnWords e
  { s with
    mem := if e.kind.writes then Memory.writeRun (wordAddress e.area e.cell e.place) (ws.drop e.place) s.mem else s.mem
    memPort := { s.memPort.drive e.area e.cell (ws.length - 1) with engine := none } }

/-- The transaction in progress is cut in one access (R192, R201): the earlier words of a write are written, the word of the
cut access holds its old value or its new one, no later word is written; the engine stays as it stood at the cut access. -/
def State.cutAt (cut : Cut) (s : State) : State :=
  let s := s.accesses cut.accesses
  match s.memPort.engine with
  | none => s
  | some e =>
    if e.kind.writes && cut.landed then
      { s with mem := Memory.write (wordAddress e.area e.cell e.place) (at' (s.txnWords e) e.place) s.mem }
    else s

end Sys2Proof.Machine
end

