-- ==== Sys2Proof/Machine/Playback.lean ====
section
/-! DEFINITION. The Playback Unit (chapter 3): fade arithmetic, completion, forced completion, the claim, the resolution and
acceptance of a GO, RELEASE, pause and resume, the interval, and the completion or failure of a cue fetch. -/

namespace Sys2Proof.Machine

/-! ### Fade arithmetic (R50, R51) -/

/-- The level between S and T of a channel with delay d and time t at elapsed time e (R51). -/
def fadeBetween (s t : Level) (d time e : Nat) : Level :=
  if e < d then s
  else if d + time ≤ e then t
  else BitVec.ofInt 16 ((s.toNat : Int) + (((t.toNat : Int) - (s.toNat : Int)) * ((e - d : Nat) : Int)).tdiv (time : Int))

/-- The level that a FADING or PAUSED slot gives an owned channel (R50, R51): the up pair for T > S, the down pair for T < S,
T itself for T = S. -/
def Fade.level (f : Fade) (s t : Level) : Level :=
  if s < t then fadeBetween s t f.du f.tu f.elapsed
  else if t < s then fadeBetween s t f.dd f.td f.elapsed
  else t

/-- The playback level of a channel (R48). -/
def Playback.level (pb : Playback) (c : Chan) : Level :=
  match pb.owner[c] with
  | none => pb.resting[c]
  | some o =>
    match pb.slots[o.slot].fade? with
    | some f => f.level o.start o.target
    | none => pb.resting[c]

/-! ### Slots and their order (R47, R49) -/

/-- The start order of a FADING or PAUSED slot (R49). -/
def Slot.order? (s : Slot) : Option Nat := s.fade?.map Fade.order

/-- A slot with its start order changed. -/
def Slot.mapOrder (g : Nat → Nat) : Slot → Slot
  | .fading f => .fading { f with order := g f.order }
  | .paused f => .paused { f with order := g f.order }
  | s => s

/-- The slots among a set of FADING and PAUSED ones become FREE, and the start orders of the others close up (R49). -/
def Playback.freeSlots (pb : Playback) (p : SlotIx → Bool) : Playback :=
  let gone := (List.finRange 6).filterMap fun n => if p n then pb.slots[n].order? else none
  { pb with
    slots := tab fun n =>
      if p n then .free else pb.slots[n].mapOrder fun o => o - (gone.filter fun g => decide (g < o)).length }

/-- The channels of a set of slots take their targets as resting levels, and the map names no slot for them (R56, R67). -/
def Playback.restChannels (pb : Playback) (p : SlotIx → Bool) : Playback :=
  { pb with
    resting := tab fun c =>
      match pb.owner[c] with
      | some o => if p o.slot then o.target else pb.resting[c]
      | none => pb.resting[c]
    owner := tab fun c =>
      match pb.owner[c] with
      | some o => if p o.slot then none else some o
      | none => none }

/-- A set of slots completes: its channels rest at their targets and it becomes FREE (R56, R67). -/
def Playback.complete (pb : Playback) (p : SlotIx → Bool) : Playback := (pb.restChannels p).freeSlots p

/-- The FADING or PAUSED slot whose start order is 1 (R56). -/
def Playback.oldest? (pb : Playback) : Option SlotIx :=
  (List.finRange 6).find? fun n => pb.slots[n].order? == some 1

/-- The lowest-numbered FREE slot (R55). -/
def Playback.lowestFree? (pb : Playback) : Option SlotIx := (List.finRange 6).find? fun n => pb.slots[n].isFree

/-- If no slot is FREE, the oldest FADING or PAUSED slot is force-completed and FORCED-COMPLETION is raised (R55, R56). -/
def State.makeRoom (s : State) : State :=
  match s.playback.lowestFree?, s.playback.oldest? with
  | none, some n => State.raise .forcedCompletion { s with playback := s.playback.complete (· == n) }
  | _, _ => s

/-! ### The claim (R61–R64) -/

/-- What a claim brings: the fade's cue, scope and four effective timings, and the look (R50, R61). -/
structure Claim where
  cue   : Option Nat
  scope : Scope
  du    : Nat
  tu    : Nat
  dd    : Nat
  td    : Nat
  look  : List (Chan × Level)
  deriving DecidableEq, Repr

/-- The level of a channel in the look. -/
def Claim.lookLevel? (k : Claim) (c : Chan) : Option Level := (k.look.find? fun x => x.1 == c).map (·.2)

/-- The end time E (R50). -/
def Claim.endTime (k : Claim) : Nat := max (k.du + k.tu) (k.dd + k.td)

/-- A channel is claimed, decided on the playback state before the claim (R61). -/
def Playback.claims (pb : Playback) (k : Claim) (c : Chan) : Bool :=
  (k.lookLevel? c).isSome || (k.scope == .full && (decide (0 < pb.level c) || pb.owner[c].isSome))

/-- The ownership map after the claim by slot n: each claimed channel starts at its playback level and goes to its level in
the look, or 0 (R61, R62). -/
def Playback.ownerAfter (pb : Playback) (n : SlotIx) (k : Claim) : Vector (Option Owned) 1024 :=
  tab fun c => if pb.claims k c then some ⟨n, pb.level c, (k.lookLevel? c).getD 0⟩ else pb.owner[c]

/-- An ownership map names a slot for some channel. -/
def ownsSome (owner : Vector (Option Owned) 1024) (n : SlotIx) : Bool :=
  owner.toList.any fun o => o.map Owned.slot == some n

/-- How many slots are FADING or PAUSED (R49). -/
def Playback.activeCount (pb : Playback) : Nat := (pb.slots.toList.filter fun s => s.fade?.isSome).length

/-- The claim up to the end of R62: ownership moves, and every other FADING or PAUSED slot left with no channel is freed. -/
def Playback.takeChannels (pb : Playback) (n : SlotIx) (k : Claim) : Playback :=
  let owner := pb.ownerAfter n k
  Playback.freeSlots { pb with owner := owner } fun m => m != n && pb.slots[m].fade?.isSome && !ownsSome owner m

/-- The prior last-taken and the prior taken link of a slot, as its GO set them (R46); absent in a FREE slot. -/
def Slot.priors : Slot → Option Nat × Option Nat
  | .fetching f => (f.prior, f.priorLink)
  | .fading f | .paused f => (f.prior, f.priorLink)
  | .free => (none, none)

/-- The claim of slot n (R61–R63): the slot completes at once when E is 0, else it is FADING with the last start order. -/
def Playback.claim (pb : Playback) (n : SlotIx) (k : Claim) : Playback :=
  let q := pb.takeChannels n k
  if k.endTime = 0 then
    let r := q.restChannels (· == n)
    { r with slots := r.slots.set n .free }
  else
    let f : Fade := ⟨k.cue, k.scope, k.du, k.tu, k.dd, k.td, k.endTime, 0,
      Playback.activeCount { q with slots := q.slots.set n .free } + 1, pb.slots[n].priors.1, pb.slots[n].priors.2⟩
    { q with slots := q.slots.set n (.fading f) }

/-- The claim by slot n in the machine; a claim with E = 0 raises CUE-COMPLETE (R63). -/
def State.claim (n : SlotIx) (k : Claim) (s : State) : State :=
  State.raiseIf (k.endTime == 0) .cueComplete { s with playback := s.playback.claim n k }

/-- The claim that a fetched record makes, with its GO's override when one was given (R50). -/
def CueRecord.claim (r : CueRecord) : Option Nat → Claim
  | none => ⟨some r.cue, r.scope, r.du, r.tu, r.dd, r.td, r.look⟩
  | some t => ⟨some r.cue, r.scope, 0, t, 0, t, r.look⟩

/-- The link and the follow of a claimed record are taken up when last-taken still equals its cue number (R64). -/
def Playback.takeUp (pb : Playback) (r : CueRecord) : Playback :=
  if pb.lastTaken = some r.cue then
    { pb with
      takenLink := r.link
      follow := match r.follow with
        | some t => some ⟨t, false⟩
        | none => pb.follow }
  else pb

/-! ### GO (R33, R34, R53–R55) -/

/-- The target of a GO NEXT (R33). -/
def Playback.next? (pb : Playback) : Option DirEntry :=
  match pb.lastTaken with
  | none => pb.directory.head?
  | some n =>
    match pb.takenLink.bind fun l => entryOf? l pb.directory with
    | some e => some e
    | none => pb.directory.find? fun e => decide (n < e.cue)

/-- The target of a GO PREVIOUS (R34). -/
def Playback.previous? (pb : Playback) : Option DirEntry :=
  pb.lastTaken.bind fun n => (pb.directory.filter fun e => decide (e.cue < n)).getLast?

/-- A GO target resolved against the live directory (R33, R34, R52). -/
def Playback.resolve (pb : Playback) : GoTarget → Option DirEntry
  | .next => pb.next?
  | .previous => pb.previous?
  | .number n => entryOf? n pb.directory
  | .unassigned => none

/-- Checks 3 to 7 of R53, in order: the reply of the first that fails, or the live bank and the entry taken. -/
def State.goCheck (s : State) (t : GoTarget) : Except Result (BankIx × DirEntry) :=
  if s.inChangeover then .error .busy
  else if s.lamp.active then .error .checkActive
  else
    match s.tables.liveBank, s.playback.resolve t with
    | none, _ => .error .noBank
    | some _, none => .error .noCue
    | some b, some e => if s.playback.slots.toList.all Slot.isFetching then .error .busy else .ok (b, e)

/-- Steps 2 to 4 of an accepted GO in the Playback Unit (R55). -/
def Playback.take (pb : Playback) (n : SlotIx) (e : DirEntry) (override : Option Nat) : Playback :=
  { pb with
    slots := pb.slots.set n (.fetching ⟨e.cue, e.cell, override, pb.lastTaken, pb.takenLink⟩)
    lastTaken := some e.cue
    takenLink := none
    follow := none }

/-- The effects of an accepted GO, steps 1 to 5 of R55. -/
def State.acceptGo (b : BankIx) (e : DirEntry) (override : Option Nat) (s : State) : State :=
  let s := s.makeRoom
  match s.playback.lowestFree? with
  | some n => State.joinFetch ⟨n, b, e.cell⟩ { s with playback := s.playback.take n e override }
  | none => s

/-- A firing follow: it becomes absent and makes an internal GO NEXT, tested by checks 3 to 7 of R53 (R74). -/
def State.fireFollow (s : State) : State :=
  let s := { s with playback := { s.playback with follow := none } }
  match s.goCheck .next with
  | .ok (b, e) => s.acceptGo b e none
  | .error _ => s.raise .cueFailed

/-! ### RELEASE, pause and resume (R69–R72, R76) -/

/-- The claim of a RELEASE over time t (R76). -/
def releaseClaim (t : Nat) : Claim := ⟨none, .full, 0, t, 0, t, []⟩

/-- The effects of an accepted RELEASE (R76). -/
def State.release (t : Nat) (s : State) : State :=
  let s := s.makeRoom
  match s.playback.lowestFree? with
  | some n =>
    let s := s.claim n (releaseClaim t)
    { s with playback := { s.playback with lastTaken := none, takenLink := none, follow := none } }
  | none => s

/-- A FADING slot PAUSED; any other slot as it is (R69). -/
def Slot.pause : Slot → Slot
  | .fading f => .paused f
  | s => s

/-- A PAUSED slot FADING; any other slot as it is (R71). -/
def Slot.resume : Slot → Slot
  | .paused f => .fading f
  | s => s

/-- Every slot changed. -/
def Playback.mapSlots (pb : Playback) (g : Slot → Slot) : Playback := { pb with slots := tab fun n => g pb.slots[n] }

/-- The paused flag of a pending follow set or cleared (R70, R72). -/
def Playback.pauseFollow (pb : Playback) (b : Bool) : Playback :=
  { pb with follow := pb.follow.map fun f => { f with paused := b } }

/-! ### The interval (R66, R67) -/

/-- A FADING slot with e increased by one; any other slot as it is (R66). -/
def Slot.advance : Slot → Slot
  | .fading f => .fading { f with elapsed := f.elapsed + 1 }
  | s => s

/-- A FADING slot whose e equals E (R66, R67). -/
def Slot.due : Slot → Bool
  | .fading f => f.elapsed == f.endTime
  | _ => false

/-- Step 1 of the interval: the FADING slots advance, and those whose e then equals E complete (R66, R67). -/
def Playback.advance (pb : Playback) : Playback :=
  let q := pb.mapSlots Slot.advance
  q.complete fun n => q.slots[n].due

/-- Some slot completes at the next interval. -/
def Playback.dueNext (pb : Playback) : Bool := pb.slots.toList.any fun s => s.advance.due

/-- Step 2 of the interval: a pending follow that is not paused fires at 0 and else counts down (R66, R74). -/
def State.countFollow (s : State) : State :=
  match s.playback.follow with
  | some ⟨0, false⟩ => s.fireFollow
  | some ⟨n + 1, false⟩ => { s with playback := { s.playback with follow := some ⟨n, false⟩ } }
  | _ => s

/-- One expiry of the Playback Unit's interval (R66): a slot that completes raises CUE-COMPLETE (R67). -/
def State.playbackTick (s : State) : State :=
  State.countFollow
    (State.raiseIf s.playback.dueNext .cueComplete ({ s with playback := s.playback.advance }).restartPlayback)

/-! ### The end of a cue fetch (R58, R59) -/

/-- The words a fetch read pass the tests of R58 for a slot that fetches a cue: the record is valid, its number is the cue's,
and its check word matches the computed value. -/
def fetchedRecord? (cue : Nat) (h : Handed) : Option CueRecord :=
  match CueRecord.of? h.words with
  | some r => if r.cue = cue ∧ h.words.getLast? = some h.crc then some r else none
  | none => none

/-- A fetch that fails: the slot becomes FREE, last-taken and the taken link are set back when last-taken is still the slot's
cue, and CUE-FAILED is raised (R59). -/
def State.failFetch (n : SlotIx) (f : Fetch) (s : State) : State :=
  let pb := { s.playback with slots := s.playback.slots.set n .free }
  let pb := if pb.lastTaken = some f.cue then { pb with lastTaken := f.prior, takenLink := f.priorLink } else pb
  State.raise .cueFailed { s with playback := pb }

/-- The Playback Unit takes the outcome of a fetch: the words read, or none for MEMORY-FAULT (R57–R59, R200). -/
def State.takeFetch (n : SlotIx) (h : Option Handed) (s : State) : State :=
  match s.playback.slots[n] with
  | .fetching f =>
    match h.bind (fetchedRecord? f.cue) with
    | some r =>
      let s := s.claim n (r.claim f.override)
      { s with playback := s.playback.takeUp r }
    | none => s.failFetch n f
  | _ => s

end Sys2Proof.Machine
end

