-- ==== Sys2Proof/Machine/Circuits.lean ====
section
/-! DEFINITION. A circuit resolved through the two layers of a table set (chapter 1): effective entry and record, raw level,
curve, mode stage; membership of the lamp-check sets (chapter 9); and the mode record of an output link (R10). -/

namespace Sys2Proof.Machine

/-- The effective entry of a circuit: the production layer's, else the house layer's, else none (R8). -/
def TableSet.entry (t : TableSet) (c : Circ) : Option PatchEntry := t.prodPatch[c].or t.housePatch[c]

/-- The default record (R9). -/
def CircuitRecord.default : CircuitRecord := ⟨.dim, 0, none, 0, false, 32768, none⟩

/-- The effective record of a circuit: the production layer's, else the house layer's, else the default, taken whole (R9). -/
def TableSet.record (t : TableSet) (c : Circ) : CircuitRecord :=
  (t.prodCircuits[c].or t.houseCircuits[c]).getD CircuitRecord.default

/-- The effective mode of a circuit (R10). -/
def TableSet.mode (t : TableSet) (c : Circ) : Mode := (t.record c).mode

/-- The level that an entry makes of its channel's merged level: m × p div 100 (R11). -/
def PatchEntry.apply (e : PatchEntry) (m : Level) : Level := BitVec.ofNat 16 (m.toNat * e.proportion.val / 100)

/-- The raw level of a circuit (R11): 0 for an unpatched one. -/
def rawLevel (merged : Chan → Level) : Option PatchEntry → Level
  | none => 0
  | some e => e.apply (merged e.channel)

/-- Point Pj of curve k (R123). -/
def TableSet.point (t : TableSet) (k : Fin 8) (j : Nat) : Word := t.curves.toList.getD ((k.val - 1) * 17 + j) 0

/-- The curve arithmetic of one segment: P[i] + ((P[i+1] − P[i]) × f) div 4096, truncating toward zero (R13). -/
def segmentLevel (p q : Word) (f : Nat) : Level :=
  BitVec.ofInt 16 ((p.toNat : Int) + (((q.toNat : Int) - (p.toNat : Int)) * (f : Int)).tdiv 4096)

/-- The output of a curve for an input (R12, R13): curve 0 passes its input unchanged. -/
def TableSet.curveLevel (t : TableSet) (k : Fin 8) (x : Level) : Level :=
  if k = 0 then x
  else segmentLevel (t.point k (x.toNat / 4096)) (t.point k (x.toNat / 4096 + 1)) (x.toNat % 4096)

/-- The mode stage (R15): the first row that applies decides. -/
def TableSet.modeStage (t : TableSet) (r : CircuitRecord) (raw : Level) : Level :=
  match r.mode, r.park with
  | .unused, _ => 0
  | _, some l => l
  | .dim, none => t.curveLevel r.curve raw
  | .switch, none => if r.threshold ≤ raw then 65535 else 0

/-- The computed level of a circuit: stages 2 and 3 of a refresh (R20). -/
def TableSet.computed (t : TableSet) (merged : Chan → Level) (c : Circ) : Level :=
  t.modeStage (t.record c) (rawLevel merged (t.entry c))

/-- A circuit belongs to a lamp-check set, tested against the live tables (R178). -/
def TableSet.member (t : TableSet) (set : CheckSet) (c : Circ) : Bool :=
  t.mode c != .unused &&
    match set with
    | .all => true
    | .patched =>
      match t.entry c with
      | some e => decide (0 < e.proportion.val)
      | none => false

/-- Circuit at a position of an output link (spec/00, Channels and circuits). -/
def circuitAt (k : LinkIx) (i : Fin 128) : Circ := ⟨128 * k.val + i.val, by omega⟩

/-- The mode record of an output link: the effective modes of its 128 circuits, in position order (R10). -/
def TableSet.modeRecord (t : TableSet) (k : LinkIx) : List Mode := List.ofFn fun i => t.mode (circuitAt k i)

/-- The forced-cycle-start flag set on every link whose mode record differs between two live table sets (R10, R166). -/
def State.flagLinks (old new : TableSet) (s : State) : State :=
  s.modOuts fun k o => { o with forced := o.forced || old.modeRecord k != new.modeRecord k }

end Sys2Proof.Machine
end

