-- ==== Sys2Proof/Machine/Sources.lean ====
section
/-! DEFINITION. The source side of an Input Port (chapter 4): sweep assembly, promotion and abort, the interval with its loss
timer, hold and fade counts, and the disabling and enabling of an input. -/

namespace Sys2Proof.Machine

/-! ### Sweeps (R82–R86) -/

/-- The abort of a sweep in progress is counted once, the assembly set emptied; with no sweep in progress nothing changes
(R86). -/
def Port.abortSweep (q : Port) : Port :=
  if q.sweeping then
    { q with
      sweeping := false
      assembly := noLevels
      counters := { q.counters with aborted := countUp q.counters.aborted } }
  else q

/-- SWEEP-START: a sweep in progress is aborted, and a new one begins with an empty assembly set (R83). -/
def Port.startSweep (q : Port) : Port := { q.abortSweep with sweeping := true, assembly := noLevels }

/-- A page written into the assembly set while a sweep is in progress (R84); `base` is the base channel's number. -/
def Port.writePage (base : Nat) (levels : List Level) (q : Port) : Port :=
  if q.sweeping then { q with assembly := setRun q.assembly (base - 1) (levels.map some) } else q

/-- A completed sweep raises SOURCE-CHANGE when it returns a source from HOLDING, FADING or LOST (R94, R96). -/
def SourceState.returns : SourceState → Bool
  | .holding | .fading | .lost => true
  | _ => false

/-- The promotion of the assembly set to the live set (R85): `n` is the setting N of the input. -/
def Port.promote (n : Nat) (q : Port) : Port :=
  { q with
    live := q.assembly
    assembly := noLevels
    sweeping := false
    counters := { q.counters with completed := countUp q.counters.completed }
    lossTimer := n
    hold := 0
    fade := 0
    factor := 65535
    source := .live }

/-- SWEEP-START is bit 15 of the flags word and SWEEP-END bit 14 (R222). -/
def sweepStart (flags : Word) : Bool := flags.getLsbD 15

def sweepEnd (flags : Word) : Bool := flags.getLsbD 14

/-- Parts 1 and 2 of a delivered LEVEL frame (R82). -/
def Port.takePage (base flags : Word) (levels : List Level) (q : Port) : Port :=
  Port.writePage base.toNat levels (if sweepStart flags then q.startSweep else q)

/-- A delivered LEVEL frame taken by the sweep assembler of a port, in the three parts of R82. -/
def State.takeLevels (p : PortIx) (base flags : Word) (levels : List Level) (s : State) : State :=
  let s := s.modPort p (Port.takePage base flags levels)
  if sweepEnd flags && s.ports[p].sweeping then
    let returned := s.ports[p].source.returns
    State.raiseIf returned (.sourceChange p) (s.modPort p (Port.promote s.mgmt.inputs[p].lossN))
  else s

/-! ### The interval (R89–R93) -/

/-- A source goes to LOST: its live set is emptied and its loss factor is 0 (R93). -/
def Port.lose (q : Port) : Port := { q with source := .lost, live := noLevels, factor := 0 }

/-- A source enters FADING, and with F = 0 passes at once to LOST (R92). -/
def Port.enterFading (f : Nat) (q : Port) : Port :=
  let q := { q with source := .fading, fade := 0, factor := 65535 }
  if f = 0 then q.lose else q

/-- A source enters HOLDING, and with H = 0 passes at once to FADING (R91). -/
def Port.enterHolding (i : InputSettings) (q : Port) : Port :=
  let q := { q with source := .holding, hold := 0, factor := 65535 }
  if i.lossH = some 0 then q.enterFading i.lossF else q

/-- The loss factor at fade count f of F: 65535 − (65535 × f) div F (R92). -/
def fadeFactor (f total : Nat) : Word := BitVec.ofNat 16 (65535 - 65535 * f / total)

/-- One expiry of a port's interval, by its source state (R88–R93). -/
def Port.interval (i : InputSettings) (q : Port) : Port :=
  match q.source with
  | .live => if q.lossTimer = 0 then q.enterHolding i else { q with lossTimer := q.lossTimer - 1 }
  | .holding =>
    match i.lossH with
    | none => q
    | some h =>
      let q := { q with hold := q.hold + 1 }
      if h ≤ q.hold then q.enterFading i.lossF else q
  | .fading =>
    let q := { q with fade := q.fade + 1 }
    if i.lossF ≤ q.fade then q.lose else { q with factor := fadeFactor q.fade i.lossF }
  | _ => q

/-- An interval raises SOURCE-CHANGE at the passage from LIVE to HOLDING and at the passage into LOST (R96). -/
def Port.intervalRaises (i : InputSettings) (q : Port) : Bool :=
  (q.source == .live && q.lossTimer == 0)
    || (q.source != .lost && (q.interval i).source == .lost)

/-- One expiry of the interval of an Input Port (R89). -/
def State.portTick (p : PortIx) (s : State) : State :=
  let i := s.mgmt.inputs[p]
  State.raiseIf (s.ports[p].intervalRaises i) (.sourceChange p) ((s.modPort p (Port.interval i)).restartPort p)

/-! ### The merge (R100, R101) -/

/-- A source contributes to the merge in LIVE, HOLDING and FADING (R88). -/
def SourceState.contributes : SourceState → Bool
  | .live | .holding | .fading => true
  | _ => false

/-- The contribution of a port to a channel: its live level × its loss factor div 65535 (R101). -/
def Port.contribution (q : Port) (i : InputSettings) (c : Chan) : Option Level :=
  if q.source.contributes && i.accept[c] then
    q.live[c].map fun l => BitVec.ofNat 16 (l.toNat * q.factor.toNat / 65535)
  else none

/-! ### Disable and enable (R98, R99, R107) -/

/-- Disabling an input, seen by its port: a frame in progress is dropped when it ends (R98, R107). -/
def Port.disable (q : Port) : Port :=
  { q with
    receiver := if q.receiver = .noFrame then .noFrame else .dropping
    sync := .hunt
    assembly := noLevels
    sweeping := false
    live := noLevels
    source := .disabled
    lossTimer := 0
    hold := 0
    fade := 0
    factor := 65535 }

/-- Enabling an input, seen by its port (R99). -/
def Port.enable (q : Port) : Port :=
  { q with source := .absent, lossTimer := 0, hold := 0, fade := 0, factor := 65535 }

/-- A change of the enabled setting of an input from on to off or from off to on, with what its port does (R98, R99, R114);
a setting that stays as it is changes nothing. -/
def State.setEnabled (p : PortIx) (on : Bool) (s : State) : State :=
  if s.mgmt.inputs[p].enabled = on then s
  else
    let t := s.modInput p fun i => { i with enabled := on }
    if on then t.modPort p Port.enable
    else State.raiseIf (s.ports[p].sync != .hunt) (.syncChange p) (t.modPort p Port.disable)

end Sys2Proof.Machine
end

