-- ==== Sys2Proof/Machine/Banks.lean ====
section
/-! DEFINITION. The Bank Controller (chapters 2 and 6): what each bank operation does at the completion of each of its
segments, at a segment that faults, and at its end; the start-up load; and the completion or fault of a transaction at the
Memory Port with its requester's part. -/

namespace Sys2Proof.Machine

/-! ### Ends (R130, R215) -/

/-- The reason is OK. -/
def OpReason.isOk : OpReason → Bool
  | .ok => true
  | _ => false

/-- The end of a bank operation: its event, the last bank-operation record, and the Bank Controller IDLE with its operation
record cleared (R130, R215). -/
def State.endOp (reason : OpReason) (s : State) : State :=
  let record : LastOp := ⟨reason, s.bank.op.map OpRecord.kind, s.bank.op.bind OpRecord.bank⟩
  State.raise (if reason.isOk then .bankOpDone else .bankOpFailed)
    { s with
      bank := { s.bank with state := .idle, op := none }
      mgmt := { s.mgmt with lastOp := record } }

/-- A changeover fails: the staging tables take the live ones' values, and the operation ends (R137). -/
def State.failChangeover (reason : OpReason) (s : State) : State :=
  State.endOp reason { s with tables := { s.tables with staging := s.tables.live, stage := .clean } }

/-- The effects of the commit in the Playback Unit (R77). -/
def Playback.commit (pb : Playback) (directory : List DirEntry) : Playback :=
  { pb with
    directory := directory
    lastTaken := none
    takenLink := none
    follow := none
    resting := Vector.replicate 1024 0 }

/-- The commit of a changeover (R136). -/
def State.commit (op : OpRecord) (s : State) : State :=
  let live := { s.tables.live with
    prodPatch := s.tables.staging.prodPatch, prodCircuits := s.tables.staging.prodCircuits }
  State.endOp .ok (State.flagLinks s.tables.live live
    { s with
      tables := { s.tables with live := live, stage := .clean, liveBank := op.bank }
      playback := s.playback.commit op.header.entries })

/-! ### Cell 0 reads (R128, R132) -/

/-- The outcome of a check test. -/
def outcomeOf (b : Bool) : CheckOutcome := if b then .matched else .failed

/-- A cell 0 read of a bank: its words stand in the cell buffer, and the last header read is replaced, its patch and circuit
checks not tested (R128, R130, R132). -/
def State.readCell0 (bank : Option BankIx) (ws : List Word) (s : State) : State :=
  let c := Cell0.ofWords ws
  { s with bank := { s.bank with
      buffer := bufferOf ws
      lastHeader := bank.map fun b => ⟨b, c.mark, c.writeCount, c.count, outcomeOf c.sound, .notTested, .notTested⟩ } }

/-- The patch and circuit outcomes of the last header read replaced by a changeover's comparison (R132). -/
def State.testedAreas (patch circuits : Bool) (s : State) : State :=
  { s with bank := { s.bank with
      lastHeader := s.bank.lastHeader.map fun h => { h with patch := outcomeOf patch, circuits := outcomeOf circuits } } }

/-- The operation goes on with its next segment (R130). -/
def State.nextSegment (op : OpRecord) (s : State) : State := s.handOver { op with segment := op.segment + 1 }

/-! ### The segments of each operation -/

/-- CHANGEOVER, and the start-bank changeover, at the completion of a segment (R134–R136). -/
def State.changeoverTake (op : OpRecord) (h : Handed) (s : State) : State :=
  if op.segment = 1 then
    let c := Cell0.ofWords h.words
    let s := s.readCell0 op.bank h.words
    if c.mark = markValid ∧ c.sound then s.nextSegment { op with cell0 := some c } else s.failChangeover .bankBad
  else
    let t := s.tables.staging
    let t := if op.segment ≤ 4 then { t with prodPatch := loadPatchCell t.prodPatch (op.segment - 2) h.words }
      else { t with prodCircuits := loadCircuitCell t.prodCircuits (op.segment - 5) h.words }
    let s := { s with tables := { s.tables with staging := t } }
    let op := { op with crc := h.crc }
    if op.segment = 4 then s.nextSegment { op with patchCheck := h.crc }
    else if op.segment < 10 then s.nextSegment op
    else
      let patch := op.patchCheck == op.header.patchCheck
      let circuits := h.crc == op.header.circCheck
      let s := s.testedAreas patch circuits
      if patch && circuits then s.commit op else s.failChangeover .bankBad

/-- SAVE at the completion of a segment (R139). -/
def State.saveTake (op : OpRecord) (h : Handed) (s : State) : State :=
  if op.segment = 1 then
    let c := Cell0.ofWords h.words
    let s := s.readCell0 op.bank h.words
    if c.sound then s.nextSegment { op with cell0 := some c } else s.endOp .bankBad
  else
    let op := { op with crc := h.crc }
    if op.segment = 5 then s.nextSegment { op with patchCheck := h.crc }
    else if op.segment = 11 then s.nextSegment { op with circCheck := h.crc }
    else if op.segment < 12 then s.nextSegment op
    else s.endOp .ok

/-- FORMAT at the completion of a segment (R141). -/
def State.formatTake (op : OpRecord) (h : Handed) (s : State) : State :=
  let op := { op with crc := h.crc }
  if op.segment = 4 then s.nextSegment { op with patchCheck := h.crc }
  else if op.segment = 10 then s.nextSegment { op with circCheck := h.crc }
  else if op.segment < 11 then s.nextSegment op
  else s.endOp .ok

/-- SAVE HOUSE at the completion of a segment (R142). -/
def State.saveHouseTake (op : OpRecord) (h : Handed) (s : State) : State :=
  let op := { op with crc := h.crc }
  if op.segment = 1 then s.nextSegment { op with maskCheck := h.crc }
  else if op.segment = 4 then s.nextSegment { op with patchCheck := h.crc }
  else if op.segment = 10 then s.nextSegment { op with circCheck := h.crc }
  else if op.segment = 11 then s.nextSegment { op with curveCheck := h.crc }
  else if op.segment < 12 then s.nextSegment op
  else s.endOp .ok

/-- The live directory replaced by the directory written, when the bank is the live bank (R40, R41). -/
def State.replaceDirectory (op : OpRecord) (s : State) : State :=
  if op.bank.isSome ∧ op.bank = s.tables.liveBank then
    { s with playback := { s.playback with directory := op.newEntries } }
  else s

/-- STORE CUE at the completion of a segment (R37, R39, R40). -/
def State.storeTake (op : OpRecord) (h : Handed) (s : State) : State :=
  if op.segment = 1 then
    let c := Cell0.ofWords h.words
    let s := s.readCell0 op.bank h.words
    if c.mark = markValid ∧ c.sound then
      if (entryOf? op.cue c.entries).isNone ∧ c.entries.length = 246 then s.endOp .full
      else
        match freeCell? c.entries with
        | some n => s.nextSegment { op with cell0 := some c, cell := n }
        | none => s.endOp .full
    else s.endOp .bankBad
  else if op.segment = 2 then s.nextSegment op
  else (s.replaceDirectory op).endOp .ok

/-- DELETE CUE at the completion of a segment (R37, R41). -/
def State.deleteTake (op : OpRecord) (h : Handed) (s : State) : State :=
  if op.segment = 1 then
    let c := Cell0.ofWords h.words
    let s := s.readCell0 op.bank h.words
    if c.mark = markValid ∧ c.sound then
      if (entryOf? op.cue c.entries).isSome then s.nextSegment { op with cell0 := some c } else s.endOp .noCue
    else s.endOp .bankBad
  else (s.replaceDirectory op).endOp .ok

/-- READ CUE at the completion of a segment (R37, R42). -/
def State.readTake (op : OpRecord) (h : Handed) (s : State) : State :=
  if op.segment = 1 then
    let c := Cell0.ofWords h.words
    let s := s.readCell0 op.bank h.words
    if c.sound then
      match entryOf? op.cue c.entries with
      | some e => s.nextSegment { op with cell0 := some c, cell := e.cell }
      | none => s.endOp .noCue
    else s.endOp .bankBad
  else
    let s := { s with bank := { s.bank with buffer := bufferOf h.words } }
    let s := match op.port with
      | some p => s.modPort p fun q => { q with record := bufferOf h.words }
      | none => s
    s.endOp .ok

/-! ### The start-up load (R144–R147) -/

/-- The start-up load's house part ends: the load ends when the start bank is NONE, else its start-bank part begins (R147). -/
def State.houseEnd (s : State) : State :=
  match s.mgmt.startBank with
  | none => { s with bank := { s.bank with state := .idle, op := none } }
  | some b =>
    State.handOver (OpRecord.new .changeover (some b) none) { s with tables := { s.tables with stage := .loading } }

/-- The settings of a sound settings record replace the reset settings, with the effects that a SET of each changed item has
(R146): a disabled input by R98, a changed output link by its pending settings. -/
def State.applySettings (r : StoredSettings) (s : State) : State :=
  let one (s : State) (p : PortIx) : State :=
    match r.inputs[p.val]? with
    | some i =>
      (s.setEnabled p i.enabled).modInput p fun j =>
        { j with permit := i.permit, autoResync := i.autoResync, lossN := i.lossN, lossH := i.lossH, lossF := i.lossF }
    | none => s
  let s := (List.finRange 4).foldl one s
  let s := s.modOuts fun k o =>
    match r.links[k.val]? with
    | some l => if l = o.pending then o else { o with pending := l, pendingFlag := true }
    | none => o
  { s with mgmt := { s.mgmt with budgets := tab fun g => r.budgets.getD g.val 0, startBank := r.startBank } }

/-- The five areas of the house region (R142). -/
inductive HouseArea where
  | settings | masks | patch | circuits | curves
  deriving DecidableEq, Repr

/-- The area of a house segment 1–12, cells 0–11 (R145, R227). -/
def houseArea (segment : Nat) : HouseArea :=
  if segment ≤ 1 then .settings else if segment = 2 then .masks else if segment ≤ 5 then .patch
  else if segment ≤ 11 then .circuits else .curves

/-- The last segment of the area of a house segment. -/
def HouseArea.last : HouseArea → Nat
  | .settings => 1
  | .masks => 2
  | .patch => 5
  | .circuits => 11
  | .curves => 12

/-- A house area fails: it keeps its reset defaults in both table sets, and HOUSE-BAD is raised (R145). -/
def State.failArea (a : HouseArea) (s : State) : State :=
  let t := s.tables.staging
  let t := match a with
    | .patch => { t with housePatch := s.tables.live.housePatch }
    | .circuits => { t with houseCircuits := s.tables.live.houseCircuits }
    | _ => t
  State.raise .houseBad { s with tables := { s.tables with staging := t } }

/-- A house area whose check matches takes effect (R145, R146): the settings record only when it is sound. -/
def State.passArea (a : HouseArea) (ws : List Word) (s : State) : State :=
  let live := s.tables.live
  let staging := s.tables.staging
  match a with
  | .settings =>
    match StoredSettings.of? ((ws.drop 8).take 55) with
    | some r => s.applySettings r
    | none => s.failArea .settings
  | .masks =>
    { s with mgmt := { s.mgmt with inputs := tab fun p => { s.mgmt.inputs[p] with accept := acceptOf ws p } } }
  | .patch => { s with tables := { s.tables with live := { live with housePatch := staging.housePatch } } }
  | .circuits => { s with tables := { s.tables with live := { live with houseCircuits := staging.houseCircuits } } }
  | .curves =>
    { s with tables := { s.tables with
        live := { live with curves := curvesOf ws }
        staging := { staging with curves := curvesOf ws } } }

/-- The house cell of a segment comes in: to the cell buffer, or to the staging house tables (R145). -/
def State.loadHouseCell (segment : Nat) (ws : List Word) (s : State) : State :=
  let t := s.tables.staging
  match houseArea segment with
  | .patch =>
    let t := { t with housePatch := loadPatchCell t.housePatch (segment - 3) ws }
    { s with tables := { s.tables with staging := t } }
  | .circuits =>
    let t := { t with houseCircuits := loadCircuitCell t.houseCircuits (segment - 6) ws }
    { s with tables := { s.tables with staging := t } }
  | _ => { s with bank := { s.bank with buffer := bufferOf ws } }

/-- The house part goes on with a segment, or ends after the last (R145, R147). -/
def State.houseNext (op : OpRecord) (segment : Nat) (s : State) : State :=
  if segment ≤ 12 then s.handOver { op with segment := segment } else s.houseEnd

/-- The position of an area's check among the five checks of the house header (R227). -/
def HouseArea.index : HouseArea → Nat
  | .settings => 0
  | .masks => 1
  | .patch => 2
  | .circuits => 3
  | .curves => 4

/-- The house part of the start-up load at the completion of a segment (R145, R146). -/
def State.houseTake (op : OpRecord) (h : Handed) (s : State) : State :=
  let a := houseArea op.segment
  let s := s.loadHouseCell op.segment h.words
  let op := { op with crc := h.crc, houseChecks := if a = .settings then h.words.take 5 else op.houseChecks }
  let computed := if a = .settings then checkWord ((h.words.drop 8).take 55) else h.crc
  let s :=
    if op.segment = a.last then
      if computed = at' op.houseChecks a.index then s.passArea a h.words else s.failArea a
    else s
  s.houseNext op (op.segment + 1)

/-- The house part of the start-up load at a segment that faults: cell 0 ends it, a later cell fails its area, and the load
goes on with the next area's first cell (R145). -/
def State.houseFault (op : OpRecord) (s : State) : State :=
  let a := houseArea op.segment
  let s := s.failArea a
  if a = .settings then s.houseEnd else s.houseNext op (a.last + 1)

/-! ### The Bank Controller takes an outcome (R197, R200) -/

/-- The Bank Controller takes the outcome of its segment: the words and CRC, or none for MEMORY-FAULT. -/
def State.takeSegment (h : Option Handed) (s : State) : State :=
  match s.bank.op, h with
  | none, _ => s
  | some op, some h =>
    match op.kind with
    | .changeover => s.changeoverTake op h
    | .save => s.saveTake op h
    | .saveHouse => s.saveHouseTake op h
    | .format => s.formatTake op h
    | .storeCue => s.storeTake op h
    | .deleteCue => s.deleteTake op h
    | .readCue => s.readTake op h
    | .startUp => s.houseTake op h
  | some op, none =>
    match op.kind with
    | .changeover => s.failChangeover .memoryFault
    | .startUp => s.houseFault op
    | _ => s.endOp .memoryFault

/-- The requester of a transaction takes its outcome (R197, R200). -/
def State.takeOutcome (e : Engine) (h : Option Handed) (s : State) : State :=
  match e.slot with
  | some n => s.takeFetch n h
  | none => s.takeSegment h

/-- The completion of a transaction: its remaining accesses, its requester's part, and the next grant, in one event (R197). -/
def State.completeTxn (e : Engine) (s : State) : State :=
  ((s.finish e).takeOutcome e (some (s.handed e))).grant

/-- The RDY fault of the transaction in progress: MEMORY-FAULT, the last fault record, the requester's part, and the next
grant, in one event (R192, R200). -/
def State.faultTxn (cut : Cut) (s : State) : State :=
  let s := s.cutAt cut
  match s.memPort.engine with
  | none => s
  | some e =>
    let m := { s.memPort with engine := none, lastFault := some ⟨e.slot, e.kind, e.area, e.cell, e.place⟩ }
    ((State.raise .memoryFault { s with memPort := m }).takeOutcome e none).grant

/-! ### The memory clock (R191, R192) -/

/-- One memory clock: the access in progress counts its 2 + w clocks; at the end of the last of them, and of each added clock,
RDY is sampled, at a level that is the memory's and free (log 2). A high sample ends the access, and with the last access the
transaction completes (R191, R197). A low one is counted, and the 64th low one ends the access as a fault (R192, R200). -/
def State.memoryClock (s : State) : State :=
  match s.memPort.engine with
  | none => s
  | some e =>
    if e.clock + 1 < 2 + e.wait.val then
      { s with memPort := { s.memPort with engine := some { e with clock := e.clock + 1 } } }
    else
      let n := s.memPort.samples
      let high := Config.rdyLevel n
      let m := { s.memPort with rdy := high, samples := n + 1 }
      if high then
        if e.place + 1 < (s.txnWords e).length then State.access { s with memPort := m }
        else State.completeTxn e { s with memPort := m }
      else if e.low + 1 < 64 then { s with memPort := { m with engine := some { e with low := e.low + 1 } } }
      else State.faultTxn ⟨0, Config.faultLanded n⟩ { s with memPort := m }

end Sys2Proof.Machine
end

