-- ==== Sys2Proof/Machine/Reset.lean ====
section
/-! DEFINITION. The reset of the whole part, by the RESET line and by RESTART (R216, R217, and each block's own reset rule),
and the meanings of RESET_LINE_ASSERTED and RESET_LINE_RELEASED. -/

namespace Sys2Proof.Machine

/-- A port right after a reset (R80, R108, R115, R117): a frame in progress is dropped when it ends (R107). -/
def Port.afterReset (q : Port) : Port :=
  { Port.reset with receiver := if q.receiver = .noFrame then .noFrame else .dropping }

/-- The Memory Port as a reset leaves it: no transaction, no waiting fetch or segment, wait counts 3, no fault record; the
address and bank lines keep the last access (R189, R190, R201). -/
def MemPort.afterReset (m : MemPort) : MemPort :=
  { m with waitP := 3, waitH := 3, queue := [], bankSlot := none, engine := none, lastFault := none }

/-- Every block but the Management Unit at its reset values: frames and transactions in progress are cut, the output drivers
are high-impedance and HOLDACK is deasserted (R18, R45, R121, R128, R148, R160, R174, R177, R201). -/
def State.resetBlocks (s : State) : State :=
  { s with
    ports := tab fun p => s.ports[p].afterReset
    playback := Playback.reset
    tables := Tables.reset
    levels := Levels.reset
    lamp := Lamp.reset
    outs := Vector.replicate 6 OutPort.reset
    hold := { s.hold with holdack := false }
    memPort := s.memPort.afterReset
    timers := Timers.reset
    bank := BankCtl.reset }

/-- The end of a reset (R217): every block holds its reset values, the Management Unit takes its own and the cause, the hold
control reads HOLDREQ (R174), and the start-up load begins (R144), its first segment granted at once (R201). -/
def State.endReset (cause : ResetCause) (s : State) : State :=
  let line := s.hold.line
  let s := { s.resetBlocks with held := false, mgmt := Mgmt.reset cause, hold := ⟨line, line, line⟩ }
  (State.handOver OpRecord.startUp (s.raiseIf line .holdChange)).grant

/-- The part is stopped at once: a write in progress is cut (R201), and every block takes its reset values. -/
def State.stopAll (cut : Cut) (s : State) : State := (s.cutAt cut).resetBlocks

/-- RESET_LINE_ASSERTED (R217): while the line is held no block takes an event, the drivers and HOLDACK are off and ALERT is
released. An assertion of a line already held is no event (log 4). -/
def execResetLineAsserted (cut : Cut) (s : State) : Host.Outcome State Fault Refusal :=
  .next (s.whenRunning fun s =>
    let s := s.stopAll cut
    { s with held := true, mgmt := { s.mgmt with alertLow := false } })

/-- RESET_LINE_RELEASED (R217): the reset ends with cause LINE. A release of a line not held is no event (log 4). -/
def execResetLineReleased (s : State) : Host.Outcome State Fault Refusal :=
  .next (if s.held then s.endReset .line else s)

end Sys2Proof.Machine
end

