-- ==== Sys2Proof/Machine/Reception.lean ====
section
/-! DEFINITION. Link reception and sync (chapter 5), the taking of a request by the Management Unit (R203–R205), and the meanings
of LEVEL_FRAME, FRAME_CUT and REPLY_FRAME_COMPLETE. -/

namespace Sys2Proof.Machine

/-! ### The sync machine (R108–R114) -/

/-- An outcome added to the window; a 17th removes the oldest (R112). -/
def pushMark (w : List FrameMark) (m : FrameMark) : List FrameMark := (w ++ [m]).drop (w.length + 1 - 16)

/-- How many outcomes of a window are BAD (R112). -/
def badCount (w : List FrameMark) : Nat := w.count .bad

/-- What the sync machine says of a frame it has taken: delivered, a gap, and the window test of R112 met. -/
structure Verdict where
  delivered : Bool
  gap       : Bool
  lost      : Bool
  deriving DecidableEq, Repr

/-- The port after a good frame, in the table of the sync machine (R109–R111), its counters apart. -/
def Port.syncGood (seq : Word) (q : Port) : Port :=
  match q.sync with
  | .hunt => { q with sync := .acquire, expected := seq + 1, goodCount := 1 }
  | .acquire =>
    if seq = q.expected then
      let q := { q with expected := q.expected + 1, goodCount := q.goodCount + 1 }
      if q.goodCount = 3 then { q with sync := .locked, window := [] } else q
    else { q with sync := .hunt }
  | .locked =>
    { q with expected := seq + 1, window := pushMark q.window (if seq = q.expected then .good else .bad) }

/-- A good frame out of sequence in LOCKED is a gap (R111). -/
def Port.isGap (seq : Word) (q : Port) : Bool := q.sync == .locked && seq != q.expected

/-- A good frame is delivered in LOCKED, and when it is the one that brings ACQUIRE to LOCKED (R110, R111). -/
def Port.delivers (seq : Word) (q : Port) : Bool :=
  match q.sync with
  | .hunt => false
  | .acquire => seq == q.expected && q.goodCount + 1 == 3
  | .locked => true

/-- The window test: an outcome was added in LOCKED, 4 or more are BAD, and auto-resync is on (R112). -/
def lostLock (was : SyncState) (auto : Bool) (window : List FrameMark) : Bool :=
  was == .locked && auto && decide (4 ≤ badCount window)

/-- The counters after a good frame (R115). -/
def Port.countGood (gap : Bool) (q : Port) : Port :=
  { q with counters := { q.counters with
      good := countUp q.counters.good
      gaps := if gap then countUp q.counters.gaps else q.counters.gaps } }

/-- The port after a bad-check frame (R109–R111, R115). -/
def Port.syncBad (q : Port) : Port :=
  let q := { q with counters := { q.counters with bad := countUp q.counters.bad } }
  match q.sync with
  | .hunt => q
  | .acquire => { q with sync := .hunt }
  | .locked => { q with window := pushMark q.window .bad }

/-- A change of the port that may change its sync state; a change raises SYNC-CHANGE (R114). -/
def State.syncPort (p : PortIx) (f : Port → Port) (s : State) : State :=
  State.raiseIf ((f s.ports[p]).sync != s.ports[p].sync) (.syncChange p) (s.modPort p f)

/-- LOCKED is left for HUNT and the sweep in progress is aborted (R86, R112, R113), when the machine still is LOCKED. -/
def State.leaveLocked (p : PortIx) (s : State) : State :=
  if s.ports[p].sync = .locked then s.syncPort p fun q => { q with sync := .hunt }.abortSweep else s

/-- A good frame taken by the port's sync machine, then delivered to its receiver (R113, steps 2 to 5). The window test is the
one made at the adding of the outcome (R112, log 25). -/
def State.receiveGood (p : PortIx) (seq : Word) (deliver : State → State) (s : State) : State :=
  let q := s.ports[p]
  let gap := q.isGap seq
  let lost := lostLock q.sync s.mgmt.inputs[p].autoResync (q.syncGood seq).window
  let s := s.syncPort p fun q => (q.syncGood seq).countGood gap
  let s := if gap then s.modPort p Port.abortSweep else s
  let s := if q.delivers seq then deliver s else s
  if lost then s.leaveLocked p else s

/-- A bad-check frame taken by the port's sync machine (R111–R113). -/
def State.receiveBad (p : PortIx) (s : State) : State :=
  let q := s.ports[p]
  let lost := lostLock q.sync s.mgmt.inputs[p].autoResync q.syncBad.window
  let s := s.syncPort p Port.syncBad
  if lost then s.leaveLocked p else s

/-! ### The link receiver (R104–R107) -/

/-- The link receiver drops the frame that ends: the input is disabled, the part is in reset, or the frame was in progress at
the last enable or reset (R107). -/
def State.dropsFrame (p : PortIx) (stale : Bool) (s : State) : Bool :=
  s.held || !s.mgmt.inputs[p].enabled || s.ports[p].receiver == .dropping || (s.ports[p].receiver == .noFrame && stale)

/-- A frame ends on a forward lane: it is dropped uncounted (R107), or taken. -/
def State.endFrame (p : PortIx) (stale : Bool) (take : State → State) (s : State) : State :=
  let t := s.modPort p fun q => { q with receiver := .noFrame }
  if s.dropsFrame p stale then t else take t

/-- A new frame is in progress after a start delimiter: one to be dropped when the input is disabled or the part is in reset
(R104, R107). -/
def State.newFrame (p : PortIx) (s : State) : State :=
  s.modPort p fun q =>
    { q with receiver := if s.held || !s.mgmt.inputs[p].enabled then .dropping else .receiving }

/-- The form tests of a LEVEL frame whose check word matches (R106). -/
def levelForm (base : Word) (levels : List Level) : Bool :=
  decide (1 ≤ levels.length ∧ levels.length ≤ 128 ∧ 1 ≤ base.toNat ∧ base.toNat + levels.length ≤ 1025)

/-! ### Requests (R203–R205) -/

/-- The decision of a request by its owner: the state it leaves, the result, the data returned, and the restart mark. -/
structure Decision where
  state   : State
  result  : Result
  data    : List Word := []
  restart : Bool := false

/-- A refused request changes nothing (R206). -/
def refuse (s : State) (r : Result) : Decision := { state := s, result := r }

/-- A request carried out in the event of its arrival (R206). -/
def done (s : State) : Decision := { state := s, result := .done }

/-- A request whose work goes on after the reply (R206). -/
def accepted (s : State) : Decision := { state := s, result := .accepted }

/-- The request code of STATUS READ (R224). -/
def codeStatusRead : Word := 0x18

/-- Tests 1 to 3 of R203, in order: the reply of the first that fails. -/
def State.admission (s : State) (p : PortIx) (code : Word) : Option Result :=
  if !assignedCode code then some .unknown
  else if !s.mgmt.inputs[p].permit && code != codeStatusRead then some .notPermitted
  else if s.bank.state == .starting && code != codeStatusRead then some .starting
  else none

/-- A request that finds four replies queued is dropped: counted, REQUEST-DROPPED, and nothing else (R205). -/
def State.dropRequest (p : PortIx) (s : State) : State :=
  State.raise .requestDropped
    (s.modPort p fun q => { q with counters := { q.counters with dropped := countUp q.counters.dropped } })

/-- A delivered request at the Management Unit (R203–R205): dropped at a full reply queue, refused by the first failing test,
or decided by its owner, `decide`, against the state as it stands; the reply joins the port's queue in the same event. -/
def State.manage (p : PortIx) (seq code : Word) (args : List Word) (decide : PortIx → List Word → State → Decision)
    (s : State) : State :=
  if 4 ≤ s.ports[p].replies.length then s.dropRequest p
  else
    let d := match s.admission p code with
      | some r => refuse s r
      | none => decide p args s
    d.state.modPort p (Port.enqueue ⟨seq, code, d.result, d.data, d.restart⟩)

/-- A REQUEST frame whose check word matches, with its request code and parameter words. A payload over 128 words is malformed
(R106), a bad-check frame. -/
def State.takeRequest (head : FrameHead) (code : Word) (args : List Word)
    (decide : PortIx → List Word → State → Decision) (s : State) : State :=
  s.endFrame head.port head.stale fun s =>
    if args.length ≤ 127 then s.receiveGood head.port head.seq (State.manage head.port head.seq code args decide)
    else s.receiveBad head.port

/-! ### Meanings -/

/-- LEVEL_FRAME (R113, R81, R82): a frame that fails the form tests of R106 is a bad-check frame. -/
def execLevelFrame (head : FrameHead) (base flags : Word) (levels : List Word) (s : State) :
    Host.Outcome State Fault Refusal :=
  .next (s.endFrame head.port head.stale fun s =>
    if levelForm base levels then s.receiveGood head.port head.seq (State.takeLevels head.port base flags levels)
    else s.receiveBad head.port)

/-- FRAME_CUT (R104): the frame in progress is taken at once as a bad-check frame, and the receiver begins the new frame. -/
def execFrameCut (port : PortIx) (stale : Bool) (s : State) : Host.Outcome State Fault Refusal :=
  .next (State.newFrame port (s.endFrame port stale (State.receiveBad port)))

/-- The completion of a reply frame: the reply leaves the queue, the reply sequence steps, the next reply begins (R118). -/
def Port.completeReply (q : Port) : Port :=
  Port.startReply { q with replies := q.replies.tail, sending := none, replySeq := q.replySeq + 1 }

/-- REPLY_FRAME_COMPLETE (R118): the completion of a restart reply performs the reset of the part with cause RESTART (R216).
With the transmitter IDLE there is no such completion (log 4). -/
def execReplyFrameComplete (port : PortIx) (cut : Cut) (s : State) : Host.Outcome State Fault Refusal :=
  .next (s.whenRunning fun s =>
    match s.ports[port].sending, s.ports[port].replies with
    | some _, r :: _ => if r.restart then (s.stopAll cut).endReset .restart else s.modPort port Port.completeReply
    | _, _ => s)

end Sys2Proof.Machine
end

