-- ==== Sys2Proof/Machine/BankCommands.lean ====
section
/-! DEFINITION. The requests of the Bank Controller of chapter 6, CHANGEOVER, SAVE, SAVE HOUSE and FORMAT, and the events of the
Memory Port, FETCH_COMPLETE, SEGMENT_COMPLETE and RDY_FAULT (chapter 10). -/

namespace Sys2Proof.Machine

/-- A bank operation that names a bank, decided: BUSY first, then the bank number, then the checks of its kind (R129).
`prepare` is what the acceptance changes besides the operation record. -/
def decideBankOp (kind : OpKind) (check : BankIx → State → Option Result) (prepare : State → State) (p : PortIx)
    (args : List Word) (s : State) : Decision :=
  match args with
  | [bank] =>
    if s.bank.state ≠ .idle then refuse s .busy
    else
      match finOf? 4 bank with
      | some b =>
        match check b s with
        | some r => refuse s r
        | none => accepted ((prepare s).beginOp (OpRecord.new kind (some b) (some p)))
      | none => refuse s .badArgument
  | _ => refuse s .badArgument

/-- The conditions of R133, in order. -/
def changeoverCheck (_ : BankIx) (s : State) : Option Result :=
  if s.lamp.active then some .checkActive
  else if !s.playback.allFree then some .slotsActive
  else if s.tables.stage = .edited then some .stagingEdited
  else none

/-- CHANGEOVER decided: an accepted one sets the staging state to LOADING (R133, R134). -/
def decideChangeover : PortIx → List Word → State → Decision :=
  decideBankOp .changeover changeoverCheck fun s => { s with tables := { s.tables with stage := .loading } }

/-- SAVE decided (R139). -/
def decideSave : PortIx → List Word → State → Decision := decideBankOp .save (fun _ _ => none) id

/-- FORMAT decided: BANK-LIVE for the live bank (R141). -/
def decideFormat : PortIx → List Word → State → Decision :=
  decideBankOp .format (fun b s => if s.tables.liveBank = some b then some .bankLive else none) id

/-- SAVE HOUSE decided (R142). -/
def decideSaveHouse (p : PortIx) (args : List Word) (s : State) : Decision :=
  match args with
  | [] =>
    if s.bank.state ≠ .idle then refuse s .busy
    else accepted (s.beginOp (OpRecord.new .saveHouse none (some p)))
  | _ => refuse s .badArgument

/-- CHANGEOVER (R133), request code 000E. -/
def execChangeover (head : FrameHead) (args : List Word) (s : State) : Host.Outcome State Fault Refusal :=
  .next (s.takeRequest head 0x0E args decideChangeover)

/-- SAVE (R139), request code 000F. -/
def execSave (head : FrameHead) (args : List Word) (s : State) : Host.Outcome State Fault Refusal :=
  .next (s.takeRequest head 0x0F args decideSave)

/-- SAVE HOUSE (R142), request code 0010. -/
def execSaveHouse (head : FrameHead) (args : List Word) (s : State) : Host.Outcome State Fault Refusal :=
  .next (s.takeRequest head 0x10 args decideSaveHouse)

/-- FORMAT (R141), request code 0011. -/
def execFormat (head : FrameHead) (args : List Word) (s : State) : Host.Outcome State Fault Refusal :=
  .next (s.takeRequest head 0x11 args decideFormat)

/-- FETCH_COMPLETE (R58, R197): the completion of the cue fetch in progress; with none in progress there is no such event
(log 4). -/
def execFetchComplete (s : State) : Host.Outcome State Fault Refusal :=
  .next (s.whenRunning fun s =>
    match s.memPort.engine with
    | some e => if e.slot.isSome then s.completeTxn e else s
    | none => s)

/-- SEGMENT_COMPLETE (R197): the completion of the bank segment in progress; with none in progress there is no such event
(log 4). -/
def execSegmentComplete (s : State) : Host.Outcome State Fault Refusal :=
  .next (s.whenRunning fun s =>
    match s.memPort.engine with
    | some e => if e.slot.isNone then s.completeTxn e else s
    | none => s)

/-- RDY_FAULT (R192, R200): the 64th low sample of an access, of the one in progress or as many later as `cut` says, ends it as
a fault; the low samples that the count lacks are passed over (log 2). With no transaction in progress there is no such event
(log 4). -/
def execRdyFault (cut : Cut) (s : State) : Host.Outcome State Fault Refusal :=
  .next (s.whenRunning (State.faultTxn cut))

end Sys2Proof.Machine
end

