-- ==== Sys2Proof/Machine/CueCommands.lean ====
section
/-! DEFINITION. The record buffer and the cue operations (chapter 2): CUE DATA WRITE, CUE DATA READ, STORE CUE, DELETE CUE and
READ CUE. -/

namespace Sys2Proof.Machine

/-- CUE DATA WRITE decided by the sending port: an offset and one or more words (R35). -/
def decideCueDataWrite (p : PortIx) (args : List Word) (s : State) : Decision :=
  match args with
  | offset :: w :: ws =>
    if offset.toNat + (ws.length + 1) ≤ 512 then
      done (s.modPort p fun q => { q with record := setRun q.record offset.toNat (w :: ws) })
    else refuse s .badArgument
  | _ => refuse s .badArgument

/-- CUE DATA READ decided by the sending port: an offset and a count of 1–128 (R36). -/
def decideCueDataRead (p : PortIx) (args : List Word) (s : State) : Decision :=
  match args with
  | [offset, count] =>
    if 1 ≤ count.toNat ∧ count.toNat ≤ 128 ∧ offset.toNat + count.toNat ≤ 512 then
      { state := s, result := .done, data := getRun s.ports[p].record offset.toNat count.toNat }
    else refuse s .badArgument
  | _ => refuse s .badArgument

/-- The words of a record before its check word: 9 + 2n words (R28). -/
def recordBody (ws : List Word) : List Word := ws.take (9 + 2 * (at' ws 8).toNat)

/-- STORE CUE decided: BUSY first, then the bank and the record in the port's buffer (R37, R38, R129). -/
def decideStoreCue (p : PortIx) (args : List Word) (s : State) : Decision :=
  match args with
  | [bank] =>
    if s.bank.state ≠ .idle then refuse s .busy
    else
      match finOf? 4 bank, CueRecord.of? s.ports[p].record.toList with
      | some b, some r =>
        accepted (s.beginOp { OpRecord.new .storeCue (some b) (some p) with
          cue := r.cue, record := recordBody s.ports[p].record.toList })
      | _, _ => refuse s .badArgument
  | _ => refuse s .badArgument

/-- DELETE CUE and READ CUE decided: BUSY first, then the bank and the cue number (R37, R129). -/
def decideCueOp (kind : OpKind) (p : PortIx) (args : List Word) (s : State) : Decision :=
  match args with
  | [bank, cue] =>
    if s.bank.state ≠ .idle then refuse s .busy
    else
      match finOf? 4 bank with
      | some b =>
        if isCue cue then accepted (s.beginOp { OpRecord.new kind (some b) (some p) with cue := cue.toNat })
        else refuse s .badArgument
      | none => refuse s .badArgument
  | _ => refuse s .badArgument

/-- DELETE CUE decided (R41). -/
def decideDeleteCue : PortIx → List Word → State → Decision := decideCueOp .deleteCue

/-- READ CUE decided (R42). -/
def decideReadCue : PortIx → List Word → State → Decision := decideCueOp .readCue

/-- CUE DATA WRITE (R35), request code 0005. -/
def execCueDataWrite (head : FrameHead) (args : List Word) (s : State) : Host.Outcome State Fault Refusal :=
  .next (s.takeRequest head 0x05 args decideCueDataWrite)

/-- CUE DATA READ (R36), request code 0006. -/
def execCueDataRead (head : FrameHead) (args : List Word) (s : State) : Host.Outcome State Fault Refusal :=
  .next (s.takeRequest head 0x06 args decideCueDataRead)

/-- STORE CUE (R38), request code 0007. -/
def execStoreCue (head : FrameHead) (args : List Word) (s : State) : Host.Outcome State Fault Refusal :=
  .next (s.takeRequest head 0x07 args decideStoreCue)

/-- DELETE CUE (R41), request code 0008. -/
def execDeleteCue (head : FrameHead) (args : List Word) (s : State) : Host.Outcome State Fault Refusal :=
  .next (s.takeRequest head 0x08 args decideDeleteCue)

/-- READ CUE (R42), request code 0009. -/
def execReadCue (head : FrameHead) (args : List Word) (s : State) : Host.Outcome State Fault Refusal :=
  .next (s.takeRequest head 0x09 args decideReadCue)

end Sys2Proof.Machine
end

