-- ==== Sys2Proof/Machine/LampCheck.lean ====
section
/-! DEFINITION. The Lamp Check Unit (chapter 9): CHECK START, CHECK NEXT, CHECK PREVIOUS, CHECK STOP, and its interval, named by
what comes about at it. -/

namespace Sys2Proof.Machine

/-- The lowest-numbered member of a set at or above a place, counted from 0 (R180, R181). -/
def TableSet.memberFrom? (t : TableSet) (set : CheckSet) (lo : Nat) : Option Circ :=
  (List.finRange 768).find? fun c => decide (lo ≤ c.val) && t.member set c

/-- The highest-numbered member of a set below a circuit (R183). -/
def TableSet.memberBelow? (t : TableSet) (set : CheckSet) (c : Circ) : Option Circ :=
  ((List.finRange 768).filter fun d => decide (d.val < c.val) && t.member set d).getLast?

/-- The check ends: IDLE, no circuit under check, remaining dwell 0; the parameters are kept (R177, R181, R184). -/
def Lamp.stop (l : Lamp) : Lamp := { l with under := none, remaining := 0 }

/-- A circuit becomes the circuit under check with a fresh dwell (R180, R181, R183). -/
def Lamp.moveTo (l : Lamp) (k : CheckParams) (c : Circ) : Lamp := { l with under := some c, remaining := k.dwell }

/-- An advance of an ACTIVE check to the next member, or its end with CHECK-DONE (R181). -/
def State.advanceCheck (k : CheckParams) (c : Circ) (s : State) : State :=
  match s.tables.live.memberFrom? k.set (c.val + 1) with
  | some d => { s with lamp := s.lamp.moveTo k d }
  | none => State.raise .checkDone { s with lamp := s.lamp.stop }

/-- The codes of the set and the mode of a CHECK START (R224). -/
def checkSetOf? (w : Word) : Option CheckSet := if w = 0 then some .patched else if w = 1 then some .all else none

def checkModeOf? (w : Word) : Option CheckMode := if w = 0 then some .auto else if w = 1 then some .step else none

/-- The parameters of a CHECK START within their ranges: order 1 of R179. -/
def checkParamsOf? (level dwell set start mode : Word) : Option CheckParams :=
  if 1 ≤ dwell.toNat ∧ dwell.toNat ≤ 6000 then
    match checkSetOf? set, numberOf? 768 start, checkModeOf? mode with
    | some st, some c, some m => some ⟨level, dwell.toNat, st, c, m⟩
    | _, _, _ => none
  else none

/-- CHECK START decided (R179, R180). -/
def decideCheckStart (_ : PortIx) (args : List Word) (s : State) : Decision :=
  match args with
  | [level, dwell, set, start, mode] =>
    match checkParamsOf? level dwell set start mode with
    | none => refuse s .badArgument
    | some k =>
      if s.inChangeover then refuse s .busy
      else if !s.playback.allFree then refuse s .slotsActive
      else
        match s.tables.live.memberFrom? k.set k.start.val with
        | some c => done { s with lamp := ⟨some k, some c, k.dwell⟩ }
        | none => refuse s .badArgument
  | _ => refuse s .badArgument

/-- CHECK NEXT decided (R183). -/
def decideCheckNext (_ : PortIx) (args : List Word) (s : State) : Decision :=
  match args with
  | [] =>
    match s.lamp.params, s.lamp.under with
    | some k, some c => done (s.advanceCheck k c)
    | _, _ => refuse s .notActive
  | _ => refuse s .badArgument

/-- CHECK PREVIOUS decided (R183): on the first member the circuit under check stays, with a fresh dwell. -/
def decideCheckPrevious (_ : PortIx) (args : List Word) (s : State) : Decision :=
  match args with
  | [] =>
    match s.lamp.params, s.lamp.under with
    | some k, some c => done { s with lamp := s.lamp.moveTo k ((s.tables.live.memberBelow? k.set c).getD c) }
    | _, _ => refuse s .notActive
  | _ => refuse s .badArgument

/-- CHECK STOP decided (R184). -/
def decideCheckStop (_ : PortIx) (args : List Word) (s : State) : Decision :=
  match args with
  | [] => if s.lamp.active then done { s with lamp := s.lamp.stop } else refuse s .notActive
  | _ => refuse s .badArgument

/-- One expiry of the Lamp Check Unit's interval (R182). -/
def State.checkTick (s : State) : State :=
  let s := s.restartLamp
  match s.lamp.params, s.lamp.under with
  | some k, some c =>
    if k.mode = .auto then
      let n := s.lamp.remaining - 1
      let s := { s with lamp := { s.lamp with remaining := n } }
      if n = 0 then s.advanceCheck k c else s
    else s
  | _, _ => s

/-- The next interval of the unit ends the dwell of an ACTIVE AUTO check (R182). -/
def Lamp.dwellDue (l : Lamp) : Bool :=
  match l.params, l.under with
  | some k, some _ => k.mode == .auto && decide (l.remaining ≤ 1)
  | _, _ => false

/-- CHECK START (R180), request code 0012. -/
def execCheckStart (head : FrameHead) (args : List Word) (s : State) : Host.Outcome State Fault Refusal :=
  .next (s.takeRequest head 0x12 args decideCheckStart)

/-- CHECK NEXT (R183), request code 0013. -/
def execCheckNext (head : FrameHead) (args : List Word) (s : State) : Host.Outcome State Fault Refusal :=
  .next (s.takeRequest head 0x13 args decideCheckNext)

/-- CHECK PREVIOUS (R183), request code 0014. -/
def execCheckPrevious (head : FrameHead) (args : List Word) (s : State) : Host.Outcome State Fault Refusal :=
  .next (s.takeRequest head 0x14 args decideCheckPrevious)

/-- CHECK STOP (R184), request code 0015. -/
def execCheckStop (head : FrameHead) (args : List Word) (s : State) : Host.Outcome State Fault Refusal :=
  .next (s.takeRequest head 0x15 args decideCheckStop)

/-- LAMP_CHECK_INTERVAL (R182): the expiry of the unit's interval, whatever comes about at it. -/
def execLampCheckInterval (s : State) : Host.Outcome State Fault Refusal :=
  .next (s.whenRunning State.checkTick)

/-- DWELL_EXPIRES (R182): the interval at which the remaining dwell of an AUTO check reaches 0; when it would not, there is no
such event (log 7). -/
def execDwellExpires (s : State) : Host.Outcome State Fault Refusal :=
  .next (s.whenRunning fun s => if s.lamp.dwellDue then s.checkTick else s)

end Sys2Proof.Machine
end

