-- ==== Sys2Proof/Machine/PlaybackCommands.lean ====
section
/-! DEFINITION. The commands of the Playback Unit (chapter 3): GO, PAUSE, RESUME and RELEASE requests, and its interval, named
by what comes about at it. -/

namespace Sys2Proof.Machine

/-- GO decided (R52, R53): target, cue number, override. The target code is the one field test 4 of R203 does not cover. -/
def decideGo (_ : PortIx) (args : List Word) (s : State) : Decision :=
  match args with
  | [target, number, limit] =>
    match s.goCheck (goTargetOf target number) with
    | .ok (b, e) => accepted (s.acceptGo b e (overrideOf limit))
    | .error r => refuse s r
  | _ => refuse s .badArgument

/-- Slot ALL in PAUSE and RESUME (R218). -/
def slotAll : Word := 0xFFFF

/-- PAUSE of one slot (R69). -/
def State.pauseSlot (w : Word) (s : State) : Decision :=
  match finOf? 6 w with
  | some n =>
    match s.playback.slots[n] with
    | .fading f => done { s with playback := { s.playback with slots := s.playback.slots.set n (.paused f) } }
    | _ => refuse s .notActive
  | none => refuse s .notActive

/-- PAUSE ALL (R70). -/
def State.pauseAll (s : State) : State :=
  { s with playback := (s.playback.mapSlots Slot.pause).pauseFollow true }

/-- RESUME of one slot (R71). -/
def State.resumeSlot (w : Word) (s : State) : Decision :=
  match finOf? 6 w with
  | some n =>
    match s.playback.slots[n] with
    | .paused f => done { s with playback := { s.playback with slots := s.playback.slots.set n (.fading f) } }
    | _ => refuse s .notActive
  | none => refuse s .notActive

/-- RESUME ALL (R72). -/
def State.resumeAll (s : State) : State :=
  { s with playback := (s.playback.mapSlots Slot.resume).pauseFollow false }

/-- PAUSE decided: one word, a slot or ALL (R69, R70, R224). -/
def decidePause (_ : PortIx) (args : List Word) (s : State) : Decision :=
  match args with
  | [w] => if w = slotAll then done s.pauseAll else s.pauseSlot w
  | _ => refuse s .badArgument

/-- RESUME decided: one word, a slot or ALL (R71, R72, R224). -/
def decideResume (_ : PortIx) (args : List Word) (s : State) : Decision :=
  match args with
  | [w] => if w = slotAll then done s.resumeAll else s.resumeSlot w
  | _ => refuse s .badArgument

/-- RELEASE decided: a time, above 60000 taken as 60000 (R75). -/
def decideRelease (_ : PortIx) (args : List Word) (s : State) : Decision :=
  match args with
  | [t] =>
    if s.inChangeover then refuse s .busy
    else if s.playback.slots.toList.all Slot.isFetching then refuse s .busy
    else done (s.release (clampTime t.toNat))
  | _ => refuse s .badArgument

/-- GO (R55), request code 0001. -/
def execGo (head : FrameHead) (args : List Word) (s : State) : Host.Outcome State Fault Refusal :=
  .next (s.takeRequest head 0x01 args decideGo)

/-- PAUSE (R69), request code 0002; with the word FFFF hex it is PAUSE ALL (R218). -/
def execPause (head : FrameHead) (args : List Word) (s : State) : Host.Outcome State Fault Refusal :=
  .next (s.takeRequest head 0x02 args decidePause)

/-- PAUSE ALL (R70), request code 0002 with slot FFFF hex. -/
def execPauseAll (head : FrameHead) (s : State) : Host.Outcome State Fault Refusal :=
  .next (s.takeRequest head 0x02 [slotAll] fun _ _ s => done s.pauseAll)

/-- RESUME (R71), request code 0003; with the word FFFF hex it is RESUME ALL (R218). -/
def execResume (head : FrameHead) (args : List Word) (s : State) : Host.Outcome State Fault Refusal :=
  .next (s.takeRequest head 0x03 args decideResume)

/-- RESUME ALL (R72), request code 0003 with slot FFFF hex. -/
def execResumeAll (head : FrameHead) (s : State) : Host.Outcome State Fault Refusal :=
  .next (s.takeRequest head 0x03 [slotAll] fun _ _ s => done s.resumeAll)

/-- RELEASE (R76), request code 0004. -/
def execRelease (head : FrameHead) (args : List Word) (s : State) : Host.Outcome State Fault Refusal :=
  .next (s.takeRequest head 0x04 args decideRelease)

/-- PLAYBACK_INTERVAL (R66): the expiry of the Playback Unit's interval, whatever comes about at it. -/
def execPlaybackInterval (s : State) : Host.Outcome State Fault Refusal :=
  .next (s.whenRunning State.playbackTick)

/-- The slot completes at the next interval (R67). -/
def State.slotDue (n : SlotIx) (s : State) : Bool := s.playback.slots[n].advance.due

/-- SLOT_COMPLETES (R67): the interval at which the slot's e reaches E; when it would not, there is no such event (log 7). -/
def execSlotCompletes (slot : SlotIx) (s : State) : Host.Outcome State Fault Refusal :=
  .next (s.whenRunning fun s => if s.slotDue slot then s.playbackTick else s)

/-- FOLLOW_FIRES (R74): the interval at which a pending follow at 0, not paused, fires; else there is no such event (log 7). -/
def execFollowFires (s : State) : Host.Outcome State Fault Refusal :=
  .next (s.whenRunning fun s => if s.playback.follow = some ⟨0, false⟩ then s.playbackTick else s)

end Sys2Proof.Machine
end

