-- ==== Sys2Proof/Machine/SettingsCommands.lean ====
section
/-! DEFINITION. The SET requests (R207–R209, R224), one row an item. The parameter words of each are the instance word and the
values; the item word is the row's own. An instance word that the layout gives as zero is not read (R218, log 11). -/

namespace Sys2Proof.Machine

/-- The request code of SET (R224). -/
def codeSet : Word := 0x16

/-- At least one input is both enabled and manage-permitted (R209). -/
def managing (inputs : Vector InputSettings 4) : Bool := inputs.toList.any fun i => i.enabled && i.permit

/-- One input's settings changed, refused when no input would be both enabled and manage-permitted (R209). -/
def protectedSet (s : State) (p : PortIx) (f : InputSettings → InputSettings) (t : State) : Decision :=
  if managing (s.mgmt.inputs.set p (f s.mgmt.inputs[p])) then done t else refuse s .badArgument

/-- SET of INPUT ENABLE decided (R98, R99, R208, R209). -/
def decideSetInputEnable (_ : PortIx) (args : List Word) (s : State) : Decision :=
  match args with
  | [input, value] =>
    match finOf? 4 input, boolOf? value with
    | some i, some b => protectedSet s i (fun j => { j with enabled := b }) (s.setEnabled i b)
    | _, _ => refuse s .badArgument
  | _ => refuse s .badArgument

/-- SET of INPUT PERMIT decided (R208, R209). -/
def decideSetInputPermit (_ : PortIx) (args : List Word) (s : State) : Decision :=
  match args with
  | [input, value] =>
    match finOf? 4 input, boolOf? value with
    | some i, some b =>
      protectedSet s i (fun j => { j with permit := b }) (s.modInput i fun j => { j with permit := b })
    | _, _ => refuse s .badArgument
  | _ => refuse s .badArgument

/-- SET of AUTO-RESYNC decided (R112, R208). -/
def decideSetAutoResync (_ : PortIx) (args : List Word) (s : State) : Decision :=
  match args with
  | [input, value] =>
    match finOf? 4 input, boolOf? value with
    | some i, some b => done (s.modInput i fun j => { j with autoResync := b })
    | _, _ => refuse s .badArgument
  | _ => refuse s .badArgument

/-- SET of LOSS TIMES decided: N, H, F (R97, R208). -/
def decideSetLossTimes (_ : PortIx) (args : List Word) (s : State) : Decision :=
  match args with
  | [input, n, h, f] =>
    match finOf? 4 input, lossOf? n h f with
    | some i, some (n, h, f) => done (s.modInput i fun j => { j with lossN := n, lossH := h, lossF := f })
    | _, _ => refuse s .badArgument
  | _ => refuse s .badArgument

/-- SET of ACCEPT MASK decided: a first channel, then one or more mask words (R100, R208, log 13). -/
def decideSetAcceptMask (_ : PortIx) (args : List Word) (s : State) : Decision :=
  match args with
  | input :: first :: w :: ws =>
    match finOf? 4 input, numberOf? 1024 first with
    | some i, some c =>
      let values := (w :: ws).flatMap maskBits
      if c.val + values.length ≤ 1024 then done (s.modInput i fun j => { j with accept := setRun j.accept c.val values })
      else refuse s .badArgument
    | _, _ => refuse s .badArgument
  | _ => refuse s .badArgument

/-- SET of OUTPUT LINK decided: the pending settings and the pending flag of the link (R167, R208). -/
def decideSetOutputLink (_ : PortIx) (args : List Word) (s : State) : Decision :=
  match args with
  | [link, enabled, resolution] =>
    match finOf? 6 link, boolOf? enabled, resolutionOf? resolution with
    | some k, some e, some r => done (s.modOut k fun o => { o with pending := ⟨e, r⟩, pendingFlag := true })
    | _, _, _ => refuse s .badArgument
  | _ => refuse s .badArgument

/-- SET of BUDGET decided: the first group, then one or more budgets (R150, R208, log 13). -/
def decideSetBudget (_ : PortIx) (args : List Word) (s : State) : Decision :=
  match args with
  | group :: w :: ws =>
    match finOf? 18 group, allSome ((w :: ws).map budgetOf?) with
    | some g, some bs =>
      if g.val + bs.length ≤ 18 then
        done { s with mgmt := { s.mgmt with budgets := setRun s.mgmt.budgets g.val bs } }
      else refuse s .badArgument
    | _, _ => refuse s .badArgument
  | _ => refuse s .badArgument

/-- SET of START BANK decided (R207, R208). -/
def decideSetStartBank (_ : PortIx) (args : List Word) (s : State) : Decision :=
  match args with
  | [_, bank] =>
    match startBankOf? bank with
    | some b => done { s with mgmt := { s.mgmt with startBank := b } }
    | none => refuse s .badArgument
  | _ => refuse s .badArgument

/-- SET of EVENT ENABLES decided: flag words A and B (R213, R224). -/
def decideSetEventEnables (_ : PortIx) (args : List Word) (s : State) : Decision :=
  match args with
  | [_, a, b] => done { s with mgmt := s.mgmt.enable (EventSet.ofWords a b) }
  | _ => refuse s .badArgument

/-- SET of MEMORY TIMING decided: the SEL-P count, then the SEL-H count (R190, R208). -/
def decideSetMemoryTiming (_ : PortIx) (args : List Word) (s : State) : Decision :=
  match args with
  | [_, p, h] =>
    match finOf? 4 p, finOf? 4 h with
    | some wp, some wh => done { s with memPort := { s.memPort with waitP := wp, waitH := wh } }
    | _, _ => refuse s .badArgument
  | _ => refuse s .badArgument

/-- A SET row: the item word, then the row's parameter words (R224). -/
def State.takeSet (head : FrameHead) (item : Word) (args : List Word)
    (decide : PortIx → List Word → State → Decision) (s : State) : State :=
  s.takeRequest head codeSet (item :: args) fun p args s => decide p args.tail s

/-- SET of INPUT ENABLE (R209), item 0. -/
def execSetInputEnable (head : FrameHead) (args : List Word) (s : State) : Host.Outcome State Fault Refusal :=
  .next (s.takeSet head 0 args decideSetInputEnable)

/-- SET of INPUT PERMIT (R209), item 1. -/
def execSetInputPermit (head : FrameHead) (args : List Word) (s : State) : Host.Outcome State Fault Refusal :=
  .next (s.takeSet head 1 args decideSetInputPermit)

/-- SET of AUTO-RESYNC (R112), item 2. -/
def execSetAutoResync (head : FrameHead) (args : List Word) (s : State) : Host.Outcome State Fault Refusal :=
  .next (s.takeSet head 2 args decideSetAutoResync)

/-- SET of LOSS TIMES (R97), item 3. -/
def execSetLossTimes (head : FrameHead) (args : List Word) (s : State) : Host.Outcome State Fault Refusal :=
  .next (s.takeSet head 3 args decideSetLossTimes)

/-- SET of ACCEPT MASK (R100), item 4. -/
def execSetAcceptMask (head : FrameHead) (args : List Word) (s : State) : Host.Outcome State Fault Refusal :=
  .next (s.takeSet head 4 args decideSetAcceptMask)

/-- SET of OUTPUT LINK (R167), item 5. -/
def execSetOutputLink (head : FrameHead) (args : List Word) (s : State) : Host.Outcome State Fault Refusal :=
  .next (s.takeSet head 5 args decideSetOutputLink)

/-- SET of BUDGET (R150), item 6. -/
def execSetBudget (head : FrameHead) (args : List Word) (s : State) : Host.Outcome State Fault Refusal :=
  .next (s.takeSet head 6 args decideSetBudget)

/-- SET of START BANK (R207), item 7. -/
def execSetStartBank (head : FrameHead) (args : List Word) (s : State) : Host.Outcome State Fault Refusal :=
  .next (s.takeSet head 7 args decideSetStartBank)

/-- SET of EVENT ENABLES (R213), item 8. -/
def execSetEventEnables (head : FrameHead) (args : List Word) (s : State) : Host.Outcome State Fault Refusal :=
  .next (s.takeSet head 8 args decideSetEventEnables)

/-- SET of MEMORY TIMING (R190), item 9. -/
def execSetMemoryTiming (head : FrameHead) (args : List Word) (s : State) : Host.Outcome State Fault Refusal :=
  .next (s.takeSet head 9 args decideSetMemoryTiming)

end Sys2Proof.Machine
end

