-- ==== Sys2Proof/Machine/TableCommands.lean ====
section
/-! DEFINITION. The requests of the Table Store (chapter 6): EDIT, UPDATE, DISCARD and READ TABLE. -/

namespace Sys2Proof.Machine

/-- The values of an EDIT, decoded for its table: none when a value carries a field out of range (R4, R5, R123). -/
inductive EditValues where
  | patch (es : List (Option PatchEntry))
  | circuits (rs : List (Option CircuitRecord))
  | points (ws : List Word)
  deriving DecidableEq, Repr

/-- The value words of an EDIT decoded (R219, R220). -/
def editValues? (t : TableName) (ws : List Word) : Option EditValues :=
  match t with
  | .prodPatch | .housePatch => (patchRun? ws).map .patch
  | .prodCircuits | .houseCircuits => (recordRun? ws).map .circuits
  | .curves => some (.points ws)

/-- A table set with a run of values written from place `first`, counted from 0 (R123). -/
def TableSet.write (t : TableSet) (name : TableName) (first : Nat) (v : EditValues) : TableSet :=
  match name, v with
  | .prodPatch, .patch es => { t with prodPatch := setRun t.prodPatch first es }
  | .housePatch, .patch es => { t with housePatch := setRun t.housePatch first es }
  | .prodCircuits, .circuits rs => { t with prodCircuits := setRun t.prodCircuits first rs }
  | .houseCircuits, .circuits rs => { t with houseCircuits := setRun t.houseCircuits first rs }
  | .curves, .points ws => { t with curves := setRun t.curves first ws }
  | _, _ => t

/-- The words of a run of elements of a table, from place `first` counted from 0 (R127). -/
def TableSet.read (t : TableSet) (name : TableName) (first count : Nat) : List Word :=
  match name with
  | .prodPatch => (getRun t.prodPatch first count).flatMap patchWords
  | .housePatch => (getRun t.housePatch first count).flatMap patchWords
  | .prodCircuits => (getRun t.prodCircuits first count).flatMap recordWords
  | .houseCircuits => (getRun t.houseCircuits first count).flatMap recordWords
  | .curves => getRun t.curves first count

/-- Every index of a run of `count` elements from `first` lies in the table (R123, R127). -/
def TableName.holds (t : TableName) (first count : Nat) : Bool :=
  decide (t.base ≤ first ∧ first + count ≤ t.base + t.size)

/-- The table is one of the production layer's (R123). -/
def TableName.isProduction : TableName → Bool
  | .prodPatch | .prodCircuits => true
  | _ => false

/-- The value words of an EDIT make one or more whole elements (R224). -/
def TableName.wholeElements (t : TableName) (ws : List Word) : Bool :=
  decide (1 ≤ ws.length ∧ ws.length ≤ 125 ∧ ws.length % t.width = 0)

/-- EDIT decided (R123). The number of words and the table code are test 4 of R203, which leaves out no code field but the
target of GO, and a request that fails it reaches no owner; BUSY is the owner's first test (log 10). -/
def decideEdit (_ : PortIx) (args : List Word) (s : State) : Decision :=
  match args with
  | table :: first :: ws =>
    match TableName.of? table with
    | some t =>
      if !t.wholeElements ws then refuse s .badArgument
      else if s.tables.stage = .loading then refuse s .busy
      else if !t.holds first.toNat (ws.length / t.width) then refuse s .badArgument
      else if t.isProduction && s.tables.liveBank.isNone then refuse s .badArgument
      else
        match editValues? t ws with
        | some v =>
          done { s with tables := { s.tables with
            staging := s.tables.staging.write t (first.toNat - t.base) v
            stage := .edited } }
        | none => refuse s .badArgument
    | none => refuse s .badArgument
  | _ => refuse s .badArgument

/-- The effect of an accepted UPDATE (R124). -/
def State.update (s : State) : State :=
  State.flagLinks s.tables.live s.tables.staging
    { s with tables := { s.tables with live := s.tables.staging, stage := .clean } }

/-- UPDATE decided (R124). -/
def decideUpdate (_ : PortIx) (args : List Word) (s : State) : Decision :=
  match args with
  | [] => if s.tables.stage = .loading then refuse s .busy else done s.update
  | _ => refuse s .badArgument

/-- DISCARD decided (R126). -/
def decideDiscard (_ : PortIx) (args : List Word) (s : State) : Decision :=
  match args with
  | [] =>
    if s.tables.stage = .loading then refuse s .busy
    else done { s with tables := { s.tables with staging := s.tables.live, stage := .clean } }
  | _ => refuse s .badArgument

/-- The set a READ TABLE names (R224). -/
def State.tableSet? (s : State) (w : Word) : Option TableSet :=
  if w = 0 then some s.tables.live else if w = 1 then some s.tables.staging else none

/-- READ TABLE decided (R127). -/
def decideReadTable (_ : PortIx) (args : List Word) (s : State) : Decision :=
  match args with
  | [set, table, first, count] =>
    match s.tableSet? set, TableName.of? table with
    | some v, some t =>
      if 1 ≤ count.toNat ∧ t.holds first.toNat count.toNat ∧ count.toNat * t.width ≤ 128 then
        { state := s, result := .done, data := v.read t (first.toNat - t.base) count.toNat }
      else refuse s .badArgument
    | _, _ => refuse s .badArgument
  | _ => refuse s .badArgument

/-- EDIT (R123), request code 000A. -/
def execEdit (head : FrameHead) (args : List Word) (s : State) : Host.Outcome State Fault Refusal :=
  .next (s.takeRequest head 0x0A args decideEdit)

/-- UPDATE (R124), request code 000B. -/
def execUpdate (head : FrameHead) (args : List Word) (s : State) : Host.Outcome State Fault Refusal :=
  .next (s.takeRequest head 0x0B args decideUpdate)

/-- DISCARD (R126), request code 000C. -/
def execDiscard (head : FrameHead) (args : List Word) (s : State) : Host.Outcome State Fault Refusal :=
  .next (s.takeRequest head 0x0C args decideDiscard)

/-- READ TABLE (R127), request code 000D. -/
def execReadTable (head : FrameHead) (args : List Word) (s : State) : Host.Outcome State Fault Refusal :=
  .next (s.takeRequest head 0x0D args decideReadTable)

end Sys2Proof.Machine
end

