-- ==== Sys2Proof/Machine/Status.lean ====
section
/-! DEFINITION. SNAPSHOT, STATUS READ with the data of every selector (R210, R224, R225), CLEAR EVENTS, RESTART, and a request
frame whose code chapter 12 does not assign. -/

namespace Sys2Proof.Machine

/-! ### Codes of states: the place of a state in its list, from 0 (R224, R225) -/

def SyncState.code : SyncState → Word
  | .hunt => 0
  | .acquire => 1
  | .locked => 2

def SourceState.code : SourceState → Word
  | .disabled => 0
  | .absent => 1
  | .live => 2
  | .holding => 3
  | .fading => 4
  | .lost => 5

def Slot.code : Slot → Word
  | .free => 0
  | .fetching _ => 1
  | .fading _ => 2
  | .paused _ => 3

def StagingState.code : StagingState → Word
  | .clean => 0
  | .edited => 1
  | .loading => 2

def LinkState.code : LinkState → Word
  | .off => 0
  | .waiting => 1
  | .running => 2
  | .stopping => 3
  | .held => 4

def CtlState.code : CtlState → Word
  | .starting => 0
  | .idle => 1
  | .busy => 2

def OpKind.code : OpKind → Word
  | .changeover => 0
  | .save => 1
  | .saveHouse => 2
  | .format => 3
  | .storeCue => 4
  | .deleteCue => 5
  | .readCue => 6
  | .startUp => 7

def OpReason.code : OpReason → Word
  | .none => 0
  | .ok => 1
  | .bankBad => 2
  | .full => 3
  | .noCue => 4
  | .memoryFault => 5

def CheckOutcome.code : CheckOutcome → Word
  | .notTested => 0
  | .matched => 1
  | .failed => 2

def ResetCause.code : ResetCause → Word
  | .line => 0
  | .restart => 1

def TxnKind.code : TxnKind → Word
  | .cellRead => 0
  | .cellWrite => 1
  | .recordWrite => 2
  | .cueFetch => 3

def CheckSet.code : CheckSet → Word
  | .patched => 0
  | .all => 1

def CheckMode.code : CheckMode → Word
  | .auto => 0
  | .step => 1

/-- The requester of a transaction: the Playback Unit 0, the Bank Controller 1 (R225). -/
def requesterWord (slot : Option SlotIx) : Word := if slot.isSome then 0 else 1

/-- The area of a transaction and its bank, which the bank lines carry, 0 for the house region (R189, R225). -/
def Area.words : Area → List Word
  | .prod b => [0, wordOf b.val]
  | .house => [1, 0]

/-- The kind of a bank operation, FFFF hex when absent (R225). -/
def kindWord : Option OpKind → Word
  | some k => k.code
  | none => 0xFFFF

/-! ### The data of each selector (R210) -/

/-- GENERAL (R128, R210, R217). The operation record of no operation has the absent codes of its kind and its bank, and its
segment index is zero (R218, log 5). A live bank of NONE is FFFF hex, a code that no rule gives it (log 29). -/
def State.readGeneral (s : State) : List Word :=
  let header := match s.bank.lastHeader with
    | some h =>
      [wordOf h.bank.val, h.mark] ++ longWords h.writeCount ++
        [h.count, h.directory.code, h.patch.code, h.circuits.code]
    | none => [0xFFFF, 0, 0, 0, 0, 0, 0, 0]
  let segment := match s.bank.op with
    | some op => wordOf op.segment
    | none => 0
  [s.mgmt.cause.code, s.bank.state.code, kindWord s.opKind, bankWord (s.bank.op.bind OpRecord.bank), segment] ++ header
    ++ [s.tables.stage.code, bankWord s.tables.liveBank]

/-- EVENTS (R212, R213, R215). The flags stand in their flag words A and B, then the enable set in its own: R224 names those
words for SET and CLEAR EVENTS only, and that this reply carries them is the model's choice (log 30). The word of the level of
ALERT is a free value (log 6). -/
def Mgmt.readEvents (m : Mgmt) : List Word :=
  [m.flags.wordA, m.flags.wordB, m.enables.wordA, m.enables.wordB, Config.alertWord m.alertLow, m.lastOp.reason.code,
    kindWord m.lastOp.kind, bankWord m.lastOp.bank]

/-- The elements of a range of `count` from `first`, as its place counted from 0 and its length: none when the count is 0 or
above `most`, or the range runs out of the `size` elements numbered from `base` (R210). -/
def rangeOf? (base size most : Nat) (first count : Word) : Option (Nat × Nat) :=
  if base ≤ first.toNat ∧ 1 ≤ count.toNat ∧ count.toNat ≤ most ∧ first.toNat + count.toNat ≤ base + size then
    some (first.toNat - base, count.toNat)
  else none

/-- SETTINGS of one item (R207, R210, R224): none for an item code that is not assigned, an instance or a range out of range. -/
def State.readSettings (s : State) (item inst first count : Word) : Option (List Word) :=
  let input (f : InputSettings → List Word) : Option (List Word) := (finOf? 4 inst).map fun i => f s.mgmt.inputs[i]
  match item.toNat with
  | 0 => input fun i => [boolWord i.enabled]
  | 1 => input fun i => [boolWord i.permit]
  | 2 => input fun i => [boolWord i.autoResync]
  | 3 => input fun i => [wordOf i.lossN, timeWord i.lossH, wordOf i.lossF]
  | 4 =>
    match finOf? 4 inst, rangeOf? 0 64 64 first count with
    | some i, some (a, n) => some (((maskWords s.mgmt.inputs[i].accept).drop a).take n)
    | _, _ => none
  | 5 => (finOf? 6 inst).map fun k => linkWords s.outs[k].pending
  | 6 => (rangeOf? 0 18 18 first count).map fun r => (getRun s.mgmt.budgets r.1 r.2).map wordOf
  | 7 => some [bankWord s.mgmt.startBank]
  | 8 => some [s.mgmt.enables.wordA, s.mgmt.enables.wordB]
  | 9 => some [wordOf s.memPort.waitP.val, wordOf s.memPort.waitH.val]
  | _ => none

/-- The six counters, two words each, in the order of R115. -/
def Counters.words (c : Counters) : List Word :=
  longWords c.good ++ longWords c.bad ++ longWords c.gaps ++ longWords c.completed ++ longWords c.aborted ++
    longWords c.dropped

/-- INPUT LINK (R120). -/
def Port.readLink (q : Port) : List Word :=
  [q.sync.code, q.expected, wordOf q.goodCount, wordOf q.window.length, wordOf (badCount q.window)] ++ q.counters.words
    ++ q.snapshot.words ++ [wordOf q.replies.length, boolWord q.sending.isSome]

/-- INPUT SOURCE (R210). -/
def Port.readSource (q : Port) : List Word :=
  [q.source.code, q.factor, wordOf q.lossTimer, wordOf q.hold, wordOf q.fade, boolWord q.sweeping]

/-- The two words of a channel of LIVE SET (R224). -/
def liveWords : Option Level → List Word
  | some l => [0, l]
  | none => [0xFFFF, 0]

/-- The words of a fade slot: state, cue, start order, e, E (R79, R225). -/
def Slot.words (s : Slot) : List Word :=
  let cueWordOf (f : Fade) : Word := match f.cue with
    | some c => wordOf c
    | none => 0xFFFF
  let held (f : Fade) : List Word :=
    [cueWordOf f, wordOf f.order] ++ longWords (BitVec.ofNat 32 f.elapsed) ++ longWords (BitVec.ofNat 32 f.endTime)
  match s with
  | .free => [s.code, 0, 0, 0, 0, 0, 0]
  | .fetching f => [s.code, wordOf f.cue, 0, 0, 0, 0, 0]
  | .fading f => s.code :: held f
  | .paused f => s.code :: held f

/-- PLAYBACK (R79). -/
def Playback.words (pb : Playback) : List Word :=
  pb.slots.toList.flatMap Slot.words ++ [cueWord pb.lastTaken, cueWord pb.takenLink,
    timeWord (pb.follow.map Follow.remaining), boolWord ((pb.follow.map Follow.paused).getD false)]

/-- The two words of a channel of CHANNELS: its playback level and its owner (R79, R224). -/
def Playback.channelWords (pb : Playback) (c : Chan) : List Word :=
  [pb.level c, match pb.owner[c] with
    | some o => wordOf o.slot.val
    | none => 0xFFFF]

/-- BUDGET: the budget from the settings, the last demand and the limited flag of each group (R159). -/
def State.readBudget (s : State) : List Word :=
  (List.finRange 18).flatMap fun g =>
    [wordOf s.mgmt.budgets[g]] ++ longWords (BitVec.ofNat 32 s.levels.groups[g].lastDemand) ++
      [boolWord s.levels.groups[g].limited]

/-- The words of one output port (R176). The current settings take two words, enabled and then resolution, and so do the
pending settings: the order SET gives them in, a layout that R224 does not state for this reply (the model's choice, log 30). -/
def OutPort.words (o : OutPort) : List Word :=
  [o.state.code, boolWord o.frame.isSome, wordOf o.position, boolWord o.forced] ++ linkWords o.current
    ++ linkWords o.pending ++ [boolWord o.pendingFlag]

/-- HOLDACK as a state, "asserted or deasserted" (R169), by its place in that list (R224, log 6). -/
def holdackWord (asserted : Bool) : Word := if asserted then 0 else 1

/-- OUTPUTS (R176). The word of the level of HOLDREQ is a free value (log 6). -/
def State.readOutputs (s : State) : List Word :=
  s.outs.toList.flatMap OutPort.words ++ [Config.holdreqWord s.hold.holdreq, holdackWord s.hold.holdack]

/-- LAMP CHECK (R188, R225): the state, a presence word, the five parameters, the circuit under check, the remaining dwell. -/
def Lamp.words (l : Lamp) : List Word :=
  let params := match l.params with
    | some k => [1, k.level, wordOf k.dwell, k.set.code, wordOf (Circ.number k.start), k.mode.code]
    | none => [0, 0, 0, 0, 0, 0]
  [boolWord l.active] ++ params ++ [match l.under with
    | some c => wordOf (Circ.number c)
    | none => 0, wordOf l.remaining]

/-- MEMORY PORT (R202). The words of the transaction stand only while the engine is BUSY (log 18). -/
def MemPort.words (m : MemPort) : List Word :=
  let engine := match m.engine with
    | none => [0]
    | some e => [1, requesterWord e.slot, e.kind.code] ++ e.area.words ++ [wordOf e.cell]
  let fault := match m.lastFault with
    | none => List.replicate 6 0xFFFF
    | some f => [requesterWord f.slot, f.kind.code] ++ f.area.words ++ [wordOf f.cell, wordOf f.place]
  [wordOf m.waitP.val, wordOf m.waitH.val] ++ engine ++ [wordOf m.queue.length]
    ++ (m.queue.flatMap fun f => [wordOf f.slot.val, wordOf f.cell]) ++ [boolWord m.bankSlot.isSome] ++ fault

/-- The data of a STATUS READ, by its selector code (R210, R224): none when it is refused. -/
def State.statusData (s : State) (selector item inst first count : Word) : Option (List Word) :=
  match selector.toNat with
  | 0 => some s.readGeneral
  | 1 => some s.mgmt.readEvents
  | 2 => s.readSettings item inst first count
  | 3 => (finOf? 4 inst).map fun i => s.ports[i].readLink
  | 4 => (finOf? 4 inst).map fun i => s.ports[i].readSource
  | 5 =>
    match finOf? 4 inst, rangeOf? 1 1024 64 first count with
    | some i, some (a, n) => some ((getRun s.ports[i].live a n).flatMap liveWords)
    | _, _ => none
  | 6 => some s.playback.words
  | 7 => (rangeOf? 1 1024 64 first count).map fun r =>
      (((List.finRange 1024).drop r.1).take r.2).flatMap s.playback.channelWords
  | 8 => (rangeOf? 1 768 128 first count).map fun r => getRun s.levels.image r.1 r.2
  | 9 => some s.readBudget
  | 10 => some s.readOutputs
  | 11 => some s.lamp.words
  | 12 => some s.memPort.words
  | _ => none

/-! ### The requests of the Management Unit (R116, R210, R214, R216) -/

/-- The counters of a port copied to its snapshot and set to zero (R116). -/
def Port.takeSnapshot (q : Port) : Port := { q with snapshot := q.counters, counters := Counters.zero }

/-- SNAPSHOT decided: all four ports in one event (R116). -/
def decideSnapshot (_ : PortIx) (args : List Word) (s : State) : Decision :=
  match args with
  | [] => done (s.modPorts fun _ q => q.takeSnapshot)
  | _ => refuse s .badArgument

/-- STATUS READ decided (R210). -/
def decideStatusRead (_ : PortIx) (args : List Word) (s : State) : Decision :=
  match args with
  | [selector, item, inst, first, count] =>
    match s.statusData selector item inst first count with
    | some ws => { state := s, result := .done, data := ws }
    | none => refuse s .badArgument
  | _ => refuse s .badArgument

/-- CLEAR EVENTS decided: flag words A and B (R214). -/
def decideClearEvents (_ : PortIx) (args : List Word) (s : State) : Decision :=
  match args with
  | [a, b] => done { s with mgmt := s.mgmt.clear (EventSet.ofWords a b) }
  | _ => refuse s .badArgument

/-- RESTART decided: the reply is marked, and nothing else changes (R216). -/
def decideRestart (_ : PortIx) (args : List Word) (s : State) : Decision :=
  match args with
  | [] => { state := s, result := .accepted, restart := true }
  | _ => refuse s .badArgument

/-- SET decided by its item word (R207, R224): an item that is not assigned fails test 4 of R203. -/
def decideSet (p : PortIx) (args : List Word) (s : State) : Decision :=
  match args with
  | item :: rest =>
    match item.toNat with
    | 0 => decideSetInputEnable p rest s
    | 1 => decideSetInputPermit p rest s
    | 2 => decideSetAutoResync p rest s
    | 3 => decideSetLossTimes p rest s
    | 4 => decideSetAcceptMask p rest s
    | 5 => decideSetOutputLink p rest s
    | 6 => decideSetBudget p rest s
    | 7 => decideSetStartBank p rest s
    | 8 => decideSetEventEnables p rest s
    | 9 => decideSetMemoryTiming p rest s
    | _ => refuse s .badArgument
  | [] => refuse s .badArgument

/-- Any request decided by its code (R204, R224). A code that is not assigned does not come here: test 1 of R203 refuses it. -/
def decideByCode (code : Word) (p : PortIx) (args : List Word) (s : State) : Decision :=
  match code.toNat with
  | 0x01 => decideGo p args s
  | 0x02 => decidePause p args s
  | 0x03 => decideResume p args s
  | 0x04 => decideRelease p args s
  | 0x05 => decideCueDataWrite p args s
  | 0x06 => decideCueDataRead p args s
  | 0x07 => decideStoreCue p args s
  | 0x08 => decideDeleteCue p args s
  | 0x09 => decideReadCue p args s
  | 0x0A => decideEdit p args s
  | 0x0B => decideUpdate p args s
  | 0x0C => decideDiscard p args s
  | 0x0D => decideReadTable p args s
  | 0x0E => decideChangeover p args s
  | 0x0F => decideSave p args s
  | 0x10 => decideSaveHouse p args s
  | 0x11 => decideFormat p args s
  | 0x12 => decideCheckStart p args s
  | 0x13 => decideCheckNext p args s
  | 0x14 => decideCheckPrevious p args s
  | 0x15 => decideCheckStop p args s
  | 0x16 => decideSet p args s
  | 0x17 => decideSnapshot p args s
  | 0x18 => decideStatusRead p args s
  | 0x19 => decideClearEvents p args s
  | 0x1A => decideRestart p args s
  | _ => refuse s .unknown

/-- SNAPSHOT (R116), request code 0017. -/
def execSnapshot (head : FrameHead) (args : List Word) (s : State) : Host.Outcome State Fault Refusal :=
  .next (s.takeRequest head 0x17 args decideSnapshot)

/-- STATUS READ (R210), request code 0018. -/
def execStatusRead (head : FrameHead) (args : List Word) (s : State) : Host.Outcome State Fault Refusal :=
  .next (s.takeRequest head codeStatusRead args decideStatusRead)

/-- CLEAR EVENTS (R214), request code 0019. -/
def execClearEvents (head : FrameHead) (args : List Word) (s : State) : Host.Outcome State Fault Refusal :=
  .next (s.takeRequest head 0x19 args decideClearEvents)

/-- RESTART (R216), request code 001A. -/
def execRestart (head : FrameHead) (args : List Word) (s : State) : Host.Outcome State Fault Refusal :=
  .next (s.takeRequest head 0x1A args decideRestart)

/-- UNKNOWN_REQUEST (R203): a code that chapter 12 does not assign is answered UNKNOWN. A word that is an assigned code, or a
SET whose item is not assigned, is decided as that code is (log 14). -/
def execUnknownRequest (head : FrameHead) (code : Word) (args : List Word) (s : State) :
    Host.Outcome State Fault Refusal :=
  .next (s.takeRequest head code args (decideByCode code))

end Sys2Proof.Machine
end

