-- ==== Sys2Proof/Machine/Frames.lean ====
section
/-! DEFINITION. A frame of a forward lane as its words: the check word, the header and the form tests of the link receiver
(R105, R106, R222), and the meaning of BAD_CHECK_FRAME, which brings a frame's words as received. -/

namespace Sys2Proof.Machine

/-- What a good frame of a forward lane carries besides its header's count and its check word (R105). -/
inductive RxFrame where
  | level (seq base flags : Word) (levels : List Level)
  | request (seq code : Word) (args : List Word)
  deriving DecidableEq, Repr

/-- The words of a LEVEL frame (R222). -/
def levelFrameWords (seq base flags : Word) (levels : List Level) : List Word :=
  withCheck ([0x0001#16, seq, wordOf levels.length, base, flags] ++ levels)

/-- The words of a REQUEST frame (R222). -/
def requestFrameWords (seq code : Word) (args : List Word) : List Word :=
  withCheck ([0x0002#16, seq, wordOf (args.length + 1), code] ++ args)

/-- What the words between the count word and the check word hold, by the kind word: none when the kind is not assigned, their
number is not the header's word count, or a form test fails (R106). Bits 13–0 of a LEVEL frame's flags word are not
tested (log 28). -/
def RxFrame.ofBody (kind seq count : Word) (body : List Word) : Option RxFrame :=
  match kind.toNat, body with
  | 0x0001, base :: flags :: levels =>
    if levels.length = count.toNat ∧ levelForm base levels then some (.level seq base flags levels) else none
  | 0x0002, code :: args =>
    if args.length + 1 = count.toNat ∧ count.toNat ≤ 128 then some (.request seq code args) else none
  | _, _ => none

/-- The good frame that received words are: none when the check word computed over them differs from the one carried (R105),
when they are too few for a header and a check word, or when they are malformed (R106). -/
def RxFrame.ofWords (ws : List Word) : Option RxFrame :=
  match ws with
  | kind :: seq :: count :: rest => if checkMatches ws then RxFrame.ofBody kind seq count rest.dropLast else none
  | _ => none

/-- A completed frame of a forward lane, by its words: a good frame goes to the sync machine with its sequence number, a
bad-check frame without one (R105, R106, R113). -/
def State.receiveWords (p : PortIx) (ws : List Word) (s : State) : State :=
  match RxFrame.ofWords ws with
  | some (.level seq base flags levels) => s.receiveGood p seq (State.takeLevels p base flags levels)
  | some (.request seq code args) => s.receiveGood p seq (State.manage p seq code args (decideByCode code))
  | none => s.receiveBad p

/-- BAD_CHECK_FRAME (R105, R106, R111): a completed frame whose check word fails or which is malformed. Words that make a good
frame are taken as that frame (log 14). -/
def execBadCheckFrame (lane : LaneEnd) (words : List Word) (s : State) : Host.Outcome State Fault Refusal :=
  .next (s.endFrame lane.port lane.stale (State.receiveWords lane.port words))

end Sys2Proof.Machine
end

