-- ==== Sys2Proof/Machine/Intervals.lean ====
section
/-! DEFINITION. The interval of an Input Port (R89), named by what comes about at it: PORT_INTERVAL, LOSS_TIMER_RUNS_OUT,
HOLD_RUNS_OUT and FADE_RUNS_OUT. -/

namespace Sys2Proof.Machine

/-- The next interval finds the loss timer of a LIVE source at 0 (R90). -/
def Port.lossDue (q : Port) : Bool := q.source == .live && q.lossTimer == 0

/-- The next interval brings the hold count of a HOLDING source to H (R91). -/
def Port.holdDue (i : InputSettings) (q : Port) : Bool :=
  match i.lossH with
  | some h => q.source == .holding && decide (h ≤ q.hold + 1)
  | none => false

/-- The next interval brings the fade count of a FADING source to F (R92, R93). -/
def Port.fadeDue (i : InputSettings) (q : Port) : Bool := q.source == .fading && decide (i.lossF ≤ q.fade + 1)

/-- PORT_INTERVAL (R89): the expiry of the port's interval, whatever comes about at it. -/
def execPortInterval (port : PortIx) (s : State) : Host.Outcome State Fault Refusal :=
  .next (s.whenRunning (State.portTick port))

/-- LOSS_TIMER_RUNS_OUT (R90): the interval that finds a LIVE source's loss timer at 0; else there is no such event (log 7). -/
def execLossTimerRunsOut (port : PortIx) (s : State) : Host.Outcome State Fault Refusal :=
  .next (s.whenRunning fun s => if s.ports[port].lossDue then s.portTick port else s)

/-- HOLD_RUNS_OUT (R91): the interval that brings a HOLDING source's count to H; else there is no such event (log 7). -/
def execHoldRunsOut (port : PortIx) (s : State) : Host.Outcome State Fault Refusal :=
  .next (s.whenRunning fun s => if s.ports[port].holdDue s.mgmt.inputs[port] then s.portTick port else s)

/-- FADE_RUNS_OUT (R93): the interval that brings a FADING source's count to F; else there is no such event (log 7). -/
def execFadeRunsOut (port : PortIx) (s : State) : Host.Outcome State Fault Refusal :=
  .next (s.whenRunning fun s => if s.ports[port].fadeDue s.mgmt.inputs[port] then s.portTick port else s)

end Sys2Proof.Machine
end

