-- ==== Sys2Proof/Machine/OutputLinks.lean ====
section
/-! DEFINITION. The Output Ports and the hold control (chapter 8): frame starts, the frame timer, completion of a frame, and the
changes of HOLDREQ. -/

namespace Sys2Proof.Machine

/-! ### Frames (R164, R165, R222) -/

/-- Eight modes packed two bits each, the first in bits 1–0 (R222). -/
def packModes (ms : List Mode) : Word := ms.foldr (fun m w => (w <<< 2) ||| m.code) 0

/-- The sixteen mode words of a CYCLE-START frame (R222). -/
def modeWords (ms : List Mode) : List Word := (List.range 16).map fun i => packModes ((ms.drop (8 * i)).take 8)

/-- The words of a CYCLE-START frame: kind 0011, the resolution, the mode record (R164, R222). -/
def cycleStartFrame (r : Resolution) (ms : List Mode) : List Word :=
  withCheck ([0x0011#16, wordOf r.bits] ++ modeWords ms)

/-- A level cut to r bits: x − (x mod 2^(16 − r)) (R165). -/
def cutLevel (r : Resolution) (x : Level) : Level := x - BitVec.ofNat 16 (x.toNat % 2 ^ (16 - r.bits))

/-- The words of an output LEVEL frame: kind 0012, the cycle position, 128 levels cut to the resolution (R165, R222). -/
def outputLevelFrame (position : Nat) (r : Resolution) (levels : List Level) : List Word :=
  withCheck ([0x0012#16, wordOf position] ++ levels.map (cutLevel r))

/-- The published levels of a link's 128 circuits, in position order (R25, R165). -/
def Levels.linkLevels (l : Levels) (k : LinkIx) : List Level := List.ofFn fun i => l.image[circuitAt k i]

/-! ### Settings and frame starts (R163, R167) -/

/-- The pending settings applied when the pending flag is set, and the flag cleared (R167). -/
def OutPort.applyPending (o : OutPort) : OutPort :=
  if o.pendingFlag then { o with current := o.pending, pendingFlag := false } else o

/-- A frame start of link k (R163): a CYCLE-START at position 0 or by the forced-cycle-start flag, else a LEVEL frame. -/
def OutPort.frameStart (k : LinkIx) (t : TableSet) (l : Levels) (o : OutPort) : OutPort :=
  if o.position = 0 ∨ o.forced then
    let o := o.applyPending
    { o with
      forced := false
      position := 1
      frame := some (cycleStartFrame o.current.resolution (t.modeRecord k)) }
  else
    { o with
      position := if o.position = 24 then 0 else o.position + 1
      frame := some (outputLevelFrame o.position o.current.resolution (l.linkLevels k)) }

/-- A link goes HELD: its driver is high-impedance, its cycle position 0 and its forced-cycle-start flag set (R166, R170,
R171). -/
def OutPort.goHeld (o : OutPort) : OutPort := { o with state := .held, frame := none, position := 0, forced := true }

/-- A link turned off: its driver is high-impedance and its cycle position 0 (R168). -/
def OutPort.goOff (o : OutPort) : OutPort := { o with state := .off, frame := none, position := 0 }

/-- A link that may run after its pending settings are applied: HELD while HOLDREQ is asserted, else RUNNING from cycle
position 0 with a frame start at this expiry (R168, R175). -/
def OutPort.comeUp (k : LinkIx) (t : TableSet) (l : Levels) (holdreq : Bool) (o : OutPort) : OutPort :=
  if holdreq then o.goHeld else OutPort.frameStart k t l { o with state := .running, position := 0 }

/-- The pending settings turn the link off (R168). -/
def OutPort.turnsOff (o : OutPort) : Bool := o.pendingFlag && !o.pending.enabled

/-- An expiry of the frame timer of link k, by its link state (R161, R163, R168, R172, R175). `loading` says that the start-up
load runs. -/
def OutPort.expire (k : LinkIx) (t : TableSet) (l : Levels) (holdreq loading : Bool) (o : OutPort) : OutPort :=
  match o.state with
  | .off =>
    if o.pendingFlag then
      let o := o.applyPending
      if o.current.enabled then o.comeUp k t l holdreq else o
    else o
  | .waiting =>
    if loading then o
    else
      let o := o.applyPending
      if o.current.enabled then o.comeUp k t l holdreq else o.goOff
  | .running => if o.turnsOff then o.applyPending.goOff else o.frameStart k t l
  | .stopping => o
  | .held =>
    if o.turnsOff then o.applyPending.goOff
    else if holdreq then o
    else OutPort.frameStart k t l { o with state := .running }

/-- OUTPUT_FRAME_TIMER (R161): the expiry of the frame timer of a link. -/
def execOutputFrameTimer (link : LinkIx) (s : State) : Host.Outcome State Fault Refusal :=
  .next (s.whenRunning fun s =>
    (s.modOut link
      (OutPort.expire link s.tables.live s.levels s.hold.holdreq (s.bank.state == .starting))).restartFrame link)

/-! ### The hold control (R169–R172) -/

/-- The port drives its line (R161). -/
def OutPort.drives (o : OutPort) : Bool := o.state == .running || o.state == .stopping

/-- Some output link drives its line (R169). -/
def State.anyDrives (s : State) : Bool := s.outs.toList.any OutPort.drives

/-- HOLDACK is asserted at the first event after which HOLDREQ is asserted and no link drives, with HOLD-CHANGE (R169). -/
def State.settleHold (s : State) : State :=
  if s.hold.holdreq && !s.hold.holdack && !s.anyDrives then
    State.raise .holdChange { s with hold := { s.hold with holdack := true } }
  else s

/-- HOLDREQ becomes asserted, seen by a port (R170). -/
def OutPort.onHold (o : OutPort) : OutPort :=
  match o.state, o.frame with
  | .running, some _ => { o with state := .stopping }
  | .running, none => o.goHeld
  | _, _ => o

/-- The completion of the frame in flight, seen by a port: a STOPPING link goes HELD (R162, R171). -/
def OutPort.completeFrame (o : OutPort) : OutPort :=
  if o.state = .stopping then o.goHeld else { o with frame := none }

/-- OUTPUT_FRAME_COMPLETE (R162, R171): with no frame in flight there is no such event (log 4). -/
def execOutputFrameComplete (link : LinkIx) (s : State) : Host.Outcome State Fault Refusal :=
  .next (s.whenRunning fun s =>
    if s.outs[link].frame.isSome then (s.modOut link OutPort.completeFrame).settleHold else s)

/-- HOLDREQ_ASSERTED (R170): a change of level on HOLDREQ; while the RESET line is held the line changes and the change is not
taken (R169). A line already asserted does not change (log 4). -/
def execHoldreqAsserted (s : State) : Host.Outcome State Fault Refusal :=
  .next (
    if s.hold.line then s
    else if s.held then { s with hold := { s.hold with line := true } }
    else
      let s := s.modOuts fun _ o => o.onHold
      State.settleHold { s with hold := { s.hold with line := true, holdreq := true } })

/-- HOLDREQ becomes deasserted, seen by a port: a STOPPING link goes back to RUNNING (R172). -/
def OutPort.onRelease (o : OutPort) : OutPort := if o.state = .stopping then { o with state := .running } else o

/-- HOLDREQ_DEASSERTED (R172): HOLDACK is deasserted in the same event, with HOLD-CHANGE if it was asserted. -/
def execHoldreqDeasserted (s : State) : Host.Outcome State Fault Refusal :=
  .next (
    if !s.hold.line then s
    else if s.held then { s with hold := { s.hold with line := false } }
    else
      let acked := s.hold.holdack
      let s := s.modOuts fun _ o => o.onRelease
      State.raiseIf acked .holdChange { s with hold := ⟨false, false, false⟩ })

end Sys2Proof.Machine
end

