-- ==== Sys2Proof/Machine/Refresh.lean ====
section
/-! DEFINITION. The refresh of the Circuit Level Unit (R20): merge, patch and mode, check override, budget, publication. -/

namespace Sys2Proof.Machine

/-- Stage 1, the merged level of a channel: the greatest of its playback level and the ports' contributions (R101). -/
def State.merged (s : State) (c : Chan) : Level :=
  (List.finRange 4).foldl
    (fun m p => match s.ports[p].contribution s.mgmt.inputs[p] c with
      | some l => if m < l then l else m
      | none => m)
    (s.playback.level c)

/-- Stage 4, the check override of one circuit (R23, R186): the circuit under check takes the check level, a circuit not
exempt takes 0, an exempt one keeps its computed level; no override while IDLE. -/
def Lamp.override (l : Lamp) (c : Circ) (r : CircuitRecord) (computed : Level) : Level :=
  match l.under, l.params with
  | some u, some k => if c = u then k.level else if r.exempt then computed else 0
  | _, _ => computed

/-- The image that stages 1 to 4 leave (R20). -/
def State.stage4 (s : State) : Vector Level 768 :=
  let t := s.tables.live
  tab fun c => s.lamp.override c (t.record c) (t.computed s.merged c)

/-- A circuit counts in a group: its effective record names the group and is not exempt (R149, R152). -/
def CircuitRecord.countsIn (r : CircuitRecord) (g : GroupIx) : Bool := r.group == some g && !r.exempt

/-- What a circuit adds to the demand sum of a group: its load × its level (R152). -/
def TableSet.draw (t : TableSet) (g : GroupIx) (image : Vector Level 768) (c : Circ) : Nat :=
  if (t.record c).countsIn g then (t.record c).load.val * image[c].toNat else 0

/-- The demand sum X of a group over an image (R152). -/
def TableSet.demand (t : TableSet) (g : GroupIx) (image : Vector Level 768) : Nat :=
  (List.ofFn fun c => t.draw g image c).sum

/-- A group of budget B and demand sum X is over budget (R153). -/
def overBudget (budget x : Nat) : Bool := decide (0 < budget ∧ 65535 * budget < x)

/-- The level of a member of a scaled group: level × K div X, K = 65535 × B (R153). -/
def scaleLevel (budget x : Nat) (l : Level) : Level := BitVec.ofNat 16 (l.toNat * (65535 * budget) / x)

/-- Stage 5 for one circuit (R153): a member, not exempt, of an over-budget group is scaled; any other keeps its level. -/
def State.budgeted (s : State) (demands : Vector Nat 18) (c : Circ) (l : Level) : Level :=
  let r := s.tables.live.record c
  match r.group with
  | some g => if !r.exempt && overBudget s.mgmt.budgets[g] demands[g] then scaleLevel s.mgmt.budgets[g] demands[g] l else l
  | none => l

/-- The demand sums of all groups over the image that stage 4 left (R152). -/
def State.demands (s : State) : Vector Nat 18 :=
  let image := s.stage4
  tab fun g => s.tables.live.demand g image

/-- The image that a refresh publishes: stages 1 to 6 (R20). -/
def State.refreshImage (s : State) : Vector Level 768 :=
  let image := s.stage4
  let demands := s.demands
  tab fun c => s.budgeted demands c image[c]

/-- The group statuses that a refresh writes (R151, R155). -/
def State.refreshGroups (s : State) : Vector GroupStatus 18 :=
  let demands := s.demands
  tab fun g => ⟨demands[g] / 65535, overBudget s.mgmt.budgets[g] demands[g]⟩

/-- At least one group's limited flag goes from clear to set (R155). -/
def newlyLimited (old new : Vector GroupStatus 18) : Bool :=
  (List.finRange 18).any fun g => !old[g].limited && new[g].limited

/-- One refresh, taken as one event (R20, R25, R155). -/
def State.refresh (s : State) : State :=
  let groups := s.refreshGroups
  State.raiseIf (newlyLimited s.levels.groups groups) .budgetLimit
    ({ s with levels := ⟨s.refreshImage, groups⟩ }).restartRefresh

/-- REFRESH (R19, R20): the expiry of the refresh timer. -/
def execRefresh (s : State) : Host.Outcome State Fault Refusal :=
  .next (s.whenRunning State.refresh)

end Sys2Proof.Machine
end

