-- ==== Sys2Proof/Machine/Dispatch.lean ====
section
/-! DEFINITION. One arm for each command: the direct call of its meaning. -/

namespace Sys2Proof.Machine

def exec (i : Instr) (s : State) : Host.Outcome State Fault Refusal :=
  match i with
  | .resetLineAsserted cut => Sys2Proof.Machine.execResetLineAsserted cut s
  | .resetLineReleased => Sys2Proof.Machine.execResetLineReleased s
  | .levelFrame head base flags levels => Sys2Proof.Machine.execLevelFrame head base flags levels s
  | .badCheckFrame lane words => Sys2Proof.Machine.execBadCheckFrame lane words s
  | .frameCut port stale => Sys2Proof.Machine.execFrameCut port stale s
  | .unknownRequest head code args => Sys2Proof.Machine.execUnknownRequest head code args s
  | .go head args => Sys2Proof.Machine.execGo head args s
  | .pause head args => Sys2Proof.Machine.execPause head args s
  | .pauseAll head => Sys2Proof.Machine.execPauseAll head s
  | .resume head args => Sys2Proof.Machine.execResume head args s
  | .resumeAll head => Sys2Proof.Machine.execResumeAll head s
  | .release head args => Sys2Proof.Machine.execRelease head args s
  | .cueDataWrite head args => Sys2Proof.Machine.execCueDataWrite head args s
  | .cueDataRead head args => Sys2Proof.Machine.execCueDataRead head args s
  | .storeCue head args => Sys2Proof.Machine.execStoreCue head args s
  | .deleteCue head args => Sys2Proof.Machine.execDeleteCue head args s
  | .readCue head args => Sys2Proof.Machine.execReadCue head args s
  | .edit head args => Sys2Proof.Machine.execEdit head args s
  | .update head args => Sys2Proof.Machine.execUpdate head args s
  | .discard head args => Sys2Proof.Machine.execDiscard head args s
  | .readTable head args => Sys2Proof.Machine.execReadTable head args s
  | .changeover head args => Sys2Proof.Machine.execChangeover head args s
  | .save head args => Sys2Proof.Machine.execSave head args s
  | .saveHouse head args => Sys2Proof.Machine.execSaveHouse head args s
  | .format head args => Sys2Proof.Machine.execFormat head args s
  | .checkStart head args => Sys2Proof.Machine.execCheckStart head args s
  | .checkNext head args => Sys2Proof.Machine.execCheckNext head args s
  | .checkPrevious head args => Sys2Proof.Machine.execCheckPrevious head args s
  | .checkStop head args => Sys2Proof.Machine.execCheckStop head args s
  | .setInputEnable head args => Sys2Proof.Machine.execSetInputEnable head args s
  | .setInputPermit head args => Sys2Proof.Machine.execSetInputPermit head args s
  | .setAutoResync head args => Sys2Proof.Machine.execSetAutoResync head args s
  | .setLossTimes head args => Sys2Proof.Machine.execSetLossTimes head args s
  | .setAcceptMask head args => Sys2Proof.Machine.execSetAcceptMask head args s
  | .setOutputLink head args => Sys2Proof.Machine.execSetOutputLink head args s
  | .setBudget head args => Sys2Proof.Machine.execSetBudget head args s
  | .setStartBank head args => Sys2Proof.Machine.execSetStartBank head args s
  | .setEventEnables head args => Sys2Proof.Machine.execSetEventEnables head args s
  | .setMemoryTiming head args => Sys2Proof.Machine.execSetMemoryTiming head args s
  | .snapshot head args => Sys2Proof.Machine.execSnapshot head args s
  | .statusRead head args => Sys2Proof.Machine.execStatusRead head args s
  | .clearEvents head args => Sys2Proof.Machine.execClearEvents head args s
  | .restart head args => Sys2Proof.Machine.execRestart head args s
  | .replyFrameComplete port cut => Sys2Proof.Machine.execReplyFrameComplete port cut s
  | .portInterval port => Sys2Proof.Machine.execPortInterval port s
  | .lossTimerRunsOut port => Sys2Proof.Machine.execLossTimerRunsOut port s
  | .holdRunsOut port => Sys2Proof.Machine.execHoldRunsOut port s
  | .fadeRunsOut port => Sys2Proof.Machine.execFadeRunsOut port s
  | .playbackInterval => Sys2Proof.Machine.execPlaybackInterval s
  | .slotCompletes slot => Sys2Proof.Machine.execSlotCompletes slot s
  | .followFires => Sys2Proof.Machine.execFollowFires s
  | .fetchComplete => Sys2Proof.Machine.execFetchComplete s
  | .segmentComplete => Sys2Proof.Machine.execSegmentComplete s
  | .rdyFault cut => Sys2Proof.Machine.execRdyFault cut s
  | .refresh => Sys2Proof.Machine.execRefresh s
  | .lampCheckInterval => Sys2Proof.Machine.execLampCheckInterval s
  | .dwellExpires => Sys2Proof.Machine.execDwellExpires s
  | .outputFrameTimer link => Sys2Proof.Machine.execOutputFrameTimer link s
  | .outputFrameComplete link => Sys2Proof.Machine.execOutputFrameComplete link s
  | .holdreqAsserted => Sys2Proof.Machine.execHoldreqAsserted s
  | .holdreqDeasserted => Sys2Proof.Machine.execHoldreqDeasserted s

end Sys2Proof.Machine
end

