-- ==== Sys2Proof/Machine/Step.lean ====
section
/-! DEFINITION. The step of the machine: the command at the front of the queue, or one memory clock of the part when none
waits. -/

namespace Sys2Proof.Machine

/-- One 50 ns memory clock with no command (log 2): every timer counts down (log 3) and the Memory Port's engine goes on (R191,
R192). While the RESET line is held nothing does (R217). -/
def State.idle (s : State) : State :=
  if s.held then s else State.memoryClock { s with timers := s.timers.tick }

/-- One step: `exec` of the command at the front of the queue on the state with the queue's rest; with no command waiting, one
memory clock (log 2). -/
def step (s : State) : Host.Outcome State Fault Refusal :=
  match s.pending with
  | c :: cs => exec c { s with pending := cs }
  | [] => .next s.idle

/-- The state with the command that a word spells at the front of its queue; the state itself when the word spells none. -/
def State.withFetchWord (s : State) (nbits w : Nat) : State :=
  match decodeTableWord nbits w with
  | some c => { s with pending := c :: s.pending }
  | none => s

end Sys2Proof.Machine
end

