-- ==== Sys2Proof/Safety.lean ====
section
/-! DEFINITION. The words in which claims about the part are stated: the REQUEST frame that a command is, when a port takes a
frame, when a request is decided, the ports after its reply, and the invariants that every step keeps. -/

namespace Sys2Proof

/-- A REQUEST frame: what a frame brings besides its payload, its request code, its parameter words (R222). -/
structure Request where
  head : FrameHead
  code : Word
  args : List Word
  deriving DecidableEq, Repr

/-- The REQUEST frame that a command is (R224). -/
def Instr.request? : Instr → Option Request
  | .unknownRequest head code args => some ⟨head, code, args⟩
  | .go head args => some ⟨head, 0x01, args⟩
  | .pause head args => some ⟨head, 0x02, args⟩
  | .resume head args => some ⟨head, 0x03, args⟩
  | .release head args => some ⟨head, 0x04, args⟩
  | .cueDataWrite head args => some ⟨head, 0x05, args⟩
  | .cueDataRead head args => some ⟨head, 0x06, args⟩
  | .storeCue head args => some ⟨head, 0x07, args⟩
  | .deleteCue head args => some ⟨head, 0x08, args⟩
  | .readCue head args => some ⟨head, 0x09, args⟩
  | .edit head args => some ⟨head, 0x0A, args⟩
  | .update head args => some ⟨head, 0x0B, args⟩
  | .discard head args => some ⟨head, 0x0C, args⟩
  | .readTable head args => some ⟨head, 0x0D, args⟩
  | .changeover head args => some ⟨head, 0x0E, args⟩
  | .save head args => some ⟨head, 0x0F, args⟩
  | .saveHouse head args => some ⟨head, 0x10, args⟩
  | .format head args => some ⟨head, 0x11, args⟩
  | .checkStart head args => some ⟨head, 0x12, args⟩
  | .checkNext head args => some ⟨head, 0x13, args⟩
  | .checkPrevious head args => some ⟨head, 0x14, args⟩
  | .checkStop head args => some ⟨head, 0x15, args⟩
  | .snapshot head args => some ⟨head, 0x17, args⟩
  | .statusRead head args => some ⟨head, 0x18, args⟩
  | .clearEvents head args => some ⟨head, 0x19, args⟩
  | .restart head args => some ⟨head, 0x1A, args⟩
  | .pauseAll head => some ⟨head, 0x02, [0xFFFF]⟩
  | .resumeAll head => some ⟨head, 0x03, [0xFFFF]⟩
  | .setInputEnable head args => some ⟨head, 0x16, 0 :: args⟩
  | .setInputPermit head args => some ⟨head, 0x16, 1 :: args⟩
  | .setAutoResync head args => some ⟨head, 0x16, 2 :: args⟩
  | .setLossTimes head args => some ⟨head, 0x16, 3 :: args⟩
  | .setAcceptMask head args => some ⟨head, 0x16, 4 :: args⟩
  | .setOutputLink head args => some ⟨head, 0x16, 5 :: args⟩
  | .setBudget head args => some ⟨head, 0x16, 6 :: args⟩
  | .setStartBank head args => some ⟨head, 0x16, 7 :: args⟩
  | .setEventEnables head args => some ⟨head, 0x16, 8 :: args⟩
  | .setMemoryTiming head args => some ⟨head, 0x16, 9 :: args⟩
  | _ => none

/-- The parameter words of a request fit in number the layout of its code (R224). An EDIT's further test, whole elements, is
`TableName.wholeElements`. -/
def Instr.countFits : Instr → Bool
  | .go _ args => args.length == 3
  | .pause _ args => args.length == 1
  | .resume _ args => args.length == 1
  | .release _ args => args.length == 1
  | .cueDataWrite _ args => decide (2 ≤ args.length)
  | .cueDataRead _ args => args.length == 2
  | .storeCue _ args => args.length == 1
  | .deleteCue _ args => args.length == 2
  | .readCue _ args => args.length == 2
  | .edit _ args => decide (3 ≤ args.length)
  | .update _ args => args.length == 0
  | .discard _ args => args.length == 0
  | .readTable _ args => args.length == 4
  | .changeover _ args => args.length == 1
  | .save _ args => args.length == 1
  | .saveHouse _ args => args.length == 0
  | .format _ args => args.length == 1
  | .checkStart _ args => args.length == 5
  | .checkNext _ args => args.length == 0
  | .checkPrevious _ args => args.length == 0
  | .checkStop _ args => args.length == 0
  | .snapshot _ args => args.length == 0
  | .statusRead _ args => args.length == 5
  | .clearEvents _ args => args.length == 2
  | .restart _ args => args.length == 0
  | .setInputEnable _ args => args.length == 2
  | .setInputPermit _ args => args.length == 2
  | .setAutoResync _ args => args.length == 2
  | .setLossTimes _ args => args.length == 4
  | .setAcceptMask _ args => decide (2 ≤ args.length)
  | .setOutputLink _ args => args.length == 3
  | .setBudget _ args => decide (1 ≤ args.length)
  | .setStartBank _ args => args.length == 2
  | .setEventEnables _ args => args.length == 3
  | .setMemoryTiming _ args => args.length == 3
  | _ => true

/-- The head of the frame that a command brings whole with a matching check word, when it is a good frame: a LEVEL frame that
passes the form tests, or a REQUEST frame whose payload fits (R106). -/
def Instr.goodFrame? : Instr → Option FrameHead
  | .levelFrame head base _ levels => if Machine.levelForm base levels then some head else none
  | i => i.request?.bind fun r => if r.args.length ≤ 127 then some r.head else none

/-- The port and the staleness of a frame that ends on a forward lane, by a command other than a cut (R105). -/
def Instr.frameEnd? : Instr → Option (PortIx × Bool)
  | .levelFrame head _ _ _ => some (head.port, head.stale)
  | .badCheckFrame lane _ => some (lane.port, lane.stale)
  | i => i.request?.map fun r => (r.head.port, r.head.stale)

namespace Machine

/-! ### Frames that a port takes (R104, R107) -/

/-- A frame that ends on the forward lane of a port is taken: the part is not in reset, the input is enabled, and the frame was
not in progress at the last enable or reset (R107). -/
structure State.Takes (s : State) (p : PortIx) (stale : Bool) : Prop where
  running : s.held = false
  enabled : s.mgmt.inputs[p].enabled = true
  fresh   : s.ports[p].receiver = .receiving ∨ (s.ports[p].receiver = .noFrame ∧ stale = false)

/-- A good frame comes in sequence at a LOCKED port, and its outcome does not bring the window to the loss of lock (R111,
R112). -/
structure State.InStep (s : State) (h : FrameHead) : Prop where
  takes  : s.Takes h.port h.stale
  locked : s.ports[h.port].sync = .locked
  inSeq  : h.seq = s.ports[h.port].expected
  calm   : s.mgmt.inputs[h.port].autoResync = false ∨ badCount (pushMark s.ports[h.port].window .good) < 4

/-- A request comes in step at a manage-permitted port with room in its reply queue, the start-up load over: it reaches test 4
of R203 and its owner (R203–R205). -/
structure State.Serves (s : State) (h : FrameHead) : Prop where
  inStep    : s.InStep h
  room      : s.ports[h.port].replies.length < 4
  permitted : s.mgmt.inputs[h.port].permit = true
  started   : s.bank.state ≠ .starting

/-- A port after a good frame in sequence in LOCKED: the frame counted and recorded GOOD (R111, R112, R115). -/
def Port.tookGood (q : Port) : Port :=
  { q with
    receiver := .noFrame
    expected := q.expected + 1
    window := pushMark q.window .good
    counters := { q.counters with good := countUp q.counters.good } }

/-- A port after a frame that fails its check word or its form, its sync machine aside (R106, R115). -/
def Port.tookBad (q : Port) : Port :=
  { q with receiver := .noFrame, counters := { q.counters with bad := countUp q.counters.bad } }

/-- A port after a good frame that is not in step, its sync machine aside (R115). -/
def Port.countedGood (q : Port) : Port :=
  { q with receiver := .noFrame, counters := { q.counters with good := countUp q.counters.good } }

/-- A port after a gap in LOCKED: counted good and as a gap, recorded BAD, and any sweep in progress aborted (R86, R111). -/
def Port.tookGap (seq : Word) (q : Port) : Port :=
  Port.abortSweep { q with
    receiver := .noFrame
    expected := seq + 1
    window := pushMark q.window .bad
    counters := { q.counters with good := countUp q.counters.good, gaps := countUp q.counters.gaps } }

/-- A set with a page of levels written at its channels, from a base channel number on (R84). -/
def pageOver (base : Word) (levels : List Level) (set : Vector (Option Level) 1024) : Vector (Option Level) 1024 :=
  tab fun c =>
    if base.toNat ≤ Chan.number c ∧ Chan.number c < base.toNat + levels.length then levels[Chan.number c - base.toNat]?
    else set[c]

/-- What every reset leaves once it has ended, from the state `s` it found: every block's reset values, the start-up load begun
with house cell 0 granted, the lines HOLDREQ and RDY, the memory and the queue as they were (R144, R174, R201, R217). -/
structure State.Fresh (s t : State) (cause : ResetCause) : Prop where
  held     : t.held = false
  ports    : ∀ p : PortIx, t.ports[p] =
    { Port.reset with receiver := if s.ports[p].receiver = .noFrame then .noFrame else .dropping }
  playback : t.playback = Playback.reset
  tables   : t.tables = Tables.reset
  levels   : t.levels = Levels.reset
  lamp     : t.lamp = Lamp.reset
  outs     : ∀ k : LinkIx, t.outs[k] = OutPort.reset
  hold     : t.hold = ⟨s.hold.line, s.hold.line, s.hold.line⟩
  memPort  : t.memPort = { MemPort.reset with rdy := s.memPort.rdy, samples := s.memPort.samples }
  bank     : t.bank = { BankCtl.reset with op := some OpRecord.startUp }
  mgmt     : t.mgmt = if s.hold.line then (Mgmt.reset cause).raise .holdChange else Mgmt.reset cause
  timers   : t.timers = Timers.reset
  pending  : t.pending = s.pending

/-- The ports after a request that came in step was decided, its reply `r` in the queue of port `p`. -/
def State.portsAfter (s : State) (p : PortIx) (r : Reply) : Vector Port 4 :=
  s.ports.set p (Port.enqueue r s.ports[p].tookGood)

/-- The reply to a request, with no data and no restart mark. -/
def replyTo (h : FrameHead) (code : Word) (r : Result) : Reply := ⟨h.seq, code, r, [], false⟩

/-! ### Playback -/

/-- Playback after the forced completion of slot n, channel by channel (R56): its channels rest at their targets, no slot owns
them, slot n is FREE, and the start orders above 1 move down by one. -/
def Playback.forceCompleted (pb : Playback) (n : SlotIx) : Playback :=
  { pb with
    slots := tab fun m => if m = n then .free else pb.slots[m].mapOrder fun o => if 1 < o then o - 1 else o
    owner := tab fun c => if pb.owner[c].map Owned.slot = some n then none else pb.owner[c]
    resting := tab fun c =>
      match pb.owner[c] with
      | some o => if o.slot = n then o.target else pb.resting[c]
      | none => pb.resting[c] }

/-- A channel that a RELEASE claims: lit in playback, or owned (R61, R76). -/
def Playback.holds (pb : Playback) (c : Chan) : Bool := decide (0 < pb.level c) || pb.owner[c].isSome

/-- Playback after a RELEASE over time t into slot n, channel by channel (R76): every channel held fades from its level to 0 in
slot n, every other fading or paused slot is FREE; with t = 0 every channel held rests at 0. -/
def Playback.releasedBy (pb : Playback) (n : SlotIx) (t : Nat) : Playback where
  directory := pb.directory
  lastTaken := none
  takenLink := none
  follow := none
  slots := tab fun m =>
    if m = n then (if t = 0 then .free else .fading ⟨none, .full, 0, t, 0, t, t, 0, 1, none, none⟩)
    else if pb.slots[m].isFetching then pb.slots[m] else .free
  owner := tab fun c => if pb.holds c ∧ 0 < t then some ⟨n, pb.level c, 0⟩ else none
  resting := tab fun c => if pb.holds c ∧ t = 0 then 0 else pb.resting[c]

/-- Playback after one interval at which no slot completes and no follow fires: each FADING slot's e one higher, a pending follow
that is not paused one lower (R66). -/
def Playback.counted (pb : Playback) : Playback :=
  { pb with
    slots := tab fun m => match pb.slots[m] with
      | .fading f => .fading { f with elapsed := f.elapsed + 1 }
      | x => x
    follow := pb.follow.map fun f => if f.paused then f else { f with remaining := f.remaining - 1 } }

/-- Playback after a GO has taken an entry into slot n (R55, steps 2 to 4). -/
def Playback.taken (pb : Playback) (n : SlotIx) (e : DirEntry) (override : Option Nat) : Playback :=
  { pb with
    slots := pb.slots.set n (.fetching ⟨e.cue, e.cell, override, pb.lastTaken, pb.takenLink⟩)
    lastTaken := some e.cue
    takenLink := none
    follow := none }

/-! ### The Memory Port and bank operations -/

/-- The engine as it begins a granted transaction with CRC start value `crc` (R195, R196). -/
def MemPort.began (m : MemPort) (kind : TxnKind) (area : Area) (cell : Nat) (slot : Option SlotIx) (crc : Word) : MemPort :=
  { m with
    engine := some
      { kind := kind, area := area, cell := cell, slot := slot, place := 0, clock := 0
        wait := match area with
          | .prod _ => m.waitP
          | .house => m.waitH
        low := 0, crc := crc }
    address := BitVec.ofNat 17 (512 * cell)
    bankLines := match area with
      | .prod b => BitVec.ofNat 2 b.val
      | .house => 0 }

/-- The Memory Port after a fetch has joined it, nothing else waiting while it is IDLE (R195, R196). -/
def MemPort.fetchJoined (m : MemPort) (f : FetchReq) : MemPort :=
  if m.engine.isSome then { m with queue := m.queue ++ [f] } else m.began .cueFetch (.prod f.bank) f.cell (some f.slot) 0xFFFF

/-- The Memory Port after a bank segment has been handed to it, nothing else waiting while it is IDLE (R195, R196). -/
def MemPort.segmentHanded (m : MemPort) (g : Segment) : MemPort :=
  if m.engine.isSome then { m with bankSlot := some g } else m.began g.kind g.area g.cell none g.crc

/-- Nothing waits at the Memory Port while its engine is IDLE (R196). -/
def MemPort.granted (m : MemPort) : Prop := m.engine = none → m.queue = [] ∧ m.bankSlot = none

/-- The Management Unit after a bank operation has ended with a reason (R130, R215). -/
def Mgmt.ended (m : Mgmt) (reason : OpReason) (op : OpRecord) : Mgmt :=
  Mgmt.raise (if reason = .ok then .bankOpDone else .bankOpFailed) { m with lastOp := ⟨reason, some op.kind, op.bank⟩ }

/-- The Memory Port in the event in which a bank segment ends and the operation goes on with `g`: the oldest waiting fetch is
granted, `g` waiting, or, with none, `g` (R196, R197). -/
def MemPort.passedOn (m : MemPort) (g : Segment) : MemPort :=
  match m.queue with
  | f :: fs => { m with queue := fs, bankSlot := some g }.began .cueFetch (.prod f.bank) f.cell (some f.slot) 0xFFFF
  | [] => { m with bankSlot := none }.began g.kind g.area g.cell none g.crc

/-- The Memory Port in the event in which a transaction ends and its requester hands over nothing: the oldest waiting fetch is
granted, or, with none, a waiting segment, or the engine is IDLE (R196, R197). -/
def MemPort.wentOn (m : MemPort) : MemPort :=
  match m.queue, m.bankSlot with
  | f :: fs, _ => { m with queue := fs }.began .cueFetch (.prod f.bank) f.cell (some f.slot) 0xFFFF
  | [], some g => { m with bankSlot := none }.began g.kind g.area g.cell none g.crc
  | [], none => { m with engine := none }

/-- The Memory Port at the RDY fault of the transaction `e`, cut as `cut` says: the last fault record replaced, the address and
bank lines at the cut access (R189, R192, R200). -/
def MemPort.faulted (m : MemPort) (e : Engine) (cut : Cut) : MemPort :=
  { (if cut.accesses = 0 then m else m.drive e.area e.cell (e.place + cut.accesses)) with
    lastFault := some ⟨e.slot, e.kind, e.area, e.cell, e.place + cut.accesses⟩ }

/-- The word at an address after a write is cut: the words before the cut access are written, the word of the cut access is the
new one or the old one as `cut.landed` says, every other word is as before (R192, R201, log 16). -/
def State.cutRead (s : State) (e : Engine) (cut : Cut) (a : Nat) : Word :=
  if wordAddress e.area e.cell e.place ≤ a ∧
      (a < wordAddress e.area e.cell (e.place + cut.accesses) ∨
        a = wordAddress e.area e.cell (e.place + cut.accesses) ∧ cut.landed = true) then
    at' (s.txnWords e) (a - wordAddress e.area e.cell 0)
  else Memory.read a s.mem

/-- A bank operation goes on with segment `g`, its record `op`: the segment is handed to the Memory Port, and when it is granted
in the same event, a cell write's words are formed in the cell buffer (R130, R196, R197). -/
def State.onWith (s : State) (op : OpRecord) (g : Segment) : State :=
  { s with
    bank := { s.bank with
      op := some op
      buffer := if s.memPort.queue = [] ∧ g.kind = .cellWrite then bufferOf (s.formCell op) else s.bank.buffer }
    memPort := s.memPort.passedOn g }

/-- A bank operation ends with a reason at the completion of the transaction `e` (R130, R197, R215). -/
def State.endedWith (s : State) (e : Engine) (reason : OpReason) (op : OpRecord) : State :=
  { s with
    bank := { s.bank with state := .idle, op := none }
    memPort := (s.memPort.drive e.area e.cell ((s.txnWords e).length - 1)).wentOn
    mgmt := s.mgmt.ended reason op }

/-- The house part of the start-up load ends: the load ends when the start bank is NONE, else the changeover to it begins
(R147). `m` is the Memory Port as the transaction left it. -/
def State.loadEnded (s : State) (m : MemPort) : State :=
  match s.mgmt.startBank with
  | none => { s with bank := { s.bank with state := .idle, op := none }, memPort := m.wentOn }
  | some b =>
    { s with
      tables := { s.tables with stage := .loading }
      bank := { s.bank with op := some (OpRecord.new .changeover (some b) none) }
      memPort := m.passedOn ⟨.cellRead, .prod b, 0, 0xFFFF⟩ }

/-- A cell 0 read of a bank: its words in the cell buffer and the last header read replaced, the patch and circuit checks not
tested (R128, R132). The directory outcome covers the check and the form (log 17). -/
def State.cell0Read (s : State) (bank : Option BankIx) (ws : List Word) : State :=
  let c := Cell0.ofWords ws
  { s with bank := { s.bank with
      buffer := bufferOf ws
      lastHeader := bank.map fun b =>
        ⟨b, c.mark, c.writeCount, c.count, if c.sound then .matched else .failed, .notTested, .notTested⟩ } }

/-- A segment of a bank operation of the given kind and segment index is in progress, in a transaction of kind `txn`. -/
structure State.InSegment (s : State) (e : Engine) (op : OpRecord) (kind : OpKind) (segment : Nat) (txn : TxnKind) :
    Prop where
  running    : s.held = false
  granted    : s.memPort.engine = some e
  requester  : e.slot = none
  txnKind    : e.kind = txn
  inProgress : s.bank.op = some op
  opKind     : op.kind = kind
  opSegment  : op.segment = segment

/-! ### Invariants -/

/-- ALERT is low exactly while the RESET line is not held and some flag is both set and enabled (R213). -/
def State.alertRight (s : State) : Prop :=
  s.mgmt.alertLow = (!s.held && decide (s.mgmt.flags &&& s.mgmt.enables ≠ 0))

/-- HOLDACK is asserted only while HOLDREQ is asserted and no output link drives its line (R169). -/
def State.holdRight (s : State) : Prop :=
  s.hold.holdack = true → s.hold.holdreq = true ∧ s.anyDrives = false

/-- A port holds at most four replies, it is SENDING exactly while one is queued, and its window holds at most 16 outcomes
(R112, R117, R118). -/
def Port.bounded (q : Port) : Prop :=
  q.replies.length ≤ 4 ∧ (q.sending.isSome ↔ q.replies ≠ []) ∧ q.window.length ≤ 16

/-- Some input is both enabled and manage-permitted (R209). -/
def State.managed (s : State) : Prop := managing s.mgmt.inputs = true

/-- The start orders of the FADING and PAUSED slots are the numbers 1 to k, each held by one slot, k the number of such slots
(R49). -/
def Playback.ordersRight (pb : Playback) : Prop :=
  (∀ (n : SlotIx) (o : Nat), pb.slots[n].order? = some o → 1 ≤ o ∧ o ≤ pb.activeCount) ∧
    ∀ (m n : SlotIx) (o : Nat), pb.slots[m].order? = some o → pb.slots[n].order? = some o → m = n

/-- A channel is owned only by a FADING or PAUSED slot (R46, R47). -/
def Playback.ownersRight (pb : Playback) : Prop :=
  ∀ c : Chan, ∀ o : Owned, pb.owner[c] = some o → (pb.slots[o.slot].fade?).isSome

/-- The live directory, and the one that a bank operation holds, are sound by R30; a STORE CUE in progress brings a cue number in
range and, after its segment 1, a cell 10–255 that its directory does not name (R38, R39). -/
def State.directoriesRight (s : State) : Prop :=
  soundEntries s.playback.directory = true ∧
    ∀ op, s.bank.op = some op → soundEntries op.header.entries = true ∧
      (op.kind = .storeCue → 1 ≤ op.cue ∧ op.cue ≤ 9999 ∧
        (op.segment = 1 ∨ (10 ≤ op.cell ∧ op.cell ≤ 255 ∧ ∀ d ∈ op.header.entries, d.cell ≠ op.cell)))

end Machine

end Sys2Proof
end

