-- ==== Sys2Proof/Certificates/Slice0/Obligations.lean ====
section
/-! DEFINITION. The statements for the provers: what the commands and the machine do, from the numbered rules of spec/. -/

open Sys2Proof Sys2Proof.Machine

/-! ### The step, the reset and the RESET line -/

/-- A step runs the command at the front of the queue on the state with the queue's rest. -/
def Obligations.StepRunsTheFrontCommand : Prop :=
  ∀ (c : Instr) (cs : List Instr) (s : State), step { s with pending := c :: cs } = exec c { s with pending := cs }

/-- With no command waiting, a step is one memory clock (the model's choice, log 2): the timers count down (log 3); an access
of the Memory Port counts its 2 + w clocks, then samples RDY, whose level is the memory's and free (log 2). A high sample ends
the access and begins the next, or completes the transaction with the last; a low one adds a clock (R191, R197). The 64th low
sample of an access faults the transaction (R192), and which value the cut word has is free (log 2). A write access drives its
word on the data lines; else they are high-impedance (R189). -/
def Obligations.AnIdleStepIsOneMemoryClock : Prop :=
  ∀ s : State, s.pending = [] →
    (s.held = true → step s = .next s) ∧
    (s.held = false → s.memPort.engine = none → step s = .next { s with timers := s.timers.tick }) ∧
    (s.memPort.engine = none → s.dataDrive = none) ∧
    ∀ e : Engine, s.held = false → s.memPort.engine = some e →
      s.dataDrive = (if e.kind.writes then some (at' (s.txnWords e) e.place) else none) ∧
      (e.clock + 1 < 2 + e.wait.val →
        step s = .next { s with
          timers := s.timers.tick
          memPort := { s.memPort with engine := some { e with clock := e.clock + 1 } } }) ∧
      (2 + e.wait.val ≤ e.clock + 1 →
        let high := Config.rdyLevel s.memPort.samples
        let n := (s.txnWords e).length
        let w := at' (s.txnWords e) e.place
        let m := { s.memPort with rdy := high, samples := s.memPort.samples + 1 }
        let sampled : State := { s with timers := s.timers.tick, memPort := m }
        (high = true → e.place + 1 < n → ∃ t, step s = .next t ∧
          t = { sampled with
            mem := t.mem
            memPort := { m.drive e.area e.cell (e.place + 1) with
              engine := some { e with
                place := e.place + 1, clock := 0, wait := s.memPort.waitOf e.area, low := 0
                crc := if e.place < coveredWords e.kind n then crcWord e.crc w else e.crc } } } ∧
          (Memory.wf s.mem → ∀ a, Memory.read a t.mem =
            if e.kind.writes = true ∧ a = wordAddress e.area e.cell e.place then w else Memory.read a s.mem)) ∧
        (high = true → n ≤ e.place + 1 →
          step s = exec (if e.slot.isSome then .fetchComplete else .segmentComplete) sampled) ∧
        (high = false → e.low + 1 < 64 →
          step s = .next { sampled with memPort := { m with engine := some { e with low := e.low + 1 } } }) ∧
        (high = false → 64 ≤ e.low + 1 →
          step s = exec (.rdyFault ⟨0, Config.faultLanded s.memPort.samples⟩) sampled))

/-- The machine right after the reset of a power-on holds the values that the chapters give for a reset, with the
start-up load begun and its first transaction granted (R217, R144, R201). The RAM reads 0000 hex (the model's choice, log 1).
That HOLDREQ is deasserted, RDY high and the words of the cleared cell buffer 0000 hex are the model's choices (log 8), and so
are that a receiver knows of no frame in progress (log 15) and the timers' fields (log 3). -/
def Obligations.ResetLeavesTheValuesOfTheChapters : Prop :=
  (∀ p : PortIx,
    let q := State.reset.ports[p]
    let i := State.reset.mgmt.inputs[p]
    q.sync = .hunt ∧ q.expected = 0 ∧ q.goodCount = 0 ∧ q.window = [] ∧ q.receiver = .noFrame ∧
      q.counters = ⟨0, 0, 0, 0, 0, 0⟩ ∧ q.snapshot = ⟨0, 0, 0, 0, 0, 0⟩ ∧ q.sweeping = false ∧
      (∀ c : Chan, q.assembly[c] = none ∧ q.live[c] = none) ∧ q.source = .absent ∧ q.lossTimer = 0 ∧ q.hold = 0 ∧
      q.fade = 0 ∧ q.factor = 65535 ∧ (∀ k : Fin 512, q.record[k] = 0) ∧ q.replies = [] ∧ q.sending = none ∧
      q.replySeq = 0 ∧ i.enabled = true ∧ (i.permit = true ↔ p = 0) ∧ i.autoResync = true ∧ i.lossN = 100 ∧
      i.lossH = none ∧ i.lossF = 300 ∧ ∀ c : Chan, i.accept[c] = true) ∧
    (∀ n : SlotIx, State.reset.playback.slots[n] = .free) ∧ State.reset.playback.directory = [] ∧
    State.reset.playback.lastTaken = none ∧ State.reset.playback.takenLink = none ∧ State.reset.playback.follow = none ∧
    (∀ c : Chan, State.reset.playback.owner[c] = none ∧ State.reset.playback.resting[c] = 0) ∧
    (∀ t : TableSet, t = State.reset.tables.live ∨ t = State.reset.tables.staging →
      (∀ c : Circ, t.prodPatch[c] = none ∧ t.prodCircuits[c] = none ∧ t.housePatch[c] = none ∧
        t.houseCircuits[c] = none) ∧
      ∀ i : Fin 119, (t.curves[i]).toNat = min (4096 * (i.val % 17)) 65535) ∧
    State.reset.tables.stage = .clean ∧ State.reset.tables.liveBank = none ∧
    (∀ c : Circ, State.reset.levels.image[c] = 0) ∧ (∀ g : GroupIx, State.reset.levels.groups[g] = ⟨0, false⟩) ∧
    State.reset.lamp = ⟨none, none, 0⟩ ∧
    (∀ k : LinkIx, State.reset.outs[k] = ⟨.waiting, none, 0, false, ⟨true, .r16⟩, ⟨true, .r16⟩, false⟩) ∧
    State.reset.hold = ⟨false, false, false⟩ ∧
    State.reset.bank.state = .starting ∧ State.reset.bank.op.map OpRecord.kind = some .startUp ∧
    State.reset.bank.op.map OpRecord.segment = some 1 ∧ (∀ k : Fin 512, State.reset.bank.buffer[k] = 0) ∧
    State.reset.bank.lastHeader = none ∧ State.reset.mgmt.flags = 0 ∧ State.reset.mgmt.enables = 0 ∧
    State.reset.mgmt.alertLow = false ∧ State.reset.mgmt.startBank = none ∧
    (∀ g : GroupIx, State.reset.mgmt.budgets[g] = 0) ∧ State.reset.mgmt.lastOp = ⟨.none, none, none⟩ ∧
    State.reset.mgmt.cause = .line ∧ State.reset.memPort.waitP = 3 ∧ State.reset.memPort.waitH = 3 ∧
    State.reset.memPort.queue = [] ∧ State.reset.memPort.bankSlot = none ∧ State.reset.memPort.lastFault = none ∧
    State.reset.memPort.rdy = true ∧
    State.reset.memPort.engine = some ⟨.cellRead, .house, 0, none, 0, 0, 3, 0, 0xFFFF⟩ ∧
    (∀ p : PortIx, State.reset.timers.ports[p] = 200000) ∧ State.reset.timers.playback = 200000 ∧
    State.reset.timers.lamp = 200000 ∧ State.reset.timers.refresh = 400000 ∧
    (∀ k : LinkIx, State.reset.timers.outs[k] = 400000) ∧ State.reset.held = false ∧ State.reset.mem = [] ∧
    State.reset.pending = []

/-- RESET_LINE_ASSERTED: the part is held with every block at its reset values already (the model's choice, log 9), the drivers,
HOLDACK, ALERT, the strobes, the select lines and the data lines released. A transaction in progress that is no write leaves
the memory as it was. A write that the RESET line cuts: the words
before the cut access are written, the word of the cut access takes its new value or keeps its old one, and every other
word is as before. RESET_LINE_RELEASED ends the reset with cause LINE, the start-up load begun. What a receiver knows of
the frame on its lane, how far a write had got and what the address lines keep are the model's choices (logs 15, 16 and
22). -/
def Obligations.TheResetLineStopsAndStartsThePart : Prop :=
  (∀ (cut : Cut) (s : State), s.held = false →
    ∃ t, exec (.resetLineAsserted cut) s = .next t ∧ t.held = true ∧
      (∀ p : PortIx, t.ports[p] =
        { Port.reset with receiver := if s.ports[p].receiver = .noFrame then .noFrame else .dropping }) ∧
      t.playback = Playback.reset ∧ t.tables = Tables.reset ∧ t.levels = Levels.reset ∧ t.lamp = Lamp.reset ∧
      (∀ k : LinkIx, t.outs[k] = OutPort.reset) ∧ t.hold = { s.hold with holdack := false } ∧
      t.memPort = { s.memPort with
        waitP := 3, waitH := 3, queue := [], bankSlot := none, engine := none, lastFault := none
        address := t.memPort.address, bankLines := t.memPort.bankLines } ∧
      t.dataDrive = none ∧ t.memPort.selP = false ∧ t.memPort.selH = false ∧ t.memPort.readStrobe = false ∧
      t.memPort.writeStrobe = false ∧
      t.bank = BankCtl.reset ∧ t.mgmt = { s.mgmt with alertLow := false } ∧ t.timers = Timers.reset ∧
      t.pending = s.pending ∧
      ((∀ e, s.memPort.engine = some e → e.kind.writes = false) → t.mem = s.mem)) ∧
  (∀ (cut : Cut) (s : State) (e : Engine), s.held = false → Memory.wf s.mem → s.memPort.engine = some e →
    e.kind.writes = true → e.place + cut.accesses < (s.txnWords e).length →
    ∃ t, exec (.resetLineAsserted cut) s = .next t ∧
      ∀ a, Memory.read a t.mem = s.cutRead e cut a) ∧
  (∀ s : State, s.held = true →
    ∃ t, exec .resetLineReleased s = .next t ∧ s.Fresh t .line ∧ t.mem = s.mem)

/-- While the RESET line is held, no command but its release changes anything, except the HOLDREQ line itself and what a
receiver knows of the frame on its lane. The receiver is the model's choice (log 15). -/
def Obligations.AHeldPartTakesNoEvent : Prop :=
  ∀ (i : Instr) (s : State), s.held = true → i ≠ .resetLineReleased →
    ∃ t, exec i s = .next t ∧
      t = { s with ports := t.ports, hold := { s.hold with line := t.hold.line } } ∧
      ∀ p : PortIx, t.ports[p] = { s.ports[p] with receiver := t.ports[p].receiver }

/-! ### Frames and the sync machines -/

/-- A frame that ends while its input is disabled, or that was in progress at an enable or a reset, is dropped: it is
not counted, not delivered, and nothing else changes. How the model tells such a frame is its choice (log 15). -/
def Obligations.ADroppedFrameChangesNothing : Prop :=
  ∀ (i : Instr) (p : PortIx) (stale : Bool) (s : State), i.frameEnd? = some (p, stale) →
    (s.held = true ∨ s.mgmt.inputs[p].enabled = false ∨ s.ports[p].receiver = .dropping ∨
      (s.ports[p].receiver = .noFrame ∧ stale = true)) →
    exec i s = .next { s with ports := s.ports.set p { s.ports[p] with receiver := .noFrame } }

/-- A bad-check frame by the state of its sync machine: counted, recorded BAD in LOCKED, never delivered. It ends an
acquisition, and it ends LOCKED when it brings the window to four BAD outcomes with auto-resync on. A frame cut by a new
start delimiter is taken as a bad-check frame, and the receiver then holds the new frame. Words are a bad-check frame when
their check word does not match, they are too few, or they are malformed; words laid out as a LEVEL or REQUEST frame in form,
with their check word, are taken as that frame. The receiver is the model's choice (log 15), and so is that BAD_CHECK_FRAME
brings words that may make a good frame (log 14). -/
def Obligations.BadCheckFramesAndCutFrames : Prop :=
  (∀ (p : PortIx) (stale : Bool) (ws : List Word) (s : State), s.Takes p stale → RxFrame.ofWords ws = none →
    (s.ports[p].sync = .hunt →
      exec (.badCheckFrame ⟨p, stale⟩ ws) s = .next { s with ports := s.ports.set p s.ports[p].tookBad }) ∧
    (s.ports[p].sync = .acquire →
      exec (.badCheckFrame ⟨p, stale⟩ ws) s = .next { s with
        ports := s.ports.set p { s.ports[p].tookBad with sync := .hunt }
        mgmt := s.mgmt.raise (.syncChange p) }) ∧
    (s.ports[p].sync = .locked →
      s.mgmt.inputs[p].autoResync = false ∨ badCount (pushMark s.ports[p].window .bad) < 4 →
      exec (.badCheckFrame ⟨p, stale⟩ ws) s = .next { s with
        ports := s.ports.set p { s.ports[p].tookBad with window := pushMark s.ports[p].window .bad } }) ∧
    (s.ports[p].sync = .locked → s.mgmt.inputs[p].autoResync = true →
      4 ≤ badCount (pushMark s.ports[p].window .bad) →
      exec (.badCheckFrame ⟨p, stale⟩ ws) s = .next { s with
        ports := s.ports.set p (Port.abortSweep { s.ports[p].tookBad with
          sync := .hunt, window := pushMark s.ports[p].window .bad })
        mgmt := s.mgmt.raise (.syncChange p) })) ∧
  (∀ (p : PortIx) (stale : Bool) (ws : List Word) (s : State), s.Takes p stale → RxFrame.ofWords ws = none →
    ∃ t, exec (.badCheckFrame ⟨p, stale⟩ ws) s = .next t ∧
      exec (.frameCut p stale) s = .next { t with
        ports := t.ports.set p { t.ports[p] with receiver := .receiving } }) ∧
  (∀ ws : List Word, ws.length ≤ 3 ∨ checkMatches ws = false → RxFrame.ofWords ws = none) ∧
  (∀ (kind seq count : Word) (body : List Word),
    (kind ≠ 1 ∧ kind ≠ 2) ∨ count = 0 ∨ 128 < count.toNat ∨ (kind = 1 ∧ body.length ≠ count.toNat + 2) ∨
      (kind = 2 ∧ body.length ≠ count.toNat) ∨
      (kind = 1 ∧ (at' body 0 = 0 ∨ 1024 < (at' body 0).toNat + count.toNat - 1)) →
    RxFrame.ofWords (withCheck (kind :: seq :: count :: body)) = none) ∧
  (∀ (h : FrameHead) (base flags : Word) (levels : List Word) (s : State), levelForm base levels = true →
    exec (.badCheckFrame ⟨h.port, h.stale⟩ (withCheck ([1, h.seq, wordOf levels.length, base, flags] ++ levels))) s =
      exec (.levelFrame h base flags levels) s) ∧
  ∀ (i : Instr) (r : Request) (s : State), i.request? = some r → r.args.length ≤ 127 →
    exec (.badCheckFrame ⟨r.head.port, r.head.stale⟩
      (withCheck ([2, r.head.seq, wordOf (r.args.length + 1), r.code] ++ r.args))) s = exec i s

/-- A good frame that is not delivered: the first of an acquisition, the second, and one out of sequence in ACQUIRE. It
holds of a LEVEL frame and of every request. The third good frame in sequence brings ACQUIRE to LOCKED with an empty
window and is delivered: a LEVEL frame carrying SWEEP-START alone begins a sweep with its page. The premise that the
frame is taken rests on the receiver, the model's choice (log 15). -/
def Obligations.GoodFramesBeforeLock : Prop :=
  (∀ (i : Instr) (h : FrameHead) (s : State), i.goodFrame? = some h → s.Takes h.port h.stale →
    (s.ports[h.port].sync = .hunt →
      exec i s = .next { s with
        ports := s.ports.set h.port { s.ports[h.port].countedGood with
          sync := .acquire, expected := h.seq + 1, goodCount := 1 }
        mgmt := s.mgmt.raise (.syncChange h.port) }) ∧
    (s.ports[h.port].sync = .acquire → h.seq = s.ports[h.port].expected → s.ports[h.port].goodCount ≠ 2 →
      exec i s = .next { s with
        ports := s.ports.set h.port { s.ports[h.port].countedGood with
          expected := h.seq + 1, goodCount := s.ports[h.port].goodCount + 1 } }) ∧
    (s.ports[h.port].sync = .acquire → h.seq ≠ s.ports[h.port].expected →
      exec i s = .next { s with
        ports := s.ports.set h.port { s.ports[h.port].countedGood with sync := .hunt }
        mgmt := s.mgmt.raise (.syncChange h.port) })) ∧
  (∀ (h : FrameHead) (base flags : Word) (levels : List Word) (s : State), s.Takes h.port h.stale →
    levelForm base levels = true → s.ports[h.port].sync = .acquire → h.seq = s.ports[h.port].expected →
    s.ports[h.port].goodCount = 2 → s.ports[h.port].sweeping = false → sweepStart flags = true → sweepEnd flags = false →
    exec (.levelFrame h base flags levels) s = .next { s with
      ports := s.ports.set h.port { s.ports[h.port].countedGood with
        sync := .locked, expected := h.seq + 1, goodCount := 3, window := []
        sweeping := true, assembly := pageOver base levels noLevels }
      mgmt := s.mgmt.raise (.syncChange h.port) })

/-- A LEVEL frame in step, in its three parts: without a sweep begun it is ignored; else its page is written, over an
empty set when it carries SWEEP-START; and with SWEEP-END the sweep becomes the live set and the source is LIVE. -/
def Obligations.ALevelFrameActsInThreeParts : Prop :=
  ∀ (h : FrameHead) (base flags : Word) (levels : List Word) (s : State), s.InStep h → levelForm base levels = true →
    let q := s.ports[h.port]
    let page := pageOver base levels (if sweepStart flags then noLevels else q.assembly)
    let aborted := if sweepStart flags && q.sweeping then countUp q.counters.aborted else q.counters.aborted
    (sweepStart flags = false → q.sweeping = false →
      exec (.levelFrame h base flags levels) s = .next { s with ports := s.ports.set h.port q.tookGood }) ∧
    ((sweepStart flags || q.sweeping) = true → sweepEnd flags = false →
      exec (.levelFrame h base flags levels) s = .next { s with
        ports := s.ports.set h.port { q.tookGood with
          sweeping := true, assembly := page, counters := { q.tookGood.counters with aborted := aborted } } }) ∧
    ((sweepStart flags || q.sweeping) = true → sweepEnd flags = true →
      exec (.levelFrame h base flags levels) s = .next { s with
        ports := s.ports.set h.port { q.tookGood with
          sweeping := false, assembly := noLevels, live := page, source := .live
          lossTimer := s.mgmt.inputs[h.port].lossN, hold := 0, fade := 0, factor := 65535
          counters := { q.tookGood.counters with aborted := aborted, completed := countUp q.counters.completed } }
        mgmt := if q.source = .holding ∨ q.source = .fading ∨ q.source = .lost then
            s.mgmt.raise (.sourceChange h.port)
          else s.mgmt })

/-- A gap in LOCKED is counted good and as a gap, recorded BAD, aborts the sweep in progress, and is delivered: a page without
SWEEP-START is then ignored, one with SWEEP-START begins a sweep, and a request is decided by its code. When it brings the
window to four BAD outcomes with auto-resync on, the machine, if it is still LOCKED after the delivery, then goes to HUNT and
aborts a sweep that the frame began. That the window test reads auto-resync as the outcome is added, before the delivery, is
the model's reading (log 25). -/
def Obligations.AGapIsRecordedAndDelivered : Prop :=
  ∀ (h : FrameHead) (s : State), s.Takes h.port h.stale → s.ports[h.port].sync = .locked →
    h.seq ≠ s.ports[h.port].expected →
    let q := s.ports[h.port].tookGap h.seq
    let input := s.mgmt.inputs[h.port]
    let calm := input.autoResync = false ∨ badCount (pushMark s.ports[h.port].window .bad) < 4
    let lost (t : State) : State := { t with
      ports := t.ports.set h.port (Port.abortSweep { t.ports[h.port] with sync := .hunt })
      mgmt := t.mgmt.raise (.syncChange h.port) }
    (∀ (base flags : Word) (levels : List Word), levelForm base levels = true →
      let page := pageOver base levels noLevels
      let delivered : State :=
        if sweepStart flags = false then { s with ports := s.ports.set h.port q }
        else if sweepEnd flags = false then
          { s with ports := s.ports.set h.port { q with sweeping := true, assembly := page } }
        else { s with
          ports := s.ports.set h.port { q with
            sweeping := false, assembly := noLevels, live := page, source := .live
            lossTimer := input.lossN, hold := 0, fade := 0, factor := 65535
            counters := { q.counters with completed := countUp q.counters.completed } }
          mgmt := if q.source = .holding ∨ q.source = .fading ∨ q.source = .lost then s.mgmt.raise (.sourceChange h.port)
            else s.mgmt }
      (calm → exec (.levelFrame h base flags levels) s = .next delivered) ∧
      (¬calm → exec (.levelFrame h base flags levels) s = .next (lost delivered))) ∧
    (∀ (code : Word) (args : List Word), args.length ≤ 127 → assignedCode code = false → q.replies.length < 4 →
      let delivered : State := { s with ports := s.ports.set h.port (Port.enqueue (replyTo h code .unknown) q) }
      (calm → exec (.unknownRequest h code args) s = .next delivered) ∧
      (¬calm → exec (.unknownRequest h code args) s = .next (lost delivered))) ∧
    ∀ (i : Instr) (r : Request), i.request? = some r → r.head = h → r.args.length ≤ 127 →
      let delivered := State.manage h.port h.seq r.code r.args (decideByCode r.code)
        { s with ports := s.ports.set h.port q }
      (calm ∨ delivered.ports[h.port].sync ≠ .locked → exec i s = .next delivered) ∧
      (¬calm → delivered.ports[h.port].sync = .locked → exec i s = .next (lost delivered))

/-! ### Requests at the Management Unit -/

/-- Every request that finds four replies in its port's queue is dropped: counted, REQUEST-DROPPED raised, and nothing
else. The first three tests of a request, in order, for every request: an unassigned code is UNKNOWN; a port not
manage-permitted gets NOT-PERMITTED; during the start-up load the answer is STARTING. STATUS READ, code 0018, passes the
last two. That UNKNOWN_REQUEST with an assigned code is decided as that code is the model's choice (log 14). -/
def Obligations.RequestsAreDroppedOrAdmittedInOrder : Prop :=
  (∀ (i : Instr) (r : Request) (s : State), i.request? = some r → r.args.length ≤ 127 → s.InStep r.head →
    4 ≤ s.ports[r.head.port].replies.length →
    exec i s = .next { s with
      ports := s.ports.set r.head.port { s.ports[r.head.port].tookGood with
        counters := { s.ports[r.head.port].tookGood.counters with
          dropped := countUp s.ports[r.head.port].counters.dropped } }
      mgmt := s.mgmt.raise .requestDropped }) ∧
  (∀ (i : Instr) (r : Request) (s : State), i.request? = some r → r.args.length ≤ 127 → s.InStep r.head →
    s.ports[r.head.port].replies.length < 4 →
    (assignedCode r.code = false →
      exec i s = .next { s with ports := s.portsAfter r.head.port (replyTo r.head r.code .unknown) }) ∧
    (assignedCode r.code = true → r.code ≠ 0x18 → s.mgmt.inputs[r.head.port].permit = false →
      exec i s = .next { s with ports := s.portsAfter r.head.port (replyTo r.head r.code .notPermitted) }) ∧
    (assignedCode r.code = true → r.code ≠ 0x18 → s.mgmt.inputs[r.head.port].permit = true →
      s.bank.state = .starting →
      exec i s = .next { s with ports := s.portsAfter r.head.port (replyTo r.head r.code .starting) }))

/-- A request whose parameter words differ in number from the layout of its code is refused BAD-ARGUMENT and changes
nothing. A SET with an instance or a value out of range, or a list that runs past channel 1024 or group 17, is refused
BAD-ARGUMENT and changes nothing. -/
def Obligations.BadParametersAreRefused : Prop :=
  (∀ (i : Instr) (r : Request) (s : State), i.request? = some r → r.args.length ≤ 127 → i.countFits = false →
    s.Serves r.head →
    exec i s = .next { s with ports := s.portsAfter r.head.port (replyTo r.head r.code .badArgument) }) ∧
  (∀ (h : FrameHead) (w x y z : Word) (ws : List Word) (s : State), s.Serves h → 1 ≤ ws.length → ws.length ≤ 124 →
    let refused (c : Instr) : Prop :=
      exec c s = .next { s with ports := s.portsAfter h.port (replyTo h 0x16 .badArgument) }
    (3 < w.toNat ∨ 1 < x.toNat →
      refused (.setInputEnable h [w, x]) ∧ refused (.setInputPermit h [w, x]) ∧ refused (.setAutoResync h [w, x])) ∧
    (3 < w.toNat ∨ x = 0 ∨ 1000 < x.toNat ∨ (60000 < y.toNat ∧ y ≠ 0xFFFF) ∨ 60000 < z.toNat →
      refused (.setLossTimes h [w, x, y, z])) ∧
    (3 < w.toNat ∨ x = 0 ∨ 1025 < x.toNat + 16 * ws.length → refused (.setAcceptMask h (w :: x :: ws))) ∧
    (5 < w.toNat ∨ 1 < x.toNat ∨ (y ≠ 8 ∧ y ≠ 12 ∧ y ≠ 16) → refused (.setOutputLink h [w, x, y])) ∧
    (18 < w.toNat + ws.length ∨ (∃ v ∈ ws, 10000 < v.toNat) → refused (.setBudget h (w :: ws))) ∧
    (3 < x.toNat ∧ x ≠ 0xFFFF → refused (.setStartBank h [w, x])) ∧
    (3 < x.toNat ∨ 3 < y.toNat → refused (.setMemoryTiming h [w, x, y])))

/-! ### Playback -/

/-- An accepted GO, with a FREE slot and without one: the lowest FREE slot fetches the entry, last-taken moves, the
taken link and the pending follow become absent, and a fetch joins the Memory Port. Without a FREE slot the oldest fade
is force-completed first, with FORCED-COMPLETION. The fetch names the live bank. -/
def Obligations.AnAcceptedGoSetsASlotFetching : Prop :=
  ∀ (h : FrameHead) (target number limit : Word) (s : State) (b : BankIx) (e : DirEntry) (n : SlotIx), s.Serves h →
    s.memPort.granted → s.inChangeover = false → s.lamp.active = false → s.tables.liveBank = some b →
    s.playback.resolve (goTargetOf target number) = some e →
    (s.playback.lowestFree? = some n →
      exec (.go h [target, number, limit]) s = .next { s with
        ports := s.portsAfter h.port (replyTo h 0x01 .accepted)
        playback := s.playback.taken n e (overrideOf limit)
        memPort := s.memPort.fetchJoined ⟨n, b, e.cell⟩ }) ∧
    (s.playback.lowestFree? = none → s.playback.oldest? = some n →
      exec (.go h [target, number, limit]) s = .next { s with
        ports := s.portsAfter h.port (replyTo h 0x01 .accepted)
        playback := (s.playback.forceCompleted n).taken n e (overrideOf limit)
        mgmt := s.mgmt.raise .forcedCompletion
        memPort := s.memPort.fetchJoined ⟨n, b, e.cell⟩ })

/-- The checks of a GO, in order, each with its reply; a refused GO changes nothing but its port. -/
def Obligations.GoIsRefusedByTheFirstCheckThatFails : Prop :=
  ∀ (h : FrameHead) (target number limit : Word) (s : State), s.InStep h → s.ports[h.port].replies.length < 4 →
    let refused (r : Result) : Prop :=
      exec (.go h [target, number, limit]) s = .next { s with ports := s.portsAfter h.port (replyTo h 0x01 r) }
    (s.mgmt.inputs[h.port].permit = false → refused .notPermitted) ∧
    (s.mgmt.inputs[h.port].permit = true → s.bank.state = .starting → refused .starting) ∧
    (s.mgmt.inputs[h.port].permit = true → s.bank.state ≠ .starting →
      (s.opKind = some .changeover → refused .busy) ∧
      (s.opKind ≠ some .changeover → s.lamp.active = true → refused .checkActive) ∧
      (s.opKind ≠ some .changeover → s.lamp.active = false → s.tables.liveBank = none → refused .noBank) ∧
      (s.opKind ≠ some .changeover → s.lamp.active = false → s.tables.liveBank ≠ none →
        s.playback.resolve (goTargetOf target number) = none → refused .noCue) ∧
      (s.opKind ≠ some .changeover → s.lamp.active = false → s.tables.liveBank ≠ none →
        s.playback.resolve (goTargetOf target number) ≠ none → (∀ n : SlotIx, s.playback.slots[n].isFetching = true) →
        refused .busy))

/-- GO NEXT over a directory in ascending order: the first entry when last-taken is absent; the cue of the taken link
when the directory holds it; else the entry with the least number above last-taken, and none when there is none. GO
PREVIOUS over a directory in ascending order takes the entry with the greatest number below last-taken; GO NUMBER takes
the entry of its number, at the cell of that entry. -/
def Obligations.GoTargetsAreResolvedByNumber : Prop :=
  (∀ pb : Playback, ascendingFrom 0 pb.directory = true →
    (pb.lastTaken = none → pb.next? = pb.directory.head?) ∧
    (∀ n l e, pb.lastTaken = some n → pb.takenLink = some l → e ∈ pb.directory → e.cue = l → pb.next? = some e) ∧
    (∀ n e, pb.lastTaken = some n → (∀ l, pb.takenLink = some l → ∀ d ∈ pb.directory, d.cue ≠ l) →
      (pb.next? = some e ↔ e ∈ pb.directory ∧ n < e.cue ∧ ∀ d ∈ pb.directory, n < d.cue → e.cue ≤ d.cue))) ∧
  (∀ (pb : Playback) (e : DirEntry), ascendingFrom 0 pb.directory = true →
    (pb.lastTaken = none → pb.resolve .previous = none) ∧
    (∀ n, pb.lastTaken = some n →
      (pb.resolve .previous = some e ↔ e ∈ pb.directory ∧ e.cue < n ∧ ∀ d ∈ pb.directory, d.cue < n → d.cue ≤ e.cue)) ∧
    ∀ n, pb.resolve (.number n) = some e ↔ e ∈ pb.directory ∧ e.cue = n)

/-- PAUSE and RESUME of one slot: a FADING slot is PAUSED with all that it holds, a PAUSED slot is FADING again, and any
other slot, or a slot number above 5 that is not ALL, is refused NOT-ACTIVE. PAUSE ALL makes every FADING slot PAUSED
and sets the paused flag of a pending follow; PAUSE with the word FFFF hex is PAUSE ALL. RESUME ALL makes every PAUSED
slot FADING and clears the paused flag of a pending follow; RESUME with the word FFFF hex is RESUME ALL. -/
def Obligations.PauseAndResumeHoldAndReleaseFades : Prop :=
  (∀ (h : FrameHead) (w : Word) (s : State), s.Serves h → w ≠ 0xFFFF →
    (∀ (n : SlotIx) (f : Fade), w.toNat = n.val → s.playback.slots[n] = .fading f →
      exec (.pause h [w]) s = .next { s with
        ports := s.portsAfter h.port (replyTo h 0x02 .done)
        playback := { s.playback with slots := s.playback.slots.set n (.paused f) } }) ∧
    (∀ (n : SlotIx) (f : Fade), w.toNat = n.val → s.playback.slots[n] = .paused f →
      exec (.resume h [w]) s = .next { s with
        ports := s.portsAfter h.port (replyTo h 0x03 .done)
        playback := { s.playback with slots := s.playback.slots.set n (.fading f) } }) ∧
    ((∀ (n : SlotIx) (f : Fade), w.toNat = n.val → s.playback.slots[n] ≠ .fading f) →
      exec (.pause h [w]) s = .next { s with ports := s.portsAfter h.port (replyTo h 0x02 .notActive) }) ∧
    ((∀ (n : SlotIx) (f : Fade), w.toNat = n.val → s.playback.slots[n] ≠ .paused f) →
      exec (.resume h [w]) s = .next { s with ports := s.portsAfter h.port (replyTo h 0x03 .notActive) })) ∧
  (∀ (h : FrameHead) (s : State), s.Serves h →
    exec (.pauseAll h) s = .next { s with
      ports := s.portsAfter h.port (replyTo h 0x02 .done)
      playback := { s.playback with
        slots := tab fun n => match s.playback.slots[n] with
          | .fading f => .paused f
          | x => x
        follow := s.playback.follow.map fun f => { f with paused := true } } } ∧
    exec (.pause h [0xFFFF]) s = exec (.pauseAll h) s) ∧
  (∀ (h : FrameHead) (s : State), s.Serves h →
    exec (.resumeAll h) s = .next { s with
      ports := s.portsAfter h.port (replyTo h 0x03 .done)
      playback := { s.playback with
        slots := tab fun n => match s.playback.slots[n] with
          | .paused f => .fading f
          | x => x
        follow := s.playback.follow.map fun f => { f with paused := false } } } ∧
    exec (.resume h [0xFFFF]) s = exec (.resumeAll h) s)

/-- RELEASE over t: every channel that playback holds fades from its level to 0 over t in the lowest FREE slot, or rests
at 0 at once for t = 0, with CUE-COMPLETE; last-taken, the taken link and the follow become absent. Without a FREE slot
the oldest fade is force-completed first. A changeover, or six FETCHING slots, refuse it BUSY. That the release slot's prior
last-taken and prior taken link, which only a GO sets, are absent is the model's reading (log 23). -/
def Obligations.ReleaseFadesOutAllThatPlaybackHolds : Prop :=
  ∀ (h : FrameHead) (w : Word) (s : State) (n : SlotIx), s.Serves h →
    let t := min w.toNat 60000
    (s.inChangeover = false → s.playback.lowestFree? = some n →
      exec (.release h [w]) s = .next { s with
        ports := s.portsAfter h.port (replyTo h 0x04 .done)
        playback := s.playback.releasedBy n t
        mgmt := if t = 0 then s.mgmt.raise .cueComplete else s.mgmt }) ∧
    (s.inChangeover = false → s.playback.lowestFree? = none → s.playback.oldest? = some n →
      exec (.release h [w]) s = .next { s with
        ports := s.portsAfter h.port (replyTo h 0x04 .done)
        playback := (s.playback.forceCompleted n).releasedBy n t
        mgmt := if t = 0 then (s.mgmt.raise .forcedCompletion).raise .cueComplete
          else s.mgmt.raise .forcedCompletion }) ∧
    (s.inChangeover = true ∨ (∀ m : SlotIx, s.playback.slots[m].isFetching = true) →
      exec (.release h [w]) s = .next { s with ports := s.portsAfter h.port (replyTo h 0x04 .busy) })

/-- An interval of the Playback Unit at which no slot completes and no follow fires counts the fades and the follow. A
FADING slot whose e reaches E completes at the interval: its channels rest at their targets, no slot owns them, it is
FREE, the start orders above its own close up, CUE-COMPLETE is raised, and nothing else changes but the counts of the
interval. That the interval has a timer of its own and that SLOT_COMPLETES is the whole interval are the model's choices
(logs 3 and 7). -/
def Obligations.ThePlaybackIntervalCountsAndCompletes : Prop :=
  (∀ s : State, s.held = false → (∀ (n : SlotIx) (f : Fade), s.playback.slots[n] = .fading f → f.elapsed + 1 ≠ f.endTime) →
    s.playback.follow ≠ some ⟨0, false⟩ →
    exec .playbackInterval s = .next { s with
      playback := s.playback.counted
      timers := { s.timers with playback := tenMs } }) ∧
  (∀ (n : SlotIx) (f : Fade) (s : State), s.held = false → s.playback.slots[n] = .fading f → f.elapsed + 1 = f.endTime →
    (∀ (m : SlotIx) (g : Fade), m ≠ n → s.playback.slots[m] = .fading g → g.elapsed + 1 ≠ g.endTime) →
    s.playback.follow ≠ some ⟨0, false⟩ →
    exec (.slotCompletes n) s = .next { s with
      playback := { s.playback.counted with
        slots := tab fun m =>
          if m = n then .free
          else s.playback.counted.slots[m].mapOrder fun o => if f.order < o then o - 1 else o
        owner := tab fun c => if s.playback.owner[c].map Owned.slot = some n then none else s.playback.owner[c]
        resting := tab fun c =>
          match s.playback.owner[c] with
          | some o => if o.slot = n then o.target else s.playback.resting[c]
          | none => s.playback.resting[c] }
      mgmt := s.mgmt.raise .cueComplete
      timers := { s.timers with playback := tenMs } } ∧
    exec (.slotCompletes n) s = exec .playbackInterval s)

/-- A follow that fires becomes absent and makes an internal GO NEXT with no override: accepted, a slot fetches as for
any GO, with no reply; refused by a check, CUE-FAILED is raised and nothing else changes. That FOLLOW_FIRES is the whole
interval, with a timer, is the model's choice (logs 3 and 7). -/
def Obligations.AFollowFiresAnInternalGo : Prop :=
  ∀ (s : State) (n : SlotIx), s.held = false → s.memPort.granted → s.playback.follow = some ⟨0, false⟩ →
    (∀ (m : SlotIx) (g : Fade), s.playback.slots[m] = .fading g → g.elapsed + 1 ≠ g.endTime) →
    let pb := { s.playback.counted with follow := none }
    let timers := { s.timers with playback := tenMs }
    (∀ (b : BankIx) (e : DirEntry), s.inChangeover = false → s.lamp.active = false → s.tables.liveBank = some b →
      pb.next? = some e →
      (pb.lowestFree? = some n →
        exec .followFires s = .next { s with
          playback := pb.taken n e none, timers := timers, memPort := s.memPort.fetchJoined ⟨n, b, e.cell⟩ }) ∧
      (pb.lowestFree? = none → pb.oldest? = some n →
        exec .followFires s = .next { s with
          playback := (pb.forceCompleted n).taken n e none, timers := timers
          mgmt := s.mgmt.raise .forcedCompletion, memPort := s.memPort.fetchJoined ⟨n, b, e.cell⟩ })) ∧
    (s.inChangeover = true ∨ s.lamp.active = true ∨ s.tables.liveBank = none ∨ pb.next? = none ∨
        (∀ m : SlotIx, pb.slots[m].isFetching = true) →
      exec .followFires s = .next { s with
        playback := pb, timers := timers, mgmt := s.mgmt.raise .cueFailed }) ∧
    exec .followFires s = exec .playbackInterval s

/-- The level that a fade gives a channel: S before the delay, T from delay plus time on, and at every elapsed time between S
and T, inclusive. A slot uses its up pair for T above S and its down pair for T below S, and gives T for T = S. The output of
curve 1–7 for an input x lies between the points P[x div 4096] and P[x div 4096 + 1], inclusive, and is the first point at
the start of a segment; curve 0 passes its input. -/
def Obligations.FadesAndCurvesStayBetweenTheirEnds : Prop :=
  (∀ (s t : Level) (d time e : Nat),
    (e < d → fadeBetween s t d time e = s) ∧
    (d + time ≤ e → fadeBetween s t d time e = t) ∧
    (d ≤ e → e < d + time →
      ((fadeBetween s t d time e).toNat : Int) = s.toNat + (((t.toNat : Int) - s.toNat) * (e - d)).tdiv time) ∧
    min s.toNat t.toNat ≤ (fadeBetween s t d time e).toNat ∧ (fadeBetween s t d time e).toNat ≤ max s.toNat t.toNat) ∧
  (∀ (f : Fade) (s t : Level),
    (s.toNat < t.toNat → f.level s t = fadeBetween s t f.du f.tu f.elapsed) ∧
    (t.toNat < s.toNat → f.level s t = fadeBetween s t f.dd f.td f.elapsed) ∧
    (s = t → f.level s t = t)) ∧
  (∀ (t : TableSet) (k : Fin 8) (x : Level),
    let p := t.point k (x.toNat / 4096)
    let q := t.point k (x.toNat / 4096 + 1)
    (k = 0 → t.curveLevel k x = x) ∧
    (k ≠ 0 → min p.toNat q.toNat ≤ (t.curveLevel k x).toNat ∧ (t.curveLevel k x).toNat ≤ max p.toNat q.toNat ∧
      (x.toNat % 4096 = 0 → t.curveLevel k x = p) ∧
      ((t.curveLevel k x).toNat : Int) = p.toNat + (((q.toNat : Int) - p.toNat) * (x.toNat % 4096 : Nat)).tdiv 4096))

/-- The claim of a fetched record: the words pass the tests of the fetch, every claimed channel is owned by the slot from
its playback level to its level in the look or 0, the slot is FADING with the effective timings and the prior last-taken and
prior taken link that its GO set (R46), and the link and the follow are taken up when last-taken still is the record's cue.
Another fading or paused slot is FREE when every channel it owned is claimed, and else goes on as it was, its start order
less by the number of freed slots before it; the claimant's start order is one above the number of the others that go on.
For an end time of 0 the channels rest at their targets at once, with CUE-COMPLETE. The Memory Port goes on with what waits.
-/
def Obligations.AFetchThatPassesIsClaimed : Prop :=
  ∀ (s : State) (e : Engine) (n : SlotIx) (f : Fetch) (r : CueRecord), s.held = false → s.playback.ownersRight →
    s.memPort.engine = some e → e.kind = .cueFetch → e.slot = some n → s.playback.slots[n] = .fetching f →
    CueRecord.of? (s.handed e).words = some r → r.cue = f.cue → (s.handed e).words.getLast? = some (s.handed e).crc →
    let k := r.claim f.override
    ∃ t, exec .fetchComplete s = .next t ∧
      (∀ c : Chan, t.playback.owner[c] =
        if s.playback.claims k c then
          (if k.endTime = 0 then none else some ⟨n, s.playback.level c, (k.lookLevel? c).getD 0⟩)
        else s.playback.owner[c]) ∧
      (∀ c : Chan, t.playback.resting[c] =
        if s.playback.claims k c ∧ k.endTime = 0 then (k.lookLevel? c).getD 0 else s.playback.resting[c]) ∧
      (k.endTime = 0 → t.playback.slots[n] = .free) ∧
      (k.endTime ≠ 0 → t.playback.slots[n] =
        .fading ⟨some r.cue, r.scope, k.du, k.tu, k.dd, k.td, k.endTime, 0,
          ((List.finRange 6).filter fun m => m != n && t.playback.slots[m].fade?.isSome).length + 1,
          f.prior, f.priorLink⟩) ∧
      (s.playback.lastTaken = some r.cue → t.playback.takenLink = r.link ∧
        t.playback.follow = (r.follow.map fun x => ⟨x, false⟩).or s.playback.follow) ∧
      (s.playback.lastTaken ≠ some r.cue → t.playback.takenLink = s.playback.takenLink ∧
        t.playback.follow = s.playback.follow) ∧
      t.playback.lastTaken = s.playback.lastTaken ∧ t.playback.directory = s.playback.directory ∧
      (∀ m : SlotIx, m ≠ n → s.playback.slots[m].fade? = none → t.playback.slots[m] = s.playback.slots[m]) ∧
      (∀ (m : SlotIx) (g : Fade), m ≠ n → s.playback.slots[m].fade? = some g →
        ((∀ (c : Chan) (o : Owned), s.playback.owner[c] = some o → o.slot = m → s.playback.claims k c = true) →
          t.playback.slots[m] = .free) ∧
        ((∃ (c : Chan) (o : Owned), s.playback.owner[c] = some o ∧ o.slot = m ∧ s.playback.claims k c = false) →
          t.playback.slots[m] = s.playback.slots[m].mapOrder fun o =>
            o - ((List.finRange 6).filter fun j =>
              s.playback.slots[j].order?.any (· < o) && t.playback.slots[j].isFree).length)) ∧
      t = { s with
        playback := t.playback
        mgmt := if k.endTime = 0 then s.mgmt.raise .cueComplete else s.mgmt
        memPort := (s.memPort.drive e.area e.cell ((s.txnWords e).length - 1)).wentOn
        bank := { s.bank with buffer := t.bank.buffer } }

/-- A fetch that fails, by the words it read or by the RDY fault: its slot is FREE, last-taken and the taken link go back when
last-taken still is its cue, CUE-FAILED is raised, and every channel, resting level and other slot is as before. A fault
also raises MEMORY-FAULT and replaces the last fault record; that its place is the engine's and as many accesses more as the
command says is the model's choice (log 16). -/
def Obligations.AFetchThatFailsFreesItsSlot : Prop :=
  ∀ (s : State) (e : Engine) (n : SlotIx) (f : Fetch) (cut : Cut), s.held = false → s.memPort.engine = some e →
    e.slot = some n → e.kind = .cueFetch → s.playback.slots[n] = .fetching f →
    let pb := { s.playback with
      slots := s.playback.slots.set n .free
      lastTaken := if s.playback.lastTaken = some f.cue then f.prior else s.playback.lastTaken
      takenLink := if s.playback.lastTaken = some f.cue then f.priorLink else s.playback.takenLink }
    (((∀ r, CueRecord.of? (s.handed e).words = some r →
        r.cue ≠ f.cue ∨ (s.handed e).words.getLast? ≠ some (s.handed e).crc)) →
      ∃ t, exec .fetchComplete s = .next t ∧
        t = { s with
          playback := pb, mgmt := s.mgmt.raise .cueFailed
          memPort := (s.memPort.drive e.area e.cell ((s.txnWords e).length - 1)).wentOn
          bank := { s.bank with buffer := t.bank.buffer } }) ∧
    (e.place + cut.accesses < (s.txnWords e).length →
      ∃ t, exec (.rdyFault cut) s = .next t ∧
        t = { s with
          playback := pb, mgmt := (s.mgmt.raise .memoryFault).raise .cueFailed
          memPort := (s.memPort.faulted e cut).wentOn
          bank := { s.bank with buffer := t.bank.buffer } } ∧
        t.memPort.lastFault = some ⟨some n, .cueFetch, e.area, e.cell, e.place + cut.accesses⟩)

/-! ### Record buffers and the tables -/

/-- CUE DATA WRITE writes its words at the offset and the places after it, or, past place 511, is refused and writes
none. CUE DATA READ returns the words of its run. -/
def Obligations.TheRecordBufferIsWrittenAndRead : Prop :=
  ∀ (h : FrameHead) (offset : Word) (ws : List Word) (count : Word) (s : State), s.Serves h → 1 ≤ ws.length →
    ws.length ≤ 126 →
    (offset.toNat + ws.length ≤ 512 → ∃ record,
      exec (.cueDataWrite h (offset :: ws)) s = .next { s with
        ports := s.ports.set h.port
          (Port.enqueue (replyTo h 0x05 .done) { s.ports[h.port].tookGood with record := record }) } ∧
      ∀ i : Fin 512, record[i] =
        if offset.toNat ≤ i.val ∧ i.val < offset.toNat + ws.length then at' ws (i.val - offset.toNat)
        else s.ports[h.port].record[i]) ∧
    (512 < offset.toNat + ws.length →
      exec (.cueDataWrite h (offset :: ws)) s = .next { s with
        ports := s.portsAfter h.port (replyTo h 0x05 .badArgument) }) ∧
    (1 ≤ count.toNat → count.toNat ≤ 128 → offset.toNat + count.toNat ≤ 512 →
      exec (.cueDataRead h [offset, count]) s = .next { s with
        ports := s.portsAfter h.port { replyTo h 0x06 .done with
          data := (s.ports[h.port].record.toList.drop offset.toNat).take count.toNat } }) ∧
    (count.toNat = 0 ∨ 128 < count.toNat ∨ 512 < offset.toNat + count.toNat →
      exec (.cueDataRead h [offset, count]) s = .next { s with
        ports := s.portsAfter h.port (replyTo h 0x06 .badArgument) })

/-- An accepted EDIT writes its values into the staging table it names, at its indexes and nowhere else, and makes the
staging state EDITED; the live tables are untouched. It is shown for each of the five tables. An EDIT is refused and
writes nothing: BUSY in LOADING; BAD-ARGUMENT for a table that is not assigned, an index outside the table, a value out
of its range, or a production table while the live bank is NONE. That a malformed EDIT is refused BAD-ARGUMENT before
BUSY is the model's reading of R203 beside R123 (log 10). -/
def Obligations.AnEditWritesStagingOrIsRefused : Prop :=
  (∀ (h : FrameHead) (first : Word) (ws : List Word) (s : State), s.Serves h → 1 ≤ ws.length → ws.length ≤ 125 →
    s.tables.stage ≠ .loading →
    let edited (table : Word) (staging : TableSet) : Prop :=
      exec (.edit h (table :: first :: ws)) s = .next { s with
        ports := s.portsAfter h.port (replyTo h 0x0A .done)
        tables := { s.tables with staging := staging, stage := .edited } }
    (1 ≤ first.toNat → ∀ es, patchRun? ws = some es → ws.length % 2 = 0 → first.toNat + ws.length / 2 ≤ 769 →
      (s.tables.liveBank ≠ none →
        edited 0 { s.tables.staging with prodPatch := setRun s.tables.staging.prodPatch (first.toNat - 1) es }) ∧
      edited 2 { s.tables.staging with housePatch := setRun s.tables.staging.housePatch (first.toNat - 1) es }) ∧
    (1 ≤ first.toNat → ∀ rs, recordRun? ws = some rs → ws.length % 4 = 0 → first.toNat + ws.length / 4 ≤ 769 →
      (s.tables.liveBank ≠ none →
        edited 1 { s.tables.staging with prodCircuits := setRun s.tables.staging.prodCircuits (first.toNat - 1) rs }) ∧
      edited 3 { s.tables.staging with houseCircuits := setRun s.tables.staging.houseCircuits (first.toNat - 1) rs }) ∧
    (first.toNat + ws.length ≤ 119 →
      edited 4 { s.tables.staging with curves := setRun s.tables.staging.curves first.toNat ws })) ∧
  (∀ (h : FrameHead) (table first : Word) (ws : List Word) (s : State), s.Serves h → 1 ≤ ws.length → ws.length ≤ 125 →
    let refused (r : Result) : Prop :=
      exec (.edit h (table :: first :: ws)) s = .next { s with ports := s.portsAfter h.port (replyTo h 0x0A r) }
    (5 ≤ table.toNat → refused .badArgument) ∧
    (∀ t, TableName.of? table = some t → ws.length % t.width = 0 → s.tables.stage = .loading → refused .busy) ∧
    (s.tables.stage ≠ .loading →
      ((table = 0 ∨ table = 2) → ws.length % 2 = 0 → (first = 0 ∨ 769 < first.toNat + ws.length / 2 ∨ patchRun? ws = none) →
        refused .badArgument) ∧
      ((table = 1 ∨ table = 3) → ws.length % 4 = 0 →
        (first = 0 ∨ 769 < first.toNat + ws.length / 4 ∨ recordRun? ws = none) → refused .badArgument) ∧
      (table = 4 → 119 < first.toNat + ws.length → refused .badArgument) ∧
      ((table = 0 ∨ table = 1) → s.tables.liveBank = none → refused .badArgument)))

/-- UPDATE copies the whole staging tables onto the live ones and flags every output link whose mode record changed; in
LOADING it is refused BUSY. DISCARD copies the whole live tables onto the staging ones and touches nothing else; in
LOADING it is refused BUSY. -/
def Obligations.UpdateAndDiscardCopyWholeTables : Prop :=
  (∀ (h : FrameHead) (s : State), s.Serves h →
    (s.tables.stage ≠ .loading →
      exec (.update h []) s = .next { s with
        ports := s.portsAfter h.port (replyTo h 0x0B .done)
        tables := { s.tables with live := s.tables.staging, stage := .clean }
        outs := tab fun k => { s.outs[k] with
          forced := s.outs[k].forced || s.tables.live.modeRecord k != s.tables.staging.modeRecord k } }) ∧
    (s.tables.stage = .loading →
      exec (.update h []) s = .next { s with ports := s.portsAfter h.port (replyTo h 0x0B .busy) })) ∧
  (∀ (h : FrameHead) (s : State), s.Serves h →
    (s.tables.stage ≠ .loading →
      exec (.discard h []) s = .next { s with
        ports := s.portsAfter h.port (replyTo h 0x0C .done)
        tables := { s.tables with staging := s.tables.live, stage := .clean } }) ∧
    (s.tables.stage = .loading →
      exec (.discard h []) s = .next { s with ports := s.portsAfter h.port (replyTo h 0x0C .busy) }))

/-- READ TABLE answers with the elements of its run in the encodings of chapter 12, in every staging state, and changes
nothing. It is refused BAD-ARGUMENT for a set or a table that is not assigned, a count of 0, an index outside the table, and a
run whose elements fill more than 128 words. -/
def Obligations.ReadTableReturnsItsRun : Prop :=
  (∀ (h : FrameHead) (first count : Word) (s : State), s.Serves h → 1 ≤ count.toNat →
    let reads (table : Word) (words : TableSet → List Word) : Prop :=
      exec (.readTable h [0, table, first, count]) s = .next { s with
        ports := s.portsAfter h.port { replyTo h 0x0D .done with data := words s.tables.live } } ∧
      exec (.readTable h [1, table, first, count]) s = .next { s with
        ports := s.portsAfter h.port { replyTo h 0x0D .done with data := words s.tables.staging } }
    (1 ≤ first.toNat → count.toNat ≤ 64 → first.toNat + count.toNat ≤ 769 →
      reads 0 (fun t => (getRun t.prodPatch (first.toNat - 1) count.toNat).flatMap patchWords) ∧
      reads 2 (fun t => (getRun t.housePatch (first.toNat - 1) count.toNat).flatMap patchWords)) ∧
    (1 ≤ first.toNat → count.toNat ≤ 32 → first.toNat + count.toNat ≤ 769 →
      reads 1 (fun t => (getRun t.prodCircuits (first.toNat - 1) count.toNat).flatMap recordWords) ∧
      reads 3 (fun t => (getRun t.houseCircuits (first.toNat - 1) count.toNat).flatMap recordWords)) ∧
    (first.toNat + count.toNat ≤ 119 → reads 4 (fun t => getRun t.curves first.toNat count.toNat))) ∧
  (∀ (h : FrameHead) (set table first count : Word) (s : State), s.Serves h →
    let refused : Prop := exec (.readTable h [set, table, first, count]) s = .next { s with
      ports := s.portsAfter h.port (replyTo h 0x0D .badArgument) }
    (1 < set.toNat ∨ 4 < table.toNat ∨ count = 0 → refused) ∧
    (table = 0 ∨ table = 2 → first = 0 ∨ 769 < first.toNat + count.toNat ∨ 64 < count.toNat → refused) ∧
    (table = 1 ∨ table = 3 → first = 0 ∨ 769 < first.toNat + count.toNat ∨ 32 < count.toNat → refused) ∧
    (table = 4 → 119 < first.toNat + count.toNat → refused))

/-- What is written of a patch entry or a circuit record is read back as the same entry or record, absent ones included.
-/
def Obligations.EntriesAndRecordsAreReadBack : Prop :=
  (∀ e : Option PatchEntry, patchRun? (patchWords e) = some [e]) ∧
    ∀ r : Option CircuitRecord, recordRun? (recordWords r) = some [r]

/-! ### Bank operations -/

/-- An accepted bank operation that begins with a read of cell 0: STORE CUE, DELETE CUE, READ CUE, CHANGEOVER and SAVE.
The operation record is filled, the Bank Controller is BUSY, segment 1 is handed to the Memory Port, and the reply is
ACCEPTED. An accepted bank operation that begins with a write: FORMAT of a bank that is not live, and SAVE HOUSE. The
first cell's words are formed when the segment is granted, at once when the engine is IDLE. -/
def Obligations.BankOperationsAreAccepted : Prop :=
  (∀ (h : FrameHead) (w cue : Word) (b : BankIx) (s : State), s.Serves h → s.memPort.granted → s.bank.state = .idle →
    w.toNat = b.val →
    let accepted (i : Instr) (code : Word) (op : OpRecord) (stage : StagingState) : Prop :=
      exec i s = .next { s with
        ports := s.portsAfter h.port (replyTo h code .accepted)
        tables := { s.tables with stage := stage }
        bank := { s.bank with state := .busy, op := some op }
        memPort := s.memPort.segmentHanded ⟨.cellRead, .prod b, 0, 0xFFFF⟩ }
    (∀ r, CueRecord.of? s.ports[h.port].record.toList = some r →
      accepted (.storeCue h [w]) 0x07 { OpRecord.new .storeCue (some b) (some h.port) with
        cue := r.cue
        record := s.ports[h.port].record.toList.take (9 + 2 * (at' s.ports[h.port].record.toList 8).toNat) }
        s.tables.stage) ∧
    (1 ≤ cue.toNat → cue.toNat ≤ 9999 →
      accepted (.deleteCue h [w, cue]) 0x08 { OpRecord.new .deleteCue (some b) (some h.port) with cue := cue.toNat }
        s.tables.stage ∧
      accepted (.readCue h [w, cue]) 0x09 { OpRecord.new .readCue (some b) (some h.port) with cue := cue.toNat }
        s.tables.stage) ∧
    (s.lamp.active = false → (∀ n : SlotIx, s.playback.slots[n] = .free) → s.tables.stage ≠ .edited →
      accepted (.changeover h [w]) 0x0E (OpRecord.new .changeover (some b) (some h.port)) .loading) ∧
    accepted (.save h [w]) 0x0F (OpRecord.new .save (some b) (some h.port)) s.tables.stage) ∧
  (∀ (h : FrameHead) (w : Word) (b : BankIx) (s : State), s.Serves h → s.memPort.granted → s.bank.state = .idle →
    let accepted (i : Instr) (code : Word) (op : OpRecord) (g : Segment) (words : List Word) : Prop :=
      exec i s = .next { s with
        ports := s.portsAfter h.port (replyTo h code .accepted)
        bank := { s.bank with
          state := .busy, op := some op
          buffer := if s.memPort.engine.isSome then s.bank.buffer else bufferOf words }
        memPort := s.memPort.segmentHanded g }
    (w.toNat = b.val → s.tables.liveBank ≠ some b →
      accepted (.format h [w]) 0x11 (OpRecord.new .format (some b) (some h.port)) ⟨.cellWrite, .prod b, 0, 0xFFFF⟩
        (emptyCell0 0x5AA5 emptyPatchCheck emptyCircuitCheck).toWords) ∧
    accepted (.saveHouse h []) 0x10 (OpRecord.new .saveHouse none (some h.port)) ⟨.cellWrite, .house, 1, 0xFFFF⟩
      (maskCell s.mgmt.inputs))

/-- A bank operation is refused BUSY while another is in progress, BAD-ARGUMENT for a bank outside 0–3, and then by the
checks of its kind: a cue number outside 1–9999, an invalid record, CHECK-ACTIVE, SLOTS-ACTIVE and STAGING-EDITED for
CHANGEOVER in this order, BANK-LIVE for FORMAT. -/
def Obligations.BankOperationsAreRefusedInOrder : Prop :=
  ∀ (h : FrameHead) (w cue : Word) (s : State), s.Serves h →
    let refused (i : Instr) (code : Word) (r : Result) : Prop :=
      exec i s = .next { s with ports := s.portsAfter h.port (replyTo h code r) }
    (s.bank.state = .busy →
      refused (.storeCue h [w]) 0x07 .busy ∧ refused (.deleteCue h [w, cue]) 0x08 .busy ∧
      refused (.readCue h [w, cue]) 0x09 .busy ∧ refused (.changeover h [w]) 0x0E .busy ∧ refused (.save h [w]) 0x0F .busy ∧
      refused (.saveHouse h []) 0x10 .busy ∧ refused (.format h [w]) 0x11 .busy) ∧
    (s.bank.state = .idle → 3 < w.toNat →
      refused (.storeCue h [w]) 0x07 .badArgument ∧ refused (.deleteCue h [w, cue]) 0x08 .badArgument ∧
      refused (.readCue h [w, cue]) 0x09 .badArgument ∧ refused (.changeover h [w]) 0x0E .badArgument ∧
      refused (.save h [w]) 0x0F .badArgument ∧ refused (.format h [w]) 0x11 .badArgument) ∧
    (s.bank.state = .idle → w.toNat ≤ 3 →
      (cue = 0 ∨ 9999 < cue.toNat →
        refused (.deleteCue h [w, cue]) 0x08 .badArgument ∧ refused (.readCue h [w, cue]) 0x09 .badArgument) ∧
      (CueRecord.of? s.ports[h.port].record.toList = none → refused (.storeCue h [w]) 0x07 .badArgument) ∧
      (s.lamp.active = true → refused (.changeover h [w]) 0x0E .checkActive) ∧
      (s.lamp.active = false → (∃ n : SlotIx, s.playback.slots[n] ≠ .free) →
        refused (.changeover h [w]) 0x0E .slotsActive) ∧
      (s.lamp.active = false → (∀ n : SlotIx, s.playback.slots[n] = .free) → s.tables.stage = .edited →
        refused (.changeover h [w]) 0x0E .stagingEdited) ∧
      ((∃ b, s.tables.liveBank = some b ∧ w.toNat = b.val) → refused (.format h [w]) 0x11 .bankLive))

/-- The words of every cell that SAVE, FORMAT and SAVE HOUSE write, formed when its segment is granted: at once at a hand-over
to an IDLE port with no fetch waiting, or at the end of the fetch that went before. The completion of a cell write writes
the words of the cell buffer to the places of its cell not yet written (the model's choice, log 2), and no other word. That
SAVE HOUSE writes a link's pending settings as OUTPUT LINK (log 12), that the directory outcome of a header read covers the
form (log 17), and that words laid out as zero are written back 0000 hex (log 19) are the model's readings. The
completion of each segment of the three operations hands the next to the Memory Port, with the checks accumulated and the CRC
start value of its area; at segment 1 of a SAVE a bank that is not directory-sound ends it BANK-BAD; the last segment ends
each with reason OK. -/
def Obligations.ASaveWritesItsCellsSegmentBySegment : Prop :=
  (∀ (s : State) (e : Engine) (op : OpRecord), s.held = false → Memory.wf s.mem → s.memPort.engine = some e →
    e.slot = none → e.kind = .cellWrite → s.bank.op = some op →
    ∃ t, exec .segmentComplete s = .next t ∧
      ∀ a, Memory.read a t.mem =
        if wordAddress e.area e.cell e.place ≤ a ∧ a < wordAddress e.area e.cell 512 then
          at' s.bank.buffer.toList (a - wordAddress e.area e.cell 0)
        else Memory.read a s.mem) ∧
  (∀ (s : State) (e : Engine) (op : OpRecord) (g : Segment), s.held = false → s.memPort.engine = some e →
    e.slot ≠ none → s.memPort.queue = [] → s.memPort.bankSlot = some g → g.kind = .cellWrite → s.bank.op = some op →
    ∃ t, exec .fetchComplete s = .next t ∧ t.bank = { s.bank with buffer := bufferOf (s.formCell op) } ∧
      t.memPort = (s.memPort.drive e.area e.cell ((s.txnWords e).length - 1)).wentOn) ∧
  (∀ (s : State) (op : OpRecord),
    let ws := s.formCell op
    let n := op.segment
    let patched (v : Vector (Option PatchEntry) 768) (c : Circ) : Prop :=
      ∀ j, j < 2 → at' ws (2 * (c.val % 256) + j) = at' (patchWords v[c]) j
    let recorded (v : Vector (Option CircuitRecord) 768) (c : Circ) : Prop :=
      ∀ j, j < 4 → at' ws (4 * (c.val % 128) + j) = at' (recordWords v[c]) j
    (op.kind = .save →
      (n = 2 → ws = Cell0.toWords { op.header with mark := 0x5AA5 }) ∧
      (∀ c : Circ, n = 3 + c.val / 256 → patched s.tables.live.prodPatch c) ∧
      (∀ c : Circ, n = 6 + c.val / 128 → recorded s.tables.live.prodCircuits c) ∧
      (n = 12 → ws = Cell0.toWords { op.header with
        mark := 0xA55A, writeCount := countUp op.header.writeCount
        patchCheck := op.patchCheck, circCheck := op.circCheck })) ∧
    (op.kind = .format →
      (n = 1 → ws = (emptyCell0 0x5AA5 (checkWord (List.replicate 1536 0)) (checkWord (List.replicate 3072 0))).toWords) ∧
      (2 ≤ n → n ≤ 10 → ws = List.replicate 512 0) ∧
      (n = 11 → ws = (emptyCell0 0xA55A op.patchCheck op.circCheck).toWords)) ∧
    (op.kind = .saveHouse →
      (n = 1 → (∀ (p : PortIx) (c : Chan),
          (at' ws (64 * p.val + c.val / 16)).getLsbD (c.val % 16) = s.mgmt.inputs[p].accept[c]) ∧
        ∀ i, 256 ≤ i → at' ws i = 0) ∧
      (∀ c : Circ, n = 2 + c.val / 256 → patched s.tables.live.housePatch c) ∧
      (∀ c : Circ, n = 5 + c.val / 128 → recorded s.tables.live.houseCircuits c) ∧
      (n = 11 → (∀ i : Fin 119, at' ws i.val = s.tables.live.curves[i]) ∧ ∀ i, 119 ≤ i → at' ws i = 0) ∧
      (n = 12 →
        ws.take 8 = [checkWord ((ws.drop 8).take 55), op.maskCheck, op.patchCheck, op.circCheck, op.curveCheck, 0, 0, 0] ∧
        (∀ p : PortIx, (ws.drop (8 + 6 * p.val)).take 6 =
          [boolWord s.mgmt.inputs[p].enabled, boolWord s.mgmt.inputs[p].permit, boolWord s.mgmt.inputs[p].autoResync,
            wordOf s.mgmt.inputs[p].lossN, timeWord s.mgmt.inputs[p].lossH, wordOf s.mgmt.inputs[p].lossF]) ∧
        (∀ k : LinkIx, (ws.drop (32 + 2 * k.val)).take 2 =
          [boolWord s.outs[k].pending.enabled, wordOf s.outs[k].pending.resolution.bits]) ∧
        (∀ g : GroupIx, at' ws (44 + g.val) = wordOf s.mgmt.budgets[g]) ∧
        at' ws 62 = bankWord s.mgmt.startBank ∧ ∀ i, 63 ≤ i → at' ws i = 0))) ∧
  (∀ (s : State) (e : Engine) (op : OpRecord) (n : Nat),
    let ws := (s.handed e).words
    let crc := (s.handed e).crc
    let goes (u : State) : Prop := ∃ t, exec .segmentComplete s = .next t ∧ t = { u with mem := t.mem }
    let write (cell : Nat) (first : Bool) : Segment := ⟨.cellWrite, op.area, cell, if first then 0xFFFF else crc⟩
    (s.InSegment e op .save 1 .cellRead →
      ((Cell0.ofWords ws).sound = false →
        exec .segmentComplete s = .next ((s.cell0Read op.bank ws).endedWith e .bankBad op)) ∧
      ((Cell0.ofWords ws).sound = true →
        exec .segmentComplete s = .next ((s.cell0Read op.bank ws).onWith
          { op with segment := 2, cell0 := some (Cell0.ofWords ws) } (write 0 true)))) ∧
    (s.InSegment e op .save n .cellWrite → 2 ≤ n → n ≤ 11 →
      goes (s.onWith { op with
          segment := n + 1, crc := crc
          patchCheck := if n = 5 then crc else op.patchCheck
          circCheck := if n = 11 then crc else op.circCheck }
        (if n = 11 then write 0 true else write (n - 1) (n == 2 || n == 5)))) ∧
    (s.InSegment e op .save 12 .cellWrite → goes (s.endedWith e .ok op)) ∧
    (s.InSegment e op .format n .cellWrite → 1 ≤ n → n ≤ 10 →
      goes (s.onWith { op with
          segment := n + 1, crc := crc
          patchCheck := if n = 4 then crc else op.patchCheck
          circCheck := if n = 10 then crc else op.circCheck }
        (if n = 10 then write 0 true else write n (n == 1 || n == 4)))) ∧
    (s.InSegment e op .format 11 .cellWrite → goes (s.endedWith e .ok op)) ∧
    (s.InSegment e op .saveHouse n .cellWrite → 1 ≤ n → n ≤ 11 →
      goes (s.onWith { op with
          segment := n + 1, crc := crc
          maskCheck := if n = 1 then crc else op.maskCheck
          patchCheck := if n = 4 then crc else op.patchCheck
          circCheck := if n = 10 then crc else op.circCheck
          curveCheck := if n = 11 then crc else op.curveCheck }
        (if n = 11 then write 0 true else write (n + 1) (n == 1 || n == 4 || n == 10)))) ∧
    (s.InSegment e op .saveHouse 12 .cellWrite → goes (s.endedWith e .ok op)))

/-- A changeover that passes its test of cell 0 keeps the header and the directory and loads cells 1 to 9 into the staging
production tables, cell by cell. Its last segment, both checks matching, commits in that event: the live production layer, the
live bank and the live directory are the new bank's, playback rests dark, every link whose mode record changed is flagged. One
that fails, at segment 1 for its mark or directory, at segment 10 for a check, or at any segment for a fault: the staging
tables are the live ones again, and the live tables, the live bank, playback and the links are as they stood. That a fault's
place is the engine's and as many accesses more as the command says is the model's choice (log 16), and that the directory
outcome of the last header read covers check and form is its reading (log 17). -/
def Obligations.AChangeoverCommitsWholeOrNotAtAll : Prop :=
  (∀ (s : State) (e : Engine) (op : OpRecord) (n : Nat),
    let ws := (s.handed e).words
    let crc := (s.handed e).crc
    (s.InSegment e op .changeover 1 .cellRead → at' ws 0 = 0xA55A → (Cell0.ofWords ws).sound = true →
      exec .segmentComplete s = .next ((s.cell0Read op.bank ws).onWith
        { op with segment := 2, cell0 := some (Cell0.ofWords ws) } ⟨.cellRead, op.area, 1, 0xFFFF⟩)) ∧
    (s.InSegment e op .changeover n .cellRead → 2 ≤ n → n ≤ 9 →
      exec .segmentComplete s = .next (State.onWith
        { s with tables := { s.tables with staging :=
            if n ≤ 4 then
              { s.tables.staging with prodPatch := loadPatchCell s.tables.staging.prodPatch (n - 2) ws }
            else { s.tables.staging with prodCircuits := loadCircuitCell s.tables.staging.prodCircuits (n - 5) ws } } }
        { op with segment := n + 1, crc := crc, patchCheck := if n = 4 then crc else op.patchCheck }
        ⟨.cellRead, op.area, n, if n = 4 then 0xFFFF else crc⟩))) ∧
  (∀ (s : State) (e : Engine) (op : OpRecord), s.InSegment e op .changeover 10 .cellRead →
    op.patchCheck = op.header.patchCheck → (s.handed e).crc = op.header.circCheck →
    let live := { s.tables.live with
      prodPatch := s.tables.staging.prodPatch
      prodCircuits := loadCircuitCell s.tables.staging.prodCircuits 5 (s.handed e).words }
    ∃ t, exec .segmentComplete s = .next t ∧
      (∀ k : LinkIx, t.outs[k] = { s.outs[k] with
        forced := s.outs[k].forced || s.tables.live.modeRecord k != live.modeRecord k }) ∧
      t = { s with
        tables := ⟨live, { s.tables.staging with prodCircuits := live.prodCircuits }, .clean, op.bank⟩
        playback := { s.playback with
          directory := op.header.entries, lastTaken := none, takenLink := none, follow := none
          resting := Vector.replicate 1024 0 }
        outs := t.outs
        bank := { s.bank with
          state := .idle, op := none
          lastHeader := s.bank.lastHeader.map fun h => { h with patch := .matched, circuits := .matched } }
        memPort := (s.memPort.drive e.area e.cell ((s.txnWords e).length - 1)).wentOn
        mgmt := s.mgmt.ended .ok op }) ∧
  (∀ (s : State) (e : Engine) (op : OpRecord) (cut : Cut) (n : Nat),
    let ws := (s.handed e).words
    let outcome (same : Bool) : CheckOutcome := if same then .matched else .failed
    let failed (c : Instr) (u : State) : Prop :=
      exec c s = .next { u with tables := { s.tables with staging := s.tables.live, stage := .clean } }
    (s.InSegment e op .changeover 1 .cellRead →
      (at' ws 0 ≠ 0xA55A ∨ (Cell0.ofWords ws).sound = false) →
      failed .segmentComplete ((s.cell0Read op.bank ws).endedWith e .bankBad op)) ∧
    (s.InSegment e op .changeover 10 .cellRead →
      (op.patchCheck ≠ op.header.patchCheck ∨ (s.handed e).crc ≠ op.header.circCheck) →
      failed .segmentComplete (State.endedWith
        { s with bank := { s.bank with lastHeader := s.bank.lastHeader.map fun h => { h with
          patch := outcome (op.patchCheck == op.header.patchCheck)
          circuits := outcome ((s.handed e).crc == op.header.circCheck) } } } e .bankBad op)) ∧
    (s.InSegment e op .changeover n .cellRead → e.place + cut.accesses < 512 →
      failed (.rdyFault cut) { s with
        bank := { s.bank with state := .idle, op := none }
        memPort := (s.memPort.faulted e cut).wentOn
        mgmt := (s.mgmt.raise .memoryFault).ended .memoryFault op }))

/-- The cue operations at each of their segments. After the read of cell 0, which replaces the last header read (that its
directory outcome covers the form is the model's reading, log 17): STORE CUE chooses the lowest cell of 10–255 that no entry
names and writes its record there, or ends FULL, for a new cue with 246 entries or for a replacement with every cell named;
DELETE CUE goes on to write cell 0 and READ CUE to read the cue's cell, or
each ends NO-CUE; a bank that is not directory-sound, or not VALID for a store or a deletion, ends them BANK-BAD. The record of
a STORE CUE is written with its check word last, the places not yet written at the completion (the model's choice, log 2), and
then cell 0 with the entry; that the words of cell 0 laid out as zero are written back 0000 hex is the model's reading (log 19).
At their ends STORE CUE and DELETE CUE replace the live directory when their bank is live, and READ
CUE replaces the record buffer of its port. Each ends with reason OK. -/
def Obligations.CueOperationsTestTheDirectoryAndEnd : Prop :=
  (∀ (s : State) (e : Engine) (op : OpRecord),
    let ws := (s.handed e).words
    let c := Cell0.ofWords ws
    let ends (reason : OpReason) : Prop :=
      exec .segmentComplete s = .next ((s.cell0Read op.bank ws).endedWith e reason op)
    let goes (cell : Nat) (g : Segment) : Prop :=
      exec .segmentComplete s = .next ((s.cell0Read op.bank ws).onWith
        { op with segment := 2, cell0 := some c, cell := cell } g)
    (s.InSegment e op .storeCue 1 .cellRead → c.mark = 0xA55A → c.sound = true →
      ((∀ d ∈ c.entries, d.cue ≠ op.cue) → c.entries.length = 246 → ends .full) ∧
      ((∃ d ∈ c.entries, d.cue = op.cue) → (∀ m, 10 ≤ m → m ≤ 255 → ∃ d ∈ c.entries, d.cell = m) → ends .full)) ∧
    (∀ n, s.InSegment e op .storeCue 1 .cellRead → c.mark = 0xA55A → c.sound = true → c.entries.length < 246 →
      10 ≤ n → n ≤ 255 → (∀ d ∈ c.entries, d.cell ≠ n) → (∀ m, 10 ≤ m → m < n → ∃ d ∈ c.entries, d.cell = m) →
      goes n ⟨.recordWrite, op.area, n, 0xFFFF⟩) ∧
    (s.InSegment e op .deleteCue 1 .cellRead → c.mark = 0xA55A → c.sound = true →
      ((∀ d ∈ c.entries, d.cue ≠ op.cue) → ends .noCue) ∧
      ((∃ d ∈ c.entries, d.cue = op.cue) → goes op.cell ⟨.cellWrite, op.area, 0, 0xFFFF⟩)) ∧
    (s.InSegment e op .readCue 1 .cellRead → c.sound = true →
      ((∀ d ∈ c.entries, d.cue ≠ op.cue) → ends .noCue) ∧
      ∀ d ∈ c.entries, d.cue = op.cue → goes d.cell ⟨.cellRead, op.area, d.cell, 0xFFFF⟩) ∧
    (s.InSegment e op .readCue 1 .cellRead → c.sound = false → ends .bankBad) ∧
    (s.InSegment e op .storeCue 1 .cellRead ∨ s.InSegment e op .deleteCue 1 .cellRead →
      c.mark ≠ 0xA55A ∨ c.sound = false → ends .bankBad)) ∧
  (∀ (s : State) (e : Engine) (op : OpRecord), s.InSegment e op .storeCue 2 .recordWrite → Memory.wf s.mem →
    ∃ t, exec .segmentComplete s = .next t ∧
      t = { s.onWith { op with segment := 3 } ⟨.cellWrite, op.area, 0, 0xFFFF⟩ with mem := t.mem } ∧
      ∀ a, Memory.read a t.mem =
        if wordAddress e.area e.cell e.place ≤ a ∧ a ≤ wordAddress e.area e.cell op.record.length then
          at' (op.record ++ [checkWord op.record]) (a - wordAddress e.area e.cell 0)
        else Memory.read a s.mem) ∧
  (∀ (s : State) (op : OpRecord),
    (op.kind = .storeCue → op.segment = 3 → s.formCell op = Cell0.toWords
      { op.header.withEntries (storeEntry ⟨op.cue, op.cell⟩ op.header.entries) with mark := 0xA55A }) ∧
    (op.kind = .deleteCue → op.segment = 2 → s.formCell op =
      (op.header.withEntries (removeEntry op.cue op.header.entries)).toWords)) ∧
  (∀ (s : State) (e : Engine) (op : OpRecord) (p : PortIx),
    let ended (u : State) (directory : List DirEntry) : Prop :=
      ∃ t, exec .segmentComplete s = .next t ∧
        t = { u.endedWith e .ok op with
          mem := t.mem
          playback := { s.playback with
            directory := if op.bank = s.tables.liveBank then directory else s.playback.directory } }
    (s.InSegment e op .storeCue 3 .cellWrite → op.bank ≠ none →
      ended s (storeEntry ⟨op.cue, op.cell⟩ op.header.entries)) ∧
    (s.InSegment e op .deleteCue 2 .cellWrite → op.bank ≠ none → ended s (removeEntry op.cue op.header.entries)) ∧
    (s.InSegment e op .readCue 2 .cellRead → op.port = some p →
      let record := bufferOf (s.handed e).words
      exec .segmentComplete s = .next (State.endedWith
        { s with
          bank := { s.bank with buffer := record }
          ports := s.ports.set p { s.ports[p] with record := record } } e .ok op)))

/-- A bank operation accepted by request, other than a CHANGEOVER, that meets the RDY fault ends with reason MEMORY-FAULT:
MEMORY-FAULT and BANK-OP-FAILED are raised, the last fault record is replaced, and the tables, playback and ports are as
before. A write that is cut has written the words before the cut access, the word of that access has its new value or its old
one, and every other word is as before; a read changes no word. The place of the fault, and which value the cut word has, are
the command's operands (the model's choice, log 16). -/
def Obligations.AFaultEndsABankOperation : Prop :=
  ∀ (s : State) (e : Engine) (op : OpRecord) (n : Nat) (kind : OpKind) (txn : TxnKind) (cut : Cut),
    s.InSegment e op kind n txn → kind ≠ .changeover → kind ≠ .startUp →
    e.place + cut.accesses < (s.txnWords e).length →
    ∃ t, exec (.rdyFault cut) s = .next t ∧
      t = { s with
        bank := { s.bank with state := .idle, op := none }
        memPort := (s.memPort.faulted e cut).wentOn
        mem := t.mem
        mgmt := (s.mgmt.raise .memoryFault).ended .memoryFault op } ∧
      (txn.writes = false → t.mem = s.mem) ∧
      (txn.writes = true → Memory.wf s.mem → ∀ a, Memory.read a t.mem = s.cutRead e cut a)

/-- The house part of the start-up load, area by area: each cell into the cell buffer or the staging house tables; at the last
cell of an area, the area takes effect with its check matching, else keeps its defaults with HOUSE-BAD. A sound settings record
replaces the settings with the effects of a SET of each changed item; an unsound one fails. A faulting cell fails its area: cell
0 ends the house part, a later cell hands on the next area's first. At the end the load ends, or the changeover to the start
bank begins. What a receiver knows of its frame at a disable (log 15), that OUTPUT LINK is stored once (log 12) and the fault's
place (log 16) are the model's choices, and that only a link whose stored settings differ gets its pending flag is its reading
(log 27). -/
def Obligations.AHousePatchLoadsOrKeepsItsDefaults : Prop :=
  (∀ (s : State) (e : Engine) (op : OpRecord) (n : Nat), s.InSegment e op .startUp n .cellRead →
    let ws := (s.handed e).words
    let crc := (s.handed e).crc
    let goes (u : State) : Prop := exec .segmentComplete s = .next (u.onWith { op with segment := n + 1, crc := crc }
      ⟨.cellRead, op.area, n, if n = 2 ∨ n = 5 ∨ n = 11 then 0xFFFF else crc⟩)
    let buffered : State := { s with bank := { s.bank with buffer := bufferOf ws } }
    let bad (u : State) : State := { u with mgmt := u.mgmt.raise .houseBad }
    let staged (t : TableSet) : State := { s with tables := { s.tables with staging := t } }
    let t := s.tables.staging
    let patch := loadPatchCell t.housePatch (n - 3) ws
    let circuits := loadCircuitCell t.houseCircuits (n - 6) ws
    let masked : State := { buffered with mgmt := { s.mgmt with inputs := tab fun p => { s.mgmt.inputs[p] with
      accept := tab fun c => (at' ws (64 * p.val + c.val / 16)).getLsbD (c.val % 16) } } }
    let curves : Vector Word 119 := tab fun i => at' ws i.val
    let curved : State := { buffered with tables := { s.tables with
      live := { s.tables.live with curves := curves }, staging := { t with curves := curves } } }
    let ends (u : State) : Prop :=
      exec .segmentComplete s = .next (u.loadEnded (s.memPort.drive e.area e.cell ((s.txnWords e).length - 1)))
    (n = 2 → (crc = at' op.houseChecks 1 → goes masked) ∧ (crc ≠ at' op.houseChecks 1 → goes (bad buffered))) ∧
    (n = 3 ∨ n = 4 → goes (staged { t with housePatch := patch })) ∧
    (n = 5 →
      (crc = at' op.houseChecks 2 → goes { s with tables := { s.tables with
        live := { s.tables.live with housePatch := patch }, staging := { t with housePatch := patch } } }) ∧
      (crc ≠ at' op.houseChecks 2 → goes (bad (staged { t with housePatch := s.tables.live.housePatch })))) ∧
    (6 ≤ n → n ≤ 10 → goes (staged { t with houseCircuits := circuits })) ∧
    (n = 11 →
      (crc = at' op.houseChecks 3 → goes { s with tables := { s.tables with
        live := { s.tables.live with houseCircuits := circuits }, staging := { t with houseCircuits := circuits } } }) ∧
      (crc ≠ at' op.houseChecks 3 → goes (bad (staged { t with houseCircuits := s.tables.live.houseCircuits })))) ∧
    (n = 12 → (crc = at' op.houseChecks 4 → ends curved) ∧ (crc ≠ at' op.houseChecks 4 → ends (bad buffered)))) ∧
  (∀ (s : State) (e : Engine) (op : OpRecord), s.InSegment e op .startUp 1 .cellRead →
    let ws := (s.handed e).words
    let settings := (ws.drop 8).take 55
    let goes (u : State) : Prop := exec .segmentComplete s = .next (State.onWith
      { u with bank := { s.bank with buffer := bufferOf ws } }
      { op with segment := 2, crc := (s.handed e).crc, houseChecks := ws.take 5 } ⟨.cellRead, op.area, 1, 0xFFFF⟩)
    (at' ws 0 ≠ checkWord settings ∨ StoredSettings.of? settings = none →
      goes { s with mgmt := s.mgmt.raise .houseBad }) ∧
    ∀ (ins : PortIx → StoredInput) (links : LinkIx → LinkSettings) (budgets : GroupIx → Nat) (start : Option BankIx),
      at' ws 0 = checkWord settings →
      StoredSettings.of? settings = some ⟨List.ofFn ins, List.ofFn links, List.ofFn budgets, start⟩ →
      let off (p : PortIx) : Bool := s.mgmt.inputs[p].enabled && !(ins p).enabled
      let on (p : PortIx) : Bool := !s.mgmt.inputs[p].enabled && (ins p).enabled
      goes { s with
        ports := tab fun p =>
          let q := s.ports[p]
          if on p then { q with source := .absent, lossTimer := 0, hold := 0, fade := 0, factor := 65535 }
          else if off p then { q with
            receiver := if q.receiver = .noFrame then .noFrame else .dropping
            sync := .hunt, assembly := noLevels, sweeping := false, live := noLevels, source := .disabled
            lossTimer := 0, hold := 0, fade := 0, factor := 65535 }
          else q
        outs := tab fun k =>
          if links k = s.outs[k].pending then s.outs[k]
          else { s.outs[k] with pending := links k, pendingFlag := true }
        mgmt := ((List.finRange 4).filter fun p => off p && s.ports[p].sync != .hunt).foldl
          (fun m p => m.raise (.syncChange p))
          { s.mgmt with
            inputs := tab fun p => { s.mgmt.inputs[p] with
              enabled := (ins p).enabled, permit := (ins p).permit, autoResync := (ins p).autoResync
              lossN := (ins p).lossN, lossH := (ins p).lossH, lossF := (ins p).lossF }
            budgets := tab budgets, startBank := start } }) ∧
  (∀ (s : State) (e : Engine) (op : OpRecord) (n : Nat) (cut : Cut), s.InSegment e op .startUp n .cellRead →
    e.place + cut.accesses < 512 →
    let t := s.tables.staging
    let u : State := { s with
      memPort := s.memPort.faulted e cut
      mgmt := (s.mgmt.raise .memoryFault).raise .houseBad
      tables := { s.tables with staging :=
        if 3 ≤ n ∧ n ≤ 5 then { t with housePatch := s.tables.live.housePatch }
        else if 6 ≤ n ∧ n ≤ 11 then { t with houseCircuits := s.tables.live.houseCircuits }
        else t } }
    let first := if n = 2 then 3 else if n ≤ 5 then 6 else 12
    (n = 1 ∨ n = 12 → exec (.rdyFault cut) s = .next (u.loadEnded u.memPort)) ∧
    (2 ≤ n → n ≤ 11 → exec (.rdyFault cut) s = .next
      (u.onWith { op with segment := first } ⟨.cellRead, op.area, first - 1, 0xFFFF⟩)))

/-! ### Circuits, the refresh and the budget -/

/-- The effective entry and the effective record of a circuit are resolved apart, each from the production layer, else
the house layer; a circuit with no record has the default record, and one with no entry has raw level 0. The mode stage:
0 for UNUSED; else the park level; else the curve for DIM, and for SWITCH full at or above the threshold and 0 below it.
-/
def Obligations.EntryRecordAndModeOfACircuit : Prop :=
  (∀ (t : TableSet) (c : Circ) (merged : Chan → Level),
    (∀ e, t.prodPatch[c] = some e → t.entry c = some e) ∧
    (t.prodPatch[c] = none → t.entry c = t.housePatch[c]) ∧
    (∀ r, t.prodCircuits[c] = some r → t.record c = r) ∧
    (∀ r, t.prodCircuits[c] = none → t.houseCircuits[c] = some r → t.record c = r) ∧
    (t.prodCircuits[c] = none → t.houseCircuits[c] = none → t.record c = ⟨.dim, 0, none, 0, false, 32768, none⟩) ∧
    (∀ e, t.entry c = some e →
      (rawLevel merged (t.entry c)).toNat = (merged e.channel).toNat * e.proportion.val / 100) ∧
    (t.entry c = none → rawLevel merged (t.entry c) = 0)) ∧
  (∀ (t : TableSet) (r : CircuitRecord) (raw : Level),
    (r.mode = .unused → t.modeStage r raw = 0) ∧
    (∀ l, r.mode ≠ .unused → r.park = some l → t.modeStage r raw = l) ∧
    (r.mode = .dim → r.park = none → t.modeStage r raw = t.curveLevel r.curve raw) ∧
    (r.mode = .switch → r.park = none → r.threshold.toNat ≤ raw.toNat → t.modeStage r raw = 65535) ∧
    (r.mode = .switch → r.park = none → raw.toNat < r.threshold.toNat → t.modeStage r raw = 0))

/-- The merged level of a channel is the greatest of its playback level and the contributions of the LIVE, HOLDING and
FADING inputs that accept the channel and drive it, each its live level scaled by the loss factor. -/
def Obligations.TheMergeTakesTheGreatestLevel : Prop :=
  ∀ (s : State) (c : Chan),
    let contributes (p : PortIx) (l : Level) : Prop :=
      (s.ports[p].source = .live ∨ s.ports[p].source = .holding ∨ s.ports[p].source = .fading) ∧
        s.mgmt.inputs[p].accept[c] = true ∧ s.ports[p].live[c] = some l
    (s.playback.level c).toNat ≤ (s.merged c).toNat ∧
    (∀ p l, contributes p l → l.toNat * s.ports[p].factor.toNat / 65535 ≤ (s.merged c).toNat) ∧
    (s.merged c = s.playback.level c ∨
      ∃ p l, contributes p l ∧ (s.merged c).toNat = l.toNat * s.ports[p].factor.toNat / 65535)

/-- REFRESH publishes the whole image: each circuit's computed level through the check override and the budget of its
group. It writes all 18 group statuses, raises BUDGET-LIMIT when a group becomes limited, and changes nothing else. The
timer of the refresh is the model's choice (log 3). -/
def Obligations.ARefreshPublishesTheWholeImage : Prop :=
  ∀ s : State, s.held = false →
    ∃ t, exec .refresh s = .next t ∧
      t = { s with
        levels := t.levels
        mgmt := t.mgmt
        timers := { s.timers with refresh := twentyMs } } ∧
      (∀ c : Circ,
        let r := s.tables.live.record c
        let computed := s.tables.live.modeStage r (rawLevel s.merged (s.tables.live.entry c))
        let level := match s.lamp.under, s.lamp.params with
          | some u, some k => if c = u then k.level else if r.exempt then computed else 0
          | _, _ => computed
        s.stage4[c] = level ∧
        (∀ g, r.group = some g → r.exempt = false → 0 < s.mgmt.budgets[g] →
          65535 * s.mgmt.budgets[g] < s.tables.live.demand g s.stage4 →
          (t.levels.image[c]).toNat =
            level.toNat * (65535 * s.mgmt.budgets[g]) / s.tables.live.demand g s.stage4) ∧
        ((∀ g, r.group = some g → r.exempt = true ∨ s.mgmt.budgets[g] = 0 ∨
            s.tables.live.demand g s.stage4 ≤ 65535 * s.mgmt.budgets[g]) →
          t.levels.image[c] = level)) ∧
      (∀ g : GroupIx, t.levels.groups[g] =
        ⟨s.tables.live.demand g s.stage4 / 65535,
          decide (0 < s.mgmt.budgets[g] ∧ 65535 * s.mgmt.budgets[g] < s.tables.live.demand g s.stage4)⟩) ∧
      t.mgmt = if ∃ g : GroupIx, s.levels.groups[g].limited = false ∧ t.levels.groups[g].limited = true then
          s.mgmt.raise .budgetLimit
        else s.mgmt

/-- In every image that a refresh publishes, the sum of load × level over the non-exempt circuits of a group with a
budget B above 0 is at most 65535 × B. -/
def Obligations.NoPublishedImageExceedsABudget : Prop :=
  ∀ (s : State) (g : GroupIx), s.held = false → 0 < s.mgmt.budgets[g] →
    ∃ t, exec .refresh s = .next t ∧ t.tables.live.demand g t.levels.image ≤ 65535 * t.mgmt.budgets[g]

/-! ### Lamp check -/

/-- CHECK START: with its parameters in range it checks from the lowest member of the set at or above the start circuit;
it is refused in the order BAD-ARGUMENT for a parameter, BUSY during a changeover, SLOTS-ACTIVE, BAD-ARGUMENT for no
member. A circuit is a member of ALL when the mode of its effective record is DIM or SWITCH, and of PATCHED when it is one of
ALL and its effective entry is present with a proportion above 0 (R178). -/
def Obligations.CheckStartBeginsAtTheFirstMember : Prop :=
  (∀ (t : TableSet) (c : Circ),
    (t.member .all c = true ↔ (t.record c).mode = .dim ∨ (t.record c).mode = .switch) ∧
    (t.member .patched c = true ↔ ((t.record c).mode = .dim ∨ (t.record c).mode = .switch) ∧
      ∃ e, t.entry c = some e ∧ 0 < e.proportion.val)) ∧
  ∀ (h : FrameHead) (level dwell set start mode : Word) (s : State), s.Serves h →
    let refused (r : Result) : Prop :=
      exec (.checkStart h [level, dwell, set, start, mode]) s = .next { s with
        ports := s.portsAfter h.port (replyTo h 0x12 r) }
    (dwell = 0 ∨ 6000 < dwell.toNat ∨ 1 < set.toNat ∨ 1 < mode.toNat ∨ start = 0 ∨ 768 < start.toNat →
      refused .badArgument) ∧
    (∀ (k : CheckParams), k.level = level → k.dwell = dwell.toNat → 1 ≤ k.dwell → k.dwell ≤ 6000 →
      Circ.number k.start = start.toNat → k.set.code = set → k.mode.code = mode →
      (s.inChangeover = true → refused .busy) ∧
      (s.inChangeover = false → (∃ n : SlotIx, s.playback.slots[n] ≠ .free) → refused .slotsActive) ∧
      (s.inChangeover = false → (∀ n : SlotIx, s.playback.slots[n] = .free) →
        (∀ c : Circ, k.start ≤ c → s.tables.live.member k.set c = false) → refused .badArgument) ∧
      (∀ c : Circ, s.inChangeover = false → (∀ n : SlotIx, s.playback.slots[n] = .free) → k.start ≤ c →
        s.tables.live.member k.set c = true → (∀ d : Circ, k.start ≤ d → d < c → s.tables.live.member k.set d = false) →
        exec (.checkStart h [level, dwell, set, start, mode]) s = .next { s with
          ports := s.portsAfter h.port (replyTo h 0x12 .done)
          lamp := ⟨some k, some c, dwell.toNat⟩ }))

/-- CHECK NEXT moves to the next member above with a fresh dwell, or ends the check with CHECK-DONE; CHECK PREVIOUS
moves to the nearest member below, or stays, with a fresh dwell; CHECK STOP ends the check without an event. In IDLE all
three are NOT-ACTIVE. -/
def Obligations.CheckRequestsMoveOrEndTheCheck : Prop :=
  ∀ (h : FrameHead) (s : State), s.Serves h →
    (∀ (k : CheckParams) (c : Circ), s.lamp.params = some k → s.lamp.under = some c →
      (∀ d : Circ, c < d → s.tables.live.member k.set d = true →
        (∀ x : Circ, c < x → x < d → s.tables.live.member k.set x = false) →
        exec (.checkNext h []) s = .next { s with
          ports := s.portsAfter h.port (replyTo h 0x13 .done), lamp := ⟨some k, some d, k.dwell⟩ }) ∧
      ((∀ x : Circ, c < x → s.tables.live.member k.set x = false) →
        exec (.checkNext h []) s = .next { s with
          ports := s.portsAfter h.port (replyTo h 0x13 .done), lamp := ⟨some k, none, 0⟩
          mgmt := s.mgmt.raise .checkDone }) ∧
      (∀ d : Circ, d < c → s.tables.live.member k.set d = true →
        (∀ x : Circ, d < x → x < c → s.tables.live.member k.set x = false) →
        exec (.checkPrevious h []) s = .next { s with
          ports := s.portsAfter h.port (replyTo h 0x14 .done), lamp := ⟨some k, some d, k.dwell⟩ }) ∧
      ((∀ x : Circ, x < c → s.tables.live.member k.set x = false) →
        exec (.checkPrevious h []) s = .next { s with
          ports := s.portsAfter h.port (replyTo h 0x14 .done), lamp := ⟨some k, some c, k.dwell⟩ }) ∧
      exec (.checkStop h []) s = .next { s with
        ports := s.portsAfter h.port (replyTo h 0x15 .done), lamp := ⟨some k, none, 0⟩ }) ∧
    (s.lamp.under = none →
      exec (.checkNext h []) s = .next { s with ports := s.portsAfter h.port (replyTo h 0x13 .notActive) } ∧
      exec (.checkPrevious h []) s = .next { s with ports := s.portsAfter h.port (replyTo h 0x14 .notActive) } ∧
      exec (.checkStop h []) s = .next { s with ports := s.portsAfter h.port (replyTo h 0x15 .notActive) })

/-- The interval of the lamp check counts the dwell of an ACTIVE AUTO check down; at its end the check moves to the next
member with a fresh dwell, or ends with CHECK-DONE. In STEP and in IDLE it changes nothing but its timer. The timer, and
DWELL_EXPIRES as the whole interval, are the model's choices (logs 3 and 7). -/
def Obligations.TheLampCheckIntervalCountsTheDwell : Prop :=
  ∀ s : State, s.held = false →
    let timers := { s.timers with lamp := tenMs }
    (∀ (k : CheckParams) (c : Circ), s.lamp.params = some k → s.lamp.under = some c → k.mode = .auto →
      (2 ≤ s.lamp.remaining →
        exec .lampCheckInterval s = .next { s with
          lamp := ⟨some k, some c, s.lamp.remaining - 1⟩, timers := timers }) ∧
      (s.lamp.remaining = 1 → exec .dwellExpires s = exec .lampCheckInterval s ∧
        (∀ d : Circ, c < d → s.tables.live.member k.set d = true →
          (∀ x : Circ, c < x → x < d → s.tables.live.member k.set x = false) →
          exec .dwellExpires s = .next { s with lamp := ⟨some k, some d, k.dwell⟩, timers := timers }) ∧
        ((∀ x : Circ, c < x → s.tables.live.member k.set x = false) →
          exec .dwellExpires s = .next { s with
            lamp := ⟨some k, none, 0⟩, timers := timers, mgmt := s.mgmt.raise .checkDone }))) ∧
    (s.lamp.under = none ∨ (∃ k, s.lamp.params = some k ∧ k.mode = .step) →
      exec .lampCheckInterval s = .next { s with timers := timers })

/-! ### The intervals of an input -/

/-- The interval of an input port in LIVE, HOLDING and FADING while nothing runs out: one count moves, and in FADING the
loss factor is computed afresh. In DISABLED, ABSENT and LOST, and in HOLDING with H = FOREVER, it changes nothing but
its timer. What runs out at an interval: a LIVE source's timer at 0 brings HOLDING, a HOLDING source's count at H brings
FADING, a FADING source's count at F brings LOST with an empty live set; H = 0 and F = 0 are passed in the same event,
and SOURCE-CHANGE is raised at the passage from LIVE and at the passage into LOST. The timer, and each of the three
expiries as the whole interval, are the model's choices (logs 3 and 7). -/
def Obligations.APortIntervalCountsOrRunsOut : Prop :=
  (∀ (p : PortIx) (s : State), s.held = false →
    let q := s.ports[p]
    let i := s.mgmt.inputs[p]
    let counted (q' : Port) : Prop :=
      exec (.portInterval p) s = .next { s with
        ports := s.ports.set p q', timers := { s.timers with ports := s.timers.ports.set p tenMs } }
    (q.source = .live → 0 < q.lossTimer → counted { q with lossTimer := q.lossTimer - 1 }) ∧
    (∀ H, q.source = .holding → i.lossH = some H → q.hold + 1 < H → counted { q with hold := q.hold + 1 }) ∧
    (q.source = .fading → q.fade + 1 < i.lossF →
      counted { q with
        fade := q.fade + 1, factor := BitVec.ofNat 16 (65535 - 65535 * (q.fade + 1) / i.lossF) }) ∧
    (q.source = .disabled ∨ q.source = .absent ∨ q.source = .lost ∨ (q.source = .holding ∧ i.lossH = none) → counted q)) ∧
  (∀ (p : PortIx) (s : State), s.held = false →
    let q := s.ports[p]
    let i := s.mgmt.inputs[p]
    let goes (c : Instr) (q' : Port) (mgmt : Mgmt) : Prop :=
      exec c s = .next { s with
        ports := s.ports.set p q', mgmt := mgmt
        timers := { s.timers with ports := s.timers.ports.set p tenMs } } ∧
      exec (.portInterval p) s = exec c s
    let lost (q : Port) : Port := { q with source := .lost, live := noLevels, factor := 0 }
    let raised := s.mgmt.raise (.sourceChange p)
    (q.source = .live → q.lossTimer = 0 →
      (i.lossH ≠ some 0 → goes (.lossTimerRunsOut p) { q with source := .holding, hold := 0, factor := 65535 } raised) ∧
      (i.lossH = some 0 → i.lossF ≠ 0 →
        goes (.lossTimerRunsOut p) { q with source := .fading, hold := 0, fade := 0, factor := 65535 } raised) ∧
      (i.lossH = some 0 → i.lossF = 0 → goes (.lossTimerRunsOut p) (lost { q with hold := 0, fade := 0 }) raised)) ∧
    (∀ H, q.source = .holding → i.lossH = some H → H ≤ q.hold + 1 →
      (i.lossF ≠ 0 →
        goes (.holdRunsOut p) { q with source := .fading, hold := q.hold + 1, fade := 0, factor := 65535 } s.mgmt) ∧
      (i.lossF = 0 → goes (.holdRunsOut p) (lost { q with hold := q.hold + 1, fade := 0 }) raised)) ∧
    (q.source = .fading → i.lossF ≤ q.fade + 1 → goes (.fadeRunsOut p) (lost { q with fade := q.fade + 1 }) raised))

/-! ### Output links and the hold -/

/-- A frame start of a RUNNING link that stays on: a CYCLE-START at position 0 or by the flag, carrying the resolution
after the pending settings and the mode record; else a LEVEL frame of the published levels cut to the resolution, its
position one higher and 24 returning to 0. The other expiries of a frame timer: a link that is to be off goes OFF; an
OFF, WAITING or HELD link that is to be on runs from position 0 with a CYCLE-START, or is HELD while HOLDREQ is
asserted; a WAITING link does nothing while the start-up load runs. The timer is the model's choice (log 3), and so is
what an expiry does while a frame is in flight (log 20). -/
def Obligations.AnOutputFrameTimerExpires : Prop :=
  (∀ (k : LinkIx) (s : State), s.held = false → s.outs[k].state = .running →
    (s.outs[k].pendingFlag = true → s.outs[k].pending.enabled = true) →
    let o := s.outs[k]
    let current := if o.pendingFlag then o.pending else o.current
    let sent (o' : OutPort) : Prop :=
      exec (.outputFrameTimer k) s = .next { s with
        outs := s.outs.set k o', timers := { s.timers with outs := s.timers.outs.set k twentyMs } }
    (o.position = 0 ∨ o.forced = true →
      sent { o with
        current := current, pendingFlag := false, forced := false, position := 1
        frame := some (cycleStartFrame current.resolution (s.tables.live.modeRecord k)) }) ∧
    (o.position ≠ 0 → o.forced = false →
      sent { o with
        position := if o.position = 24 then 0 else o.position + 1
        frame := some (withCheck ([0x0012, wordOf o.position] ++
          (s.levels.linkLevels k).map fun x => x - BitVec.ofNat 16 (x.toNat % 2 ^ (16 - o.current.resolution.bits)))) })) ∧
  (∀ (k : LinkIx) (s : State), s.held = false →
    let o := s.outs[k]
    let current := if o.pendingFlag then o.pending else o.current
    let applied : OutPort := { o with current := current, pendingFlag := false }
    let goes (o' : OutPort) : Prop :=
      exec (.outputFrameTimer k) s = .next { s with
        outs := s.outs.set k o', timers := { s.timers with outs := s.timers.outs.set k twentyMs } }
    let first := some (cycleStartFrame current.resolution (s.tables.live.modeRecord k))
    ((o.state = .running ∨ o.state = .held) → o.pendingFlag = true → o.pending.enabled = false →
      goes { applied with state := .off, frame := none, position := 0 }) ∧
    (o.state = .off → o.pendingFlag = true → o.pending.enabled = false → goes applied) ∧
    (o.state = .off → o.pendingFlag = false → goes o) ∧
    (o.state = .waiting → s.bank.state = .starting → goes o) ∧
    (o.state = .waiting → s.bank.state ≠ .starting → current.enabled = false →
      goes { applied with state := .off, frame := none, position := 0 }) ∧
    ((o.state = .off ∧ o.pendingFlag = true ∨ o.state = .waiting ∧ s.bank.state ≠ .starting) → current.enabled = true →
      (s.hold.holdreq = true → goes { applied with state := .held, frame := none, position := 0, forced := true }) ∧
      (s.hold.holdreq = false →
        goes { applied with state := .running, position := 1, forced := false, frame := first })) ∧
    (o.state = .held → (o.pendingFlag = true → o.pending.enabled = true) →
      (s.hold.holdreq = true → goes o) ∧
      (s.hold.holdreq = false → o.forced = true →
        goes { applied with state := .running, position := 1, forced := false, frame := first })))

/-- The completion of a frame in flight: a RUNNING link waits for its next expiry; a STOPPING link goes HELD, and when
no link then drives its line HOLDACK is asserted with HOLD-CHANGE. -/
def Obligations.AFrameCompletes : Prop :=
  ∀ (k : LinkIx) (ws : List Word) (s : State), s.held = false → s.outs[k].frame = some ws →
    let held := s.outs.set k { s.outs[k] with state := .held, frame := none, position := 0, forced := true }
    (s.outs[k].state = .running →
      exec (.outputFrameComplete k) s = .next { s with outs := s.outs.set k { s.outs[k] with frame := none } }) ∧
    (s.outs[k].state = .stopping → s.hold.holdreq = true → s.hold.holdack = false →
      ((∃ j : LinkIx, j ≠ k ∧ (s.outs[j].state = .running ∨ s.outs[j].state = .stopping)) →
        exec (.outputFrameComplete k) s = .next { s with outs := held }) ∧
      ((∀ j : LinkIx, j ≠ k → s.outs[j].state ≠ .running ∧ s.outs[j].state ≠ .stopping) →
        exec (.outputFrameComplete k) s = .next { s with
          outs := held, hold := { s.hold with holdack := true }, mgmt := s.mgmt.raise .holdChange }))

/-- HOLDREQ asserted: a RUNNING link with a frame in flight goes STOPPING, one without goes HELD, every other stays;
when none is left driving, HOLDACK is asserted at once with HOLD-CHANGE. HOLDREQ deasserted: HOLDACK is deasserted at
once, with HOLD-CHANGE if it was asserted; each STOPPING link is RUNNING again, and each HELD link waits for its next
expiry. -/
def Obligations.HoldreqStopsAndFreesTheLinks : Prop :=
  (∀ s : State, s.held = false → s.hold = ⟨false, false, false⟩ →
    let outs : Vector OutPort 6 := tab fun k =>
      if s.outs[k].state = .running then
        (if s.outs[k].frame.isSome then { s.outs[k] with state := .stopping }
          else { s.outs[k] with state := .held, frame := none, position := 0, forced := true })
      else s.outs[k]
    ((∃ k : LinkIx, outs[k].state = .stopping) →
      exec .holdreqAsserted s = .next { s with outs := outs, hold := ⟨true, true, false⟩ }) ∧
    ((∀ k : LinkIx, outs[k].state ≠ .stopping) →
      exec .holdreqAsserted s = .next { s with
        outs := outs, hold := ⟨true, true, true⟩, mgmt := s.mgmt.raise .holdChange })) ∧
  (∀ s : State, s.held = false → s.hold.line = true →
    exec .holdreqDeasserted s = .next { s with
      outs := tab fun k =>
        if s.outs[k].state = .stopping then { s.outs[k] with state := .running } else s.outs[k]
      hold := ⟨false, false, false⟩
      mgmt := if s.hold.holdack then s.mgmt.raise .holdChange else s.mgmt })

/-! ### Settings, status and events -/

/-- SET of INPUT ENABLE and INPUT PERMIT: the setting takes its value and the port its disable or enable, unless no
input would be left both enabled and manage-permitted, when it is refused BAD-ARGUMENT. What the receiver of a port knows of a
frame in progress at a disable is the model's choice (log 15). -/
def Obligations.ASetKeepsAManagingInput : Prop :=
  ∀ (h : FrameHead) (w v : Word) (i : PortIx) (on : Bool) (s : State), s.Serves h → w.toNat = i.val →
    (v = if on then 1 else 0) →
    let enables := s.mgmt.inputs.set i { s.mgmt.inputs[i] with enabled := on }
    let permits := s.mgmt.inputs.set i { s.mgmt.inputs[i] with permit := on }
    let refused (c : Instr) : Prop :=
      exec c s = .next { s with ports := s.portsAfter h.port (replyTo h 0x16 .badArgument) }
    (managing enables = false → refused (.setInputEnable h [w, v])) ∧
    (managing permits = false → refused (.setInputPermit h [w, v])) ∧
    (managing permits = true →
      exec (.setInputPermit h [w, v]) s = .next { s with
        ports := s.portsAfter h.port (replyTo h 0x16 .done), mgmt := { s.mgmt with inputs := permits } }) ∧
    (managing enables = true → s.mgmt.inputs[i].enabled = on →
      exec (.setInputEnable h [w, v]) s = .next { s with
        ports := s.portsAfter h.port (replyTo h 0x16 .done) }) ∧
    (managing enables = true → s.mgmt.inputs[i].enabled ≠ on →
      let taken := s.ports.set h.port s.ports[h.port].tookGood
      let q := taken[i]
      let q' : Port := if on then { q with source := .absent, lossTimer := 0, hold := 0, fade := 0, factor := 65535 }
        else { q with
          receiver := if q.receiver = .noFrame then .noFrame else .dropping
          sync := .hunt, assembly := noLevels, sweeping := false, live := noLevels, source := .disabled
          lossTimer := 0, hold := 0, fade := 0, factor := 65535 }
      let ports := taken.set i q'
      exec (.setInputEnable h [w, v]) s = .next { s with
        ports := ports.set h.port (Port.enqueue (replyTo h 0x16 .done) ports[h.port])
        mgmt := if on = false ∧ q.sync ≠ .hunt then
            Mgmt.raise (.syncChange i) { s.mgmt with inputs := enables }
          else { s.mgmt with inputs := enables } })

/-- SET of AUTO-RESYNC, LOSS TIMES, ACCEPT MASK, BUDGET, START BANK, EVENT ENABLES, MEMORY TIMING and OUTPUT LINK: every
value carried replaces the one held, and nothing else changes. EVENT ENABLES decides ALERT afresh, and OUTPUT LINK sets
the pending flag. That an instance word laid out as zero is not read, that OUTPUT LINK is stored once, and that bits
which a flag word does not assign are ignored, are the model's choices (logs 11, 12 and 21). -/
def Obligations.ASetReplacesTheValuesItCarries : Prop :=
  ∀ (h : FrameHead) (s : State), s.Serves h →
    let ports := s.portsAfter h.port (replyTo h 0x16 .done)
    let input (i : PortIx) (x : InputSettings) : State :=
      { s with ports := ports, mgmt := { s.mgmt with inputs := s.mgmt.inputs.set i x } }
    (∀ (w v : Word) (i : PortIx) (on : Bool), w.toNat = i.val → (v = if on then 1 else 0) →
      exec (.setAutoResync h [w, v]) s = .next (input i { s.mgmt.inputs[i] with autoResync := on })) ∧
    (∀ (w n l f : Word) (i : PortIx), w.toNat = i.val → 1 ≤ n.toNat → n.toNat ≤ 1000 → (l = 0xFFFF ∨ l.toNat ≤ 60000) →
      f.toNat ≤ 60000 →
      exec (.setLossTimes h [w, n, l, f]) s = .next (input i { s.mgmt.inputs[i] with
        lossN := n.toNat, lossH := if l = 0xFFFF then none else some l.toNat, lossF := f.toNat })) ∧
    (∀ (w first : Word) (ws : List Word) (i : PortIx), w.toNat = i.val → 1 ≤ ws.length → 1 ≤ first.toNat →
      first.toNat + 16 * ws.length ≤ 1025 →
      exec (.setAcceptMask h (w :: first :: ws)) s = .next (input i { s.mgmt.inputs[i] with
        accept := tab fun c =>
          if first.toNat ≤ Chan.number c ∧ Chan.number c < first.toNat + 16 * ws.length then
            (at' ws ((Chan.number c - first.toNat) / 16)).getLsbD ((Chan.number c - first.toNat) % 16)
          else s.mgmt.inputs[i].accept[c] })) ∧
    (∀ (w : Word) (ws : List Word), 1 ≤ ws.length → w.toNat + ws.length ≤ 18 → (∀ x ∈ ws, x.toNat ≤ 10000) →
      exec (.setBudget h (w :: ws)) s = .next { s with
        ports := ports
        mgmt := { s.mgmt with budgets := tab fun g =>
          if w.toNat ≤ g.val ∧ g.val < w.toNat + ws.length then (at' ws (g.val - w.toNat)).toNat
          else s.mgmt.budgets[g] } }) ∧
    (∀ (w v : Word) (b : Option BankIx), bankWord b = v →
      exec (.setStartBank h [w, v]) s = .next { s with ports := ports, mgmt := { s.mgmt with startBank := b } }) ∧
    (∀ w a b : Word, ∃ enables : EventSet, (∀ e : Event, enables.getLsbD e.bit =
        if e.bit < 16 then a.getLsbD e.bit else b.getLsbD (e.bit - 16)) ∧
      exec (.setEventEnables h [w, a, b]) s = .next { s with
        ports := ports
        mgmt := { s.mgmt with enables := enables, alertLow := decide (s.mgmt.flags &&& enables ≠ 0) } }) ∧
    (∀ (w p q : Word) (wp wh : Fin 4), p.toNat = wp.val → q.toNat = wh.val →
      exec (.setMemoryTiming h [w, p, q]) s = .next { s with
        ports := ports, memPort := { s.memPort with waitP := wp, waitH := wh } }) ∧
    (∀ (w v r : Word) (k : LinkIx) (on : Bool) (res : Resolution), w.toNat = k.val → (v = if on then 1 else 0) →
      r.toNat = res.bits →
      exec (.setOutputLink h [w, v, r]) s = .next { s with
        ports := ports, outs := s.outs.set k { s.outs[k] with pending := ⟨on, res⟩, pendingFlag := true } })

/-- STATUS READ is decided for every port and in every state of the load, answers DONE with the data of its selector, or
BAD-ARGUMENT for a selector above 12, for an instance or a range outside the selector's bounds, and changes nothing but its
port's own count and reply. The data of each selector are given word by word; a state is coded by its place in its list. What a
selector does not take of item, instance, first and count is not read, the model's choice
(log 11). SNAPSHOT copies the six counters of all four ports to their snapshots and zeroes them, the counts of its own frame
among them; CLEAR EVENTS clears the flags it names and decides ALERT afresh; RESTART marks its reply and changes nothing
else. The words of the levels of ALERT and HOLDREQ are free values (log 6). The model's choices and readings are the segment
index of an absent operation and the word of HOLDACK (logs 5 and 6), OUTPUT LINK read from the pending settings (log 12), the
layout of flags, of an absent follow and of the engine's words (log 18), that bits a flag word does not assign are ignored
(log 21), the word of a live bank of NONE (log 29), and the two words of the event flags, of the enable set, and of the current
and the pending settings of a link (log 30). -/
def Obligations.StatusReadSnapshotClearEventsAndRestart : Prop :=
  (∀ (h : FrameHead) (selector item inst first count : Word) (s : State), s.InStep h →
    s.ports[h.port].replies.length < 4 →
    let refused : Prop := exec (.statusRead h [selector, item, inst, first, count]) s = .next { s with
      ports := s.portsAfter h.port (replyTo h 0x18 .badArgument) }
    let answers (data : List Word) : Prop :=
      exec (.statusRead h [selector, item, inst, first, count]) s = .next { s with
        ports := s.portsAfter h.port { replyTo h 0x18 .done with data := data } }
    let taken := { s with ports := s.ports.set h.port s.ports[h.port].tookGood }
    let run (base size most : Nat) : Prop :=
      base ≤ first.toNat ∧ 1 ≤ count.toNat ∧ count.toNat ≤ most ∧ first.toNat + count.toNat ≤ base + size
    (∀ data, taken.statusData selector item inst first count = some data → answers data) ∧
    (taken.statusData selector item inst first count = none → refused) ∧
    (12 < selector.toNat → refused) ∧
    (3 < inst.toNat → selector = 3 ∨ selector = 4 ∨ selector = 5 → refused) ∧
    (selector = 5 ∨ selector = 7 → ¬run 1 1024 64 → refused) ∧
    (selector = 8 → ¬run 1 768 128 → refused) ∧
    (selector = 2 → 9 < item.toNat ∨ (item.toNat ≤ 4 ∧ 3 < inst.toNat) ∨ (item = 4 ∧ ¬run 0 64 64) ∨
      (item = 5 ∧ 5 < inst.toNat) ∨ (item = 6 ∧ ¬run 0 18 18) → refused) ∧
    (selector = 1 →
      answers [s.mgmt.flags.truncate 16, (s.mgmt.flags >>> 16).truncate 16, s.mgmt.enables.truncate 16,
        (s.mgmt.enables >>> 16).truncate 16, Config.alertWord s.mgmt.alertLow, s.mgmt.lastOp.reason.code,
        kindWord s.mgmt.lastOp.kind, bankWord s.mgmt.lastOp.bank]) ∧
    (∀ i : PortIx, selector = 4 → inst.toNat = i.val →
      let q := s.ports[i]
      answers [q.source.code, q.factor, wordOf q.lossTimer, wordOf q.hold, wordOf q.fade, boolWord q.sweeping]) ∧
    (selector = 7 → run 1 1024 64 →
      answers ((((List.finRange 1024).drop (first.toNat - 1)).take count.toNat).flatMap fun c =>
        [s.playback.level c, (s.playback.owner[c].map fun o => wordOf o.slot.val).getD 0xFFFF])) ∧
    (selector = 8 → run 1 768 128 →
      answers ((s.levels.image.toList.drop (first.toNat - 1)).take count.toNat)) ∧
    (selector = 0 →
      answers ([s.mgmt.cause.code, s.bank.state.code, kindWord s.opKind, bankWord (s.bank.op.bind OpRecord.bank),
          (s.bank.op.map fun op => wordOf op.segment).getD 0] ++
        (match s.bank.lastHeader with
          | some x => [wordOf x.bank.val, x.mark, (x.writeCount >>> 16).truncate 16, x.writeCount.truncate 16, x.count,
              x.directory.code, x.patch.code, x.circuits.code]
          | none => [0xFFFF, 0, 0, 0, 0, 0, 0, 0]) ++ [s.tables.stage.code, bankWord s.tables.liveBank])) ∧
    (selector = 2 →
      (∀ i : PortIx, inst.toNat = i.val →
        let x := s.mgmt.inputs[i]
        (item = 0 → answers [boolWord x.enabled]) ∧ (item = 1 → answers [boolWord x.permit]) ∧
        (item = 2 → answers [boolWord x.autoResync]) ∧
        (item = 3 → answers [wordOf x.lossN, timeWord x.lossH, wordOf x.lossF]) ∧
        (item = 4 → run 0 64 64 → ∃ data, answers data ∧ data.length = count.toNat ∧
          ∀ c : Chan, first.toNat ≤ c.val / 16 → c.val / 16 < first.toNat + count.toNat →
            (at' data (c.val / 16 - first.toNat)).getLsbD (c.val % 16) = x.accept[c])) ∧
      (∀ k : LinkIx, item = 5 → inst.toNat = k.val →
        answers [boolWord s.outs[k].pending.enabled, wordOf s.outs[k].pending.resolution.bits]) ∧
      (item = 6 → run 0 18 18 → answers (((s.mgmt.budgets.toList.drop first.toNat).take count.toNat).map wordOf)) ∧
      (item = 7 → answers [bankWord s.mgmt.startBank]) ∧
      (item = 8 → answers [s.mgmt.enables.truncate 16, (s.mgmt.enables >>> 16).truncate 16]) ∧
      (item = 9 → answers [wordOf s.memPort.waitP.val, wordOf s.memPort.waitH.val])) ∧
    (∀ i : PortIx, selector = 3 → inst.toNat = i.val →
      let q := taken.ports[i]
      let six (x : Counters) : List Word :=
        [x.good, x.bad, x.gaps, x.completed, x.aborted, x.dropped].flatMap longWords
      answers ([q.sync.code, q.expected, wordOf q.goodCount, wordOf q.window.length, wordOf (badCount q.window)] ++
        six q.counters ++ six q.snapshot ++ [wordOf q.replies.length, boolWord q.sending.isSome])) ∧
    (∀ i : PortIx, selector = 5 → inst.toNat = i.val → run 1 1024 64 →
      answers (((s.ports[i].live.toList.drop (first.toNat - 1)).take count.toNat).flatMap fun x =>
        [if x.isSome then 0 else 0xFFFF, x.getD 0])) ∧
    (selector = 6 →
      let fade (state : Word) (f : Fade) : List Word :=
        [state, (f.cue.map wordOf).getD 0xFFFF, wordOf f.order] ++ longWords (BitVec.ofNat 32 f.elapsed) ++
          longWords (BitVec.ofNat 32 f.endTime)
      answers (((List.finRange 6).flatMap fun n => match s.playback.slots[n] with
          | .free => [0, 0, 0, 0, 0, 0, 0]
          | .fetching f => [1, wordOf f.cue, 0, 0, 0, 0, 0]
          | .fading f => fade 2 f
          | .paused f => fade 3 f) ++
        [(s.playback.lastTaken.map wordOf).getD 0, (s.playback.takenLink.map wordOf).getD 0,
          (s.playback.follow.map fun f => wordOf f.remaining).getD 0xFFFF,
          (s.playback.follow.map fun f => boolWord f.paused).getD 0])) ∧
    (selector = 9 →
      answers ((List.finRange 18).flatMap fun g => [wordOf s.mgmt.budgets[g]] ++
        longWords (BitVec.ofNat 32 s.levels.groups[g].lastDemand) ++ [boolWord s.levels.groups[g].limited])) ∧
    (selector = 10 →
      answers (((List.finRange 6).flatMap fun k =>
          let o := s.outs[k]
          [o.state.code, boolWord o.frame.isSome, wordOf o.position, boolWord o.forced, boolWord o.current.enabled,
            wordOf o.current.resolution.bits, boolWord o.pending.enabled, wordOf o.pending.resolution.bits,
            boolWord o.pendingFlag]) ++
        [Config.holdreqWord s.hold.holdreq, if s.hold.holdack then 0 else 1])) ∧
    (selector = 11 →
      answers ([boolWord s.lamp.under.isSome] ++
        (match s.lamp.params with
          | some k => [1, k.level, wordOf k.dwell, k.set.code, wordOf (k.start.val + 1), k.mode.code]
          | none => [0, 0, 0, 0, 0, 0]) ++
        [(s.lamp.under.map fun c => wordOf (c.val + 1)).getD 0, wordOf s.lamp.remaining])) ∧
    (selector = 12 →
      let m := s.memPort
      let requester (n : Option SlotIx) : Word := if n.isSome then 0 else 1
      let area (a : Area) : List Word := match a with
        | .prod b => [0, wordOf b.val]
        | .house => [1, 0]
      answers ([wordOf m.waitP.val, wordOf m.waitH.val] ++
        (match m.engine with
          | none => [0]
          | some e => [1, requester e.slot, e.kind.code] ++ area e.area ++ [wordOf e.cell]) ++
        [wordOf m.queue.length] ++ (m.queue.flatMap fun f => [wordOf f.slot.val, wordOf f.cell]) ++
        [boolWord m.bankSlot.isSome] ++
        (match m.lastFault with
          | none => List.replicate 6 0xFFFF
          | some f => [requester f.slot, f.kind.code] ++ area f.area ++ [wordOf f.cell, wordOf f.place])))) ∧
  ([SyncState.hunt, .acquire, .locked].map SyncState.code = [0, 1, 2] ∧
    [SourceState.disabled, .absent, .live, .holding, .fading, .lost].map SourceState.code = [0, 1, 2, 3, 4, 5] ∧
    [LinkState.off, .waiting, .running, .stopping, .held].map LinkState.code = [0, 1, 2, 3, 4] ∧
    [StagingState.clean, .edited, .loading].map StagingState.code = [0, 1, 2] ∧
    [CtlState.starting, .idle, .busy].map CtlState.code = [0, 1, 2] ∧
    [OpKind.changeover, .save, .saveHouse, .format, .storeCue, .deleteCue, .readCue, .startUp].map OpKind.code =
      [0, 1, 2, 3, 4, 5, 6, 7] ∧
    [OpReason.none, .ok, .bankBad, .full, .noCue, .memoryFault].map OpReason.code = [0, 1, 2, 3, 4, 5] ∧
    [CheckOutcome.notTested, .matched, .failed].map CheckOutcome.code = [0, 1, 2] ∧
    [ResetCause.line, .restart].map ResetCause.code = [0, 1] ∧ [CheckSet.patched, .all].map CheckSet.code = [0, 1] ∧
    [CheckMode.auto, .step].map CheckMode.code = [0, 1] ∧
    [TxnKind.cellRead, .cellWrite, .recordWrite, .cueFetch].map TxnKind.code = [0, 1, 2, 3]) ∧
  (∀ (h : FrameHead) (a b : Word) (s : State), s.Serves h →
    (let taken := s.ports.set h.port s.ports[h.port].tookGood
      let ports : Vector Port 4 := tab fun p =>
        { taken[p] with snapshot := taken[p].counters, counters := ⟨0, 0, 0, 0, 0, 0⟩ }
      exec (.snapshot h []) s = .next { s with
        ports := ports.set h.port (Port.enqueue (replyTo h 0x17 .done) ports[h.port]) }) ∧
    (∃ named : EventSet, (∀ e : Event, named.getLsbD e.bit =
        if e.bit < 16 then a.getLsbD e.bit else b.getLsbD (e.bit - 16)) ∧
      exec (.clearEvents h [a, b]) s = .next { s with
        ports := s.portsAfter h.port (replyTo h 0x19 .done)
        mgmt := { s.mgmt with
          flags := s.mgmt.flags &&& ~~~named
          alertLow := decide (s.mgmt.flags &&& ~~~named &&& s.mgmt.enables ≠ 0) } }) ∧
    exec (.restart h []) s = .next { s with
      ports := s.portsAfter h.port { replyTo h 0x1A .accepted with restart := true } })

/-- The completion of a reply frame: the reply leaves its queue, the reply sequence is one higher, and the frame of the
next reply begins, or the transmitter is IDLE. The completion of a restart reply performs the reset of the part with
cause RESTART. The memory is as before, unless the reset cuts a write: then the words before the cut access are written, the
word of that access has its new value or its old one, and every other word is as before. How far a write in progress has got
is said by the command's operand (log 16), and what a receiver knows of the frame on its lane is the model's choice
(log 15). -/
def Obligations.AReplyFrameCompletes : Prop :=
  (∀ (p : PortIx) (cut : Cut) (s : State) (ws : List Word) (r : Reply) (rs : List Reply), s.held = false →
    s.ports[p].sending = some ws → s.ports[p].replies = r :: rs → r.restart = false →
    exec (.replyFrameComplete p cut) s = .next { s with
      ports := s.ports.set p { s.ports[p] with
        replies := rs
        replySeq := s.ports[p].replySeq + 1
        sending := rs.head?.map fun x => replyFrame (s.ports[p].replySeq + 1) x } }) ∧
  (∀ (p : PortIx) (cut : Cut) (s : State) (ws : List Word) (r : Reply) (rs : List Reply), s.held = false →
    s.ports[p].sending = some ws → s.ports[p].replies = r :: rs → r.restart = true →
    ∃ t, exec (.replyFrameComplete p cut) s = .next t ∧ s.Fresh t .restart ∧
      ((∀ e, s.memPort.engine = some e → e.kind.writes = false) → t.mem = s.mem) ∧
      ∀ e, s.memPort.engine = some e → e.kind.writes = true → e.place + cut.accesses < (s.txnWords e).length →
        Memory.wf s.mem → ∀ a, Memory.read a t.mem = s.cutRead e cut a)

/-- A raised event sets its own flag and no other, and ALERT is low exactly when some flag is both set and enabled. -/
def Obligations.ARaisedEventSetsItsFlagAlone : Prop :=
  ∀ (e f : Event) (m : Mgmt),
    (m.raise e).flags.getLsbD f.bit = (m.flags.getLsbD f.bit || decide (e = f)) ∧
    ((m.raise e).alertLow = true ↔ ∃ g : Event, (m.raise e).flags.getLsbD g.bit = true ∧
      (m.raise e).enables.getLsbD g.bit = true) ∧
    (m.raise e).enables = m.enables ∧ (m.raise e).inputs = m.inputs ∧ (m.raise e).lastOp = m.lastOp

/-- A change of one word changes the check word of a list. -/
def Obligations.ACheckWordSeesAnyChangeOfOneWord : Prop :=
  ∀ (xs ys : List Word) (w v : Word), w ≠ v → checkWord (xs ++ w :: ys) ≠ checkWord (xs ++ v :: ys)

/-! ### Invariants that every step keeps -/

/-- Every step keeps the memory in its canonical form, a list of the words that are not 0000 hex in rising address order. That
form, and what an unlisted word reads as, are the model's choices (log 1). -/
def Obligations.EveryStepKeepsTheMemoryCanonical : Prop :=
  ∀ s t : State, Memory.wf s.mem → step s = .next t → Memory.wf t.mem

/-- Every step keeps ALERT low exactly while the RESET line is not held and a flag is both set and enabled. -/
def Obligations.EveryStepKeepsAlertRight : Prop :=
  ∀ s t : State, s.alertRight → step s = .next t → t.alertRight

/-- Every step keeps HOLDACK asserted only while HOLDREQ is asserted and no output link drives its line. -/
def Obligations.EveryStepKeepsHoldackRight : Prop :=
  ∀ s t : State, s.holdRight → step s = .next t → t.holdRight

/-- Every step keeps each reply queue at four replies or fewer, each transmitter SENDING exactly while a reply is
queued, and each window at 16 outcomes or fewer. -/
def Obligations.EveryStepKeepsThePortsBounded : Prop :=
  ∀ s t : State, (∀ p : PortIx, s.ports[p].bounded) → step s = .next t → ∀ p : PortIx, t.ports[p].bounded

/-- Every step keeps some input both enabled and manage-permitted. -/
def Obligations.EveryStepKeepsAManagingInput : Prop :=
  ∀ s t : State, s.managed → step s = .next t → t.managed

/-- Every step keeps FREE and FETCHING slots without channels, and the start orders of the fading and paused slots the numbers
1 to k, each held by one slot, k the number of such slots. -/
def Obligations.EveryStepKeepsOwnersActive : Prop :=
  (∀ s t : State, s.playback.ownersRight → step s = .next t → t.playback.ownersRight) ∧
    ∀ s t : State, s.playback.ordersRight → step s = .next t → t.playback.ordersRight

/-- Every step leaves nothing waiting at the Memory Port while its engine is IDLE. -/
def Obligations.EveryStepLeavesNothingUngranted : Prop :=
  ∀ s t : State, s.memPort.granted → step s = .next t → t.memPort.granted

/-- Every step keeps the live directory, and the one that a bank operation holds, in the sound form of R30: cue numbers strictly
ascending and in range, cells 10–255, none twice. -/
def Obligations.EveryStepKeepsTheDirectoriesSound : Prop :=
  ∀ s t : State, s.directoriesRight → step s = .next t → t.directoriesRight

/-- The invariants hold right after reset, among them the start orders of no slot. State.reset's empty RAM and its deasserted
HOLDREQ are the model's choices (logs 1 and 8). -/
def Obligations.TheInvariantsHoldAtReset : Prop :=
  Memory.wf State.reset.mem ∧ State.reset.alertRight ∧ State.reset.holdRight ∧
    (∀ p : PortIx, State.reset.ports[p].bounded) ∧ State.reset.managed ∧ State.reset.playback.ownersRight ∧
    State.reset.playback.ordersRight ∧
    State.reset.memPort.granted ∧ State.reset.directoriesRight
end

