-- ==== Sys2Proof/Laws/Memory.lean ====
section
/-! SUPPORT. The external memory: reading after writing, and the canonical form that every operation on it keeps. -/

namespace Sys2Proof.Machine

/-- An address below every listed one reads as unlisted. -/
theorem Memory.read_below (a : Nat) : ∀ m : Memory, (∀ c ∈ m, a < c.1) → Memory.read a m = unlistedWord
  | [], _ => rfl
  | c :: m, h => by
    have hc := h c (by simp)
    have hm := Memory.read_below a m fun d hd => h d (by simp [hd])
    simp only [Memory.read]
    rw [if_neg (by omega), hm]

/-- A word written below a bound keeps every address above it. -/
theorem Memory.write_above (b a : Nat) (w : Word) :
    ∀ m : Memory, b < a → (∀ c ∈ m, b < c.1) → ∀ c ∈ Memory.write a w m, b < c.1
  | [], hba, _, c, hc => by
    simp only [Memory.write] at hc
    split at hc
    · simp at hc
    · simp only [List.mem_singleton] at hc
      subst hc
      exact hba
  | d :: m, hba, h, c, hc => by
    have hm : ∀ e ∈ m, b < e.1 := fun e he => h e (by simp [he])
    have hd : b < d.1 := h d (by simp)
    simp only [Memory.write] at hc
    split at hc
    · split at hc
      · exact h c hc
      · rcases List.mem_cons.1 hc with rfl | hc
        · exact hba
        · exact h c hc
    · split at hc
      · split at hc
        · exact hm c hc
        · rcases List.mem_cons.1 hc with rfl | hc
          · exact hba
          · exact hm c hc
      · rcases List.mem_cons.1 hc with rfl | hc
        · exact hd
        · exact Memory.write_above b a w m hba hm c hc

theorem Memory.wf_nil : Memory.wf [] := ⟨List.Pairwise.nil, by simp⟩

theorem Memory.wf_cons {c : Nat × Word} {m : Memory} :
    Memory.wf (c :: m) ↔ (∀ d ∈ m, c.1 < d.1) ∧ c.2 ≠ unlistedWord ∧ Memory.wf m := by
  simp only [Memory.wf, List.pairwise_cons, List.forall_mem_cons]
  tauto

/-- A write keeps the canonical form. -/
theorem Memory.write_wf (a : Nat) (w : Word) : ∀ m : Memory, Memory.wf m → Memory.wf (Memory.write a w m)
  | [], _ => by
    simp only [Memory.write]
    split
    · exact Memory.wf_nil
    · next hw => exact Memory.wf_cons.2 ⟨by simp, hw, Memory.wf_nil⟩
  | c :: m, h => by
    have ⟨hc, hw, hm⟩ := Memory.wf_cons.1 h
    simp only [Memory.write]
    split
    · next hlt =>
      split
      · exact h
      · next hn =>
        refine Memory.wf_cons.2 ⟨?_, hn, h⟩
        intro d hd
        rcases List.mem_cons.1 hd with rfl | hd
        · exact hlt
        · exact Nat.lt_trans hlt (hc d hd)
    · split
      · next heq =>
        split
        · exact hm
        · next hn => exact Memory.wf_cons.2 ⟨fun d hd => heq ▸ hc d hd, hn, hm⟩
      · exact Memory.wf_cons.2 ⟨Memory.write_above c.1 a w m (by omega) hc, hw, Memory.write_wf a w m hm⟩

/-- A word written is read back. -/
theorem Memory.read_write_same (a : Nat) (w : Word) :
    ∀ m : Memory, Memory.wf m → Memory.read a (Memory.write a w m) = w
  | [], _ => by
    simp only [Memory.write]
    split
    · next hw => simp [Memory.read, hw]
    · simp [Memory.read]
  | c :: m, h => by
    have ⟨hc, _, hm⟩ := Memory.wf_cons.1 h
    simp only [Memory.write]
    split
    · next hlt =>
      split
      · next hw =>
        rw [hw]
        refine Memory.read_below a _ fun d hd => ?_
        rcases List.mem_cons.1 hd with rfl | hd
        · exact hlt
        · exact Nat.lt_trans hlt (hc d hd)
      · simp [Memory.read]
    · split
      · next heq =>
        split
        · next hw =>
          rw [hw]
          exact Memory.read_below a m fun d hd => heq ▸ hc d hd
        · simp [Memory.read]
      · next hne =>
        simp only [Memory.read]
        rw [if_neg (by omega)]
        exact Memory.read_write_same a w m hm

/-- A write changes no other word. -/
theorem Memory.read_write_other {a b : Nat} (w : Word) (hab : b ≠ a) :
    ∀ m : Memory, Memory.read b (Memory.write a w m) = Memory.read b m
  | [] => by
    simp only [Memory.write]
    split
    · rfl
    · simp [Memory.read, Ne.symm hab]
  | c :: m => by
    simp only [Memory.write]
    split
    · split
      · rfl
      · simp [Memory.read, Ne.symm hab]
    · split
      · next heq =>
        split
        · simp [Memory.read, ← heq, Ne.symm hab]
        · simp [Memory.read, ← heq, Ne.symm hab]
      · simp [Memory.read, Memory.read_write_other w hab m]

/-- A run of writes keeps the canonical form. -/
theorem Memory.writeRun_wf : ∀ (ws : List Word) (a : Nat) (m : Memory), Memory.wf m → Memory.wf (Memory.writeRun a ws m)
  | [], _, _, h => h
  | w :: ws, a, m, h => Memory.writeRun_wf ws (a + 1) _ (Memory.write_wf a w m h)

/-- A run of writes changes no word outside the run. -/
theorem Memory.read_writeRun_outside : ∀ (ws : List Word) (a b : Nat) (m : Memory), b < a ∨ a + ws.length ≤ b →
    Memory.read b (Memory.writeRun a ws m) = Memory.read b m
  | [], _, _, _, _ => rfl
  | w :: ws, a, b, m, h => by
    simp only [List.length_cons] at h
    simp only [Memory.writeRun]
    rw [Memory.read_writeRun_outside ws (a + 1) b _ (by omega), Memory.read_write_other w (by omega)]

/-- The words of a run are read back. -/
theorem Memory.read_writeRun_inside : ∀ (ws : List Word) (a i : Nat) (m : Memory), Memory.wf m → (h : i < ws.length) →
    Memory.read (a + i) (Memory.writeRun a ws m) = ws[i]
  | w :: ws, a, 0, m, hm, _ => by
    simp only [Memory.writeRun, Nat.add_zero, List.getElem_cons_zero]
    rw [Memory.read_writeRun_outside ws (a + 1) a _ (by omega), Memory.read_write_same a w m hm]
  | w :: ws, a, i + 1, m, hm, h => by
    simp only [Memory.writeRun, List.getElem_cons_succ]
    rw [show a + (i + 1) = a + 1 + i by omega]
    exact Memory.read_writeRun_inside ws (a + 1) i _ (Memory.write_wf a w m hm) (by simpa using h)

/-- A run of reads has its length. -/
@[simp] theorem Memory.readRun_length (m : Memory) : ∀ (n a : Nat), (Memory.readRun m a n).length = n
  | 0, _ => rfl
  | n + 1, a => by simp [Memory.readRun, Memory.readRun_length m n (a + 1)]

end Sys2Proof.Machine
end

