-- ==== Sys2Proof/Laws/Directory.lean ====
section
/-! SUPPORT. Cells as they pass through the memory: a run of words read back, cell 0 read back from its words, and the directory
that a STORE CUE, DELETE CUE or FORMAT writes, which is sound when its entries are. -/

namespace Sys2Proof.Machine

/-- A run of words written is read back as a run. -/
theorem Memory.readRun_writeRun (m : Memory) (hm : Memory.wf m) : ∀ (ws : List Word) (a : Nat),
    Memory.readRun (Memory.writeRun a ws m) a ws.length = ws
  | ws, a => by
    have hget : ∀ (n b i : Nat) (m' : Memory), i < n → (Memory.readRun m' b n)[i]? = some (Memory.read (b + i) m') := by
      intro n
      induction n with
      | zero => intro b i m' h; omega
      | succ n ih =>
        intro b i m' h
        cases i with
        | zero => simp [Memory.readRun]
        | succ i =>
          simp only [Memory.readRun, List.getElem?_cons_succ]
          rw [ih (b + 1) i m' (by omega)]
          congr 2
          omega
    apply List.ext_getElem?
    intro i
    by_cases hi : i < ws.length
    · rw [hget _ _ _ _ hi, Memory.read_writeRun_inside ws a i m hm hi, List.getElem?_eq_getElem hi]
    · rw [List.getElem?_eq_none (by simp; omega), List.getElem?_eq_none (by omega)]

theorem longOf_longWords (n : BitVec 32) : longOf ((n >>> 16).truncate 16) (n.truncate 16) = n := by
  apply BitVec.eq_of_getLsbD_eq
  intro i hi
  simp only [longOf, BitVec.getLsbD_append, BitVec.truncate_eq_setWidth, BitVec.getLsbD_setWidth,
    BitVec.getLsbD_ushiftRight]
  by_cases h : i < 16
  · simp [h]
  · have h2 : i - 16 < 16 := by omega
    have h3 : 16 + (i - 16) = i := by omega
    simp [h, h2, h3]

/-- Cell 0 is read back from its words (R226). -/
theorem Cell0.ofWords_toWords {c : Cell0} (h : c.places.length = 492) : Cell0.ofWords c.toWords = c := by
  obtain ⟨mark, n, dir, patch, circ, count, places⟩ := c
  have hp : (List.drop 16 (Cell0.toWords ⟨mark, n, dir, patch, circ, count, places⟩)).take 492 = places := by
    have : List.drop 16 (Cell0.toWords ⟨mark, n, dir, patch, circ, count, places⟩) = places ++ List.replicate 4 0 := rfl
    rw [this, List.take_append_of_le_length (by rw [h]), List.take_of_length_le (by rw [h])]
  simp only [Cell0.ofWords, hp]
  congr 1
  exact longOf_longWords n

theorem placesOf_length {es : List DirEntry} (h : es.length ≤ 246) : (placesOf es).length = 492 := by
  have : (es.flatMap fun e => [wordOf e.cue, wordOf e.cell]).length = 2 * es.length := by
    clear h
    induction es with
    | nil => rfl
    | cons e es ih => simp only [List.flatMap_cons, List.length_append, ih, List.length_cons, List.length_nil]; omega
  simp only [placesOf, List.length_append, List.length_replicate, this]
  omega

/-- Entries whose numbers fit a word are read back from their places. -/
theorem entriesOf_flatMap : ∀ (es : List DirEntry) (rest : List Word), (∀ e ∈ es, e.cue < 65536 ∧ e.cell < 65536) →
    entriesOf es.length ((es.flatMap fun e => [wordOf e.cue, wordOf e.cell]) ++ rest) = es
  | [], rest, _ => by cases rest <;> rfl
  | e :: es, rest, h => by
    have ⟨h1, h2⟩ := h e (by simp)
    have ih := entriesOf_flatMap es rest fun d hd => h d (by simp [hd])
    simp only [List.flatMap_cons, List.cons_append, List.nil_append, List.length_cons, entriesOf, wordOf,
      BitVec.toNat_ofNat]
    congr 2 <;> exact Nat.mod_eq_of_lt (by omega)

theorem ascendingFrom_bounds : ∀ (es : List DirEntry) (n : Nat), ascendingFrom n es = true →
    ∀ e ∈ es, e.cue ≤ 9999 ∧ e.cell ≤ 255
  | e :: es, n, h, d, hd => by
    simp only [ascendingFrom, Bool.and_eq_true, decide_eq_true_eq] at h
    rcases List.mem_cons.1 hd with rfl | hd
    · exact ⟨h.1.2.1, h.1.2.2.2⟩
    · exact ascendingFrom_bounds es e.cue h.2 d hd

/-- Cell 0 with a sound directory of at most 246 entries holds that directory (R30). -/
theorem Cell0.entries_withEntries (c : Cell0) {es : List DirEntry} (hl : es.length ≤ 246) (hs : soundEntries es = true) :
    (c.withEntries es).entries = es := by
  have ha : ascendingFrom 0 es = true := by
    simp only [soundEntries, Bool.and_eq_true] at hs
    exact hs.1
  have hb := ascendingFrom_bounds es 0 ha
  have hc : (wordOf es.length).toNat = es.length := by
    simp only [wordOf, BitVec.toNat_ofNat]
    exact Nat.mod_eq_of_lt (by omega)
  simp only [Cell0.entries, Cell0.withEntries, hc, placesOf]
  exact entriesOf_flatMap es _ fun e he => ⟨by have := (hb e he).1; omega, by have := (hb e he).2; omega⟩

/-- Cell 0 with a sound directory of at most 246 entries is directory-sound (R30, R132). -/
theorem Cell0.sound_withEntries (c : Cell0) {es : List DirEntry} (hl : es.length ≤ 246) (hs : soundEntries es = true) :
    (c.withEntries es).sound = true := by
  have hc : (c.withEntries es).count.toNat ≤ 246 := by
    simp only [Cell0.withEntries, wordOf, BitVec.toNat_ofNat]
    omega
  have hd : (c.withEntries es).computedDirCheck = (c.withEntries es).dirCheck := rfl
  unfold Cell0.sound
  rw [hd, beq_self_eq_true, decide_eq_true hc, Cell0.entries_withEntries c hl hs, hs]
  rfl

theorem Cell0.places_withEntries (c : Cell0) {es : List DirEntry} (hl : es.length ≤ 246) :
    (c.withEntries es).places.length = 492 := placesOf_length hl

theorem ascendingFrom_weaken : ∀ (es : List DirEntry) {m n : Nat}, m ≤ n → ascendingFrom n es = true →
    ascendingFrom m es = true
  | [], _, _, _, _ => rfl
  | e :: es, m, n, hmn, h => by
    simp only [ascendingFrom, Bool.and_eq_true, decide_eq_true_eq] at h ⊢
    exact ⟨⟨by omega, h.1.2⟩, h.2⟩

/-- A removal leaves the entries that stay ascending (R41). -/
theorem removeEntry_ascending (cue : Nat) : ∀ (es : List DirEntry) (n : Nat), ascendingFrom n es = true →
    ascendingFrom n (removeEntry cue es) = true
  | [], _, _ => rfl
  | e :: es, n, h => by
    simp only [ascendingFrom, Bool.and_eq_true, decide_eq_true_eq] at h
    have ih := removeEntry_ascending cue es e.cue h.2
    simp only [removeEntry, List.filter_cons] at ih ⊢
    split
    · simp only [ascendingFrom, Bool.and_eq_true, decide_eq_true_eq]
      exact ⟨h.1, ih⟩
    · exact ascendingFrom_weaken _ (by omega) ih

theorem distinctCells_sublist : ∀ {ds es : List DirEntry}, ds.Sublist es → distinctCells es = true → distinctCells ds = true
  | _, _, .slnil, _ => rfl
  | _, _, .cons e h, hd => by
    simp only [distinctCells, Bool.and_eq_true] at hd
    exact distinctCells_sublist h hd.2
  | _, _, .cons_cons e h, hd => by
    simp only [distinctCells, Bool.and_eq_true, Bool.not_eq_true', List.any_eq_false] at hd ⊢
    exact ⟨fun d hm => hd.1 d (h.mem hm), distinctCells_sublist h hd.2⟩

/-- A removal keeps a directory sound (R30, R41). -/
theorem removeEntry_sound (cue : Nat) {es : List DirEntry} (h : soundEntries es = true) :
    soundEntries (removeEntry cue es) = true := by
  simp only [soundEntries, Bool.and_eq_true] at h ⊢
  exact ⟨removeEntry_ascending cue es 0 h.1, distinctCells_sublist List.filter_sublist h.2⟩

/-- An entry in range stored in its place leaves the entries ascending (R39). -/
theorem storeEntry_ascending {e : DirEntry} (hc : e.cue ≤ 9999) (h1 : 10 ≤ e.cell) (h2 : e.cell ≤ 255) :
    ∀ (es : List DirEntry) (n : Nat), n < e.cue → ascendingFrom n es = true → ascendingFrom n (storeEntry e es) = true
  | [], n, hn, _ => by simp [storeEntry, ascendingFrom, hn, hc, h1, h2]
  | d :: es, n, hn, h => by
    have h' := h
    simp only [ascendingFrom, Bool.and_eq_true, decide_eq_true_eq] at h
    unfold storeEntry
    split
    · next hlt =>
      simp only [ascendingFrom, Bool.and_eq_true, decide_eq_true_eq]
      exact ⟨⟨hn, hc, h1, h2⟩, ⟨hlt, h.1.2⟩, h.2⟩
    · split
      · next heq =>
        simp only [ascendingFrom, Bool.and_eq_true, decide_eq_true_eq]
        exact ⟨⟨hn, hc, h1, h2⟩, heq ▸ h.2⟩
      · simp only [ascendingFrom, Bool.and_eq_true, decide_eq_true_eq]
        exact ⟨h.1, storeEntry_ascending hc h1 h2 es d.cue (by omega) h.2⟩

theorem mem_storeEntry {e d : DirEntry} : ∀ {es : List DirEntry}, d ∈ storeEntry e es → d = e ∨ d ∈ es
  | [], h => by simpa [storeEntry] using h
  | c :: es, h => by
    unfold storeEntry at h
    split at h
    · simpa using h
    · split at h
      · rcases List.mem_cons.1 h with h | h
        · exact .inl h
        · exact .inr (List.mem_cons_of_mem _ h)
      · rcases List.mem_cons.1 h with h | h
        · exact .inr (h ▸ List.mem_cons_self)
        · exact (mem_storeEntry h).imp id (List.mem_cons_of_mem _)

theorem storeEntry_distinct {e : DirEntry} : ∀ (es : List DirEntry), (∀ d ∈ es, d.cell ≠ e.cell) → distinctCells es = true →
    distinctCells (storeEntry e es) = true
  | [], _, _ => rfl
  | d :: es, hn, h => by
    have hd := h
    simp only [distinctCells, Bool.and_eq_true, Bool.not_eq_true', List.any_eq_false, beq_iff_eq] at hd
    unfold storeEntry
    split
    · simp only [distinctCells, Bool.and_eq_true, Bool.not_eq_true', List.any_eq_false, beq_iff_eq]
      exact ⟨hn, hd⟩
    · split
      · simp only [distinctCells, Bool.and_eq_true, Bool.not_eq_true', List.any_eq_false, beq_iff_eq]
        exact ⟨fun c hc => hn c (List.mem_cons_of_mem _ hc), hd.2⟩
      · simp only [distinctCells, Bool.and_eq_true, Bool.not_eq_true', List.any_eq_false, beq_iff_eq]
        refine ⟨fun c hc => ?_, storeEntry_distinct es (fun c hc => hn c (List.mem_cons_of_mem _ hc)) hd.2⟩
        rcases mem_storeEntry hc with rfl | hc
        · exact fun h => hn d List.mem_cons_self h.symm
        · exact hd.1 c hc

/-- A cue in range stored at a cell that no entry names keeps a directory sound (R30, R39). -/
theorem storeEntry_sound {e : DirEntry} {es : List DirEntry} (h0 : 1 ≤ e.cue) (hc : e.cue ≤ 9999) (h1 : 10 ≤ e.cell)
    (h2 : e.cell ≤ 255) (hn : ∀ d ∈ es, d.cell ≠ e.cell) (h : soundEntries es = true) :
    soundEntries (storeEntry e es) = true := by
  simp only [soundEntries, Bool.and_eq_true] at h ⊢
  exact ⟨storeEntry_ascending hc h1 h2 es 0 h0 h.1, storeEntry_distinct es hn h.2⟩

/-- The cell chosen for a STORE CUE lies in 10–255 and no entry names it (R39). -/
theorem freeCell?_spec {es : List DirEntry} {n : Nat} (h : freeCell? es = some n) :
    10 ≤ n ∧ n ≤ 255 ∧ ∀ d ∈ es, d.cell ≠ n := by
  unfold freeCell? at h
  have hm := List.mem_of_find?_eq_some h
  have hp := List.find?_some h
  simp only [List.mem_map, List.mem_range] at hm
  obtain ⟨i, hi, rfl⟩ := hm
  simp only [Bool.not_eq_true', List.any_eq_false, beq_iff_eq] at hp
  exact ⟨by omega, by omega, fun d hd => hp d hd⟩

/-- The words that a transaction reads depend on the memory alone. -/
theorem State.handed_reads {s t : State} {e : Engine} (hk : e.kind = .cellRead ∨ e.kind = .cueFetch) (hm : s.mem = t.mem) :
    s.handed e = t.handed e := by
  have : s.txnWords e = t.txnWords e := by
    unfold State.txnWords
    rcases hk with hk | hk <;> rw [hk, hm]
  unfold State.handed
  rw [this]

/-- A cell read of a memory that holds the cell's words. -/
theorem State.handed_words {s : State} {e : Engine} {ws : List Word} (hk : e.kind = .cellRead) (hl : ws.length = 512)
    (hm : s.mem = Memory.writeRun (wordAddress e.area e.cell 0) ws []) : (s.handed e).words = ws := by
  simp only [State.handed, State.txnWords, hk, hm]
  have := Memory.readRun_writeRun [] Memory.wf_nil ws (wordAddress e.area e.cell 0)
  rw [hl] at this
  exact this

/-- A cell read of a memory that holds the words of cell 0 from its first place on. -/
theorem State.handed_cell0 {s : State} {e : Engine} {c : Cell0} (hk : e.kind = .cellRead) (hc : c.places.length = 492)
    (hm : s.mem = Memory.writeRun (wordAddress e.area e.cell 0) c.toWords []) :
    Cell0.ofWords (s.handed e).words = c := by
  have hl : c.toWords.length = 512 := by
    simp only [Cell0.toWords, longWords, List.length_append, List.length_cons, List.length_nil, List.length_replicate, hc]
  rw [State.handed_words hk hl hm, Cell0.ofWords_toWords hc]

end Sys2Proof.Machine
end

