-- ==== Sys2Proof/Laws/State.lean ====
section
/-! SUPPORT. What each named update of the state does to each field, one lemma a field: no later proof unfolds a record update.
An update that changes a field in more than one way has no lemma for that field here. -/

namespace Sys2Proof.Machine

/-! ### modPort -/

@[simp] theorem State.modPort_held (p : PortIx) (f : Port → Port) (s : State) : (s.modPort p f).held = s.held := rfl
@[simp] theorem State.modPort_ports (p : PortIx) (f : Port → Port) (s : State) : (s.modPort p f).ports = s.ports.set p (f s.ports[p]) := rfl
@[simp] theorem State.modPort_playback (p : PortIx) (f : Port → Port) (s : State) : (s.modPort p f).playback = s.playback := rfl
@[simp] theorem State.modPort_tables (p : PortIx) (f : Port → Port) (s : State) : (s.modPort p f).tables = s.tables := rfl
@[simp] theorem State.modPort_levels (p : PortIx) (f : Port → Port) (s : State) : (s.modPort p f).levels = s.levels := rfl
@[simp] theorem State.modPort_lamp (p : PortIx) (f : Port → Port) (s : State) : (s.modPort p f).lamp = s.lamp := rfl
@[simp] theorem State.modPort_outs (p : PortIx) (f : Port → Port) (s : State) : (s.modPort p f).outs = s.outs := rfl
@[simp] theorem State.modPort_hold (p : PortIx) (f : Port → Port) (s : State) : (s.modPort p f).hold = s.hold := rfl
@[simp] theorem State.modPort_memPort (p : PortIx) (f : Port → Port) (s : State) : (s.modPort p f).memPort = s.memPort := rfl
@[simp] theorem State.modPort_bank (p : PortIx) (f : Port → Port) (s : State) : (s.modPort p f).bank = s.bank := rfl
@[simp] theorem State.modPort_mgmt (p : PortIx) (f : Port → Port) (s : State) : (s.modPort p f).mgmt = s.mgmt := rfl
@[simp] theorem State.modPort_timers (p : PortIx) (f : Port → Port) (s : State) : (s.modPort p f).timers = s.timers := rfl
@[simp] theorem State.modPort_mem (p : PortIx) (f : Port → Port) (s : State) : (s.modPort p f).mem = s.mem := rfl
@[simp] theorem State.modPort_pending (p : PortIx) (f : Port → Port) (s : State) : (s.modPort p f).pending = s.pending := rfl

/-! ### modPorts -/

@[simp] theorem State.modPorts_held (f : PortIx → Port → Port) (s : State) : (s.modPorts f).held = s.held := rfl
@[simp] theorem State.modPorts_ports (f : PortIx → Port → Port) (s : State) : (s.modPorts f).ports = tab fun p => f p s.ports[p] := rfl
@[simp] theorem State.modPorts_playback (f : PortIx → Port → Port) (s : State) : (s.modPorts f).playback = s.playback := rfl
@[simp] theorem State.modPorts_tables (f : PortIx → Port → Port) (s : State) : (s.modPorts f).tables = s.tables := rfl
@[simp] theorem State.modPorts_levels (f : PortIx → Port → Port) (s : State) : (s.modPorts f).levels = s.levels := rfl
@[simp] theorem State.modPorts_lamp (f : PortIx → Port → Port) (s : State) : (s.modPorts f).lamp = s.lamp := rfl
@[simp] theorem State.modPorts_outs (f : PortIx → Port → Port) (s : State) : (s.modPorts f).outs = s.outs := rfl
@[simp] theorem State.modPorts_hold (f : PortIx → Port → Port) (s : State) : (s.modPorts f).hold = s.hold := rfl
@[simp] theorem State.modPorts_memPort (f : PortIx → Port → Port) (s : State) : (s.modPorts f).memPort = s.memPort := rfl
@[simp] theorem State.modPorts_bank (f : PortIx → Port → Port) (s : State) : (s.modPorts f).bank = s.bank := rfl
@[simp] theorem State.modPorts_mgmt (f : PortIx → Port → Port) (s : State) : (s.modPorts f).mgmt = s.mgmt := rfl
@[simp] theorem State.modPorts_timers (f : PortIx → Port → Port) (s : State) : (s.modPorts f).timers = s.timers := rfl
@[simp] theorem State.modPorts_mem (f : PortIx → Port → Port) (s : State) : (s.modPorts f).mem = s.mem := rfl
@[simp] theorem State.modPorts_pending (f : PortIx → Port → Port) (s : State) : (s.modPorts f).pending = s.pending := rfl

/-! ### modInput -/

@[simp] theorem State.modInput_held (p : PortIx) (f : InputSettings → InputSettings) (s : State) : (s.modInput p f).held = s.held := rfl
@[simp] theorem State.modInput_ports (p : PortIx) (f : InputSettings → InputSettings) (s : State) : (s.modInput p f).ports = s.ports := rfl
@[simp] theorem State.modInput_playback (p : PortIx) (f : InputSettings → InputSettings) (s : State) : (s.modInput p f).playback = s.playback := rfl
@[simp] theorem State.modInput_tables (p : PortIx) (f : InputSettings → InputSettings) (s : State) : (s.modInput p f).tables = s.tables := rfl
@[simp] theorem State.modInput_levels (p : PortIx) (f : InputSettings → InputSettings) (s : State) : (s.modInput p f).levels = s.levels := rfl
@[simp] theorem State.modInput_lamp (p : PortIx) (f : InputSettings → InputSettings) (s : State) : (s.modInput p f).lamp = s.lamp := rfl
@[simp] theorem State.modInput_outs (p : PortIx) (f : InputSettings → InputSettings) (s : State) : (s.modInput p f).outs = s.outs := rfl
@[simp] theorem State.modInput_hold (p : PortIx) (f : InputSettings → InputSettings) (s : State) : (s.modInput p f).hold = s.hold := rfl
@[simp] theorem State.modInput_memPort (p : PortIx) (f : InputSettings → InputSettings) (s : State) : (s.modInput p f).memPort = s.memPort := rfl
@[simp] theorem State.modInput_bank (p : PortIx) (f : InputSettings → InputSettings) (s : State) : (s.modInput p f).bank = s.bank := rfl
@[simp] theorem State.modInput_mgmt (p : PortIx) (f : InputSettings → InputSettings) (s : State) : (s.modInput p f).mgmt = { s.mgmt with inputs := s.mgmt.inputs.set p (f s.mgmt.inputs[p]) } := rfl
@[simp] theorem State.modInput_timers (p : PortIx) (f : InputSettings → InputSettings) (s : State) : (s.modInput p f).timers = s.timers := rfl
@[simp] theorem State.modInput_mem (p : PortIx) (f : InputSettings → InputSettings) (s : State) : (s.modInput p f).mem = s.mem := rfl
@[simp] theorem State.modInput_pending (p : PortIx) (f : InputSettings → InputSettings) (s : State) : (s.modInput p f).pending = s.pending := rfl

/-! ### modOut -/

@[simp] theorem State.modOut_held (k : LinkIx) (f : OutPort → OutPort) (s : State) : (s.modOut k f).held = s.held := rfl
@[simp] theorem State.modOut_ports (k : LinkIx) (f : OutPort → OutPort) (s : State) : (s.modOut k f).ports = s.ports := rfl
@[simp] theorem State.modOut_playback (k : LinkIx) (f : OutPort → OutPort) (s : State) : (s.modOut k f).playback = s.playback := rfl
@[simp] theorem State.modOut_tables (k : LinkIx) (f : OutPort → OutPort) (s : State) : (s.modOut k f).tables = s.tables := rfl
@[simp] theorem State.modOut_levels (k : LinkIx) (f : OutPort → OutPort) (s : State) : (s.modOut k f).levels = s.levels := rfl
@[simp] theorem State.modOut_lamp (k : LinkIx) (f : OutPort → OutPort) (s : State) : (s.modOut k f).lamp = s.lamp := rfl
@[simp] theorem State.modOut_outs (k : LinkIx) (f : OutPort → OutPort) (s : State) : (s.modOut k f).outs = s.outs.set k (f s.outs[k]) := rfl
@[simp] theorem State.modOut_hold (k : LinkIx) (f : OutPort → OutPort) (s : State) : (s.modOut k f).hold = s.hold := rfl
@[simp] theorem State.modOut_memPort (k : LinkIx) (f : OutPort → OutPort) (s : State) : (s.modOut k f).memPort = s.memPort := rfl
@[simp] theorem State.modOut_bank (k : LinkIx) (f : OutPort → OutPort) (s : State) : (s.modOut k f).bank = s.bank := rfl
@[simp] theorem State.modOut_mgmt (k : LinkIx) (f : OutPort → OutPort) (s : State) : (s.modOut k f).mgmt = s.mgmt := rfl
@[simp] theorem State.modOut_timers (k : LinkIx) (f : OutPort → OutPort) (s : State) : (s.modOut k f).timers = s.timers := rfl
@[simp] theorem State.modOut_mem (k : LinkIx) (f : OutPort → OutPort) (s : State) : (s.modOut k f).mem = s.mem := rfl
@[simp] theorem State.modOut_pending (k : LinkIx) (f : OutPort → OutPort) (s : State) : (s.modOut k f).pending = s.pending := rfl

/-! ### modOuts -/

@[simp] theorem State.modOuts_held (f : LinkIx → OutPort → OutPort) (s : State) : (s.modOuts f).held = s.held := rfl
@[simp] theorem State.modOuts_ports (f : LinkIx → OutPort → OutPort) (s : State) : (s.modOuts f).ports = s.ports := rfl
@[simp] theorem State.modOuts_playback (f : LinkIx → OutPort → OutPort) (s : State) : (s.modOuts f).playback = s.playback := rfl
@[simp] theorem State.modOuts_tables (f : LinkIx → OutPort → OutPort) (s : State) : (s.modOuts f).tables = s.tables := rfl
@[simp] theorem State.modOuts_levels (f : LinkIx → OutPort → OutPort) (s : State) : (s.modOuts f).levels = s.levels := rfl
@[simp] theorem State.modOuts_lamp (f : LinkIx → OutPort → OutPort) (s : State) : (s.modOuts f).lamp = s.lamp := rfl
@[simp] theorem State.modOuts_outs (f : LinkIx → OutPort → OutPort) (s : State) : (s.modOuts f).outs = tab fun k => f k s.outs[k] := rfl
@[simp] theorem State.modOuts_hold (f : LinkIx → OutPort → OutPort) (s : State) : (s.modOuts f).hold = s.hold := rfl
@[simp] theorem State.modOuts_memPort (f : LinkIx → OutPort → OutPort) (s : State) : (s.modOuts f).memPort = s.memPort := rfl
@[simp] theorem State.modOuts_bank (f : LinkIx → OutPort → OutPort) (s : State) : (s.modOuts f).bank = s.bank := rfl
@[simp] theorem State.modOuts_mgmt (f : LinkIx → OutPort → OutPort) (s : State) : (s.modOuts f).mgmt = s.mgmt := rfl
@[simp] theorem State.modOuts_timers (f : LinkIx → OutPort → OutPort) (s : State) : (s.modOuts f).timers = s.timers := rfl
@[simp] theorem State.modOuts_mem (f : LinkIx → OutPort → OutPort) (s : State) : (s.modOuts f).mem = s.mem := rfl
@[simp] theorem State.modOuts_pending (f : LinkIx → OutPort → OutPort) (s : State) : (s.modOuts f).pending = s.pending := rfl

/-! ### raise -/

@[simp] theorem State.raise_held (e : Event) (s : State) : (s.raise e).held = s.held := rfl
@[simp] theorem State.raise_ports (e : Event) (s : State) : (s.raise e).ports = s.ports := rfl
@[simp] theorem State.raise_playback (e : Event) (s : State) : (s.raise e).playback = s.playback := rfl
@[simp] theorem State.raise_tables (e : Event) (s : State) : (s.raise e).tables = s.tables := rfl
@[simp] theorem State.raise_levels (e : Event) (s : State) : (s.raise e).levels = s.levels := rfl
@[simp] theorem State.raise_lamp (e : Event) (s : State) : (s.raise e).lamp = s.lamp := rfl
@[simp] theorem State.raise_outs (e : Event) (s : State) : (s.raise e).outs = s.outs := rfl
@[simp] theorem State.raise_hold (e : Event) (s : State) : (s.raise e).hold = s.hold := rfl
@[simp] theorem State.raise_memPort (e : Event) (s : State) : (s.raise e).memPort = s.memPort := rfl
@[simp] theorem State.raise_bank (e : Event) (s : State) : (s.raise e).bank = s.bank := rfl
@[simp] theorem State.raise_mgmt (e : Event) (s : State) : (s.raise e).mgmt = s.mgmt.raise e := rfl
@[simp] theorem State.raise_timers (e : Event) (s : State) : (s.raise e).timers = s.timers := rfl
@[simp] theorem State.raise_mem (e : Event) (s : State) : (s.raise e).mem = s.mem := rfl
@[simp] theorem State.raise_pending (e : Event) (s : State) : (s.raise e).pending = s.pending := rfl

/-! ### restartPort -/

@[simp] theorem State.restartPort_held (p : PortIx) (s : State) : (s.restartPort p).held = s.held := rfl
@[simp] theorem State.restartPort_ports (p : PortIx) (s : State) : (s.restartPort p).ports = s.ports := rfl
@[simp] theorem State.restartPort_playback (p : PortIx) (s : State) : (s.restartPort p).playback = s.playback := rfl
@[simp] theorem State.restartPort_tables (p : PortIx) (s : State) : (s.restartPort p).tables = s.tables := rfl
@[simp] theorem State.restartPort_levels (p : PortIx) (s : State) : (s.restartPort p).levels = s.levels := rfl
@[simp] theorem State.restartPort_lamp (p : PortIx) (s : State) : (s.restartPort p).lamp = s.lamp := rfl
@[simp] theorem State.restartPort_outs (p : PortIx) (s : State) : (s.restartPort p).outs = s.outs := rfl
@[simp] theorem State.restartPort_hold (p : PortIx) (s : State) : (s.restartPort p).hold = s.hold := rfl
@[simp] theorem State.restartPort_memPort (p : PortIx) (s : State) : (s.restartPort p).memPort = s.memPort := rfl
@[simp] theorem State.restartPort_bank (p : PortIx) (s : State) : (s.restartPort p).bank = s.bank := rfl
@[simp] theorem State.restartPort_mgmt (p : PortIx) (s : State) : (s.restartPort p).mgmt = s.mgmt := rfl
@[simp] theorem State.restartPort_timers (p : PortIx) (s : State) : (s.restartPort p).timers = { s.timers with ports := s.timers.ports.set p tenMs } := rfl
@[simp] theorem State.restartPort_mem (p : PortIx) (s : State) : (s.restartPort p).mem = s.mem := rfl
@[simp] theorem State.restartPort_pending (p : PortIx) (s : State) : (s.restartPort p).pending = s.pending := rfl

/-! ### restartPlayback -/

@[simp] theorem State.restartPlayback_held (s : State) : s.restartPlayback.held = s.held := rfl
@[simp] theorem State.restartPlayback_ports (s : State) : s.restartPlayback.ports = s.ports := rfl
@[simp] theorem State.restartPlayback_playback (s : State) : s.restartPlayback.playback = s.playback := rfl
@[simp] theorem State.restartPlayback_tables (s : State) : s.restartPlayback.tables = s.tables := rfl
@[simp] theorem State.restartPlayback_levels (s : State) : s.restartPlayback.levels = s.levels := rfl
@[simp] theorem State.restartPlayback_lamp (s : State) : s.restartPlayback.lamp = s.lamp := rfl
@[simp] theorem State.restartPlayback_outs (s : State) : s.restartPlayback.outs = s.outs := rfl
@[simp] theorem State.restartPlayback_hold (s : State) : s.restartPlayback.hold = s.hold := rfl
@[simp] theorem State.restartPlayback_memPort (s : State) : s.restartPlayback.memPort = s.memPort := rfl
@[simp] theorem State.restartPlayback_bank (s : State) : s.restartPlayback.bank = s.bank := rfl
@[simp] theorem State.restartPlayback_mgmt (s : State) : s.restartPlayback.mgmt = s.mgmt := rfl
@[simp] theorem State.restartPlayback_timers (s : State) : s.restartPlayback.timers = { s.timers with playback := tenMs } := rfl
@[simp] theorem State.restartPlayback_mem (s : State) : s.restartPlayback.mem = s.mem := rfl
@[simp] theorem State.restartPlayback_pending (s : State) : s.restartPlayback.pending = s.pending := rfl

/-! ### restartLamp -/

@[simp] theorem State.restartLamp_held (s : State) : s.restartLamp.held = s.held := rfl
@[simp] theorem State.restartLamp_ports (s : State) : s.restartLamp.ports = s.ports := rfl
@[simp] theorem State.restartLamp_playback (s : State) : s.restartLamp.playback = s.playback := rfl
@[simp] theorem State.restartLamp_tables (s : State) : s.restartLamp.tables = s.tables := rfl
@[simp] theorem State.restartLamp_levels (s : State) : s.restartLamp.levels = s.levels := rfl
@[simp] theorem State.restartLamp_lamp (s : State) : s.restartLamp.lamp = s.lamp := rfl
@[simp] theorem State.restartLamp_outs (s : State) : s.restartLamp.outs = s.outs := rfl
@[simp] theorem State.restartLamp_hold (s : State) : s.restartLamp.hold = s.hold := rfl
@[simp] theorem State.restartLamp_memPort (s : State) : s.restartLamp.memPort = s.memPort := rfl
@[simp] theorem State.restartLamp_bank (s : State) : s.restartLamp.bank = s.bank := rfl
@[simp] theorem State.restartLamp_mgmt (s : State) : s.restartLamp.mgmt = s.mgmt := rfl
@[simp] theorem State.restartLamp_timers (s : State) : s.restartLamp.timers = { s.timers with lamp := tenMs } := rfl
@[simp] theorem State.restartLamp_mem (s : State) : s.restartLamp.mem = s.mem := rfl
@[simp] theorem State.restartLamp_pending (s : State) : s.restartLamp.pending = s.pending := rfl

/-! ### restartRefresh -/

@[simp] theorem State.restartRefresh_held (s : State) : s.restartRefresh.held = s.held := rfl
@[simp] theorem State.restartRefresh_ports (s : State) : s.restartRefresh.ports = s.ports := rfl
@[simp] theorem State.restartRefresh_playback (s : State) : s.restartRefresh.playback = s.playback := rfl
@[simp] theorem State.restartRefresh_tables (s : State) : s.restartRefresh.tables = s.tables := rfl
@[simp] theorem State.restartRefresh_levels (s : State) : s.restartRefresh.levels = s.levels := rfl
@[simp] theorem State.restartRefresh_lamp (s : State) : s.restartRefresh.lamp = s.lamp := rfl
@[simp] theorem State.restartRefresh_outs (s : State) : s.restartRefresh.outs = s.outs := rfl
@[simp] theorem State.restartRefresh_hold (s : State) : s.restartRefresh.hold = s.hold := rfl
@[simp] theorem State.restartRefresh_memPort (s : State) : s.restartRefresh.memPort = s.memPort := rfl
@[simp] theorem State.restartRefresh_bank (s : State) : s.restartRefresh.bank = s.bank := rfl
@[simp] theorem State.restartRefresh_mgmt (s : State) : s.restartRefresh.mgmt = s.mgmt := rfl
@[simp] theorem State.restartRefresh_timers (s : State) : s.restartRefresh.timers = { s.timers with refresh := twentyMs } := rfl
@[simp] theorem State.restartRefresh_mem (s : State) : s.restartRefresh.mem = s.mem := rfl
@[simp] theorem State.restartRefresh_pending (s : State) : s.restartRefresh.pending = s.pending := rfl

/-! ### restartFrame -/

@[simp] theorem State.restartFrame_held (k : LinkIx) (s : State) : (s.restartFrame k).held = s.held := rfl
@[simp] theorem State.restartFrame_ports (k : LinkIx) (s : State) : (s.restartFrame k).ports = s.ports := rfl
@[simp] theorem State.restartFrame_playback (k : LinkIx) (s : State) : (s.restartFrame k).playback = s.playback := rfl
@[simp] theorem State.restartFrame_tables (k : LinkIx) (s : State) : (s.restartFrame k).tables = s.tables := rfl
@[simp] theorem State.restartFrame_levels (k : LinkIx) (s : State) : (s.restartFrame k).levels = s.levels := rfl
@[simp] theorem State.restartFrame_lamp (k : LinkIx) (s : State) : (s.restartFrame k).lamp = s.lamp := rfl
@[simp] theorem State.restartFrame_outs (k : LinkIx) (s : State) : (s.restartFrame k).outs = s.outs := rfl
@[simp] theorem State.restartFrame_hold (k : LinkIx) (s : State) : (s.restartFrame k).hold = s.hold := rfl
@[simp] theorem State.restartFrame_memPort (k : LinkIx) (s : State) : (s.restartFrame k).memPort = s.memPort := rfl
@[simp] theorem State.restartFrame_bank (k : LinkIx) (s : State) : (s.restartFrame k).bank = s.bank := rfl
@[simp] theorem State.restartFrame_mgmt (k : LinkIx) (s : State) : (s.restartFrame k).mgmt = s.mgmt := rfl
@[simp] theorem State.restartFrame_timers (k : LinkIx) (s : State) : (s.restartFrame k).timers = { s.timers with outs := s.timers.outs.set k twentyMs } := rfl
@[simp] theorem State.restartFrame_mem (k : LinkIx) (s : State) : (s.restartFrame k).mem = s.mem := rfl
@[simp] theorem State.restartFrame_pending (k : LinkIx) (s : State) : (s.restartFrame k).pending = s.pending := rfl

/-! ### handOver -/

@[simp] theorem State.handOver_held (op : OpRecord) (s : State) : (s.handOver op).held = s.held := rfl
@[simp] theorem State.handOver_ports (op : OpRecord) (s : State) : (s.handOver op).ports = s.ports := rfl
@[simp] theorem State.handOver_playback (op : OpRecord) (s : State) : (s.handOver op).playback = s.playback := rfl
@[simp] theorem State.handOver_tables (op : OpRecord) (s : State) : (s.handOver op).tables = s.tables := rfl
@[simp] theorem State.handOver_levels (op : OpRecord) (s : State) : (s.handOver op).levels = s.levels := rfl
@[simp] theorem State.handOver_lamp (op : OpRecord) (s : State) : (s.handOver op).lamp = s.lamp := rfl
@[simp] theorem State.handOver_outs (op : OpRecord) (s : State) : (s.handOver op).outs = s.outs := rfl
@[simp] theorem State.handOver_hold (op : OpRecord) (s : State) : (s.handOver op).hold = s.hold := rfl
@[simp] theorem State.handOver_memPort (op : OpRecord) (s : State) : (s.handOver op).memPort = { s.memPort with bankSlot := some op.offer } := rfl
@[simp] theorem State.handOver_bank (op : OpRecord) (s : State) : (s.handOver op).bank = { s.bank with op := some op } := rfl
@[simp] theorem State.handOver_mgmt (op : OpRecord) (s : State) : (s.handOver op).mgmt = s.mgmt := rfl
@[simp] theorem State.handOver_timers (op : OpRecord) (s : State) : (s.handOver op).timers = s.timers := rfl
@[simp] theorem State.handOver_mem (op : OpRecord) (s : State) : (s.handOver op).mem = s.mem := rfl
@[simp] theorem State.handOver_pending (op : OpRecord) (s : State) : (s.handOver op).pending = s.pending := rfl

/-! ### readCell0 -/

@[simp] theorem State.readCell0_held (b : Option BankIx) (ws : List Word) (s : State) : (s.readCell0 b ws).held = s.held := by
  unfold State.readCell0; rfl
@[simp] theorem State.readCell0_ports (b : Option BankIx) (ws : List Word) (s : State) : (s.readCell0 b ws).ports = s.ports := by
  unfold State.readCell0; rfl
@[simp] theorem State.readCell0_playback (b : Option BankIx) (ws : List Word) (s : State) : (s.readCell0 b ws).playback = s.playback := by
  unfold State.readCell0; rfl
@[simp] theorem State.readCell0_tables (b : Option BankIx) (ws : List Word) (s : State) : (s.readCell0 b ws).tables = s.tables := by
  unfold State.readCell0; rfl
@[simp] theorem State.readCell0_levels (b : Option BankIx) (ws : List Word) (s : State) : (s.readCell0 b ws).levels = s.levels := by
  unfold State.readCell0; rfl
@[simp] theorem State.readCell0_lamp (b : Option BankIx) (ws : List Word) (s : State) : (s.readCell0 b ws).lamp = s.lamp := by
  unfold State.readCell0; rfl
@[simp] theorem State.readCell0_outs (b : Option BankIx) (ws : List Word) (s : State) : (s.readCell0 b ws).outs = s.outs := by
  unfold State.readCell0; rfl
@[simp] theorem State.readCell0_hold (b : Option BankIx) (ws : List Word) (s : State) : (s.readCell0 b ws).hold = s.hold := by
  unfold State.readCell0; rfl
@[simp] theorem State.readCell0_memPort (b : Option BankIx) (ws : List Word) (s : State) : (s.readCell0 b ws).memPort = s.memPort := by
  unfold State.readCell0; rfl
@[simp] theorem State.readCell0_mgmt (b : Option BankIx) (ws : List Word) (s : State) : (s.readCell0 b ws).mgmt = s.mgmt := by
  unfold State.readCell0; rfl
@[simp] theorem State.readCell0_timers (b : Option BankIx) (ws : List Word) (s : State) : (s.readCell0 b ws).timers = s.timers := by
  unfold State.readCell0; rfl
@[simp] theorem State.readCell0_mem (b : Option BankIx) (ws : List Word) (s : State) : (s.readCell0 b ws).mem = s.mem := by
  unfold State.readCell0; rfl
@[simp] theorem State.readCell0_pending (b : Option BankIx) (ws : List Word) (s : State) : (s.readCell0 b ws).pending = s.pending := by
  unfold State.readCell0; rfl

/-! ### testedAreas -/

@[simp] theorem State.testedAreas_held (b c : Bool) (s : State) : (s.testedAreas b c).held = s.held := rfl
@[simp] theorem State.testedAreas_ports (b c : Bool) (s : State) : (s.testedAreas b c).ports = s.ports := rfl
@[simp] theorem State.testedAreas_playback (b c : Bool) (s : State) : (s.testedAreas b c).playback = s.playback := rfl
@[simp] theorem State.testedAreas_tables (b c : Bool) (s : State) : (s.testedAreas b c).tables = s.tables := rfl
@[simp] theorem State.testedAreas_levels (b c : Bool) (s : State) : (s.testedAreas b c).levels = s.levels := rfl
@[simp] theorem State.testedAreas_lamp (b c : Bool) (s : State) : (s.testedAreas b c).lamp = s.lamp := rfl
@[simp] theorem State.testedAreas_outs (b c : Bool) (s : State) : (s.testedAreas b c).outs = s.outs := rfl
@[simp] theorem State.testedAreas_hold (b c : Bool) (s : State) : (s.testedAreas b c).hold = s.hold := rfl
@[simp] theorem State.testedAreas_memPort (b c : Bool) (s : State) : (s.testedAreas b c).memPort = s.memPort := rfl
@[simp] theorem State.testedAreas_mgmt (b c : Bool) (s : State) : (s.testedAreas b c).mgmt = s.mgmt := rfl
@[simp] theorem State.testedAreas_timers (b c : Bool) (s : State) : (s.testedAreas b c).timers = s.timers := rfl
@[simp] theorem State.testedAreas_mem (b c : Bool) (s : State) : (s.testedAreas b c).mem = s.mem := rfl
@[simp] theorem State.testedAreas_pending (b c : Bool) (s : State) : (s.testedAreas b c).pending = s.pending := rfl

/-! ### raiseIf -/

@[simp] theorem State.raiseIf_true (e : Event) (s : State) : s.raiseIf true e = s.raise e := rfl

@[simp] theorem State.raiseIf_false (e : Event) (s : State) : s.raiseIf false e = s := rfl

@[simp] theorem State.raiseIf_held (b : Bool) (e : Event) (s : State) : (s.raiseIf b e).held = s.held := by cases b <;> rfl
@[simp] theorem State.raiseIf_ports (b : Bool) (e : Event) (s : State) : (s.raiseIf b e).ports = s.ports := by cases b <;> rfl
@[simp] theorem State.raiseIf_playback (b : Bool) (e : Event) (s : State) : (s.raiseIf b e).playback = s.playback := by cases b <;> rfl
@[simp] theorem State.raiseIf_tables (b : Bool) (e : Event) (s : State) : (s.raiseIf b e).tables = s.tables := by cases b <;> rfl
@[simp] theorem State.raiseIf_levels (b : Bool) (e : Event) (s : State) : (s.raiseIf b e).levels = s.levels := by cases b <;> rfl
@[simp] theorem State.raiseIf_lamp (b : Bool) (e : Event) (s : State) : (s.raiseIf b e).lamp = s.lamp := by cases b <;> rfl
@[simp] theorem State.raiseIf_outs (b : Bool) (e : Event) (s : State) : (s.raiseIf b e).outs = s.outs := by cases b <;> rfl
@[simp] theorem State.raiseIf_hold (b : Bool) (e : Event) (s : State) : (s.raiseIf b e).hold = s.hold := by cases b <;> rfl
@[simp] theorem State.raiseIf_memPort (b : Bool) (e : Event) (s : State) : (s.raiseIf b e).memPort = s.memPort := by cases b <;> rfl
@[simp] theorem State.raiseIf_bank (b : Bool) (e : Event) (s : State) : (s.raiseIf b e).bank = s.bank := by cases b <;> rfl
@[simp] theorem State.raiseIf_mgmt (b : Bool) (e : Event) (s : State) :
    (s.raiseIf b e).mgmt = if b then s.mgmt.raise e else s.mgmt := by cases b <;> rfl
@[simp] theorem State.raiseIf_timers (b : Bool) (e : Event) (s : State) : (s.raiseIf b e).timers = s.timers := by cases b <;> rfl
@[simp] theorem State.raiseIf_mem (b : Bool) (e : Event) (s : State) : (s.raiseIf b e).mem = s.mem := by cases b <;> rfl
@[simp] theorem State.raiseIf_pending (b : Bool) (e : Event) (s : State) : (s.raiseIf b e).pending = s.pending := by cases b <;> rfl

/-! ### The Management Unit -/

@[simp] theorem Mgmt.raise_inputs (e : Event) (m : Mgmt) : (m.raise e).inputs = m.inputs := rfl
@[simp] theorem Mgmt.raise_budgets (e : Event) (m : Mgmt) : (m.raise e).budgets = m.budgets := rfl
@[simp] theorem Mgmt.raise_startBank (e : Event) (m : Mgmt) : (m.raise e).startBank = m.startBank := rfl
@[simp] theorem Mgmt.raise_lastOp (e : Event) (m : Mgmt) : (m.raise e).lastOp = m.lastOp := rfl
@[simp] theorem Mgmt.raise_cause (e : Event) (m : Mgmt) : (m.raise e).cause = m.cause := rfl
@[simp] theorem Mgmt.raise_flags (e : Event) (m : Mgmt) : (m.raise e).flags = m.flags ||| e.mask := rfl
@[simp] theorem Mgmt.raise_enables (e : Event) (m : Mgmt) : (m.raise e).enables = m.enables := rfl

@[simp] theorem Mgmt.clear_inputs (f : EventSet) (m : Mgmt) : (m.clear f).inputs = m.inputs := rfl
@[simp] theorem Mgmt.clear_budgets (f : EventSet) (m : Mgmt) : (m.clear f).budgets = m.budgets := rfl
@[simp] theorem Mgmt.clear_startBank (f : EventSet) (m : Mgmt) : (m.clear f).startBank = m.startBank := rfl
@[simp] theorem Mgmt.clear_lastOp (f : EventSet) (m : Mgmt) : (m.clear f).lastOp = m.lastOp := rfl
@[simp] theorem Mgmt.clear_cause (f : EventSet) (m : Mgmt) : (m.clear f).cause = m.cause := rfl
@[simp] theorem Mgmt.clear_flags (f : EventSet) (m : Mgmt) : (m.clear f).flags = m.flags &&& ~~~f := rfl
@[simp] theorem Mgmt.clear_enables (f : EventSet) (m : Mgmt) : (m.clear f).enables = m.enables := rfl

@[simp] theorem Mgmt.enable_inputs (f : EventSet) (m : Mgmt) : (m.enable f).inputs = m.inputs := rfl
@[simp] theorem Mgmt.enable_budgets (f : EventSet) (m : Mgmt) : (m.enable f).budgets = m.budgets := rfl
@[simp] theorem Mgmt.enable_startBank (f : EventSet) (m : Mgmt) : (m.enable f).startBank = m.startBank := rfl
@[simp] theorem Mgmt.enable_lastOp (f : EventSet) (m : Mgmt) : (m.enable f).lastOp = m.lastOp := rfl
@[simp] theorem Mgmt.enable_cause (f : EventSet) (m : Mgmt) : (m.enable f).cause = m.cause := rfl
@[simp] theorem Mgmt.enable_flags (f : EventSet) (m : Mgmt) : (m.enable f).flags = m.flags := rfl
@[simp] theorem Mgmt.enable_enables (f : EventSet) (m : Mgmt) : (m.enable f).enables = f := rfl

/-! ### whenRunning -/

@[simp] theorem State.whenRunning_held (f : State → State) (s : State) (h : s.held = true) : s.whenRunning f = s := by
  simp [State.whenRunning, h]

@[simp] theorem State.whenRunning_running (f : State → State) (s : State) (h : s.held = false) : s.whenRunning f = f s := by
  simp [State.whenRunning, h]

end Sys2Proof.Machine
end

