-- ==== Sys2Proof/Laws/Vectors.lean ====
section
/-! SUPPORT. Reading a vector built by `tab`, `setRun` or `bufferOf`. -/

namespace Sys2Proof.Machine

@[simp] theorem tab_getElem {α : Type} {n : Nat} (f : Fin n → α) (i : Nat) (h : i < n) : (tab f)[i] = f ⟨i, h⟩ := by
  simp [tab]

theorem vector_ext_fin {α : Type} {n : Nat} {v w : Vector α n} (h : ∀ i : Fin n, v[i] = w[i]) : v = w :=
  Vector.ext fun i hi => h ⟨i, hi⟩

theorem tab_eq_self {α : Type} {n : Nat} (v : Vector α n) : (tab fun i => v[i]) = v := by
  apply vector_ext_fin
  intro i
  simp

theorem setRun_getElem {α : Type} {n : Nat} (v : Vector α n) (first : Nat) (xs : List α) (i : Nat) (h : i < n) :
    (setRun v first xs)[i] = if first ≤ i then (xs[i - first]?).getD v[i] else v[i] := by
  simp [setRun]

/-- Inside a run the value written stands. -/
theorem setRun_inside {α : Type} {n : Nat} (v : Vector α n) (first : Nat) (xs : List α) (i : Nat) (h : i < n)
    (lo : first ≤ i) (hi : i - first < xs.length) : (setRun v first xs)[i] = xs[i - first] := by
  simp [setRun, lo, hi]

/-- Outside a run nothing changes. -/
theorem setRun_outside {α : Type} {n : Nat} (v : Vector α n) (first : Nat) (xs : List α) (i : Nat) (h : i < n)
    (out : i < first ∨ first + xs.length ≤ i) : (setRun v first xs)[i] = v[i] := by
  rw [setRun_getElem]
  split
  · rw [List.getElem?_eq_none (by omega)]
    rfl
  · rfl

end Sys2Proof.Machine
end

