-- ==== Sys2Proof/Laws/Requests.lean ====
section
/-! SUPPORT. What taking a frame and a request does, said once: a frame that is dropped, a good or bad frame in each sync state, a
request in step that is decided, refused or dropped. A claim about a request cites these and its owner's decision, and unfolds
no reception. -/

namespace Sys2Proof.Machine

/-! ### One port at a time -/

theorem State.modPort_modPort (p : PortIx) (f g : Port → Port) (s : State) :
    (s.modPort p f).modPort p g = s.modPort p fun q => g (f q) := by
  simp [State.modPort]

theorem State.modPort_get (p : PortIx) (f : Port → Port) (s : State) : (s.modPort p f).ports[p] = f s.ports[p] := by
  simp [State.modPort]

theorem State.modPort_id (p : PortIx) (s : State) : (s.modPort p fun q => q) = s := by
  simp [State.modPort]

theorem State.modPort_congr (p : PortIx) {f g : Port → Port} {s : State} (h : f s.ports[p] = g s.ports[p]) :
    s.modPort p f = s.modPort p g := by
  simp only [State.modPort, h]

/-- A change of a port that leaves its sync state raises nothing. -/
theorem State.syncPort_same {p : PortIx} {f : Port → Port} {s : State} (h : (f s.ports[p]).sync = s.ports[p].sync) :
    s.syncPort p f = s.modPort p f := by
  simp only [State.syncPort, h, bne_self_eq_false, State.raiseIf_false]

/-- A change of a port's sync state raises SYNC-CHANGE (R114). -/
theorem State.syncPort_changes {p : PortIx} {f : Port → Port} {s : State} (h : (f s.ports[p]).sync ≠ s.ports[p].sync) :
    s.syncPort p f = (s.modPort p f).raise (.syncChange p) := by
  simp only [State.syncPort, bne_iff_ne.2 h, State.raiseIf_true]

@[simp] theorem Port.startReply_sync (q : Port) : q.startReply.sync = q.sync := by
  unfold Port.startReply
  split <;> rfl

@[simp] theorem Port.enqueue_sync (r : Reply) (q : Port) : (q.enqueue r).sync = q.sync := by
  simp [Port.enqueue]

/-! ### The link receiver -/

theorem State.Takes.dropsFrame {s : State} {p : PortIx} {stale : Bool} (h : s.Takes p stale) :
    s.dropsFrame p stale = false := by
  obtain ⟨h1, h2, h3 | ⟨h3, h4⟩⟩ := h
  · simp only [State.dropsFrame, h1, h2, h3]; rfl
  · simp only [State.dropsFrame, h1, h2, h3, h4]; rfl

/-- A frame that the link receiver takes. -/
theorem State.endFrame_takes {s : State} {p : PortIx} {stale : Bool} (h : s.Takes p stale) (take : State → State) :
    s.endFrame p stale take = take (s.modPort p fun q => { q with receiver := .noFrame }) := by
  simp only [State.endFrame, h.dropsFrame]
  rfl

/-- A frame that the link receiver drops is not counted (R107). -/
theorem State.endFrame_drops {s : State} {p : PortIx} {stale : Bool} (h : s.dropsFrame p stale = true)
    (take : State → State) : s.endFrame p stale take = s.modPort p fun q => { q with receiver := .noFrame } := by
  simp only [State.endFrame, h, if_true]

/-! ### A good frame in step -/

/-- The state after a good frame in step, before its delivery. -/
def State.frameTaken (s : State) (p : PortIx) : State := s.modPort p Port.tookGood

theorem State.frameTaken_eq (s : State) (p : PortIx) :
    s.frameTaken p = { s with ports := s.ports.set p s.ports[p].tookGood } := rfl

@[simp] theorem State.frameTaken_held (s : State) (p : PortIx) : (s.frameTaken p).held = s.held := rfl
@[simp] theorem State.frameTaken_ports (s : State) (p : PortIx) :
    (s.frameTaken p).ports = s.ports.set p s.ports[p].tookGood := rfl
@[simp] theorem State.frameTaken_playback (s : State) (p : PortIx) : (s.frameTaken p).playback = s.playback := rfl
@[simp] theorem State.frameTaken_tables (s : State) (p : PortIx) : (s.frameTaken p).tables = s.tables := rfl
@[simp] theorem State.frameTaken_levels (s : State) (p : PortIx) : (s.frameTaken p).levels = s.levels := rfl
@[simp] theorem State.frameTaken_lamp (s : State) (p : PortIx) : (s.frameTaken p).lamp = s.lamp := rfl
@[simp] theorem State.frameTaken_outs (s : State) (p : PortIx) : (s.frameTaken p).outs = s.outs := rfl
@[simp] theorem State.frameTaken_hold (s : State) (p : PortIx) : (s.frameTaken p).hold = s.hold := rfl
@[simp] theorem State.frameTaken_memPort (s : State) (p : PortIx) : (s.frameTaken p).memPort = s.memPort := rfl
@[simp] theorem State.frameTaken_bank (s : State) (p : PortIx) : (s.frameTaken p).bank = s.bank := rfl
@[simp] theorem State.frameTaken_mgmt (s : State) (p : PortIx) : (s.frameTaken p).mgmt = s.mgmt := rfl
@[simp] theorem State.frameTaken_timers (s : State) (p : PortIx) : (s.frameTaken p).timers = s.timers := rfl
@[simp] theorem State.frameTaken_mem (s : State) (p : PortIx) : (s.frameTaken p).mem = s.mem := rfl
@[simp] theorem State.frameTaken_pending (s : State) (p : PortIx) : (s.frameTaken p).pending = s.pending := rfl

theorem State.frameTaken_get (s : State) (p : PortIx) : (s.frameTaken p).ports[p] = s.ports[p].tookGood :=
  State.modPort_get p _ s

/-- A good frame in step is delivered on the port that has counted it, and nothing else happens. -/
theorem State.receiveGood_inStep {s : State} {h : FrameHead} (hs : s.InStep h) (deliver : State → State) :
    (s.endFrame h.port h.stale fun s => s.receiveGood h.port h.seq deliver) = deliver (s.frameTaken h.port) := by
  obtain ⟨ht, hl, hq, hc⟩ := hs
  rw [State.endFrame_takes ht]
  have hlost : lostLock s.ports[h.port].sync s.mgmt.inputs[h.port].autoResync (pushMark s.ports[h.port].window .good)
      = false := by
    simp only [lostLock]
    rcases hc with hc | hc
    · rw [hc]; simp
    · rw [decide_eq_false (by omega)]; simp
  obtain ⟨q, hqe⟩ : ∃ q, s.ports[h.port] = q := ⟨_, rfl⟩
  rw [hqe] at hl hq hlost
  have hsync : ({ q with receiver := .noFrame } : Port).syncGood h.seq =
      { q with receiver := .noFrame, expected := q.expected + 1, window := pushMark q.window .good } := by
    simp [Port.syncGood, hl, hq]
  have hgap : ({ q with receiver := .noFrame } : Port).isGap h.seq = false := by simp [Port.isGap, hq]
  have hdel : ({ q with receiver := .noFrame } : Port).delivers h.seq = true := by simp [Port.delivers, hl]
  simp only [State.receiveGood, State.modPort_get, State.modPort_mgmt, hqe, hsync, hgap, hdel, hlost]
  rw [State.syncPort_same (by simp only [State.modPort_get, hqe, hsync]; rfl)]
  simp only [Bool.false_eq_true, if_false, if_true]
  congr 1
  rw [State.modPort_modPort]
  apply State.modPort_congr
  simp only [hqe, hsync]
  rfl

/-! ### Good and bad frames in the other sync states -/

theorem State.receiveGood_hunt {s : State} {p : PortIx} {stale : Bool} (ht : s.Takes p stale)
    (hl : s.ports[p].sync = .hunt) (seq : Word) (deliver : State → State) :
    (s.endFrame p stale fun s => s.receiveGood p seq deliver) = { s with
      ports := s.ports.set p { s.ports[p].countedGood with sync := .acquire, expected := seq + 1, goodCount := 1 }
      mgmt := s.mgmt.raise (.syncChange p) } := by
  rw [State.endFrame_takes ht]
  obtain ⟨q, hqe⟩ : ∃ q, s.ports[p] = q := ⟨_, rfl⟩
  rw [hqe] at hl
  have hsync : ({ q with receiver := .noFrame } : Port).syncGood seq =
      { q with receiver := .noFrame, sync := .acquire, expected := seq + 1, goodCount := 1 } := by
    simp [Port.syncGood, hl]
  have hgap : ({ q with receiver := .noFrame } : Port).isGap seq = false := by simp [Port.isGap, hl]
  have hdel : ({ q with receiver := .noFrame } : Port).delivers seq = false := by simp [Port.delivers, hl]
  have hlost : ∀ a w, lostLock q.sync a w = false := by intro a w; simp [lostLock, hl]
  simp only [State.receiveGood, State.modPort_get, State.modPort_mgmt, hqe, hsync, hgap, hdel, hlost]
  rw [State.syncPort_changes (by simp only [State.modPort_get, hqe, hsync, Port.countGood]; rw [hl]; simp)]
  simp only [Bool.false_eq_true, if_false, State.modPort_modPort]
  rw [State.modPort_congr p (g := fun q => { q.countedGood with sync := .acquire, expected := seq + 1, goodCount := 1 })
    (by simp only [hqe, hsync]; rfl)]
  simp only [← hqe]
  rfl

theorem State.receiveGood_acquire {s : State} {p : PortIx} {stale : Bool} (ht : s.Takes p stale)
    (hl : s.ports[p].sync = .acquire) {seq : Word} (hq : seq = s.ports[p].expected) (hc : s.ports[p].goodCount ≠ 2)
    (deliver : State → State) :
    (s.endFrame p stale fun s => s.receiveGood p seq deliver) = { s with
      ports := s.ports.set p { s.ports[p].countedGood with
        expected := seq + 1, goodCount := s.ports[p].goodCount + 1 } } := by
  rw [State.endFrame_takes ht]
  obtain ⟨q, hqe⟩ : ∃ q, s.ports[p] = q := ⟨_, rfl⟩
  rw [hqe] at hl hq hc
  have hsync : ({ q with receiver := .noFrame } : Port).syncGood seq =
      { q with receiver := .noFrame, expected := seq + 1, goodCount := q.goodCount + 1 } := by
    simp [Port.syncGood, hl, hq, hc]
  have hgap : ({ q with receiver := .noFrame } : Port).isGap seq = false := by simp [Port.isGap, hl]
  have hdel : ({ q with receiver := .noFrame } : Port).delivers seq = false := by simp [Port.delivers, hl, hc]
  have hlost : ∀ a w, lostLock q.sync a w = false := by intro a w; simp [lostLock, hl]
  simp only [State.receiveGood, State.modPort_get, State.modPort_mgmt, hqe, hsync, hgap, hdel, hlost]
  rw [State.syncPort_same (by simp only [State.modPort_get, hqe, hsync, Port.countGood])]
  simp only [Bool.false_eq_true, if_false, State.modPort_modPort]
  rw [State.modPort_congr p (g := fun r => { r.countedGood with expected := seq + 1, goodCount := q.goodCount + 1 })
    (by simp only [hqe, hsync]; rfl)]
  simp only [← hqe]
  rfl

theorem State.receiveGood_acquireLost {s : State} {p : PortIx} {stale : Bool} (ht : s.Takes p stale)
    (hl : s.ports[p].sync = .acquire) {seq : Word} (hq : seq ≠ s.ports[p].expected) (deliver : State → State) :
    (s.endFrame p stale fun s => s.receiveGood p seq deliver) = { s with
      ports := s.ports.set p { s.ports[p].countedGood with sync := .hunt }
      mgmt := s.mgmt.raise (.syncChange p) } := by
  rw [State.endFrame_takes ht]
  obtain ⟨q, hqe⟩ : ∃ q, s.ports[p] = q := ⟨_, rfl⟩
  rw [hqe] at hl hq
  have hsync : ({ q with receiver := .noFrame } : Port).syncGood seq = { q with receiver := .noFrame, sync := .hunt } := by
    simp [Port.syncGood, hl, hq]
  have hgap : ({ q with receiver := .noFrame } : Port).isGap seq = false := by simp [Port.isGap, hl]
  have hdel : ({ q with receiver := .noFrame } : Port).delivers seq = false := by simp [Port.delivers, hl, hq]
  have hlost : ∀ a w, lostLock q.sync a w = false := by intro a w; simp [lostLock, hl]
  simp only [State.receiveGood, State.modPort_get, State.modPort_mgmt, hqe, hsync, hgap, hdel, hlost]
  rw [State.syncPort_changes (by simp only [State.modPort_get, hqe, hsync, Port.countGood]; rw [hl]; simp)]
  simp only [Bool.false_eq_true, if_false, State.modPort_modPort]
  rw [State.modPort_congr p (g := fun q => { q.countedGood with sync := .hunt }) (by simp only [hqe, hsync]; rfl)]
  simp only [← hqe]
  rfl

/-- The third good frame in sequence: the port is LOCKED with an empty window, and the frame is delivered. -/
theorem State.receiveGood_third {s : State} {p : PortIx} {stale : Bool} (ht : s.Takes p stale)
    (hl : s.ports[p].sync = .acquire) {seq : Word} (hq : seq = s.ports[p].expected) (hc : s.ports[p].goodCount = 2)
    (deliver : State → State) :
    (s.endFrame p stale fun s => s.receiveGood p seq deliver) = deliver { s with
      ports := s.ports.set p { s.ports[p].countedGood with
        sync := .locked, expected := seq + 1, goodCount := 3, window := [] }
      mgmt := s.mgmt.raise (.syncChange p) } := by
  rw [State.endFrame_takes ht]
  obtain ⟨q, hqe⟩ : ∃ q, s.ports[p] = q := ⟨_, rfl⟩
  rw [hqe] at hl hq hc
  have hsync : ({ q with receiver := .noFrame } : Port).syncGood seq =
      { q with receiver := .noFrame, sync := .locked, expected := seq + 1, goodCount := 3, window := [] } := by
    simp [Port.syncGood, hl, hq, hc]
  have hgap : ({ q with receiver := .noFrame } : Port).isGap seq = false := by simp [Port.isGap, hl]
  have hdel : ({ q with receiver := .noFrame } : Port).delivers seq = true := by simp [Port.delivers, hl, hc, hq]
  have hlost : ∀ a w, lostLock q.sync a w = false := by intro a w; simp [lostLock, hl]
  simp only [State.receiveGood, State.modPort_get, State.modPort_mgmt, hqe, hsync, hgap, hdel, hlost]
  rw [State.syncPort_changes (by simp only [State.modPort_get, hqe, hsync, Port.countGood]; rw [hl]; simp)]
  simp only [Bool.false_eq_true, if_false, if_true, State.modPort_modPort]
  rw [State.modPort_congr p
    (g := fun q => { q.countedGood with sync := .locked, expected := seq + 1, goodCount := 3, window := [] })
    (by simp only [hqe, hsync]; rfl)]
  simp only [← hqe]
  rfl

/-- A gap in LOCKED whose outcome does not end it: counted, recorded BAD, the sweep aborted, and the frame delivered. -/
theorem State.receiveGood_gap {s : State} {p : PortIx} {stale : Bool} (ht : s.Takes p stale)
    (hl : s.ports[p].sync = .locked) {seq : Word} (hq : seq ≠ s.ports[p].expected)
    (hc : s.mgmt.inputs[p].autoResync = false ∨ badCount (pushMark s.ports[p].window .bad) < 4)
    (deliver : State → State) :
    (s.endFrame p stale fun s => s.receiveGood p seq deliver) = deliver (s.modPort p (Port.tookGap seq)) := by
  rw [State.endFrame_takes ht]
  have hlost : lostLock s.ports[p].sync s.mgmt.inputs[p].autoResync (pushMark s.ports[p].window .bad) = false := by
    simp only [lostLock]
    rcases hc with hc | hc
    · rw [hc]; simp
    · rw [decide_eq_false (by omega)]; simp
  obtain ⟨q, hqe⟩ : ∃ q, s.ports[p] = q := ⟨_, rfl⟩
  rw [hqe] at hl hq hlost
  have hsync : ({ q with receiver := .noFrame } : Port).syncGood seq =
      { q with receiver := .noFrame, expected := seq + 1, window := pushMark q.window .bad } := by
    simp [Port.syncGood, hl, hq]
  have hgap : ({ q with receiver := .noFrame } : Port).isGap seq = true := by simp [Port.isGap, hl, hq]
  have hdel : ({ q with receiver := .noFrame } : Port).delivers seq = true := by simp [Port.delivers, hl]
  simp only [State.receiveGood, State.modPort_get, State.modPort_mgmt, hqe, hsync, hgap, hdel, hlost]
  rw [State.syncPort_same (by simp only [State.modPort_get, hqe, hsync]; rfl)]
  simp only [Bool.false_eq_true, if_false, if_true, State.modPort_modPort]
  congr 1
  apply State.modPort_congr
  simp only [hqe, hsync]
  rfl

/-- A bad-check frame in HUNT is counted. -/
theorem State.receiveBad_hunt {s : State} {p : PortIx} {stale : Bool} (ht : s.Takes p stale)
    (hl : s.ports[p].sync = .hunt) :
    s.endFrame p stale (State.receiveBad p) = { s with ports := s.ports.set p s.ports[p].tookBad } := by
  rw [State.endFrame_takes ht]
  obtain ⟨q, hqe⟩ : ∃ q, s.ports[p] = q := ⟨_, rfl⟩
  rw [hqe] at hl
  have hsync : ({ q with receiver := .noFrame } : Port).syncBad = q.tookBad := by
    simp [Port.syncBad, hl, Port.tookBad]
  have hlost : ∀ a w, lostLock q.sync a w = false := by intro a w; simp [lostLock, hl]
  simp only [State.receiveBad, State.modPort_get, State.modPort_mgmt, hqe, hlost]
  rw [State.syncPort_same (by simp only [State.modPort_get, hqe, hsync]; rfl)]
  simp only [Bool.false_eq_true, if_false, State.modPort_modPort]
  rw [State.modPort_congr p (g := Port.tookBad) (by simp only [hqe, hsync])]
  simp only [← hqe]
  rfl

/-- A bad-check frame in ACQUIRE ends the acquisition. -/
theorem State.receiveBad_acquire {s : State} {p : PortIx} {stale : Bool} (ht : s.Takes p stale)
    (hl : s.ports[p].sync = .acquire) :
    s.endFrame p stale (State.receiveBad p) = { s with
      ports := s.ports.set p { s.ports[p].tookBad with sync := .hunt }
      mgmt := s.mgmt.raise (.syncChange p) } := by
  rw [State.endFrame_takes ht]
  obtain ⟨q, hqe⟩ : ∃ q, s.ports[p] = q := ⟨_, rfl⟩
  rw [hqe] at hl
  have hsync : ({ q with receiver := .noFrame } : Port).syncBad = { q.tookBad with sync := .hunt } := by
    simp [Port.syncBad, hl, Port.tookBad]
  have hlost : ∀ a w, lostLock q.sync a w = false := by intro a w; simp [lostLock, hl]
  simp only [State.receiveBad, State.modPort_get, State.modPort_mgmt, hqe, hlost]
  rw [State.syncPort_changes (by simp only [State.modPort_get, hqe, hsync]; rw [hl]; simp)]
  simp only [Bool.false_eq_true, if_false, State.modPort_modPort]
  rw [State.modPort_congr p (g := fun q => { q.tookBad with sync := .hunt }) (by simp only [hqe, hsync])]
  simp only [← hqe]
  rfl

/-- A bad-check frame in LOCKED that does not end it is recorded. -/
theorem State.receiveBad_locked {s : State} {p : PortIx} {stale : Bool} (ht : s.Takes p stale)
    (hl : s.ports[p].sync = .locked)
    (hc : s.mgmt.inputs[p].autoResync = false ∨ badCount (pushMark s.ports[p].window .bad) < 4) :
    s.endFrame p stale (State.receiveBad p) = { s with
      ports := s.ports.set p { s.ports[p].tookBad with window := pushMark s.ports[p].window .bad } } := by
  rw [State.endFrame_takes ht]
  have hlost : lostLock s.ports[p].sync s.mgmt.inputs[p].autoResync (pushMark s.ports[p].window .bad) = false := by
    simp only [lostLock]
    rcases hc with hc | hc
    · rw [hc]; simp
    · rw [decide_eq_false (by omega)]; simp
  obtain ⟨q, hqe⟩ : ∃ q, s.ports[p] = q := ⟨_, rfl⟩
  rw [hqe] at hl hlost
  have hsync : ({ q with receiver := .noFrame } : Port).syncBad =
      { q.tookBad with window := pushMark q.window .bad } := by
    simp [Port.syncBad, hl, Port.tookBad]
  simp only [State.receiveBad, State.modPort_get, State.modPort_mgmt, hqe, hsync, hlost]
  rw [State.syncPort_same (by simp only [State.modPort_get, hqe, hsync]; rfl)]
  simp only [Bool.false_eq_true, if_false, State.modPort_modPort]
  rw [State.modPort_congr p (g := fun r => { r.tookBad with window := pushMark q.window .bad })
    (by simp only [hqe, hsync])]
  simp only [← hqe]
  rfl

/-- A bad-check frame that ends LOCKED: recorded, HUNT, the sweep aborted, SYNC-CHANGE. -/
theorem State.receiveBad_lost {s : State} {p : PortIx} {stale : Bool} (ht : s.Takes p stale)
    (hl : s.ports[p].sync = .locked) (ha : s.mgmt.inputs[p].autoResync = true)
    (hc : 4 ≤ badCount (pushMark s.ports[p].window .bad)) :
    s.endFrame p stale (State.receiveBad p) = { s with
      ports := s.ports.set p (Port.abortSweep { s.ports[p].tookBad with
        sync := .hunt, window := pushMark s.ports[p].window .bad })
      mgmt := s.mgmt.raise (.syncChange p) } := by
  rw [State.endFrame_takes ht]
  have hlost : lostLock s.ports[p].sync s.mgmt.inputs[p].autoResync (pushMark s.ports[p].window .bad) = true := by
    simp only [lostLock, hl, ha, decide_eq_true hc]
    rfl
  obtain ⟨q, hqe⟩ : ∃ q, s.ports[p] = q := ⟨_, rfl⟩
  rw [hqe] at hl hlost
  have hsync : ({ q with receiver := .noFrame } : Port).syncBad =
      { q.tookBad with window := pushMark q.window .bad } := by
    simp [Port.syncBad, hl, Port.tookBad]
  simp only [State.receiveBad, State.modPort_get, State.modPort_mgmt, hqe, hsync, hlost]
  rw [State.syncPort_same (by simp only [State.modPort_get, hqe, hsync]; rfl)]
  simp only [if_true, State.modPort_modPort]
  have hlk : ((s.modPort p fun q => ({ q with receiver := .noFrame } : Port).syncBad)).ports[p].sync = .locked := by
    simp only [State.modPort_get, hqe, hsync]
    exact hl
  simp only [State.leaveLocked, hlk, if_true]
  rw [State.syncPort_changes (by
    simp only [hlk]
    simp only [Port.abortSweep]
    split <;> simp), State.modPort_modPort]
  rw [State.modPort_congr p (g := fun r => Port.abortSweep { r.tookBad with
    sync := .hunt, window := pushMark q.window .bad }) (by simp only [hqe, hsync])]
  simp only [← hqe]
  rfl

/-! ### A request in step -/

/-- A request in step whose words fit a frame, at a queue with room, its port permitted, the load over and its code assigned:
its owner decides, and the reply joins the queue. -/
theorem State.takeRequest_serves {s : State} {h : FrameHead} (hs : s.Serves h) {code : Word} (hc : assignedCode code = true)
    {args : List Word} (hl : args.length ≤ 127) (decide : PortIx → List Word → State → Decision) :
    s.takeRequest h code args decide =
      let d := decide h.port args (s.frameTaken h.port)
      d.state.modPort h.port (Port.enqueue ⟨h.seq, code, d.result, d.data, d.restart⟩) := by
  obtain ⟨hi, hr, hp, hb⟩ := hs
  simp only [State.takeRequest, hl, if_true]
  rw [State.receiveGood_inStep hi]
  have hlen : ¬ 4 ≤ (s.frameTaken h.port).ports[h.port].replies.length := by
    rw [State.frameTaken_get]
    simp only [Port.tookGood]
    omega
  have hadm : (s.frameTaken h.port).admission h.port code = none := by
    simp [State.admission, hc, hp, hb, -Fin.getElem_fin]
  simp only [State.manage, hlen, if_false, hadm]

/-- As above, for a decision that leaves the ports alone. -/
theorem State.takeRequest_keepsPorts {s : State} {h : FrameHead} (hs : s.Serves h) {code : Word}
    (hc : assignedCode code = true) {args : List Word} (hl : args.length ≤ 127)
    {decide : PortIx → List Word → State → Decision} {t : State} {r : Result} {data : List Word} {re : Bool}
    (hd : decide h.port args (s.frameTaken h.port) = ⟨t, r, data, re⟩) (hports : t.ports = (s.frameTaken h.port).ports) :
    s.takeRequest h code args decide =
      { t with ports := s.portsAfter h.port ⟨h.seq, code, r, data, re⟩ } := by
  rw [State.takeRequest_serves hs hc hl, hd]
  simp [State.modPort, hports, State.portsAfter]

/-- A request in step that its owner refuses changes nothing but its port (R206). -/
theorem State.takeRequest_refused {s : State} {h : FrameHead} (hs : s.Serves h) {code : Word}
    (hc : assignedCode code = true) {args : List Word} (hl : args.length ≤ 127)
    {decide : PortIx → List Word → State → Decision} {r : Result}
    (hd : decide h.port args (s.frameTaken h.port) = refuse (s.frameTaken h.port) r) :
    s.takeRequest h code args decide = { s with ports := s.portsAfter h.port (replyTo h code r) } := by
  rw [State.takeRequest_keepsPorts hs hc hl hd rfl]
  rfl

/-- Every request row is the taking of its REQUEST frame with some owner's decision. -/
theorem exec_request {i : Instr} {r : Request} (h : i.request? = some r) :
    ∃ d, ∀ s, exec i s = .next (s.takeRequest r.head r.code r.args d) := by
  cases i <;> simp only [Instr.request?, reduceCtorEq] at h <;> (cases h; exact ⟨_, fun _ => rfl⟩)

end Sys2Proof.Machine
end

