-- ==== Sys2Proof/Laws/Frames.lean ====
section
/-! SUPPORT. A frame of a forward lane read from its words (R105, R106), each fact said once: a frame's check word matches, the
words of a LEVEL or REQUEST frame in form are read as that frame, and what the gap that ends LOCKED does. -/

namespace Sys2Proof.Machine

/-! ### Words of frames -/

/-- The check word that ends a frame matches its words. -/
@[simp] theorem checkMatches_withCheck (ws : List Word) : checkMatches (withCheck ws) = true := by
  simp [checkMatches, withCheck]

/-- Words whose check word does not match make no good frame. -/
theorem RxFrame.ofWords_badCheck {ws : List Word} (h : checkMatches ws = false) : RxFrame.ofWords ws = none := by
  unfold RxFrame.ofWords
  split
  · simp [h]
  · rfl

/-- What words with a matching check word make, by their header. -/
theorem RxFrame.ofWords_withCheck (kind seq count : Word) (body : List Word) :
    RxFrame.ofWords (withCheck (kind :: seq :: count :: body)) = RxFrame.ofBody kind seq count body := by
  have h := checkMatches_withCheck (kind :: seq :: count :: body)
  simp only [withCheck, List.cons_append] at h ⊢
  simp only [RxFrame.ofWords, h, if_true, List.dropLast_concat]

/-- The words of a LEVEL frame in form are read as it. -/
theorem RxFrame.ofWords_level (seq base flags : Word) {levels : List Level} (h : levelForm base levels = true) :
    RxFrame.ofWords (levelFrameWords seq base flags levels) = some (.level seq base flags levels) := by
  have hl : levels.length ≤ 128 := by simp only [levelForm, decide_eq_true_eq] at h; omega
  have hc : (wordOf levels.length).toNat = levels.length := by
    rw [wordOf, BitVec.toNat_ofNat, Nat.mod_eq_of_lt (by omega)]
  show RxFrame.ofWords (withCheck (1 :: seq :: wordOf levels.length :: (base :: flags :: levels))) = _
  rw [RxFrame.ofWords_withCheck]
  simp [RxFrame.ofBody, hc, h]

/-- The words of a REQUEST frame of at most 128 payload words are read as it. -/
theorem RxFrame.ofWords_request (seq code : Word) {args : List Word} (h : args.length ≤ 127) :
    RxFrame.ofWords (requestFrameWords seq code args) = some (.request seq code args) := by
  have hc : (wordOf (args.length + 1)).toNat = args.length + 1 := by
    rw [wordOf, BitVec.toNat_ofNat, Nat.mod_eq_of_lt (by omega)]
  show RxFrame.ofWords (withCheck (2 :: seq :: wordOf (args.length + 1) :: (code :: args))) = _
  rw [RxFrame.ofWords_withCheck]
  simp [RxFrame.ofBody, hc]
  omega

/-! ### Commands as frames -/

/-- A command that is a request is taken as its frame is, its owner found by its code. -/
theorem exec_request_byCode {i : Instr} {r : Request} (h : i.request? = some r) (s : State) :
    exec i s = .next (s.takeRequest r.head r.code r.args (decideByCode r.code)) := by
  cases i <;> simp only [Instr.request?, Option.some.injEq, reduceCtorEq] at h <;> subst h <;> rfl

/-- A frame in words that make no good frame is a bad-check frame. -/
theorem exec_badCheckFrame_none {ws : List Word} (h : RxFrame.ofWords ws = none) (p : PortIx) (stale : Bool) (s : State) :
    exec (.badCheckFrame ⟨p, stale⟩ ws) s = .next (s.endFrame p stale (State.receiveBad p)) := by
  simp only [exec, execBadCheckFrame]
  congr 2
  funext s
  simp only [State.receiveWords, h]

/-! ### The gap that ends LOCKED -/

/-- A gap in LOCKED that brings the window to four BAD outcomes with auto-resync on: counted, recorded BAD, the sweep aborted,
the frame delivered, and then LOCKED left. -/
theorem State.receiveGood_gapLost {s : State} {p : PortIx} {stale : Bool} (ht : s.Takes p stale)
    (hl : s.ports[p].sync = .locked) {seq : Word} (hq : seq ≠ s.ports[p].expected)
    (ha : s.mgmt.inputs[p].autoResync = true) (hc : 4 ≤ badCount (pushMark s.ports[p].window .bad))
    (deliver : State → State) :
    (s.endFrame p stale fun s => s.receiveGood p seq deliver) =
      (deliver (s.modPort p (Port.tookGap seq))).leaveLocked p := by
  rw [State.endFrame_takes ht]
  have hlost : lostLock s.ports[p].sync s.mgmt.inputs[p].autoResync (pushMark s.ports[p].window .bad) = true := by
    simp only [lostLock, hl, ha, decide_eq_true hc]
    rfl
  obtain ⟨q, hqe⟩ : ∃ q, s.ports[p] = q := ⟨_, rfl⟩
  rw [hqe] at hl hq hlost
  have hsync : ({ q with receiver := .noFrame } : Port).syncGood seq =
      { q with receiver := .noFrame, expected := seq + 1, window := pushMark q.window .bad } := by
    simp [Port.syncGood, hl, hq]
  have hgap : ({ q with receiver := .noFrame } : Port).isGap seq = true := by simp [Port.isGap, hl, hq]
  have hdel : ({ q with receiver := .noFrame } : Port).delivers seq = true := by simp [Port.delivers, hl]
  simp only [State.receiveGood, State.modPort_get, State.modPort_mgmt, hqe, hsync, hgap, hdel, hlost]
  rw [State.syncPort_same (by simp only [State.modPort_get, hqe, hsync]; rfl)]
  simp only [if_true, State.modPort_modPort]
  congr 2
  apply State.modPort_congr
  simp only [hqe, hsync]
  rfl

/-- LOCKED is left for HUNT, the sweep in progress aborted, with SYNC-CHANGE. -/
theorem State.leaveLocked_locked {s : State} {p : PortIx} (h : s.ports[p].sync = .locked) :
    s.leaveLocked p = { s with
      ports := s.ports.set p (Port.abortSweep { s.ports[p] with sync := .hunt })
      mgmt := s.mgmt.raise (.syncChange p) } := by
  rw [State.leaveLocked, if_pos h, State.syncPort_changes]
  · rfl
  · rw [h]
    simp only [Port.abortSweep]
    split <;> simp

/-- A machine that is not LOCKED does not leave it. -/
theorem State.leaveLocked_other {s : State} {p : PortIx} (h : s.ports[p].sync ≠ .locked) : s.leaveLocked p = s := by
  rw [State.leaveLocked, if_neg h]

end Sys2Proof.Machine
end

