-- ==== Sys2Proof/Laws/MemoryPort.lean ====
section
/-! SUPPORT. The Memory Port's shared operations, each said once: a grant, a fetch that joins, a bank operation that begins, an
access, a cut and a completion, with what each leaves alone, and the memory's canonical form that each keeps. -/

namespace Sys2Proof.Machine

/-! ### Grants -/

/-- A grant changes the Memory Port and the cell buffer alone. -/
theorem State.grant_frame (s : State) :
    s.grant = { s with memPort := s.grant.memPort, bank := { s.bank with buffer := s.grant.bank.buffer } } := by
  unfold State.grant
  split <;> [rfl; (split <;> rfl); rfl]

/-- A BUSY engine is granted nothing. -/
theorem State.grant_busy {s : State} {e : Engine} (h : s.memPort.engine = some e) : s.grant = s := by
  simp only [State.grant, h]

/-- After a grant nothing waits at an IDLE engine. -/
theorem State.grant_granted (s : State) : s.grant.memPort.granted := by
  unfold State.grant MemPort.granted
  split
  · intro h; simp [MemPort.start] at h
  · split <;> (intro h; simp [MemPort.start] at h)
  · next h1 h2 =>
    intro he
    cases hq : s.memPort.queue with
    | cons f fs => exact (h1 f fs he hq).elim
    | nil =>
      cases hb : s.memPort.bankSlot with
      | none => exact ⟨rfl, rfl⟩
      | some g => exact (h2 g he hq hb).elim

/-- A fetch that joins where nothing waits at an IDLE engine. -/
theorem State.joinFetch_granted {s : State} (h : s.memPort.granted) (f : FetchReq) :
    s.joinFetch f = { s with memPort := s.memPort.fetchJoined f } := by
  cases he : s.memPort.engine with
  | some e =>
    rw [State.joinFetch, State.grant_busy (e := e) (by exact he)]
    simp [MemPort.fetchJoined, he]
  | none =>
    have ⟨hq, _⟩ := h he
    simp only [State.joinFetch, State.grant, he, hq, List.nil_append, MemPort.fetchJoined, Option.isSome_none,
      Bool.false_eq_true, if_false, MemPort.start, MemPort.drive, MemPort.began, MemPort.waitOf, Nat.add_zero]

/-- A bank operation that begins with a read, where nothing waits at an IDLE engine. -/
theorem State.beginOp_reads {s : State} (h : s.memPort.granted) {op : OpRecord} (hk : op.offer.kind = .cellRead) :
    s.beginOp op = { s with
      bank := { s.bank with state := .busy, op := some op }
      memPort := s.memPort.segmentHanded op.offer } := by
  cases he : s.memPort.engine with
  | some e =>
    rw [State.beginOp, State.grant_busy (e := e) (by exact he)]
    simp [MemPort.segmentHanded, he, State.handOver]
  | none =>
    have ⟨hq, hb⟩ := h he
    simp only [State.beginOp, State.handOver, State.grant, he, hq, hk, MemPort.segmentHanded, Option.isSome_none,
      Bool.false_eq_true, if_false, MemPort.start, MemPort.drive, MemPort.began, MemPort.waitOf, Nat.add_zero]
    congr 2
    exact hb.symm

/-- A bank operation that begins with a cell write, where nothing waits at an IDLE engine: its words are formed at the grant. -/
theorem State.beginOp_writes {s : State} (h : s.memPort.granted) {op : OpRecord} (hk : op.offer.kind = .cellWrite) :
    s.beginOp op = { s with
      bank := { s.bank with
        state := .busy, op := some op
        buffer := if s.memPort.engine.isSome then s.bank.buffer else bufferOf (s.formCell op) }
      memPort := s.memPort.segmentHanded op.offer } := by
  cases he : s.memPort.engine with
  | some e =>
    rw [State.beginOp, State.grant_busy (e := e) (by exact he)]
    simp [MemPort.segmentHanded, he, State.handOver]
  | none =>
    have ⟨hq, hb⟩ := h he
    simp only [State.beginOp, State.handOver, State.grant, he, hq, hk, MemPort.segmentHanded, Option.isSome_none,
      Bool.false_eq_true, if_false, MemPort.start, MemPort.drive, MemPort.began, MemPort.waitOf, Nat.add_zero]
    congr 2
    exact hb.symm

/-! ### Accesses, the cut and the completion -/

/-- An access changes the memory and the Memory Port alone. -/
theorem State.access_frame (s : State) : s.access = { s with mem := s.access.mem, memPort := s.access.memPort } := by
  unfold State.access
  split
  · rfl
  · dsimp only
    split <;> rfl

/-- An access keeps the memory's canonical form. -/
theorem State.access_wf {s : State} (h : Memory.wf s.mem) : Memory.wf s.access.mem := by
  unfold State.access
  split
  · exact h
  · dsimp only
    split
    · dsimp only
      split
      · exact Memory.write_wf _ _ _ h
      · exact h
    · exact h

theorem State.accesses_frame : ∀ (n : Nat) (s : State),
    s.accesses n = { s with mem := (s.accesses n).mem, memPort := (s.accesses n).memPort }
  | 0, _ => rfl
  | n + 1, s => by
    simp only [State.accesses]
    rw [State.accesses_frame n s.access, State.access_frame s]

theorem State.accesses_wf : ∀ (n : Nat) {s : State}, Memory.wf s.mem → Memory.wf (s.accesses n).mem
  | 0, _, h => h
  | n + 1, _, h => State.accesses_wf n (State.access_wf h)

/-- A cut changes the memory and the Memory Port alone. -/
theorem State.cutAt_frame (cut : Cut) (s : State) :
    s.cutAt cut = { s with mem := (s.cutAt cut).mem, memPort := (s.cutAt cut).memPort } := by
  have h := State.accesses_frame cut.accesses s
  unfold State.cutAt
  dsimp only
  split
  · exact h
  · split
    · rw [h]
    · exact h

/-- A cut keeps the memory's canonical form. -/
theorem State.cutAt_wf (cut : Cut) {s : State} (h : Memory.wf s.mem) : Memory.wf (s.cutAt cut).mem := by
  have hn := State.accesses_wf cut.accesses h
  unfold State.cutAt
  dsimp only
  split
  · exact hn
  · split
    · exact Memory.write_wf _ _ _ hn
    · exact hn

/-- The remaining accesses of a completion keep the memory's canonical form. -/
theorem State.finish_wf {s : State} (e : Engine) (h : Memory.wf s.mem) : Memory.wf (s.finish e).mem := by
  unfold State.finish
  dsimp only
  split
  · exact Memory.writeRun_wf _ _ _ h
  · exact h

/-- The completion of a transaction that writes nothing leaves the memory as it is. -/
theorem State.finish_mem_reads (s : State) {e : Engine} (h : e.kind.writes = false) : (s.finish e).mem = s.mem := by
  simp [State.finish, h]

/-! ### What a requester does with its outcome leaves the memory alone -/

@[simp] theorem State.grant_mem (s : State) : s.grant.mem = s.mem := by rw [State.grant_frame]

@[simp] theorem State.endOp_mem (r : OpReason) (s : State) : (s.endOp r).mem = s.mem := rfl

@[simp] theorem State.setEnabled_mem (p : PortIx) (on : Bool) (s : State) : (s.setEnabled p on).mem = s.mem := by
  unfold State.setEnabled State.raiseIf
  split
  · rfl
  · dsimp only
    split
    · rfl
    · split <;> rfl

@[simp] theorem State.takeFetch_mem (n : SlotIx) (h : Option Handed) (s : State) : (s.takeFetch n h).mem = s.mem := by
  unfold State.takeFetch
  split
  · split
    · simp only [State.claim, State.raiseIf]
      split <;> rfl
    · simp only [State.failFetch]
      rfl
  · rfl

@[simp] theorem State.failChangeover_mem (r : OpReason) (s : State) : (s.failChangeover r).mem = s.mem := rfl

@[simp] theorem State.commit_mem (op : OpRecord) (s : State) : (s.commit op).mem = s.mem := rfl

@[simp] theorem State.nextSegment_mem (op : OpRecord) (s : State) : (s.nextSegment op).mem = s.mem := rfl

@[simp] theorem State.failArea_mem (a : HouseArea) (s : State) : (s.failArea a).mem = s.mem := rfl

@[simp] theorem State.houseEnd_mem (s : State) : s.houseEnd.mem = s.mem := by
  unfold State.houseEnd
  split <;> rfl

@[simp] theorem State.houseNext_mem (op : OpRecord) (n : Nat) (s : State) : (s.houseNext op n).mem = s.mem := by
  unfold State.houseNext
  split
  · rfl
  · exact State.houseEnd_mem s

@[simp] theorem State.loadHouseCell_mem (n : Nat) (ws : List Word) (s : State) : (s.loadHouseCell n ws).mem = s.mem := by
  unfold State.loadHouseCell
  dsimp only
  split <;> rfl

@[simp] theorem State.applySettings_mem (r : StoredSettings) (s : State) : (s.applySettings r).mem = s.mem := by
  have hfold : ∀ (f : State → PortIx → State), (∀ t p, (f t p).mem = t.mem) → ∀ (l : List PortIx) (t : State),
      (l.foldl f t).mem = t.mem := by
    intro f hf l
    induction l with
    | nil => intro t; rfl
    | cons p l ih => intro t; rw [List.foldl_cons, ih, hf]
  unfold State.applySettings
  dsimp only [State.modOuts]
  refine hfold _ (fun t p => ?_) _ _
  split
  · exact State.setEnabled_mem p _ t
  · rfl

@[simp] theorem State.passArea_mem (a : HouseArea) (ws : List Word) (s : State) : (s.passArea a ws).mem = s.mem := by
  unfold State.passArea
  dsimp only
  split
  · split
    · exact State.applySettings_mem _ s
    · rfl
  all_goals rfl

@[simp] theorem State.houseTake_mem (op : OpRecord) (h : Handed) (s : State) : (s.houseTake op h).mem = s.mem := by
  unfold State.houseTake
  dsimp only
  rw [State.houseNext_mem]
  repeat' split
  all_goals simp only [State.passArea_mem, State.failArea_mem, State.loadHouseCell_mem]

@[simp] theorem State.houseFault_mem (op : OpRecord) (s : State) : (s.houseFault op).mem = s.mem := by
  unfold State.houseFault
  dsimp only
  split
  · exact State.houseEnd_mem _
  · exact State.houseNext_mem _ _ _

@[simp] theorem State.replaceDirectory_mem (op : OpRecord) (s : State) : (s.replaceDirectory op).mem = s.mem := by
  unfold State.replaceDirectory
  split <;> rfl

@[simp] theorem State.changeoverTake_mem (op : OpRecord) (h : Handed) (s : State) : (s.changeoverTake op h).mem = s.mem := by
  unfold State.changeoverTake
  dsimp only
  repeat' split
  all_goals simp

@[simp] theorem State.saveTake_mem (op : OpRecord) (h : Handed) (s : State) : (s.saveTake op h).mem = s.mem := by
  unfold State.saveTake
  dsimp only
  repeat' split
  all_goals simp

@[simp] theorem State.formatTake_mem (op : OpRecord) (h : Handed) (s : State) : (s.formatTake op h).mem = s.mem := by
  unfold State.formatTake
  dsimp only
  repeat' split
  all_goals simp

@[simp] theorem State.saveHouseTake_mem (op : OpRecord) (h : Handed) (s : State) : (s.saveHouseTake op h).mem = s.mem := by
  unfold State.saveHouseTake
  dsimp only
  repeat' split
  all_goals simp

@[simp] theorem State.storeTake_mem (op : OpRecord) (h : Handed) (s : State) : (s.storeTake op h).mem = s.mem := by
  unfold State.storeTake
  dsimp only
  repeat' split
  all_goals simp

@[simp] theorem State.deleteTake_mem (op : OpRecord) (h : Handed) (s : State) : (s.deleteTake op h).mem = s.mem := by
  unfold State.deleteTake
  dsimp only
  repeat' split
  all_goals simp

@[simp] theorem State.readTake_mem (op : OpRecord) (h : Handed) (s : State) : (s.readTake op h).mem = s.mem := by
  unfold State.readTake
  dsimp only
  repeat' split
  all_goals simp

/-- The requester of a transaction takes its outcome and leaves the memory as it is (R197, R200). -/
@[simp] theorem State.takeOutcome_mem (e : Engine) (h : Option Handed) (s : State) : (s.takeOutcome e h).mem = s.mem := by
  unfold State.takeOutcome
  split
  · exact State.takeFetch_mem _ _ _
  · unfold State.takeSegment
    split
    · rfl
    · split
      · exact State.changeoverTake_mem _ _ _
      · exact State.saveTake_mem _ _ _
      · exact State.saveHouseTake_mem _ _ _
      · exact State.formatTake_mem _ _ _
      · exact State.storeTake_mem _ _ _
      · exact State.deleteTake_mem _ _ _
      · exact State.readTake_mem _ _ _
      · exact State.houseTake_mem _ _ _
    · split
      · rfl
      · exact State.houseFault_mem _ _
      · rfl

/-- The completion of a transaction keeps the memory's canonical form (R197). -/
theorem State.completeTxn_wf {s : State} (e : Engine) (h : Memory.wf s.mem) : Memory.wf (s.completeTxn e).mem := by
  unfold State.completeTxn
  rw [State.grant_mem, State.takeOutcome_mem]
  exact State.finish_wf e h

/-- The fault of a transaction keeps the memory's canonical form (R192). -/
theorem State.faultTxn_wf (cut : Cut) {s : State} (h : Memory.wf s.mem) : Memory.wf (s.faultTxn cut).mem := by
  have hc := State.cutAt_wf cut h
  unfold State.faultTxn
  dsimp only
  split
  · exact hc
  · rw [State.grant_mem, State.takeOutcome_mem]
    exact hc

/-! ### The memory clock -/

/-- A memory clock at which RDY is not sampled counts (R191). -/
theorem State.memoryClock_counts {s : State} {e : Engine} (he : s.memPort.engine = some e) (h : e.clock + 1 < 2 + e.wait.val) :
    s.memoryClock = { s with memPort := { s.memPort with engine := some { e with clock := e.clock + 1 } } } := by
  simp only [State.memoryClock, he, h, if_true]

/-- A memory clock at which RDY is sampled: the next access, the completion, a low sample more, or the fault (R191, R192). -/
theorem State.memoryClock_samples {s : State} {e : Engine} (he : s.memPort.engine = some e)
    (h : 2 + e.wait.val ≤ e.clock + 1) :
    let high := Config.rdyLevel s.memPort.samples
    let m := { s.memPort with rdy := high, samples := s.memPort.samples + 1 }
    s.memoryClock =
      if high = true then
        (if e.place + 1 < (s.txnWords e).length then State.access { s with memPort := m }
          else State.completeTxn e { s with memPort := m })
      else if e.low + 1 < 64 then { s with memPort := { m with engine := some { e with low := e.low + 1 } } }
      else State.faultTxn ⟨0, Config.faultLanded s.memPort.samples⟩ { s with memPort := m } := by
  have : ¬e.clock + 1 < 2 + e.wait.val := by omega
  simp only [State.memoryClock, he, this, if_false]

/-- One memory clock keeps the memory's canonical form. -/
theorem State.memoryClock_wf {s : State} (h : Memory.wf s.mem) : Memory.wf s.memoryClock.mem := by
  unfold State.memoryClock
  dsimp only
  repeat' split
  · exact h
  · exact h
  · exact State.access_wf h
  · exact State.completeTxn_wf _ h
  · exact h
  · exact State.faultTxn_wf _ h

/-- The command that names the completion of a transaction completes it (R197). -/
theorem exec_complete {s : State} {e : Engine} (hr : s.held = false) (he : s.memPort.engine = some e) :
    exec (if e.slot.isSome then .fetchComplete else .segmentComplete) s = .next (s.completeTxn e) := by
  cases hs : e.slot <;>
    simp [exec, execFetchComplete, execSegmentComplete, State.whenRunning, hr, he, hs]

/-- RDY_FAULT faults the transaction in progress (R200). -/
theorem exec_rdyFault {s : State} (cut : Cut) (hr : s.held = false) :
    exec (.rdyFault cut) s = .next (s.faultTxn cut) := by
  simp [exec, execRdyFault, State.whenRunning, hr]

end Sys2Proof.Machine
end

