-- ==== Sys2Proof/Laws/Transactions.lean ====
section
/-! SUPPORT. What the end of a transaction does, each said once: the grant that follows it, in terms of the Memory Port as it
went on; the accesses up to a cut, with the words they wrote; and the fault and the completion of a bank segment. -/

namespace Sys2Proof.Machine

/-! ### The grant that follows the end of a transaction -/

/-- A transaction taken by the engine. -/
theorem MemPort.start_eq_began (m : MemPort) (kind : TxnKind) (area : Area) (cell : Nat) (slot : Option SlotIx)
    (crc : Word) : m.start kind area cell slot crc = m.began kind area cell slot crc := by
  cases area <;> rfl

/-- The words of a written cell are formed from the tables, the settings and the operation record alone. -/
theorem State.formCell_frame (s : State) (b : BankCtl) (m : MemPort) (mem : Memory) (op : OpRecord) :
    State.formCell { s with bank := b, memPort := m, mem := mem } op = s.formCell op := rfl

/-- The grant in the event in which a segment ends and the operation, its record `op`, goes on with segment `g`. -/
theorem State.grant_handOver {s u : State} {op : OpRecord} {g : Segment} {m : MemPort} (ho : op.offer = g)
    (hu : u = { s with memPort := { m with engine := none } }) :
    (State.handOver op u).grant = { s with memPort := m }.onWith op g := by
  subst hu ho
  cases hq : m.queue with
  | cons f fs =>
    simp [State.grant, State.handOver, State.onWith, MemPort.passedOn, hq, MemPort.start_eq_began, MemPort.began]
  | nil =>
    cases hk : op.offer.kind <;>
      simp [State.grant, State.handOver, State.onWith, MemPort.passedOn, hq, MemPort.start_eq_began, MemPort.began, hk]
    rfl

/-- The lines at the last access do not matter to a Memory Port that goes on. -/
theorem State.onWith_drive (s : State) (op : OpRecord) (g : Segment) (area : Area) (cell place : Nat) :
    State.onWith { s with memPort := s.memPort.drive area cell place } op g = s.onWith op g := by
  unfold State.onWith MemPort.passedOn
  cases hq : s.memPort.queue <;> simp [MemPort.drive, MemPort.began, hq]; rfl

/-- The grant in the event in which a transaction ends with no operation in progress. -/
theorem State.grant_ended {s : State} {m : MemPort} (hm : s.memPort = { m with engine := none }) (h : s.bank.op = none) :
    s.grant = { s with memPort := m.wentOn } := by
  cases hq : m.queue with
  | cons f fs => simp [State.grant, MemPort.wentOn, hm, hq, MemPort.start_eq_began, MemPort.began]
  | nil =>
    cases hb : m.bankSlot with
    | none =>
      cases s
      dsimp only at hm
      subst hm
      simp [State.grant, MemPort.wentOn, hq, hb]
    | some g =>
      cases hk : g.kind <;>
        simp [State.grant, MemPort.wentOn, hm, hq, hb, h, hk, MemPort.start_eq_began, MemPort.began]

/-- The Memory Port after any grant that follows the end of a transaction. -/
theorem State.grant_memPort (s : State) (m : MemPort) :
    (State.grant { s with memPort := { m with engine := none } }).memPort = m.wentOn := by
  cases hq : m.queue with
  | cons f fs =>
    simp [State.grant, MemPort.wentOn, hq, MemPort.start_eq_began, MemPort.began]
  | nil =>
    cases hb : m.bankSlot with
    | none => simp [State.grant, MemPort.wentOn, hq, hb]
    | some g =>
      simp only [State.grant, MemPort.wentOn, hq, hb]
      split <;> simp [MemPort.start_eq_began, MemPort.began]

/-! ### The accesses up to a cut -/

/-- The words of a transaction are said by its kind, its area and its cell. -/
theorem State.txnWords_congr (s : State) {e e' : Engine} (hk : e'.kind = e.kind) (ha : e'.area = e.area)
    (hc : e'.cell = e.cell) : s.txnWords e' = s.txnWords e := by
  simp only [State.txnWords, hk, ha, hc]

/-- The next access of a transaction that another follows. -/
theorem State.access_next {s : State} {e : Engine} (he : s.memPort.engine = some e)
    (h : e.place + 1 < (s.txnWords e).length) :
    ∃ e' : Engine, e'.kind = e.kind ∧ e'.area = e.area ∧ e'.cell = e.cell ∧ e'.slot = e.slot ∧ e'.place = e.place + 1 ∧
      s.access.txnWords e' = s.txnWords e ∧
      s.access.memPort = { s.memPort.drive e.area e.cell (e.place + 1) with engine := some e' } ∧
      s.access.mem = (if e.kind.writes then
        Memory.write (wordAddress e.area e.cell e.place) (at' (s.txnWords e) e.place) s.mem else s.mem) := by
  refine ⟨{ e with
    place := e.place + 1, clock := 0, wait := s.memPort.waitOf e.area, low := 0
    crc := if e.place < coveredWords e.kind (s.txnWords e).length then crcWord e.crc (at' (s.txnWords e) e.place)
      else e.crc }, rfl, rfl, rfl, rfl, rfl, ?_, ?_, ?_⟩
  · rw [State.txnWords_congr s.access (e := e) (by exact rfl) (by exact rfl) (by exact rfl)]
    simp only [State.access, he, h, if_true]
    cases hk : e.kind <;> simp only [State.txnWords, hk, TxnKind.writes, Bool.false_eq_true, if_false]
  · simp only [State.access, he, h, if_true]
  · simp only [State.access, he, h, if_true]

/-- `n` accesses of a transaction that another follows: the engine `n` places on, with the words of a write before its place
written. -/
theorem State.accesses_next : ∀ (n : Nat) {s : State} {e : Engine}, s.memPort.engine = some e →
    e.place + n < (s.txnWords e).length →
    ∃ e' : Engine, e'.kind = e.kind ∧ e'.area = e.area ∧ e'.cell = e.cell ∧ e'.slot = e.slot ∧ e'.place = e.place + n ∧
      (s.accesses n).txnWords e' = s.txnWords e ∧
      (s.accesses n).memPort =
        { (if n = 0 then s.memPort else s.memPort.drive e.area e.cell (e.place + n)) with engine := some e' } ∧
      (e.kind.writes = false → (s.accesses n).mem = s.mem) ∧
      (e.kind.writes = true → Memory.wf s.mem → ∀ a, Memory.read a (s.accesses n).mem =
        if wordAddress e.area e.cell e.place ≤ a ∧ a < wordAddress e.area e.cell (e.place + n) then
          at' (s.txnWords e) (a - wordAddress e.area e.cell 0)
        else Memory.read a s.mem)
  | 0, s, e, he, _ => by
    refine ⟨e, rfl, rfl, rfl, rfl, rfl, rfl, ?_, fun _ => rfl, fun _ _ a => ?_⟩
    · simp only [State.accesses, if_true, ← he]
    · rw [if_neg (by simp)]
      rfl
  | n + 1, s, e, he, h => by
    obtain ⟨e1, hk, ha, hc, hs, hp, hw, hm, hmem⟩ := State.access_next he (by omega)
    have he1 : s.access.memPort.engine = some e1 := by rw [hm]
    obtain ⟨e2, hk2, ha2, hc2, hs2, hp2, hw2, hm2, hr2, hw2'⟩ := State.accesses_next n he1 (by rw [hw, hp]; omega)
    refine ⟨e2, hk2.trans hk, ha2.trans ha, hc2.trans hc, hs2.trans hs, by rw [hp2, hp]; omega, hw2.trans hw, ?_, ?_, ?_⟩
    · rw [if_neg (by omega)]
      show (s.access.accesses n).memPort = _
      rw [hm2, hm, ha, hc, hp, show e.place + 1 + n = e.place + (n + 1) from by omega]
      split
      · next h0 => subst h0; rfl
      · rfl
    · intro hwr
      show (s.access.accesses n).mem = _
      rw [hr2 (by rw [hk]; exact hwr), hmem, hwr]
      rfl
    · intro hwr hwf a
      show Memory.read a (s.access.accesses n).mem = _
      have hwf1 : Memory.wf s.access.mem := State.access_wf hwf
      rw [hw2' (by rw [hk]; exact hwr) hwf1 a, hw, ha, hc, hp, hmem, hwr, if_pos rfl]
      have l (k : Nat) : wordAddress e.area e.cell k = wordAddress e.area e.cell 0 + k := rfl
      rw [l (e.place + 1), l (e.place + 1 + n), l (e.place + (n + 1)), l e.place]
      generalize wordAddress e.area e.cell 0 = b
      by_cases hx : a = b + e.place
      · subst hx
        rw [if_neg (by omega), Memory.read_write_same _ _ _ hwf, if_pos (by omega), Nat.add_sub_cancel_left]
      · rw [Memory.read_write_other _ hx]
        by_cases hy : b + e.place ≤ a ∧ a < b + (e.place + (n + 1))
        · rw [if_pos hy, if_pos (by omega)]
        · rw [if_neg hy, if_neg (by omega)]

/-- A transaction cut in one of its accesses. -/
theorem State.cutAt_next {s : State} {e : Engine} (cut : Cut) (he : s.memPort.engine = some e)
    (h : e.place + cut.accesses < (s.txnWords e).length) :
    ∃ e' : Engine, e'.kind = e.kind ∧ e'.area = e.area ∧ e'.cell = e.cell ∧ e'.slot = e.slot ∧
      e'.place = e.place + cut.accesses ∧
      (s.cutAt cut).memPort =
        { (if cut.accesses = 0 then s.memPort else s.memPort.drive e.area e.cell (e.place + cut.accesses)) with
          engine := some e' } ∧
      (e.kind.writes = false → (s.cutAt cut).mem = s.mem) ∧
      (e.kind.writes = true → Memory.wf s.mem → ∀ a, Memory.read a (s.cutAt cut).mem = s.cutRead e cut a) := by
  obtain ⟨e', hk, ha, hc, hs, hp, hw, hm, hr, hwr⟩ := State.accesses_next cut.accesses he h
  have he' : (s.accesses cut.accesses).memPort.engine = some e' := by rw [hm]
  have hcut : s.cutAt cut = if e.kind.writes && cut.landed then
      { s.accesses cut.accesses with
        mem := Memory.write (wordAddress e.area e.cell (e.place + cut.accesses))
          (at' (s.txnWords e) (e.place + cut.accesses)) (s.accesses cut.accesses).mem }
      else s.accesses cut.accesses := by
    simp only [State.cutAt, he', hk, ha, hc, hp, hw]
  refine ⟨e', hk, ha, hc, hs, hp, ?_, ?_, ?_⟩
  · rw [hcut]
    split <;> exact hm
  · intro hf
    rw [hcut, hf]
    exact hr hf
  · intro ht hwf a
    have hwf1 := State.accesses_wf cut.accesses hwf
    have l (k : Nat) : wordAddress e.area e.cell k = wordAddress e.area e.cell 0 + k := rfl
    rw [hcut, ht, Bool.true_and]
    unfold State.cutRead
    cases cut.landed with
    | true =>
      simp only [if_true, and_true]
      have h1 := hwr ht hwf a
      rw [l e.place, l (e.place + cut.accesses)] at *
      generalize wordAddress e.area e.cell 0 = b at *
      by_cases hx : a = b + (e.place + cut.accesses)
      · subst hx
        rw [Memory.read_write_same _ _ _ hwf1, if_pos ⟨by omega, Or.inr rfl⟩, Nat.add_sub_cancel_left]
      · rw [Memory.read_write_other _ hx, h1]
        by_cases hy : b + e.place ≤ a ∧ a < b + (e.place + cut.accesses)
        · rw [if_pos hy, if_pos ⟨hy.1, Or.inl hy.2⟩]
        · rw [if_neg hy, if_neg (by omega)]
    | false =>
      simp only [Bool.false_eq_true, if_false, and_false, or_false]
      exact hwr ht hwf a

/-! ### The end of a transaction -/

/-- The RDY fault of a transaction in progress, at the cut access: its requester's part, then the next grant. -/
theorem State.faultTxn_next {s : State} {e : Engine} (cut : Cut) (he : s.memPort.engine = some e)
    (h : e.place + cut.accesses < (s.txnWords e).length) :
    ∃ e' : Engine, e'.slot = e.slot ∧
      s.faultTxn cut = (State.takeOutcome e' none { s with
        mem := (s.cutAt cut).mem
        memPort := { s.memPort.faulted e cut with engine := none }
        mgmt := s.mgmt.raise .memoryFault }).grant := by
  obtain ⟨e', hk, ha, hc, hs, hp, hm, -, -⟩ := State.cutAt_next cut he h
  have he' : (s.cutAt cut).memPort.engine = some e' := by rw [hm]
  refine ⟨e', hs, ?_⟩
  simp only [State.faultTxn, he', hk, ha, hc, hs, hp, State.raise]
  rw [State.cutAt_frame cut s, hm]
  congr 3

/-- The completion of a bank segment: its remaining accesses, the Bank Controller's part, then the next grant. -/
theorem State.segmentComplete_next {s : State} {e : Engine} (hr : s.held = false) (he : s.memPort.engine = some e)
    (hs : e.slot = none) :
    exec .segmentComplete s = .next (State.grant (State.takeSegment (some (s.handed e)) { s with
      mem := (s.finish e).mem
      memPort := { s.memPort.drive e.area e.cell ((s.txnWords e).length - 1) with engine := none } })) := by
  simp only [exec, execSegmentComplete, State.whenRunning]
  rw [if_neg (by simp [hr])]
  simp only [he, hs, Option.isNone_none, if_true, State.completeTxn, State.takeOutcome]
  rfl

end Sys2Proof.Machine
end

