-- ==== Sys2Proof/Laws/Units.lean ====
section
/-! SUPPORT. The shared operations of the blocks, each said once: a raised event, the completion of one fade slot, a page of
levels, a counter, a fade's level at its ends. -/

namespace Sys2Proof.Machine

/-! ### Events -/

/-- ALERT after a raised event (R213). -/
theorem Mgmt.raise_alertLow (e : Event) (m : Mgmt) :
    (m.raise e).alertLow = decide ((m.flags ||| e.mask) &&& m.enables ≠ 0) := rfl

/-- A raised event leaves ALERT right while the RESET line is not held. -/
theorem State.raise_alertRight (e : Event) {s : State} (h : s.held = false) : (s.raise e).alertRight := by
  simp [State.alertRight, State.raise, Mgmt.raise, Mgmt.redecide, h]

/-- A change of the Management Unit that touches neither flags, enables nor ALERT keeps ALERT right. -/
theorem State.alertRight_congr {s t : State} (hs : s.alertRight) (h1 : t.held = s.held) (h2 : t.mgmt.flags = s.mgmt.flags)
    (h3 : t.mgmt.enables = s.mgmt.enables) (h4 : t.mgmt.alertLow = s.mgmt.alertLow) : t.alertRight := by
  unfold State.alertRight at *
  rw [h1, h2, h3, h4, hs]

theorem Event.bit_lt (e : Event) : e.bit < 19 := by
  cases e <;> simp only [Event.bit] <;> omega

/-- The flag of an event is its own: two events with one place are one event. -/
theorem Event.bit_inj {e f : Event} (h : e.bit = f.bit) : e = f := by
  cases e <;> cases f <;> simp only [Event.bit] at h <;> first
    | rfl
    | omega
    | (congr 1; ext; omega)

/-! ### Fade slots -/

theorem one_of_six (n : SlotIx) (k : Nat) :
    ((List.finRange 6).filterMap fun m => if m = n then some k else none) = [k] := by
  fin_cases n <;> rfl

/-- One slot of start order `k` becomes FREE, and the start orders above `k` move down by one (R49). -/
theorem Playback.freeSlots_one {pb : Playback} {n : SlotIx} {k : Nat} (h : pb.slots[n].order? = some k) :
    pb.freeSlots (· == n) = { pb with
      slots := tab fun m => if m = n then .free else pb.slots[m].mapOrder fun o => if k < o then o - 1 else o } := by
  have hgone : ((List.finRange 6).filterMap fun m => if (m == n) = true then pb.slots[m].order? else none) = [k] := by
    have hf : (fun m : SlotIx => if (m == n) = true then pb.slots[m].order? else none)
        = fun m => if m = n then some k else none := by
      funext m
      by_cases hm : m = n
      · subst hm; simp only [beq_self_eq_true, if_true, h]
      · simp only [beq_iff_eq, hm, if_false]
    rw [hf, one_of_six]
  have hslots : (tab fun m : SlotIx => if (m == n) = true then Slot.free
      else pb.slots[m].mapOrder fun o => o - ([k].filter fun g => decide (g < o)).length)
      = tab fun m => if m = n then .free else pb.slots[m].mapOrder fun o => if k < o then o - 1 else o := by
    apply vector_ext_fin
    intro m
    simp only [Fin.getElem_fin, tab_getElem, Fin.eta, beq_iff_eq]
    by_cases hm : m = n
    · simp only [hm, if_true]
    · simp only [hm, if_false]
      congr 1
      funext o
      by_cases ho : k < o <;> simp [ho]
  unfold Playback.freeSlots
  rw [hgone]
  exact congrArg (fun v => { pb with slots := v }) hslots

/-- The completion of one slot of start order `k` (R49, R56, R67): its channels rest at their targets, no slot owns them, it is
FREE, and the start orders above `k` move down by one. -/
theorem Playback.complete_one {pb : Playback} {n : SlotIx} {k : Nat} (h : pb.slots[n].order? = some k) :
    pb.complete (· == n) = { pb with
      slots := tab fun m => if m = n then .free else pb.slots[m].mapOrder fun o => if k < o then o - 1 else o
      owner := tab fun c => if pb.owner[c].map Owned.slot = some n then none else pb.owner[c]
      resting := tab fun c =>
        match pb.owner[c] with
        | some o => if o.slot = n then o.target else pb.resting[c]
        | none => pb.resting[c] } := by
  have howner : (tab fun c : Chan => match pb.owner[c] with
      | some o => if (o.slot == n) = true then none else some o
      | none => none) = tab fun c => if pb.owner[c].map Owned.slot = some n then none else pb.owner[c] := by
    apply vector_ext_fin
    intro c
    simp only [Fin.getElem_fin, tab_getElem]
    cases pb.owner[c.val] with
    | none => rfl
    | some o => by_cases ho : o.slot = n <;> simp [ho]
  have hrest : (tab fun c : Chan => match pb.owner[c] with
      | some o => if (o.slot == n) = true then o.target else pb.resting[c]
      | none => pb.resting[c]) = tab fun c => match pb.owner[c] with
        | some o => if o.slot = n then o.target else pb.resting[c]
        | none => pb.resting[c] := by
    apply vector_ext_fin
    intro c
    simp only [Fin.getElem_fin, tab_getElem]
    cases pb.owner[c.val] with
    | none => rfl
    | some o => by_cases ho : o.slot = n <;> simp [ho]
  have h' : (pb.restChannels (· == n)).slots[n].order? = some k := by
    simp only [Playback.restChannels]
    exact h
  unfold Playback.complete
  rw [Playback.freeSlots_one h']
  unfold Playback.restChannels
  exact congrArg₂ (fun u v => { pb with
    slots := tab fun m => if m = n then .free else pb.slots[m].mapOrder fun o => if k < o then o - 1 else o
    owner := u, resting := v }) howner hrest

/-- The oldest slot has start order 1 (R56). -/
theorem Playback.oldest?_order {pb : Playback} {n : SlotIx} (h : pb.oldest? = some n) : pb.slots[n].order? = some 1 := by
  have := List.find?_some h
  simpa using this

/-- A forced completion, channel by channel (R56). -/
theorem Playback.complete_oldest {pb : Playback} {n : SlotIx} (h : pb.oldest? = some n) :
    pb.complete (· == n) = pb.forceCompleted n := by
  rw [Playback.complete_one (Playback.oldest?_order h)]
  rfl

/-- The lowest FREE slot is FREE. -/
theorem Playback.lowestFree?_free {pb : Playback} {n : SlotIx} (h : pb.lowestFree? = some n) : pb.slots[n] = .free := by
  have := List.find?_some h
  revert this
  cases pb.slots[n] <;> simp [Slot.isFree]

/-- Before its delay a channel stands at its start level, and from delay plus time on at its target (R51). -/
theorem fadeBetween_before {s t : Level} {d time e : Nat} (h : e < d) : fadeBetween s t d time e = s := by
  simp [fadeBetween, h]

theorem fadeBetween_after {s t : Level} {d time e : Nat} (h : d + time ≤ e) : fadeBetween s t d time e = t := by
  have h1 : ¬ e < d := by omega
  simp [fadeBetween, h, h1]

/-! ### Pages and counters -/

/-- A page that passes the form tests lies within channels 1 to 1024 (R106). -/
theorem levelForm_range {base : Word} {levels : List Word} (h : levelForm base levels = true) :
    1 ≤ levels.length ∧ levels.length ≤ 128 ∧ 1 ≤ base.toNat ∧ base.toNat + levels.length ≤ 1025 := by
  simpa [levelForm] using h

/-- A page written from its base channel on (R84). -/
theorem setRun_page {base : Word} {levels : List Word} (h : levelForm base levels = true)
    (v : Vector (Option Level) 1024) : setRun v (base.toNat - 1) (levels.map some) = pageOver base levels v := by
  have := levelForm_range h
  apply vector_ext_fin
  intro c
  have hn : Chan.number c = c.val + 1 := rfl
  simp only [Fin.getElem_fin, setRun_getElem, pageOver, tab_getElem]
  by_cases h1 : base.toNat - 1 ≤ c.val
  · by_cases h2 : c.val + 1 < base.toNat + levels.length
    · rw [if_pos h1, if_pos (by rw [hn]; exact ⟨by omega, h2⟩), List.getElem?_eq_getElem (by simp; omega)]
      simp only [List.getElem_map, Option.getD_some]
      rw [List.getElem?_eq_getElem (by rw [hn]; omega)]
      congr 2
      rw [hn]; omega
    · rw [if_pos h1, if_neg (by rw [hn]; omega), List.getElem?_eq_none (by simp; omega)]
      rfl
  · rw [if_neg h1, if_neg (by rw [hn]; omega)]

/-- A counter never goes down (R115). -/
theorem countUp_ge (n : BitVec 32) : n ≤ countUp n := by
  unfold countUp
  split
  · exact BitVec.le_refl n
  · next h =>
    have h1 : n.toNat ≠ 4294967295 := fun h2 => h (BitVec.eq_of_toNat_eq h2)
    rw [BitVec.le_def, BitVec.toNat_add]
    have h2 : (1 : BitVec 32).toNat = 1 := rfl
    omega

end Sys2Proof.Machine
end

