-- ==== Sys2Proof/WellFormed.lean ====
section
/-! DEFINITION. Which terms of `Instr` stand for a command that the part can meet: the form tests of R106, the longest request
(R222), the codes that are not assigned (R224), and the place of a cut within a cell (R193). -/

namespace Sys2Proof

/-- A request's parameter words fit its frame beside `before` payload words: at most 128 payload words (R222). -/
def argsFit (before : Nat) (args : List Word) : Bool := decide (before + args.length ≤ 128)

/-- A cut falls within the at most 512 accesses of a transaction (R193). -/
def Cut.wellFormed (c : Cut) : Bool := decide (c.accesses < 512)

/-- The words of a LEVEL frame that pass the form tests of R106. Bits 13–0 of its flags word are not among them: R106 does not
name them, and a word that a layout marks zero is not read (R218, log 28). -/
def levelWellFormed (base : Word) (levels : List Word) : Bool :=
  decide (1 ≤ levels.length) && decide (levels.length ≤ 128) && decide (1 ≤ base.toNat)
    && decide (base.toNat + levels.length ≤ 1025)

/-- A request that no other row spells: its code is one that chapter 12 does not assign, or it is a SET whose item code is
missing or not assigned (R224, log 14). -/
def unassignedRequest (code : Word) (args : List Word) : Bool :=
  !decide (1 ≤ code.toNat ∧ code.toNat ≤ 0x1A) || (code == 0x16 && args.head?.all fun item => decide (9 < item.toNat))

/-- The commands that are well-formed. A LEVEL or REQUEST frame that fails these tests reaches the part as BAD_CHECK_FRAME, whose
words make no good frame (R105, R106). -/
def Instr.wellFormed : Instr → Bool
  | .resetLineAsserted cut | .replyFrameComplete _ cut | .rdyFault cut => cut.wellFormed
  | .levelFrame _ base _ levels => levelWellFormed base levels
  | .badCheckFrame _ words => (Machine.RxFrame.ofWords words).isNone
  | .unknownRequest _ code args => unassignedRequest code args && argsFit 1 args
  | .go _ args | .pause _ args | .resume _ args | .release _ args | .cueDataWrite _ args | .cueDataRead _ args
  | .storeCue _ args | .deleteCue _ args | .readCue _ args | .edit _ args | .update _ args | .discard _ args
  | .readTable _ args | .changeover _ args | .save _ args | .saveHouse _ args | .format _ args | .checkStart _ args
  | .checkNext _ args | .checkPrevious _ args | .checkStop _ args | .snapshot _ args | .statusRead _ args
  | .clearEvents _ args | .restart _ args => argsFit 1 args
  | .setInputEnable _ args | .setInputPermit _ args | .setAutoResync _ args | .setLossTimes _ args
  | .setAcceptMask _ args | .setOutputLink _ args | .setBudget _ args | .setStartBank _ args | .setEventEnables _ args
  | .setMemoryTiming _ args => argsFit 2 args
  | .resetLineReleased | .frameCut _ _ | .pauseAll _ | .resumeAll _ | .portInterval _
  | .lossTimerRunsOut _ | .holdRunsOut _ | .fadeRunsOut _ | .playbackInterval | .slotCompletes _ | .followFires
  | .fetchComplete | .segmentComplete | .refresh | .lampCheckInterval | .dwellExpires | .outputFrameTimer _
  | .outputFrameComplete _ | .holdreqAsserted | .holdreqDeasserted => true

end Sys2Proof
end

