-- ==== Sys2Proof/Tests/Slice0.lean ====
section
/-! SUPPORT. Tests of the model: the well-formedness checks, one step of each command on a small state, and for every obligation
with hypotheses a witness, a state and operands that meet them, at the ends of their ranges. -/

namespace Sys2Proof.Machine

-- One theorem at a time: each of these waits for the kernel, and would hold a thread of its own.
set_option Elab.async false

/-! ### Small states -/

/-- A port in LOCKED that expects sequence number 7. -/
def lockedPort : Port := { Port.reset with sync := .locked, expected := 7 }

/-- The part after a start-up load that ended with the start bank NONE, every port in LOCKED. -/
def ready : State := { State.reset with
  ports := Vector.replicate 4 lockedPort
  memPort := { MemPort.reset with engine := none }
  bank := { BankCtl.reset with state := .idle } }

/-- A frame in sequence on IN0, which is manage-permitted. -/
def head : FrameHead := ⟨0, 7, false⟩

def heldPart : State := { ready with held := true }

/-- Every port alike. -/
def withPort (q : Port) : State := { ready with ports := Vector.replicate 4 q }

/-- Bank 1 is live and holds cues 10, 20 and 30. -/
def playing : State := { ready with
  playback := { Playback.reset with directory := [⟨10, 10⟩, ⟨20, 11⟩, ⟨30, 12⟩] }
  tables := { Tables.reset with liveBank := some 1 } }

def withSlots (slots : Vector Slot 6) : State := { playing with playback := { playing.playback with slots := slots } }

def withSlot (n : SlotIx) (x : Slot) : State := withSlots (playing.playback.slots.set n x)

/-- A fade over 100 intervals of which e are over. -/
def fadeAt (e order : Nat) : Fade := ⟨some 10, .full, 0, 100, 0, 100, 100, e, order, none, none⟩

def fetchOf (cue cell : Nat) : Fetch := ⟨cue, cell, none, none, none⟩

/-- Six FADING slots, slot 0 the oldest. -/
def fullSlots : State := withSlots (tab fun n => .fading (fadeAt 3 (n.val + 1)))

/-- Six FETCHING slots. -/
def fetchingSlots : State := withSlots (Vector.replicate 6 (.fetching (fetchOf 10 10)))

def withOp (kind : OpKind) (s : State) : State :=
  { s with bank := { s.bank with state := .busy, op := some (OpRecord.new kind (some 1) (some 0)) } }

def withLamp (k : CheckParams) (c : Circ) (n : Nat) (s : State) : State := { s with lamp := ⟨some k, some c, n⟩ }

def checkAll : CheckParams := ⟨65535, 6000, .all, 0, .auto⟩

/-- The next state of a command, and the state itself where there is none. -/
def after (c : Instr) (s : State) : State :=
  match exec c s with
  | .next t => t
  | _ => s

/-- The last reply in the queue of IN0. -/
def answer (s : State) : Option (Result × List Word) := s.ports[(0 : PortIx)].replies.getLast?.map fun r => (r.result, r.data)

theorem takes_withPort {q : Port} (h : q.receiver = .noFrame) (p : PortIx) : (withPort q).Takes p false :=
  ⟨rfl, by show ready.mgmt.inputs[p].enabled = true; revert p; decide +kernel, .inr ⟨by revert p; simp [withPort, h], rfl⟩⟩

theorem inStep_of {s : State} (h1 : s.held = false) (h2 : s.ports = ready.ports) (h3 : s.mgmt.inputs = ready.mgmt.inputs) :
    s.InStep head := by
  refine ⟨⟨h1, ?_, ?_⟩, ?_, ?_, .inr ?_⟩
  · rw [h3]; rfl
  · rw [h2]; exact .inr ⟨rfl, rfl⟩
  · rw [h2]; rfl
  · rw [h2]; rfl
  · rw [h2]; decide +kernel

theorem serves_of {s : State} (h1 : s.held = false) (h2 : s.ports = ready.ports) (h3 : s.mgmt.inputs = ready.mgmt.inputs)
    (h4 : s.bank.state ≠ .starting) : s.Serves head := by
  refine ⟨inStep_of h1 h2 h3, ?_, ?_, h4⟩
  · rw [h2]; decide +kernel
  · rw [h3]; rfl

theorem ready_serves : ready.Serves head := serves_of rfl rfl rfl (by decide)

theorem playing_serves : playing.Serves head := serves_of rfl rfl rfl (by decide)

theorem slots_serve (v : Vector Slot 6) : (withSlots v).Serves head := serves_of rfl rfl rfl (by show CtlState.idle ≠ _; decide)

/-! ### Well-formedness refuses an ill-formed term for each check -/

theorem test_wf_cut : (Instr.rdyFault ⟨512, true⟩).wellFormed = false ∧ (Instr.rdyFault ⟨511, true⟩).wellFormed = true := by
  decide +kernel
theorem test_wf_level_none : (Instr.levelFrame head 1 0 []).wellFormed = false := by decide +kernel
theorem test_wf_level_many : (Instr.levelFrame head 1 0 (List.replicate 129 0)).wellFormed = false := by decide +kernel
theorem test_wf_level_base : (Instr.levelFrame head 0 0 [5]).wellFormed = false := by decide +kernel
theorem test_wf_level_end : (Instr.levelFrame head 1024 0 [5, 6]).wellFormed = false := by decide +kernel
theorem test_wf_level_flags : (Instr.levelFrame head 1 1 [5]).wellFormed = true := by decide +kernel
theorem test_wf_level_good : (Instr.levelFrame head 1024 0xC000 [5]).wellFormed = true := by decide +kernel
theorem test_wf_unknown : (Instr.unknownRequest head 0x1A []).wellFormed = false ∧
    (Instr.unknownRequest head 0x1B []).wellFormed = true := by decide +kernel
theorem test_wf_unknown_item : (Instr.unknownRequest head 0x16 [9]).wellFormed = false ∧
    (Instr.unknownRequest head 0x16 [10]).wellFormed = true ∧ (Instr.unknownRequest head 0x16 []).wellFormed = true := by
  decide +kernel
theorem test_wf_bad_check : (Instr.badCheckFrame ⟨1, false⟩ (levelFrameWords 7 1 0xC000 [5])).wellFormed = false ∧
    (Instr.badCheckFrame ⟨1, false⟩ []).wellFormed = true := by decide +kernel
theorem test_wf_long_unknown : (Instr.unknownRequest head 0x1B (List.replicate 128 0)).wellFormed = false := by decide +kernel
theorem test_wf_long_request : (Instr.go head (List.replicate 128 0)).wellFormed = false := by decide +kernel
theorem test_wf_long_set : (Instr.setBudget head (List.replicate 127 0)).wellFormed = false := by decide +kernel

theorem test_no_word_spells_a_command (n w : Nat) : decodeTableWord n w = none := rfl

/-! ### Arithmetic, by the worked examples of the chapters -/

theorem test_check_word : checkWord [0x3132, 0x3334, 0x3536, 0x3738] = 0xA12B := by decide +kernel

/-- Chapter 1: curve 3 of the example at 22400, and proportion 80 of 28000. -/
theorem test_curve : segmentLevel (256 * 25) (256 * 36) 1920 = 7720 ∧ PatchEntry.apply ⟨86, 80⟩ 28000 = 22400 := by
  decide +kernel

/-- Chapter 3: 10000 to 20000 and 30000 to 0 after 100 of 400 and of 100 + 200 intervals. -/
theorem test_fade : fadeBetween 10000 20000 0 400 100 = 12500 ∧ fadeBetween 30000 0 100 200 200 = 15000 ∧
    fadeBetween 30000 0 100 200 99 = 30000 ∧ fadeBetween 30000 0 100 200 300 = 0 := by decide +kernel

/-- Chapter 4: the loss factors of F = 300 at f = 1 and f = 75. -/
theorem test_loss_factor : fadeFactor 1 300 = 65317 ∧ fadeFactor 75 300 = 49152 := by decide +kernel

/-- Chapter 7: group 7 of the example, B = 250. -/
theorem test_budget : overBudget 250 17145400 = true ∧ scaleLevel 250 17145400 65535 = 62623 ∧
    overBudget 250 16383750 = false := by decide +kernel

theorem test_directory : storeEntry ⟨15, 13⟩ [⟨10, 10⟩, ⟨20, 11⟩] = [⟨10, 10⟩, ⟨15, 13⟩, ⟨20, 11⟩] ∧
    storeEntry ⟨20, 14⟩ [⟨10, 10⟩, ⟨20, 11⟩] = [⟨10, 10⟩, ⟨20, 14⟩] ∧ removeEntry 10 [⟨10, 10⟩, ⟨20, 11⟩] = [⟨20, 11⟩] := by
  decide +kernel

/-! ### One step of the commands -/

theorem test_step_front : step { ready with pending := [.refresh, .playbackInterval] } =
    exec .refresh { ready with pending := [.playbackInterval] } := rfl

theorem test_idle_held : step heldPart = .next heldPart := rfl

theorem test_reset_line : (after .resetLineReleased (after (.resetLineAsserted ⟨0, false⟩) ready)).bank.state = .starting ∧
    (after (.resetLineAsserted ⟨0, false⟩) ready).held = true := by decide +kernel

theorem test_level_frame :
    let s := after (.levelFrame head 1024 0xC000 [60000]) ready
    s.ports[(0 : PortIx)].source = .live ∧ s.ports[(0 : PortIx)].live[(1023 : Chan)] = some 60000 ∧
      s.ports[(0 : PortIx)].live[(0 : Chan)] = none ∧ s.ports[(0 : PortIx)].expected = 8 := by decide +kernel

theorem test_bad_check_frame :
    (after (.badCheckFrame ⟨1, false⟩ [1, 7, 1, 1, 0xC000, 5, 0]) ready).ports[(1 : PortIx)].counters.bad = 1 := by decide +kernel

/-- The words of a good frame are taken as the frame. -/
theorem test_good_words :
    (after (.badCheckFrame ⟨0, false⟩ (levelFrameWords 7 1024 0xC000 [60000])) ready).ports[(0 : PortIx)].live[(1023 : Chan)] =
      some 60000 ∧
      answer (after (.badCheckFrame ⟨0, false⟩ (requestFrameWords 7 0x55 [1, 2])) ready) = some (.unknown, []) := by
  decide +kernel

theorem test_frame_cut : (after (.frameCut 1 false) ready).ports[(1 : PortIx)].receiver = .receiving := by decide +kernel

theorem test_unknown_request : answer (after (.unknownRequest head 0x55 [1, 2]) ready) = some (.unknown, []) := by
  decide +kernel

theorem test_go :
    let s := after (.go head [0, 0, 300]) playing
    answer s = some (.accepted, []) ∧ s.playback.lastTaken = some 10 ∧
      s.playback.slots[(0 : SlotIx)] = .fetching ⟨10, 10, some 300, none, none⟩ := by decide +kernel

theorem test_go_forced :
    let s := after (.go head [2, 30, 0xFFFF]) fullSlots
    s.playback.slots[(0 : SlotIx)] = .fetching ⟨30, 12, none, none, none⟩ ∧
      s.playback.slots[(5 : SlotIx)] = .fading { fadeAt 3 5 with order := 5 } ∧ s.mgmt.flags = 0x400 := by decide +kernel

theorem test_pause :
    let s := after (.pause head [2]) fullSlots
    s.playback.slots[(2 : SlotIx)] = .paused (fadeAt 3 3) ∧ answer s = some (.done, []) := by decide +kernel

theorem test_pause_all : (after (.pauseAll head) fullSlots).playback.slots[(5 : SlotIx)] = .paused (fadeAt 3 6) := by
  decide +kernel

theorem test_resume : answer (after (.resume head [0]) fullSlots) = some (.notActive, []) := by decide +kernel

theorem test_resume_all : answer (after (.resumeAll head) fullSlots) = some (.done, []) := by decide +kernel

theorem test_release :
    let s := after (.release head [61000]) (withSlots (Vector.replicate 6 .free))
    s.playback.slots[(0 : SlotIx)] = .fading ⟨none, .full, 0, 60000, 0, 60000, 60000, 0, 1, none, none⟩ ∧ s.mgmt.flags = 0 := by
  decide +kernel

theorem test_cue_data_write :
    let s := after (.cueDataWrite head [510, 7, 8]) ready
    s.ports[(0 : PortIx)].record[(511 : Fin 512)] = 8 ∧ answer s = some (.done, []) ∧
      answer (after (.cueDataWrite head [511, 7, 8]) ready) = some (.badArgument, []) := by decide +kernel

theorem test_cue_data_read : answer (after (.cueDataRead head [510, 2]) ready) = some (.done, [0, 0]) := by decide +kernel

theorem test_store_cue : answer (after (.storeCue head [1]) ready) = some (.badArgument, []) := by decide +kernel

theorem test_delete_cue :
    let s := after (.deleteCue head [1, 9999]) ready
    answer s = some (.accepted, []) ∧ s.opKind = some .deleteCue := by decide +kernel

theorem test_read_cue :
    (after (.readCue head [3, 1]) ready).memPort.engine = some ⟨.cellRead, .prod 3, 0, none, 0, 0, 3, 0, 0xFFFF⟩ := by
  decide +kernel

theorem test_edit :
    let s := after (.edit head [2, 768, 0x8400, 100]) ready
    s.tables.staging.housePatch[(767 : Circ)] = some ⟨1023, 100⟩ ∧ s.tables.stage = .edited ∧
      answer (after (.edit head [0, 768, 0x8400, 100]) ready) = some (.badArgument, []) := by decide +kernel

theorem test_update_discard : answer (after (.update head []) ready) = some (.done, []) ∧
    answer (after (.discard head [0]) ready) = some (.badArgument, []) := by decide +kernel

theorem test_read_table : answer (after (.readTable head [0, 4, 0, 3]) ready) = some (.done, [0, 4096, 8192]) := by
  decide +kernel

theorem test_changeover :
    let s := after (.changeover head [2]) ready
    answer s = some (.accepted, []) ∧ s.tables.stage = .loading ∧
      answer (after (.changeover head [2]) fullSlots) = some (.slotsActive, []) := by decide +kernel

theorem test_save : (after (.save head [2]) ready).opKind = some .save := by decide +kernel

theorem test_save_house : (after (.saveHouse head []) ready).memPort.engine =
    some ⟨.cellWrite, .house, 1, none, 0, 0, 3, 0, 0xFFFF⟩ := by decide +kernel

theorem test_format : answer (after (.format head [1]) playing) = some (.bankLive, []) := by decide +kernel

theorem test_check_start :
    let s := after (.checkStart head [40000, 6000, 1, 2, 0]) ready
    s.lamp.under = some 1 ∧ s.lamp.remaining = 6000 ∧
      answer (after (.checkStart head [40000, 6001, 1, 1, 0]) ready) = some (.badArgument, []) := by decide +kernel

theorem test_check_requests :
    let s := withLamp checkAll 3 5 ready
    (after (.checkNext head []) s).lamp = ⟨some checkAll, some 4, 6000⟩ ∧
      (after (.checkStop head []) s).lamp = ⟨some checkAll, none, 0⟩ ∧
      answer (after (.checkPrevious head []) ready) = some (.notActive, []) := by decide +kernel

theorem test_set_input : answer (after (.setInputEnable head [0, 0]) ready) = some (.badArgument, []) ∧
    (after (.setInputPermit head [3, 1]) ready).mgmt.inputs[(3 : PortIx)].permit = true ∧
    (after (.setAutoResync head [3, 0]) ready).mgmt.inputs[(3 : PortIx)].autoResync = false := by decide +kernel

theorem test_set_loss_times :
    let i := (after (.setLossTimes head [3, 1000, 0xFFFF, 60000]) ready).mgmt.inputs[(3 : PortIx)]
    i.lossN = 1000 ∧ i.lossH = none ∧ i.lossF = 60000 := by decide +kernel

theorem test_set_accept_mask :
    let i := (after (.setAcceptMask head [3, 1009, 0x7FFF]) ready).mgmt.inputs[(3 : PortIx)]
    i.accept[(1023 : Chan)] = false ∧ i.accept[(1022 : Chan)] = true := by decide +kernel

theorem test_set_output_link : (after (.setOutputLink head [5, 0, 12]) ready).outs[(5 : LinkIx)].pending = ⟨false, .r12⟩ := by
  decide +kernel

theorem test_set_budget : (after (.setBudget head [17, 10000]) ready).mgmt.budgets[(17 : GroupIx)] = 10000 ∧
    answer (after (.setBudget head [17, 1, 1]) ready) = some (.badArgument, []) := by decide +kernel

theorem test_set_rest : (after (.setStartBank head [0, 3]) ready).mgmt.startBank = some 3 ∧
    (after (.setEventEnables head [0, 0x8001, 4]) ready).mgmt.enables = 0x48001 ∧
    (after (.setMemoryTiming head [0, 0, 1]) ready).memPort.waitH = 1 := by decide +kernel

theorem test_snapshot :
    let p := (after (.snapshot head []) ready).ports[(0 : PortIx)]
    p.snapshot.good = 1 ∧ p.counters.good = 0 := by decide +kernel

theorem test_status_read : answer (after (.statusRead head [3, 0, 3, 0, 0]) ready) =
    some (.done, [2, 7, 0, 0, 0, 0, 0, 0, 0, 0, 0, 0, 0, 0, 0, 0, 0, 0, 0, 0, 0, 0, 0, 0, 0, 0, 0, 0, 0, 0, 0]) := by
  decide +kernel

theorem test_clear_events :
    (after (.clearEvents head [0xFFFF, 3]) { ready with mgmt := { ready.mgmt with flags := 0x7FFFF } }).mgmt.flags =
      0x40000 := by decide +kernel

theorem test_restart :
    let s := after (.restart head []) ready
    answer s = some (.accepted, []) ∧ (after (.replyFrameComplete 0 ⟨0, false⟩) s).mgmt.cause = .restart ∧
      (after (.replyFrameComplete 0 ⟨0, false⟩) s).bank.state = .starting := by decide +kernel

theorem test_reply_frame :
    let s := after (.pause head [0]) ready
    s.ports[(0 : PortIx)].sending.map (List.take 6) = some [3, 0, 7, 2, 0x0D, 0] ∧
      (after (.replyFrameComplete 0 ⟨0, false⟩) s).ports[(0 : PortIx)].sending = none := by decide +kernel

/-- A LIVE source whose timer is at 0. -/
def livePort : Port := { lockedPort with source := .live }

theorem test_port_interval : (after (.portInterval 2) (withPort livePort)).ports[(2 : PortIx)].source = .holding ∧
    (after (.lossTimerRunsOut 2) (withPort livePort)).mgmt.flags = 0x40 ∧
    (after (.holdRunsOut 2) (withPort livePort)).ports[(2 : PortIx)].source = .live ∧
    (after (.fadeRunsOut 2) (withPort { livePort with source := .fading, fade := 299 })).ports[(2 : PortIx)].source =
      .lost := by decide +kernel

theorem test_playback_interval :
    let s := withSlot 0 (.fading (fadeAt 99 1))
    (after .playbackInterval s).playback.slots[(0 : SlotIx)] = .free ∧ (after (.slotCompletes 0) s).mgmt.flags = 0x100 ∧
      (after (.slotCompletes 1) s).playback.slots[(0 : SlotIx)] = .fading (fadeAt 99 1) := by decide +kernel

theorem test_follow_fires :
    let s := { playing with playback := { playing.playback with follow := some ⟨0, false⟩ } }
    (after .followFires s).playback.lastTaken = some 10 ∧ (after .followFires s).playback.follow = none := by decide +kernel

theorem test_memory_faults :
    let s := after (.go head [0, 0, 0xFFFF]) playing
    (after .fetchComplete s).playback.slots[(0 : SlotIx)] = .free ∧ (after .fetchComplete s).mgmt.flags = 0x200 ∧
      (after (.rdyFault ⟨2, true⟩) s).memPort.lastFault = some ⟨some 0, .cueFetch, .prod 1, 10, 2⟩ := by decide +kernel

theorem test_refresh_timer : (after .refresh ready).timers.refresh = twentyMs := by decide +kernel

theorem test_lamp_interval :
    let s := withLamp checkAll 3 1 ready
    (after .lampCheckInterval s).lamp.under = some 4 ∧ (after .dwellExpires s).lamp.remaining = 6000 := by decide +kernel

theorem test_output_link :
    let s := after (.outputFrameTimer 5) ready
    s.outs[(5 : LinkIx)].state = .running ∧ s.outs[(5 : LinkIx)].position = 1 ∧
      (s.outs[(5 : LinkIx)].frame.map (List.take 3)) = some [0x0011, 16, 0] ∧
      (after (.outputFrameComplete 5) s).outs[(5 : LinkIx)].frame = none := by decide +kernel

theorem test_hold :
    let s := after .holdreqAsserted ready
    s.hold.holdack = true ∧ s.mgmt.flags = 0x10000 ∧ (after .holdreqDeasserted s).hold = ⟨false, false, false⟩ := by
  decide +kernel

theorem test_release_gives_reset :
    let s := after .resetLineReleased { State.reset with held := true }
    s.held = false ∧ s.memPort = State.reset.memPort ∧ s.hold = State.reset.hold ∧ s.timers = State.reset.timers ∧
      s.bank.op = State.reset.bank.op ∧ s.pending = [] := by decide +kernel

/-! ### Witnesses: states and operands that meet the hypotheses of each obligation, clause by clause -/

/-- The engine of a house read, at a clock and a place. -/
def engineAt (kind : TxnKind) (clock place : Nat) : Engine := ⟨kind, .house, 0, none, place, clock, 3, 0, 0xFFFF⟩

def withEngine (e : Engine) : State := { ready with memPort := { MemPort.reset with engine := some e } }

theorem witness_AnIdleStepIsOneMemoryClock :
    heldPart.pending = [] ∧ heldPart.held = true ∧ ready.held = false ∧ ready.memPort.engine = none ∧
      (∀ kind clock place, (withEngine (engineAt kind clock place)).pending = [] ∧
        (withEngine (engineAt kind clock place)).held = false ∧
        (withEngine (engineAt kind clock place)).memPort.engine = some (engineAt kind clock place)) ∧
      (engineAt .cellRead 3 0).clock + 1 < 2 + (engineAt .cellRead 3 0).wait.val ∧
      2 + (engineAt .cellRead 4 0).wait.val ≤ (engineAt .cellRead 4 0).clock + 1 ∧
      (engineAt .cellRead 4 510).place + 1 < ((withEngine (engineAt .cellRead 4 510)).txnWords
        (engineAt .cellRead 4 510)).length ∧ Memory.wf (withEngine (engineAt .cellRead 4 510)).mem ∧
      ((withEngine (engineAt .cellRead 4 511)).txnWords (engineAt .cellRead 4 511)).length ≤
        (engineAt .cellRead 4 511).place + 1 ∧
      ({ engineAt .cellRead 4 0 with low := 62 } : Engine).low + 1 < 64 ∧
      64 ≤ ({ engineAt .cellRead 4 0 with low := 63 } : Engine).low + 1 :=
  ⟨rfl, rfl, rfl, rfl, fun _ _ _ => ⟨rfl, rfl, rfl⟩, by decide, by decide, by simp [State.txnWords, engineAt],
    Memory.wf_nil, by simp [State.txnWords, engineAt], by decide, by decide⟩

theorem witness_TheResetLineStopsAndStartsThePart :
    ready.held = false ∧ (∀ e, ready.memPort.engine = some e → e.kind.writes = false) ∧
      Memory.wf ready.mem ∧ (withEngine (engineAt .cellWrite 0 509)).held = false ∧
      (withEngine (engineAt .cellWrite 0 509)).memPort.engine = some (engineAt .cellWrite 0 509) ∧
      (engineAt .cellWrite 0 509).kind.writes = true ∧
      509 + (Cut.mk 2 true).accesses < ((withEngine (engineAt .cellWrite 0 509)).txnWords
        (engineAt .cellWrite 0 509)).length ∧ heldPart.held = true :=
  ⟨rfl, fun _ h => by simp [ready] at h, Memory.wf_nil, rfl, rfl, rfl, by simp [State.txnWords, engineAt], rfl⟩

theorem witness_AHeldPartTakesNoEvent : heldPart.held = true ∧ Instr.refresh ≠ .resetLineReleased := by decide +kernel

theorem witness_ADroppedFrameChangesNothing :
    (Instr.badCheckFrame ⟨2, true⟩ []).frameEnd? = some (2, true) ∧ (Instr.levelFrame head 1 0 [0]).frameEnd? = some (0, false) ∧
      (Instr.setBudget head [0, 1]).frameEnd? = some (0, false) ∧ heldPart.held = true ∧
      ({ ready with mgmt := { ready.mgmt with inputs := tab fun p => { ready.mgmt.inputs[p] with
        enabled := false } } } : State).mgmt.inputs[(2 : PortIx)].enabled = false ∧
      (withPort { lockedPort with receiver := .dropping }).ports[(2 : PortIx)].receiver = .dropping ∧
      ready.ports[(2 : PortIx)].receiver = .noFrame := by decide +kernel

/-- A LOCKED port whose window holds n BAD outcomes and 12 GOOD ones after them. -/
def windowPort (n : Nat) : Port := { lockedPort with window := List.replicate n .bad ++ List.replicate 12 .good }

theorem witness_BadCheckFramesAndCutFrames :
    (withPort Port.reset).Takes 3 false ∧ (withPort Port.reset).ports[(3 : PortIx)].sync = .hunt ∧
      (withPort { Port.reset with sync := .acquire }).Takes 3 false ∧
      (withPort { Port.reset with sync := .acquire }).ports[(3 : PortIx)].sync = .acquire ∧
      (withPort (windowPort 2)).Takes 3 false ∧ (withPort (windowPort 2)).ports[(3 : PortIx)].sync = .locked ∧
      badCount (pushMark (withPort (windowPort 2)).ports[(3 : PortIx)].window .bad) < 4 ∧
      (withPort (windowPort 3)).Takes 3 false ∧ (withPort (windowPort 3)).ports[(3 : PortIx)].sync = .locked ∧
      (withPort (windowPort 3)).mgmt.inputs[(3 : PortIx)].autoResync = true ∧
      4 ≤ badCount (pushMark (withPort (windowPort 3)).ports[(3 : PortIx)].window .bad) :=
  ⟨takes_withPort rfl 3, rfl, takes_withPort rfl 3, rfl, takes_withPort rfl 3, rfl, by decide +kernel,
    takes_withPort rfl 3, rfl, rfl, by decide +kernel⟩

theorem witness_BadCheckFramesAndCutFrames_words :
    RxFrame.ofWords [] = none ∧ [(1 : Word), 2, 3].length ≤ 3 ∧ checkMatches [2, 7, 1, 0x0B, 0] = false ∧
      ((0 : Word) ≠ 1 ∧ (0 : Word) ≠ 2) ∧ 128 < (129 : Word).toNat ∧ [(1 : Word), 0].length ≠ (1 : Word).toNat + 2 ∧
      ([] : List Word).length ≠ (1 : Word).toNat ∧ at' [(0 : Word), 0, 5] 0 = 0 ∧
      1024 < (at' [(1024 : Word), 0, 5, 6] 0).toNat + (2 : Word).toNat - 1 ∧ levelForm 1024 [0] = true ∧
      levelForm 1 (List.replicate 128 0) = true ∧
      (Instr.edit head (List.replicate 127 0)).request? = some ⟨head, 0x0A, List.replicate 127 0⟩ ∧
      (List.replicate 127 (0 : Word)).length ≤ 127 := by
  decide +kernel

theorem witness_GoodFramesBeforeLock :
    (Instr.pauseAll ⟨3, 0, false⟩).goodFrame? = some ⟨3, 0, false⟩ ∧
      (Instr.levelFrame ⟨3, 0, false⟩ 1 0x8000 [0]).goodFrame? = some ⟨3, 0, false⟩ ∧
      (∀ g, (withPort { Port.reset with sync := .acquire, goodCount := g }).Takes 3 false ∧
        (withPort { Port.reset with sync := .acquire, goodCount := g }).ports[(3 : PortIx)].sync = .acquire ∧
        (withPort { Port.reset with sync := .acquire, goodCount := g }).ports[(3 : PortIx)].expected = 0 ∧
        (withPort { Port.reset with sync := .acquire, goodCount := g }).ports[(3 : PortIx)].goodCount = g ∧
        (withPort { Port.reset with sync := .acquire, goodCount := g }).ports[(3 : PortIx)].sweeping = false) ∧
      (withPort Port.reset).Takes 3 false ∧ (withPort Port.reset).ports[(3 : PortIx)].sync = .hunt ∧
      levelForm 1024 [0] = true ∧ levelForm 1 (List.replicate 128 0) = true ∧ sweepStart 0x8000 = true ∧
      sweepEnd 0x8000 = false :=
  ⟨rfl, rfl, fun _ => ⟨takes_withPort rfl 3, rfl, rfl, rfl, rfl⟩, takes_withPort rfl 3, rfl, by decide, by decide +kernel,
    by decide, by decide⟩

theorem inStep_withPort {q : Port} (h1 : q.receiver = .noFrame) (h2 : q.sync = .locked) (h3 : q.expected = 7)
    (h4 : badCount (pushMark q.window .good) < 4) : (withPort q).InStep head := by
  refine ⟨takes_withPort h1 0, ?_, ?_, .inr ?_⟩ <;> simp [withPort, head, h2, h3, h4]

theorem witness_ALevelFrameActsInThreeParts :
    ready.InStep head ∧ ready.ports[(0 : PortIx)].sweeping = false ∧
      (withPort { lockedPort with sweeping := true }).InStep head ∧
      (withPort { lockedPort with sweeping := true }).ports[(0 : PortIx)].sweeping = true ∧
      (withPort (windowPort 3)).InStep head ∧
      levelForm 1024 [0] = true ∧ levelForm 1 (List.replicate 128 0) = true ∧
      sweepStart 0 = false ∧ sweepEnd 0 = false ∧ sweepEnd 0x4000 = true ∧ sweepStart 0xC000 = true :=
  ⟨ready_serves.inStep, rfl, inStep_withPort rfl rfl rfl (by decide), rfl,
    inStep_withPort rfl rfl rfl (by decide +kernel), by decide, by decide +kernel, by decide, by decide, by decide,
    by decide⟩

/-- Every input manage-permitted. -/
def permitted (s : State) : State :=
  { s with mgmt := { s.mgmt with inputs := tab fun p => { s.mgmt.inputs[p] with permit := true } } }

/-- A port of a window with n BAD outcomes, at a gap whose request has been delivered. -/
def deliveredGap (n : Nat) (code : Word) (args : List Word) : State :=
  let s := permitted (withPort (windowPort n))
  State.manage 0 9 code args (decideByCode code) { s with ports := s.ports.set 0 (Port.tookGap 9 s.ports[(0 : PortIx)]) }

theorem witness_AGapIsRecordedAndDelivered :
    (∀ n, (permitted (withPort (windowPort n))).Takes 0 false ∧
      (permitted (withPort (windowPort n))).ports[(0 : PortIx)].sync = .locked) ∧
      (9 : Word) ≠ (permitted (withPort (windowPort 2))).ports[(0 : PortIx)].expected ∧
      badCount (pushMark (permitted (withPort (windowPort 2))).ports[(0 : PortIx)].window .bad) < 4 ∧
      ((permitted (withPort (windowPort 3))).mgmt.inputs[(0 : PortIx)].autoResync = true ∧
        ¬badCount (pushMark (permitted (withPort (windowPort 3))).ports[(0 : PortIx)].window .bad) < 4) ∧
      levelForm 1 [0] = true ∧ sweepStart 0x4000 = false ∧ (sweepStart 0x8000 = true ∧ sweepEnd 0x8000 = false) ∧
      (sweepStart 0xC000 = true ∧ sweepEnd 0xC000 = true) ∧ assignedCode 0x1B = false ∧ assignedCode 0 = false ∧
      (Port.tookGap 9 (withPort (windowPort 3)).ports[(0 : PortIx)]).replies.length < 4 ∧
      (Instr.update ⟨0, 9, false⟩ []).request? = some ⟨⟨0, 9, false⟩, 0x0B, []⟩ ∧
      (deliveredGap 3 0x0B []).ports[(0 : PortIx)].sync = .locked ∧
      (deliveredGap 3 0x16 [0, 0, 0]).ports[(0 : PortIx)].sync ≠ .locked := by
  refine ⟨fun n => ⟨⟨rfl, ?_, .inr ⟨rfl, rfl⟩⟩, rfl⟩, ?_⟩
  · show (tab fun p => { ready.mgmt.inputs[p] with permit := true } : Vector InputSettings 4)[(0 : PortIx)].enabled = true
    decide +kernel
  · decide +kernel

/-- A port whose reply queue holds n replies. -/
def queuedPort (n : Nat) : Port :=
  { lockedPort with replies := List.replicate n (replyTo head 0x18 .done), sending := if n = 0 then none else some [] }

theorem witness_RequestsAreDroppedOrAdmittedInOrder :
    (Instr.go head []).request? = some ⟨head, 1, []⟩ ∧ (Instr.unknownRequest head 0x1B []).request? = some ⟨head, 0x1B, []⟩ ∧
      (withPort (queuedPort 4)).InStep head ∧ 4 ≤ (withPort (queuedPort 4)).ports[(0 : PortIx)].replies.length ∧
      (withPort (queuedPort 3)).InStep head ∧ (withPort (queuedPort 3)).ports[(0 : PortIx)].replies.length < 4 ∧
      assignedCode 0x1B = false ∧ assignedCode 1 = true ∧ assignedCode 0x1A = true ∧
      ready.InStep ⟨1, 7, false⟩ ∧ ready.mgmt.inputs[(1 : PortIx)].permit = false ∧
      ({ ready with bank := BankCtl.reset } : State).InStep head ∧
      ({ ready with bank := BankCtl.reset } : State).mgmt.inputs[(0 : PortIx)].permit = true ∧
      ({ ready with bank := BankCtl.reset } : State).bank.state = .starting :=
  ⟨rfl, rfl, inStep_withPort rfl rfl rfl (by decide), by decide +kernel, inStep_withPort rfl rfl rfl (by decide),
    by decide +kernel, by decide, by decide, by decide,
    ⟨⟨rfl, rfl, .inr ⟨rfl, rfl⟩⟩, rfl, rfl, .inr (by decide +kernel)⟩, rfl, inStep_of rfl rfl rfl, rfl, rfl⟩

theorem witness_BadParametersAreRefused :
    ready.Serves head ∧ (Instr.go head [0, 0]).request? = some ⟨head, 1, [0, 0]⟩ ∧ (Instr.go head [0, 0]).countFits = false ∧
      (Instr.edit head [0, 1]).countFits = false ∧ (Instr.setBudget head []).countFits = false ∧
      (Instr.update head (List.replicate 127 0)).countFits = false ∧
      3 < (4 : Word).toNat ∧ 1 < (2 : Word).toNat ∧ 1000 < (1001 : Word).toNat ∧ 60000 < (60001 : Word).toNat ∧
      (60001 : Word) ≠ 0xFFFF ∧ 60000 < (0xFFFF : Word).toNat ∧ 1025 < (1010 : Word).toNat + 16 * [(0 : Word)].length ∧
      5 < (6 : Word).toNat ∧ (9 : Word) ≠ 8 ∧ (9 : Word) ≠ 12 ∧ (9 : Word) ≠ 16 ∧
      18 < (17 : Word).toNat + [(0 : Word), 0].length ∧ 10000 < (10001 : Word).toNat ∧ 1 ≤ [(0 : Word)].length ∧
      (List.replicate 124 (0 : Word)).length ≤ 124 := by
  refine ⟨ready_serves, ?_⟩
  decide +kernel

theorem witness_AnAcceptedGoSetsASlotFetching :
    playing.Serves head ∧ playing.memPort.granted ∧ playing.inChangeover = false ∧ playing.lamp.active = false ∧
      playing.tables.liveBank = some 1 ∧ playing.playback.resolve (goTargetOf 0 0) = some ⟨10, 10⟩ ∧
      playing.playback.resolve (goTargetOf 2 30) = some ⟨30, 12⟩ ∧ playing.playback.lowestFree? = some 0 ∧
      (withSlots (fullSlots.playback.slots.set 5 .free)).playback.lowestFree? = some 5 ∧
      fullSlots.Serves head ∧ fullSlots.memPort.granted ∧ fullSlots.playback.lowestFree? = none ∧
      fullSlots.playback.oldest? = some 0 ∧ fullSlots.playback.resolve (goTargetOf 0 0) = some ⟨10, 10⟩ := by
  refine ⟨playing_serves, fun _ => ⟨rfl, rfl⟩, rfl, rfl, rfl, rfl, rfl, rfl, ?_, slots_serve _, fun _ => ⟨rfl, rfl⟩, ?_, ?_, rfl⟩
  all_goals decide +kernel

theorem witness_GoIsRefusedByTheFirstCheckThatFails :
    ready.InStep ⟨1, 7, false⟩ ∧ ready.ports[(1 : PortIx)].replies.length < 4 ∧
      ready.mgmt.inputs[(1 : PortIx)].permit = false ∧
      ready.mgmt.inputs[(0 : PortIx)].permit = true ∧ ({ ready with bank := BankCtl.reset } : State).bank.state = .starting ∧
      ready.bank.state ≠ .starting ∧ (withOp .changeover ready).opKind = some .changeover ∧
      ready.opKind ≠ some .changeover ∧ (withLamp checkAll 3 5 ready).lamp.active = true ∧
      (withLamp checkAll 3 5 ready).opKind ≠ some .changeover ∧ ready.lamp.active = false ∧ ready.tables.liveBank = none ∧
      playing.tables.liveBank ≠ none ∧ playing.playback.resolve (goTargetOf 2 11) = none ∧
      playing.playback.resolve (goTargetOf 3 10) = none ∧ playing.playback.resolve (goTargetOf 1 0) = none ∧
      fetchingSlots.playback.resolve (goTargetOf 2 10) ≠ none ∧
      (∀ n : SlotIx, fetchingSlots.playback.slots[n].isFetching = true) := by
  refine ⟨⟨⟨rfl, rfl, .inr ⟨rfl, rfl⟩⟩, rfl, rfl, .inr (by decide +kernel)⟩, ?_⟩
  decide +kernel

/-- The directory of the examples, a cue taken last and its link. -/
def takenAt (last link : Option Nat) : Playback := { playing.playback with lastTaken := last, takenLink := link }

theorem witness_GoTargetsAreResolvedByNumber :
    (∀ last link, ascendingFrom 0 (takenAt last link).directory = true) ∧ (takenAt none none).lastTaken = none ∧
      (takenAt (some 10) (some 30)).takenLink = some 30 ∧ (⟨30, 12⟩ : DirEntry) ∈ (takenAt (some 10) (some 30)).directory ∧
      (takenAt (some 20) (some 25)).lastTaken = some 20 ∧
      (∀ l, (takenAt (some 20) (some 25)).takenLink = some l → ∀ d ∈ (takenAt (some 20) (some 25)).directory, d.cue ≠ l) :=
  ⟨fun _ _ => rfl, rfl, rfl, by decide, rfl, by
    intro l hl
    have : l = 25 := by simpa [takenAt] using hl.symm
    subst this
    decide⟩

theorem witness_PauseAndResumeHoldAndReleaseFades :
    fullSlots.Serves head ∧ (5 : Word) ≠ 0xFFFF ∧ (5 : Word).toNat = (5 : SlotIx).val ∧
      fullSlots.playback.slots[(5 : SlotIx)] = .fading (fadeAt 3 6) ∧ (withSlot 5 (.paused (fadeAt 3 1))).Serves head ∧
      (withSlot 5 (.paused (fadeAt 3 1))).playback.slots[(5 : SlotIx)] = .paused (fadeAt 3 1) ∧
      (∀ (n : SlotIx) (f : Fade), (6 : Word).toNat = n.val → fullSlots.playback.slots[n] ≠ .fading f) ∧
      (∀ (n : SlotIx) (f : Fade), (0 : Word).toNat = n.val → ready.playback.slots[n] ≠ .paused f) := by
  refine ⟨slots_serve _, by decide, rfl, rfl, slots_serve _, rfl, ?_, ?_⟩
  · intro n f h
    have := n.isLt
    have h6 : (6 : Word).toNat = 6 := rfl
    omega
  · intro n f _
    have : ready.playback.slots[n] = .free := by
      revert n
      decide +kernel
    rw [this]
    simp

theorem witness_ReleaseFadesOutAllThatPlaybackHolds :
    ready.Serves head ∧ ready.inChangeover = false ∧ ready.playback.lowestFree? = some 0 ∧
      fullSlots.Serves head ∧ fullSlots.inChangeover = false ∧ fullSlots.playback.lowestFree? = none ∧
      fullSlots.playback.oldest? = some 0 ∧ (withOp .changeover ready).Serves head ∧
      (withOp .changeover ready).inChangeover = true ∧ fetchingSlots.Serves head ∧
      (∀ n : SlotIx, fetchingSlots.playback.slots[n].isFetching = true) := by
  refine ⟨ready_serves, rfl, by decide +kernel, slots_serve _, rfl, by decide +kernel, by decide +kernel,
    serves_of rfl rfl rfl (by show CtlState.busy ≠ _; decide), rfl, slots_serve _, by decide +kernel⟩

theorem witness_ThePlaybackIntervalCountsAndCompletes :
    fullSlots.held = false ∧ (∀ n : SlotIx, ∀ f : Fade, fullSlots.playback.slots[n] = .fading f → f.elapsed + 1 ≠ f.endTime) ∧
      fullSlots.playback.follow ≠ some ⟨0, false⟩ ∧ (withSlot 3 (.fading (fadeAt 99 1))).held = false ∧
      (withSlot 3 (.fading (fadeAt 99 1))).playback.slots[(3 : SlotIx)] = .fading (fadeAt 99 1) ∧
      (fadeAt 99 1).elapsed + 1 = (fadeAt 99 1).endTime ∧
      (∀ m : SlotIx, ∀ g : Fade, m ≠ 3 → (withSlot 3 (.fading (fadeAt 99 1))).playback.slots[m] = .fading g →
        g.elapsed + 1 ≠ g.endTime) := by
  refine ⟨rfl, ?_, by decide +kernel, rfl, rfl, rfl, ?_⟩
  · intro n f h
    have hn : fullSlots.playback.slots[n] = .fading (fadeAt 3 (n.val + 1)) := by
      clear h
      revert n
      decide +kernel
    rw [hn] at h
    cases h
    show 3 + 1 ≠ 100
    decide
  · intro m g hm h
    have hn : (withSlot 3 (.fading (fadeAt 99 1))).playback.slots[m] = .free := by
      clear h
      revert m
      decide +kernel
    rw [hn] at h
    cases h

/-- A follow that fires at the next interval. -/
def dueFollow (s : State) : State := { s with playback := { s.playback with follow := some ⟨0, false⟩ } }

theorem witness_AFollowFiresAnInternalGo :
    (dueFollow playing).held = false ∧ (dueFollow playing).memPort.granted ∧
      (dueFollow playing).playback.follow = some ⟨0, false⟩ ∧
      (∀ m : SlotIx, ∀ g : Fade, (dueFollow playing).playback.slots[m] = .fading g → g.elapsed + 1 ≠ g.endTime) ∧
      (dueFollow playing).inChangeover = false ∧ (dueFollow playing).lamp.active = false ∧
      (dueFollow playing).tables.liveBank = some 1 ∧
      { (dueFollow playing).playback.counted with follow := none : Playback }.next? = some ⟨10, 10⟩ ∧
      { (dueFollow playing).playback.counted with follow := none : Playback }.lowestFree? = some 0 ∧
      (dueFollow fullSlots).tables.liveBank = some 1 ∧
      { (dueFollow fullSlots).playback.counted with follow := none : Playback }.next? = some ⟨10, 10⟩ ∧
      { (dueFollow fullSlots).playback.counted with follow := none : Playback }.lowestFree? = none ∧
      { (dueFollow fullSlots).playback.counted with follow := none : Playback }.oldest? = some 0 ∧
      (dueFollow ready).tables.liveBank = none := by
  refine ⟨rfl, fun _ => ⟨rfl, rfl⟩, rfl, ?_, rfl, rfl, rfl, rfl, by decide +kernel, rfl, rfl, by decide +kernel,
    by decide +kernel, rfl⟩
  intro m g h
  have hn : (dueFollow playing).playback.slots[m] = .free := by
    clear h
    revert m
    decide +kernel
  rw [hn] at h
  cases h

theorem witness_FadesAndCurvesStayBetweenTheirEnds :
    99 < 100 ∧ 100 + 200 ≤ 300 ∧ (100 ≤ 299 ∧ 299 < 100 + 200) ∧ ((0 : Fin 8) = 0) ∧ ((7 : Fin 8) ≠ 0) ∧
      (61440 : Level).toNat % 4096 = 0 ∧ (65534 : Level).toNat < (65535 : Level).toNat ∧ (5 : Level) = 5 := by decide

/-- The record of cue 10, PARTIAL, up 400, down 200 after 100, channels 1 and 1024, and its words with their check. -/
def recordWords10 (t : Word) : List Word := [10, 1, t, t, 0, 0, 0xFFFF, 0, 2, 1, 40000, 1024, 20000]

def record10 (t : Nat) : CueRecord := ⟨10, .part, t, t, 0, 0, none, none, [(0, 40000), (1023, 20000)]⟩

/-- The fetch of cell 10 of bank 1 by slot 0, the cell holding given words. -/
def fetching (ws : List Word) : State := { withSlot 0 (.fetching (fetchOf 10 10)) with
  memPort := { MemPort.reset with engine := some ⟨.cueFetch, .prod 1, 10, some 0, 0, 0, 3, 0, 0xFFFF⟩ }
  mem := Memory.writeRun (wordAddress (.prod 1) 10 0) (ws ++ [checkWord ws]) [] }

def fetchEngine : Engine := ⟨.cueFetch, .prod 1, 10, some 0, 0, 0, 3, 0, 0xFFFF⟩

theorem fetching_ownersRight (ws : List Word) : (fetching ws).playback.ownersRight := by
  intro c o h
  have : (fetching ws).playback.owner[c] = none := by
    simp [fetching, withSlot, withSlots, playing, Playback.reset]
  rw [this] at h
  cases h

theorem witness_AFetchThatPassesIsClaimed :
    (∀ ws, (fetching ws).held = false ∧ (fetching ws).playback.ownersRight ∧
      (fetching ws).memPort.engine = some fetchEngine ∧
      (fetching ws).playback.slots[(0 : SlotIx)] = .fetching (fetchOf 10 10)) ∧
      fetchEngine.kind = .cueFetch ∧ fetchEngine.slot = some 0 ∧
      (let s := fetching (recordWords10 400); CueRecord.of? (s.handed fetchEngine).words = some (record10 400) ∧
          (s.handed fetchEngine).words.getLast? = some (s.handed fetchEngine).crc) ∧
      (let s := fetching (recordWords10 0); CueRecord.of? (s.handed fetchEngine).words = some (record10 0) ∧
          (s.handed fetchEngine).words.getLast? = some (s.handed fetchEngine).crc) ∧
      (record10 400).cue = (fetchOf 10 10).cue ∧ ((record10 400).claim none).endTime ≠ 0 ∧
      ((record10 0).claim none).endTime = 0 :=
  ⟨fun ws => ⟨rfl, fetching_ownersRight ws, rfl, rfl⟩, rfl, rfl, by decide +kernel, by decide +kernel, rfl, by decide, rfl⟩

/-- Slot 1 owns channel 1, which record 10 claims, and slot 2 channel 6, which it does not. -/
def fetchingOver : State := { fetching (recordWords10 400) with playback := { playing.playback with
  slots := ((playing.playback.slots.set 0 (.fetching (fetchOf 10 10))).set 1 (.fading (fadeAt 3 1))).set 2
    (.paused (fadeAt 3 2))
  owner := (playing.playback.owner.set 0 (some ⟨1, 100, 200⟩)).set 5 (some ⟨2, 100, 200⟩) } }

theorem fetchingOver_owner {c : Chan} {o : Owned} (h : fetchingOver.playback.owner[c] = some o) :
    (c = 5 ∧ o.slot = 2) ∨ (c = 0 ∧ o.slot = 1) := by
  have hc (n : Nat) (hn : n < 1024) (e : n = c.val) : c = ⟨n, hn⟩ := Fin.ext e.symm
  simp only [fetchingOver, playing, ready, State.reset, Playback.reset, Fin.getElem_fin, Vector.getElem_set,
    Vector.getElem_replicate] at h
  split at h
  · next e => cases h; exact .inl ⟨hc 5 (by decide) e, rfl⟩
  · split at h
    · next e => cases h; exact .inr ⟨hc 0 (by decide) e, rfl⟩
    · cases h

theorem witness_AFetchThatPassesIsClaimed_others :
    fetchingOver.playback.ownersRight ∧
      (∀ (c : Chan) (o : Owned), fetchingOver.playback.owner[c] = some o → o.slot = 1 →
        fetchingOver.playback.claims ((record10 400).claim none) c = true) ∧
      fetchingOver.playback.slots[(1 : SlotIx)].fade? = some (fadeAt 3 1) ∧
      fetchingOver.playback.slots[(2 : SlotIx)].fade? = some (fadeAt 3 2) ∧
      fetchingOver.playback.owner[(5 : Chan)] = some ⟨2, 100, 200⟩ ∧
      fetchingOver.playback.claims ((record10 400).claim none) 5 = false ∧
      fetchingOver.playback.slots[(3 : SlotIx)].fade? = none := by
  refine ⟨fun c o h => ?_, fun c o h hs => ?_, by decide +kernel⟩
  · have hn : ∀ n : SlotIx, n = 2 ∨ n = 1 → (fetchingOver.playback.slots[n].fade?).isSome = true := by decide +kernel
    exact hn o.slot ((fetchingOver_owner h).imp And.right And.right)
  · rcases fetchingOver_owner h with ⟨-, h2⟩ | ⟨rfl, -⟩
    · rw [h2] at hs
      cases hs
    · decide +kernel

/-- The slot of a claimed fetch keeps the prior last-taken and the prior taken link that its GO set. -/
theorem test_claim_keeps_priors :
    let s := fetching (recordWords10 400)
    let s := { s with playback := { s.playback with
      slots := s.playback.slots.set 0 (.fetching { fetchOf 10 10 with prior := some 7, priorLink := some 8 }) } }
    (after .fetchComplete s).playback.slots[(0 : SlotIx)].priors = (some 7, some 8) := by decide +kernel

theorem witness_AFetchThatFailsFreesItsSlot :
    (∀ ws, (fetching ws).held = false ∧ (fetching ws).memPort.engine = some fetchEngine ∧
      (fetching ws).playback.slots[(0 : SlotIx)] = .fetching (fetchOf 10 10)) ∧
      (∀ r, CueRecord.of? ((fetching []).handed fetchEngine).words = some r → r.cue ≠ 10 ∨
        ((fetching []).handed fetchEngine).words.getLast? ≠ some ((fetching []).handed fetchEngine).crc) ∧
      fetchEngine.place + (Cut.mk 13 true).accesses < ((fetching (recordWords10 0)).txnWords fetchEngine).length := by
  refine ⟨fun ws => ⟨rfl, rfl, rfl⟩, ?_, by decide +kernel⟩
  intro r h
  have : CueRecord.of? ((fetching []).handed fetchEngine).words = none := by decide +kernel
  rw [this] at h
  cases h

theorem witness_TheRecordBufferIsWrittenAndRead :
    ready.Serves head ∧ 1 ≤ [(5 : Word)].length ∧ (List.replicate 126 (5 : Word)).length ≤ 126 ∧
      (511 : Word).toNat + [(5 : Word)].length ≤ 512 ∧ 512 < (511 : Word).toNat + [(5 : Word), 6].length ∧
      (384 : Word).toNat + (128 : Word).toNat ≤ 512 ∧ 512 < (385 : Word).toNat + (128 : Word).toNat ∧
      128 < (129 : Word).toNat := by
  refine ⟨ready_serves, ?_⟩
  decide +kernel

theorem witness_AnEditWritesStagingOrIsRefused :
    playing.Serves head ∧ playing.tables.stage ≠ .loading ∧ playing.tables.liveBank ≠ none ∧
      patchRun? [0x8400, 100] = some [some ⟨1023, 100⟩] ∧ (768 : Word).toNat + [(0x8400 : Word), 100].length / 2 ≤ 769 ∧
      recordRun? [0x8000, 600, 1, 2] = some [some ⟨.dim, 0, some 0, 600, false, 1, none⟩] ∧
      (768 : Word).toNat + [(0x8000 : Word), 600, 1, 2].length / 4 ≤ 769 ∧
      (118 : Word).toNat + [(5 : Word)].length ≤ 119 ∧
      5 ≤ (5 : Word).toNat ∧ TableName.of? 4 = some .curves ∧
      ({ ready with tables := { ready.tables with stage := .loading } } : State).tables.stage = .loading ∧
      769 < (769 : Word).toNat + [(0x8400 : Word), 100].length / 2 ∧ patchRun? [0x8401, 100] = none ∧
      patchRun? [0x8001, 101] = none ∧ recordRun? [0x8000, 601, 1, 2] = none ∧
      119 < (118 : Word).toNat + [(5 : Word), 6].length ∧ ready.tables.liveBank = none := by
  refine ⟨playing_serves, ?_⟩
  decide +kernel

theorem loading_serves : ({ ready with tables := { ready.tables with stage := .loading } } : State).Serves head :=
  serves_of rfl rfl rfl (by show CtlState.idle ≠ _; decide)

theorem witness_UpdateAndDiscardCopyWholeTables :
    ready.Serves head ∧ ready.tables.stage ≠ .loading ∧
      ({ ready with tables := { ready.tables with stage := .loading } } : State).Serves head ∧
      ({ ready with tables := { ready.tables with stage := .loading } } : State).tables.stage = .loading :=
  ⟨ready_serves, by decide +kernel, loading_serves, rfl⟩

theorem witness_ReadTableReturnsItsRun :
    ready.Serves head ∧ 1 < (2 : Word).toNat ∧ 4 < (5 : Word).toNat ∧ 769 < (706 : Word).toNat + (64 : Word).toNat ∧
      64 < (65 : Word).toNat ∧ 769 < (738 : Word).toNat + (32 : Word).toNat ∧ 32 < (33 : Word).toNat ∧
      119 < (118 : Word).toNat + (2 : Word).toNat ∧ (705 : Word).toNat + (64 : Word).toNat ≤ 769 ∧ (737 : Word).toNat + (32 : Word).toNat ≤ 769 ∧
      (1 : Word).toNat + (118 : Word).toNat ≤ 119 ∧ 1 ≤ (1 : Word).toNat := by
  refine ⟨ready_serves, ?_⟩
  decide

/-- A record buffer that holds the record of cue 10. -/
def recorded : State := withPort { lockedPort with record := bufferOf (recordWords10 400) }

theorem recorded_serves : recorded.Serves head :=
  ⟨inStep_withPort rfl rfl rfl (by decide), by decide +kernel, rfl, by show CtlState.idle ≠ _; decide⟩

theorem witness_BankOperationsAreAccepted :
    recorded.Serves head ∧ recorded.memPort.granted ∧ recorded.bank.state = .idle ∧ (3 : Word).toNat = (3 : BankIx).val ∧
      CueRecord.of? recorded.ports[(0 : PortIx)].record.toList = some (record10 400) ∧
      1 ≤ (9999 : Word).toNat ∧ (9999 : Word).toNat ≤ 9999 ∧ recorded.lamp.active = false ∧
      (∀ n : SlotIx, recorded.playback.slots[n] = .free) ∧ recorded.tables.stage ≠ .edited ∧
      recorded.tables.liveBank ≠ some 3 := by
  refine ⟨recorded_serves, fun _ => ⟨rfl, rfl⟩, ?_⟩
  decide +kernel

theorem witness_BankOperationsAreRefusedInOrder :
    (withOp .save ready).Serves head ∧ (withOp .save ready).bank.state = .busy ∧ ready.Serves head ∧
      ready.bank.state = .idle ∧ 3 < (4 : Word).toNat ∧ (3 : Word).toNat ≤ 3 ∧ 9999 < (10000 : Word).toNat ∧
      CueRecord.of? ready.ports[(0 : PortIx)].record.toList = none ∧
      (withLamp checkAll 3 5 ready).Serves head ∧ (withLamp checkAll 3 5 ready).lamp.active = true ∧
      ready.lamp.active = false ∧ fullSlots.Serves head ∧ fullSlots.bank.state = .idle ∧
      (∃ n : SlotIx, fullSlots.playback.slots[n] ≠ .free) ∧
      (∀ n : SlotIx, ready.playback.slots[n] = .free) ∧
      ({ ready with tables := { ready.tables with stage := .edited } } : State).tables.stage = .edited ∧
      playing.Serves head ∧ (∃ b, playing.tables.liveBank = some b ∧ (1 : Word).toNat = b.val) := by
  refine ⟨serves_of rfl rfl rfl (by show CtlState.busy ≠ _; decide), rfl, ready_serves, rfl, by decide, by decide, by decide,
    by decide +kernel, serves_of rfl rfl rfl (by show CtlState.idle ≠ _; decide), rfl, rfl, slots_serve _, rfl,
    by decide +kernel, by decide +kernel, rfl, playing_serves, ⟨1, rfl, rfl⟩⟩

/-! Segments of bank operations -/

def inOp (op : OpRecord) (e : Engine) (mem : Memory) : State := { playing with
  memPort := { MemPort.reset with engine := some e }
  bank := { BankCtl.reset with state := .busy, op := some op }
  mem := mem }

/-- The engine in a cell of bank 1, at a place. -/
def cellEngine (kind : TxnKind) (cell place : Nat) : Engine := ⟨kind, .prod 1, cell, none, place, 0, 3, 0, 0xFFFF⟩

/-- An operation on bank 1 from IN0 at a segment. -/
def opAt (kind : OpKind) (n : Nat) : OpRecord := { OpRecord.new kind (some 1) (some 0) with segment := n }

theorem inOp_inSegment {op : OpRecord} {e : Engine} (mem : Memory) (h : e.slot = none) :
    (inOp op e mem).InSegment e op op.kind op.segment e.kind := ⟨rfl, rfl, h, rfl, rfl, rfl, rfl⟩

/-- The memory in which cell 0 of bank 1 holds the words of a cell 0. -/
def bankOf (c : Cell0) : Memory := Memory.writeRun (wordAddress (.prod 1) 0 0) c.toWords []

theorem bankOf_read {c : Cell0} (h : c.places.length = 492) (op : OpRecord) :
    Cell0.ofWords ((inOp op (cellEngine .cellRead 0 0) (bankOf c)).handed (cellEngine .cellRead 0 0)).words = c :=
  State.handed_cell0 rfl h rfl

/-- A cell 0 with a directory. -/
def cellOf (mark : Word) (es : List DirEntry) : Cell0 := (emptyCell0 mark 0 0).withEntries es

/-- A cell 0 whose cue count is 247. -/
def unsoundCell : Cell0 := { cellOf 0xA55A [] with count := 247 }

theorem unsoundCell_unsound : unsoundCell.sound = false := by
  unfold Cell0.sound
  rw [show decide (unsoundCell.count.toNat ≤ 246) = false from rfl, Bool.and_false, Bool.false_and]

/-- n entries, cues 1 to n in cells 10 to 9 + n. -/
def entries (n : Nat) : List DirEntry := (List.range n).map fun i => ⟨i + 1, i + 10⟩

theorem entries_length (n : Nat) : (entries n).length = n := by simp [entries]

theorem distinct_above (cell : Nat) : ∀ (l : List Nat), (∀ x ∈ l, cell < x) → (l.Pairwise (· < ·)) →
    ((l.map fun i => (⟨i + 1, i + 10⟩ : DirEntry)).any fun f => f.cell == cell + 10) = false
  | [], _, _ => rfl
  | x :: l, h, hp => by
    have hx := h x (by simp)
    simp only [List.map_cons, List.any_cons, distinct_above cell l (fun y hy => h y (by simp [hy])) hp.of_cons, Bool.or_false,
      beq_eq_false_iff_ne, ne_eq]
    omega

theorem distinct_rising : ∀ (l : List Nat), l.Pairwise (· < ·) →
    distinctCells (l.map fun i => (⟨i + 1, i + 10⟩ : DirEntry)) = true
  | [], _ => rfl
  | x :: l, hp => by
    have ⟨h1, h2⟩ := List.pairwise_cons.1 hp
    simp only [List.map_cons, distinctCells, distinct_above x l h1 h2, distinct_rising l h2]
    rfl

theorem ascending_rising : ∀ (l : List Nat) (n : Nat), (∀ x ∈ l, n ≤ x ∧ x < 246) → l.Pairwise (· < ·) →
    ascendingFrom n (l.map fun i => (⟨i + 1, i + 10⟩ : DirEntry)) = true
  | [], _, _, _ => rfl
  | x :: l, n, h, hp => by
    have ⟨h1, h2⟩ := List.pairwise_cons.1 hp
    have hx := h x (by simp)
    simp only [List.map_cons, ascendingFrom]
    rw [ascending_rising l (x + 1) (fun y hy => ⟨h1 y hy, (h y (by simp [hy])).2⟩) h2, Bool.and_true, decide_eq_true_eq]
    omega

theorem entries_sound {n : Nat} (h : n ≤ 246) : soundEntries (entries n) = true := by
  have hp : (List.range n).Pairwise (· < ·) := List.pairwise_lt_range
  simp only [soundEntries, entries, distinct_rising _ hp, Bool.and_true]
  refine ascending_rising _ 0 (fun x hx => ⟨Nat.zero_le x, ?_⟩) hp
  have := List.mem_range.1 hx
  omega

theorem cellOf_sound (mark : Word) {n : Nat} (h : n ≤ 246) : (cellOf mark (entries n)).sound = true :=
  Cell0.sound_withEntries _ (by rw [entries_length]; exact h) (entries_sound h)

theorem cellOf_entries (mark : Word) {n : Nat} (h : n ≤ 246) : (cellOf mark (entries n)).entries = entries n :=
  Cell0.entries_withEntries _ (by rw [entries_length]; exact h) (entries_sound h)

theorem cellOf_places (mark : Word) {n : Nat} (h : n ≤ 246) : (cellOf mark (entries n)).places.length = 492 :=
  Cell0.places_withEntries _ (by rw [entries_length]; exact h)

/-- The bank operation `op` at its segment 1, cell 0 of its bank read and holding n entries. -/
def readingBank (mark : Word) (n : Nat) (op : OpRecord) : State :=
  inOp op (cellEngine .cellRead 0 0) (bankOf (cellOf mark (entries n)))

theorem readingBank_read (mark : Word) {n : Nat} (h : n ≤ 246) (op : OpRecord) :
    Cell0.ofWords ((readingBank mark n op).handed (cellEngine .cellRead 0 0)).words = cellOf mark (entries n) :=
  bankOf_read (cellOf_places mark h) op

/-- A cell write of a SAVE that waits behind the fetch in progress. -/
def waitingWrite : State := { inOp (opAt .save 3) fetchEngine [] with
  memPort := { MemPort.reset with engine := some fetchEngine, bankSlot := some ⟨.cellWrite, .prod 1, 1, 0xFFFF⟩ } }

theorem witness_ASaveWritesItsCellsSegmentBySegment_grant :
    waitingWrite.held = false ∧ waitingWrite.memPort.engine = some fetchEngine ∧ fetchEngine.slot ≠ none ∧
      waitingWrite.memPort.queue = [] ∧ waitingWrite.memPort.bankSlot = some ⟨.cellWrite, .prod 1, 1, 0xFFFF⟩ ∧
      waitingWrite.bank.op = some (opAt .save 3) ∧
      (∀ kind n, (opAt kind n).kind = kind ∧ (opAt kind n).segment = n) ∧
      (3 = 3 + (255 : Circ).val / 256 ∧ 5 = 3 + (767 : Circ).val / 256) ∧
      (6 = 6 + (127 : Circ).val / 128 ∧ 11 = 6 + (767 : Circ).val / 128) :=
  ⟨rfl, rfl, by decide, rfl, rfl, rfl, fun _ _ => ⟨rfl, rfl⟩, by decide, by decide⟩

theorem witness_ASaveWritesItsCellsSegmentBySegment :
    (∀ place, let s := inOp (opAt .save 2) (cellEngine .cellWrite 0 place) []
      s.held = false ∧ Memory.wf s.mem ∧ s.memPort.engine = some (cellEngine .cellWrite 0 place) ∧
        s.bank.op = some (opAt .save 2)) ∧
      (inOp (opAt .save 1) (cellEngine .cellRead 0 0) (bankOf unsoundCell)).InSegment (cellEngine .cellRead 0 0)
        (opAt .save 1) .save 1 .cellRead ∧
      (Cell0.ofWords ((inOp (opAt .save 1) (cellEngine .cellRead 0 0) (bankOf unsoundCell)).handed
        (cellEngine .cellRead 0 0)).words).sound = false ∧
      ((readingBank 0x5AA5 246 (opAt .save 1)).InSegment (cellEngine .cellRead 0 0) (opAt .save 1) .save 1 .cellRead ∧
        (Cell0.ofWords ((readingBank 0x5AA5 246 (opAt .save 1)).handed (cellEngine .cellRead 0 0)).words).sound = true) ∧
      (∀ kind n, (inOp (opAt kind n) (cellEngine .cellWrite 0 0) []).InSegment (cellEngine .cellWrite 0 0) (opAt kind n)
        kind n .cellWrite) := by
  refine ⟨fun _ => ⟨rfl, Memory.wf_nil, rfl, rfl⟩, inOp_inSegment _ rfl, ?_, ⟨inOp_inSegment _ rfl, ?_⟩,
    fun _ _ => inOp_inSegment _ rfl⟩
  · rw [bankOf_read (placesOf_length (es := []) (by decide))]
    exact unsoundCell_unsound
  · rw [readingBank_read _ (by decide)]
    exact cellOf_sound _ (by decide)

/-- A changeover at segment 10 with given checks in the header of its bank. -/
def changeoverEnd (patch circ : Word) : OpRecord :=
  { opAt .changeover 10 with cell0 := some { emptyCell0 0xA55A 0 0 with circCheck := circ }, patchCheck := patch }

theorem witness_AChangeoverCommitsWholeOrNotAtAll_load :
    (readingBank 0xA55A 246 (opAt .changeover 1)).InSegment (cellEngine .cellRead 0 0) (opAt .changeover 1) .changeover 1
        .cellRead ∧
      at' ((readingBank 0xA55A 246 (opAt .changeover 1)).handed (cellEngine .cellRead 0 0)).words 0 = 0xA55A ∧
      (Cell0.ofWords ((readingBank 0xA55A 246 (opAt .changeover 1)).handed (cellEngine .cellRead 0 0)).words).sound = true ∧
      ∀ n, (inOp (opAt .changeover n) (cellEngine .cellRead (n - 1) 0) []).InSegment (cellEngine .cellRead (n - 1) 0)
        (opAt .changeover n) .changeover n .cellRead := by
  refine ⟨inOp_inSegment _ rfl, ?_, ?_, fun _ => inOp_inSegment _ rfl⟩
  · have hm (ws : List Word) : at' ws 0 = (Cell0.ofWords ws).mark := rfl
    rw [hm, readingBank_read _ (by decide)]
    rfl
  · rw [readingBank_read _ (by decide)]
    exact cellOf_sound _ (by decide)

theorem witness_AChangeoverCommitsWholeOrNotAtAll_commit :
    ∃ (s : State) (e : Engine) (op : OpRecord), s.InSegment e op .changeover 10 .cellRead ∧
      op.patchCheck = op.header.patchCheck ∧ (s.handed e).crc = op.header.circCheck := by
  obtain ⟨crc, h⟩ : ∃ x, ((inOp (changeoverEnd 0 0) (cellEngine .cellRead 9 0) []).handed (cellEngine .cellRead 9 0)).crc = x :=
    ⟨_, rfl⟩
  refine ⟨inOp (changeoverEnd 0 crc) (cellEngine .cellRead 9 0) [], cellEngine .cellRead 9 0, changeoverEnd 0 crc,
    inOp_inSegment _ rfl, rfl, ?_⟩
  rw [State.handed_reads (s := inOp (changeoverEnd 0 crc) (cellEngine .cellRead 9 0) [])
    (t := inOp (changeoverEnd 0 0) (cellEngine .cellRead 9 0) []) (.inl rfl) rfl, h]
  rfl

theorem witness_AChangeoverCommitsWholeOrNotAtAll_fail :
    (inOp (opAt .changeover 1) (cellEngine .cellRead 0 0) []).InSegment (cellEngine .cellRead 0 0) (opAt .changeover 1)
        .changeover 1 .cellRead ∧
      at' ((inOp (opAt .changeover 1) (cellEngine .cellRead 0 0) []).handed (cellEngine .cellRead 0 0)).words 0 ≠ 0xA55A ∧
      (inOp (changeoverEnd 1 0) (cellEngine .cellRead 9 511) []).InSegment (cellEngine .cellRead 9 511) (changeoverEnd 1 0)
        .changeover 10 .cellRead ∧
      (changeoverEnd 1 0).patchCheck ≠ (changeoverEnd 1 0).header.patchCheck ∧
      (cellEngine .cellRead 9 511).place + (Cut.mk 0 false).accesses < 512 ∧
      (inOp (opAt .changeover 7) (cellEngine .cellRead 6 0) []).InSegment (cellEngine .cellRead 6 0) (opAt .changeover 7)
        .changeover 7 .cellRead ∧ (cellEngine .cellRead 6 0).place + (Cut.mk 511 false).accesses < 512 :=
  ⟨inOp_inSegment _ rfl, by decide +kernel, inOp_inSegment _ rfl, by decide, by decide, inOp_inSegment _ rfl, by decide⟩

theorem witness_CueOperationsTestTheDirectoryAndEnd_test :
    (∀ (mark : Word) (n : Nat) (op : OpRecord), (readingBank mark n op).InSegment (cellEngine .cellRead 0 0) op op.kind
      op.segment .cellRead) ∧
      (∀ (mark : Word) (n : Nat) (op : OpRecord), n ≤ 246 →
        let c := Cell0.ofWords ((readingBank mark n op).handed (cellEngine .cellRead 0 0)).words
        c.mark = mark ∧ c.sound = true ∧ c.entries = entries n) ∧
      (∀ d ∈ entries 246, d.cue ≠ 9999) ∧ (⟨246, 255⟩ : DirEntry) ∈ entries 246 ∧
      (∀ m, 10 ≤ m → m ≤ 255 → ∃ d ∈ entries 246, d.cell = m) ∧ (entries 246).length = 246 ∧
      ((entries 0).length < 246 ∧ (∀ d ∈ entries 0, d.cell ≠ 10)) ∧
      ((entries 245).length < 246 ∧ (∀ d ∈ entries 245, d.cell ≠ 255) ∧
        ∀ m, 10 ≤ m → m < 255 → ∃ d ∈ entries 245, d.cell = m) ∧
      (Cell0.ofWords ((inOp (opAt .readCue 1) (cellEngine .cellRead 0 0) (bankOf unsoundCell)).handed
        (cellEngine .cellRead 0 0)).words).sound = false ∧
      (opAt .storeCue 1).kind = .storeCue ∧ (opAt .deleteCue 1).kind = .deleteCue ∧ (0x5AA5 : Word) ≠ 0xA55A := by
  refine ⟨fun _ _ _ => inOp_inSegment _ rfl, fun mark n op h => ?_, ?_, ?_, fun m h1 h2 => ⟨⟨m - 10 + 1, m⟩, ?_, rfl⟩, entries_length _, ⟨by decide, by decide⟩,
    ⟨by rw [entries_length]; decide, ?_, fun m h1 h2 => ⟨⟨m - 10 + 1, m⟩, ?_, rfl⟩⟩, ?_, rfl, rfl, by decide⟩
  · simp only [readingBank_read mark h op]
    exact ⟨rfl, cellOf_sound mark h, cellOf_entries mark h⟩
  · intro d hd
    simp only [entries, List.mem_map, List.mem_range] at hd
    obtain ⟨i, hi, rfl⟩ := hd
    show i + 1 ≠ 9999
    omega
  · exact List.mem_map.2 ⟨245, by simp, rfl⟩
  · simp only [entries, List.mem_map, List.mem_range]
    exact ⟨m - 10, by omega, by congr 1; omega⟩
  · intro d hd
    simp only [entries, List.mem_map, List.mem_range] at hd
    obtain ⟨i, hi, rfl⟩ := hd
    show i + 10 ≠ 255
    omega
  · simp only [entries, List.mem_map, List.mem_range]
    exact ⟨m - 10, by omega, by congr 1; omega⟩
  · rw [bankOf_read (placesOf_length (es := []) (by decide))]
    exact unsoundCell_unsound

theorem witness_CueOperationsTestTheDirectoryAndEnd_record :
    (∀ cell place mem, (inOp (opAt .storeCue 2) (cellEngine .recordWrite cell place) mem).InSegment
      (cellEngine .recordWrite cell place) (opAt .storeCue 2) .storeCue 2 .recordWrite) ∧
      Memory.wf (inOp (opAt .storeCue 2) (cellEngine .recordWrite 255 0) []).mem ∧
      ((opAt .storeCue 3).kind = .storeCue ∧ (opAt .storeCue 3).segment = 3) ∧
      ((opAt .deleteCue 2).kind = .deleteCue ∧ (opAt .deleteCue 2).segment = 2) :=
  ⟨fun _ _ _ => inOp_inSegment _ rfl, Memory.wf_nil, ⟨rfl, rfl⟩, rfl, rfl⟩

theorem witness_CueOperationsTestTheDirectoryAndEnd_end :
    (inOp (opAt .storeCue 3) (cellEngine .cellWrite 0 0) []).InSegment (cellEngine .cellWrite 0 0) (opAt .storeCue 3)
        .storeCue 3 .cellWrite ∧ (opAt .storeCue 3).bank ≠ none ∧
      (inOp (opAt .deleteCue 2) (cellEngine .cellWrite 0 0) []).InSegment (cellEngine .cellWrite 0 0) (opAt .deleteCue 2)
        .deleteCue 2 .cellWrite ∧ (opAt .deleteCue 2).bank ≠ none ∧
      (inOp (opAt .readCue 2) (cellEngine .cellRead 255 511) []).InSegment (cellEngine .cellRead 255 511) (opAt .readCue 2)
        .readCue 2 .cellRead ∧ (opAt .readCue 2).port = some 0 :=
  ⟨inOp_inSegment _ rfl, by decide, inOp_inSegment _ rfl, by decide, inOp_inSegment _ rfl, rfl⟩

theorem witness_AFaultEndsABankOperation :
    (inOp (opAt .save 2) (cellEngine .cellWrite 0 511) []).InSegment (cellEngine .cellWrite 0 511) (opAt .save 2) .save 2
        .cellWrite ∧
      (cellEngine .cellWrite 0 511).place + (Cut.mk 0 true).accesses <
        ((inOp (opAt .save 2) (cellEngine .cellWrite 0 511) []).txnWords (cellEngine .cellWrite 0 511)).length ∧
      (inOp (opAt .readCue 2) (cellEngine .cellRead 10 0) []).InSegment (cellEngine .cellRead 10 0) (opAt .readCue 2) .readCue
        2 .cellRead ∧
      (cellEngine .cellRead 10 0).place + (Cut.mk 511 true).accesses <
        ((inOp (opAt .readCue 2) (cellEngine .cellRead 10 0) []).txnWords (cellEngine .cellRead 10 0)).length ∧
      TxnKind.cellWrite.writes = true ∧ TxnKind.cellRead.writes = false ∧
      Memory.wf (inOp (opAt .save 2) (cellEngine .cellWrite 0 511) []).mem :=
  ⟨inOp_inSegment _ rfl, by simp [State.txnWords, cellEngine], inOp_inSegment _ rfl, by simp [State.txnWords, cellEngine],
    rfl, rfl, Memory.wf_nil⟩

/-- The start-up load at a segment, every check of the house header alike. -/
def loadAt (n : Nat) (check : Word) : OpRecord :=
  { OpRecord.startUp with segment := n, houseChecks := List.replicate 5 check }

/-- The start-up load at a segment, reading a house cell of zeros. -/
def loading (n : Nat) (check : Word) : State := inOp (loadAt n check) (engineAt .cellRead 0 0) []

theorem word_ne_succ (x : Word) : x ≠ x + 1 := by
  intro h
  have := congrArg BitVec.toNat h
  have h1 : (1 : Word).toNat = 1 := rfl
  rw [BitVec.toNat_add, h1] at this
  omega

/-- At every segment of the load the check of its area can match, and can differ. -/
theorem witness_AHousePatchLoadsOrKeepsItsDefaults :
    ∃ crc : Word, ∀ n, (∀ x, (loading n x).InSegment (engineAt .cellRead 0 0) (loadAt n x) .startUp n .cellRead) ∧
      (∀ k, 1 ≤ k → k ≤ 4 →
        ((loading n crc).handed (engineAt .cellRead 0 0)).crc = at' (loadAt n crc).houseChecks k ∧
        ((loading n (crc + 1)).handed (engineAt .cellRead 0 0)).crc ≠ at' (loadAt n (crc + 1)).houseChecks k) ∧
      (engineAt .cellRead 0 0).place + (Cut.mk 511 false).accesses < 512 := by
  have same (n : Nat) (x : Word) : ((loading n x).handed (engineAt .cellRead 0 0)).crc =
      ((loading 0 0).handed (engineAt .cellRead 0 0)).crc := by
    rw [State.handed_reads (s := loading n x) (t := loading 0 0) (.inl rfl) rfl]
  obtain ⟨crc, h⟩ : ∃ x, ((loading 0 0).handed (engineAt .cellRead 0 0)).crc = x := ⟨_, rfl⟩
  simp only [h] at same
  have check (n : Nat) (x : Word) (k : Nat) (hk : k ≤ 4) : at' (loadAt n x).houseChecks k = x := by
    have : k = 0 ∨ k = 1 ∨ k = 2 ∨ k = 3 ∨ k = 4 := by omega
    rcases this with rfl | rfl | rfl | rfl | rfl <;> rfl
  refine ⟨crc, fun n => ⟨fun x => inOp_inSegment [] rfl, fun k _ hk => ⟨?_, ?_⟩, by decide⟩⟩
  · rw [same, check n crc k hk]
  · rw [same, check n (crc + 1) k hk]
    exact word_ne_succ crc

/-- A settings record: IN0 to IN2 as after a reset, IN3 disabled, OUT5 off, budgets of 10000, start bank 3. -/
def storedWords : List Word :=
  [1, 1, 1, 100, 0xFFFF, 300, 1, 0, 1, 100, 0xFFFF, 300, 1, 0, 1, 1000, 60000, 60000, 0, 0, 0, 1, 0, 0] ++
    [1, 16, 1, 16, 1, 16, 1, 16, 1, 16, 0, 8] ++ List.replicate 18 10000 ++ [3]

/-- The words of house cell 0 with a check and that record. -/
def houseCell0 (check : Word) : List Word := check :: List.replicate 7 0 ++ storedWords ++ List.replicate 449 0

/-- The start-up load at house cell 0. -/
def loadingSettings (check : Word) : State :=
  inOp OpRecord.startUp (engineAt .cellRead 0 0) (Memory.writeRun (wordAddress .house 0 0) (houseCell0 check) [])

theorem houseCell0_length (check : Word) : (houseCell0 check).length = 512 := by
  unfold houseCell0
  rw [List.length_append, List.length_append, List.length_replicate, show storedWords.length = 55 from rfl]
  rfl

theorem loadingSettings_read (check : Word) :
    ((loadingSettings check).handed (engineAt .cellRead 0 0)).words = houseCell0 check :=
  State.handed_words rfl (houseCell0_length check) (by simp only [loadingSettings, inOp, engineAt])

theorem witness_AHousePatchLoadsOrKeepsItsDefaults_settings :
    (∀ check, (loadingSettings check).InSegment (engineAt .cellRead 0 0) OpRecord.startUp .startUp 1 .cellRead) ∧
      (∀ check, at' ((loadingSettings check).handed (engineAt .cellRead 0 0)).words 0 = check ∧
        (((loadingSettings check).handed (engineAt .cellRead 0 0)).words.drop 8).take 55 = storedWords) ∧
      (checkWord storedWords ≠ checkWord storedWords + 1) ∧ StoredSettings.of? (List.replicate 55 0) = none ∧
      StoredSettings.of? storedWords = some
        ⟨List.ofFn fun p : PortIx => if p = 0 then ⟨true, true, true, 100, none, 300⟩
            else if p = 1 then ⟨true, false, true, 100, none, 300⟩
            else if p = 2 then ⟨true, false, true, 1000, some 60000, 60000⟩ else ⟨false, false, false, 1, some 0, 0⟩,
          List.ofFn fun k : LinkIx => if k = 5 then ⟨false, .r8⟩ else ⟨true, .r16⟩,
          List.ofFn fun _ : GroupIx => 10000, some 3⟩ := by
  refine ⟨fun _ => inOp_inSegment _ rfl, fun check => ?_, word_ne_succ _, ?_⟩
  · rw [loadingSettings_read]
    exact ⟨rfl, rfl⟩
  · decide +kernel

/-! Circuits, the refresh and the lamp check -/

/-- Circuit 1 with a record and an entry in the production layer of both table sets, circuit 2 with them in the house layer. -/
def tablesOf (e : PatchEntry) (r : CircuitRecord) : TableSet := { TableSet.reset with
  prodPatch := noEntries.set 0 (some e)
  prodCircuits := noRecords.set 0 (some r)
  housePatch := noEntries.set 1 (some e)
  houseCircuits := noRecords.set 1 (some r) }

/-- A DIM record of group 0 with load 600 and a park level. -/
def heavy : CircuitRecord := ⟨.dim, 0, some 0, 600, false, 32768, some 65535⟩

def withTables (t : TableSet) : State := { ready with tables := { ready.tables with live := t } }

theorem witness_EntryRecordAndModeOfACircuit :
    let t := tablesOf ⟨1023, 100⟩ heavy
    t.prodPatch[(0 : Circ)] = some ⟨1023, 100⟩ ∧ t.prodCircuits[(0 : Circ)] = some heavy ∧
      t.prodPatch[(1 : Circ)] = none ∧ t.prodCircuits[(1 : Circ)] = none ∧ t.houseCircuits[(1 : Circ)] = some heavy ∧
      t.prodCircuits[(767 : Circ)] = none ∧ t.houseCircuits[(767 : Circ)] = none ∧ t.entry 0 = some ⟨1023, 100⟩ ∧
      t.entry 767 = none ∧ ({ heavy with mode := .unused } : CircuitRecord).mode = .unused ∧ heavy.mode ≠ .unused ∧
      heavy.park = some 65535 ∧ CircuitRecord.default.mode = .dim ∧ CircuitRecord.default.park = none ∧
      ({ CircuitRecord.default with mode := .switch } : CircuitRecord).threshold.toNat ≤ (32768 : Level).toNat ∧
      (32767 : Level).toNat < ({ CircuitRecord.default with mode := .switch } : CircuitRecord).threshold.toNat := by
  decide +kernel

theorem witness_TheMergeTakesTheGreatestLevel :
    let s := withPort { livePort with live := noLevels.set 1023 (some 60000) }
    s.ports[(3 : PortIx)].source = .live ∧ s.mgmt.inputs[(3 : PortIx)].accept[(1023 : Chan)] = true ∧
      s.ports[(3 : PortIx)].live[(1023 : Chan)] = some 60000 := by decide +kernel

/-- Group 0 with budget 1 and one circuit that draws 600 × 65535. -/
def overdrawn : State := { withTables (tablesOf ⟨0, 100⟩ heavy) with
  mgmt := { ready.mgmt with budgets := ready.mgmt.budgets.set 0 1 } }

theorem demand_ge (t : TableSet) (g : GroupIx) (image : Vector Level 768) (c : Circ) :
    t.draw g image c ≤ t.demand g image :=
  List.single_le_sum (fun _ _ => Nat.zero_le _) _ (List.mem_ofFn.2 ⟨c, rfl⟩)

theorem witness_ARefreshPublishesTheWholeImage :
    overdrawn.held = false ∧ (overdrawn.tables.live.record 0).group = some 0 ∧
      (overdrawn.tables.live.record 0).exempt = false ∧ 0 < overdrawn.mgmt.budgets[(0 : GroupIx)] ∧
      65535 * overdrawn.mgmt.budgets[(0 : GroupIx)] < overdrawn.tables.live.demand 0 overdrawn.stage4 ∧
      (overdrawn.tables.live.record 767).group = none ∧ ready.mgmt.budgets[(0 : GroupIx)] = 0 := by
  refine ⟨rfl, by decide +kernel, by decide +kernel, by decide +kernel, ?_, by decide +kernel, by decide +kernel⟩
  have h3 : overdrawn.mgmt.budgets[(0 : GroupIx)] = 1 := by decide +kernel
  have h1 := demand_ge overdrawn.tables.live 0 overdrawn.stage4 0
  have h2 : overdrawn.tables.live.draw 0 overdrawn.stage4 0 = 600 * 65535 := by decide +kernel
  refine lt_of_lt_of_le ?_ h1
  rw [h2, h3]
  decide

theorem witness_NoPublishedImageExceedsABudget : overdrawn.held = false ∧ 0 < overdrawn.mgmt.budgets[(0 : GroupIx)] := by
  decide +kernel

theorem ready_unpatched (c : Circ) : ready.tables.live.member .patched c = false := by
  simp [TableSet.member, TableSet.entry, ready, State.reset, Tables.reset, TableSet.reset, noEntries]

theorem ready_member (c : Circ) : ready.tables.live.member .all c = true := by
  simp [TableSet.member, TableSet.mode, TableSet.record, CircuitRecord.default, ready, State.reset, Tables.reset,
    TableSet.reset, noRecords]

theorem witness_CheckStartBeginsAtTheFirstMember :
    ready.Serves head ∧ 6000 < (6001 : Word).toNat ∧ 1 < (2 : Word).toNat ∧ 768 < (769 : Word).toNat ∧
      checkAll.dwell = (6000 : Word).toNat ∧ Circ.number checkAll.start = (1 : Word).toNat ∧ checkAll.set.code = 1 ∧
      checkAll.mode.code = 0 ∧ (withOp .changeover ready).Serves head ∧ (withOp .changeover ready).inChangeover = true ∧
      ready.inChangeover = false ∧ fullSlots.Serves head ∧ fullSlots.inChangeover = false ∧
      (∃ n : SlotIx, fullSlots.playback.slots[n] ≠ .free) ∧ (∀ n : SlotIx, ready.playback.slots[n] = .free) ∧
      (∀ c : Circ, (0 : Circ) ≤ c → ready.tables.live.member .patched c = false) ∧
      (0 : Circ) ≤ 0 ∧ ready.tables.live.member .all 0 = true ∧
      (∀ d : Circ, (0 : Circ) ≤ d → d < 0 → ready.tables.live.member .all d = false) :=
  ⟨ready_serves, by decide, by decide, by decide, rfl, rfl, rfl, rfl, serves_of rfl rfl rfl (by show CtlState.busy ≠ _; decide),
    rfl, rfl, slots_serve _, rfl, by decide +kernel, by decide +kernel, fun c _ => ready_unpatched c, le_refl _,
    ready_member 0, fun d _ h => absurd h (Fin.not_lt_zero d)⟩

theorem lamp_serves (k : CheckParams) (c : Circ) (n : Nat) : (withLamp k c n ready).Serves head :=
  serves_of rfl rfl rfl (by show CtlState.idle ≠ _; decide)

theorem witness_CheckRequestsMoveOrEndTheCheck :
    (∀ c, (withLamp checkAll c 5 ready).Serves head ∧ (withLamp checkAll c 5 ready).lamp.params = some checkAll ∧
      (withLamp checkAll c 5 ready).lamp.under = some c) ∧
      (∀ c, ready.tables.live.member checkAll.set c = true) ∧
      (∀ x : Circ, 766 < x → x < 767 → ready.tables.live.member .all x = false) ∧
      (∀ x : Circ, 767 < x → ready.tables.live.member .all x = false) ∧
      (∀ x : Circ, x < 0 → ready.tables.live.member .all x = false) ∧ ready.Serves head ∧ ready.lamp.under = none :=
  ⟨fun c => ⟨lamp_serves checkAll c 5, rfl, rfl⟩, ready_member,
    fun x h1 h2 => by have := Fin.lt_def.1 h1; have := Fin.lt_def.1 h2; omega,
    fun x h => by have := Fin.lt_def.1 h; have := x.isLt; omega,
    fun x h => absurd h (Fin.not_lt_zero x), ready_serves, rfl⟩

theorem witness_TheLampCheckIntervalCountsTheDwell :
    (∀ c n, (withLamp checkAll c n ready).held = false ∧ (withLamp checkAll c n ready).lamp.params = some checkAll ∧
      (withLamp checkAll c n ready).lamp.under = some c ∧ (withLamp checkAll c n ready).lamp.remaining = n) ∧
      checkAll.mode = .auto ∧ (∀ x : Circ, 767 < x → ready.tables.live.member .all x = false) ∧
      ready.lamp.under = none ∧
      (withLamp { checkAll with mode := .step } 0 5 ready).lamp.params = some { checkAll with mode := .step } :=
  ⟨fun _ _ => ⟨rfl, rfl, rfl, rfl⟩, rfl, fun x h => by have := Fin.lt_def.1 h; have := x.isLt; omega, rfl, rfl⟩

/-! Intervals, output links and the hold -/

/-- Every port in a source state with given counts, every input with given H and F. -/
def sourceState (x : SourceState) (timer hold fade : Nat) (h : Option Nat) (f : Nat) : State :=
  { withPort { lockedPort with source := x, lossTimer := timer, hold := hold, fade := fade } with
    mgmt := { ready.mgmt with inputs := tab fun p => { ready.mgmt.inputs[p] with lossH := h, lossF := f } } }

theorem witness_APortIntervalCountsOrRunsOut :
    (∀ x t h f hh ff, (sourceState x t h f hh ff).held = false ∧
      (sourceState x t h f hh ff).ports[(3 : PortIx)].source = x ∧
      (sourceState x t h f hh ff).ports[(3 : PortIx)].lossTimer = t ∧
      (sourceState x t h f hh ff).ports[(3 : PortIx)].hold = h ∧
      (sourceState x t h f hh ff).ports[(3 : PortIx)].fade = f ∧
      (sourceState x t h f hh ff).mgmt.inputs[(3 : PortIx)].lossH = hh ∧
      (sourceState x t h f hh ff).mgmt.inputs[(3 : PortIx)].lossF = ff) ∧
      (0 < 1 ∧ 3 + 1 < 5 ∧ 3 + 1 < 5 ∧ 5 ≤ 4 + 1) :=
  ⟨fun _ _ _ _ _ _ => ⟨rfl, rfl, rfl, rfl, rfl, rfl, rfl⟩, by decide⟩

/-- Every output link alike, HOLDREQ as given. -/
def withOut (o : OutPort) (holdreq : Bool) : State :=
  { ready with outs := Vector.replicate 6 o, hold := ⟨holdreq, holdreq, false⟩ }

def outIn (x : LinkState) (frame : Option (List Word)) (position : Nat) (forced on flag : Bool) : OutPort :=
  ⟨x, frame, position, forced, ⟨true, .r16⟩, ⟨on, .r8⟩, flag⟩

theorem witness_AnOutputFrameTimerExpires :
    (∀ x f n forced on flag holdreq, let s := withOut (outIn x f n forced on flag) holdreq
      s.held = false ∧ s.outs[(5 : LinkIx)].state = x ∧ s.outs[(5 : LinkIx)].position = n ∧
        s.outs[(5 : LinkIx)].forced = forced ∧ s.outs[(5 : LinkIx)].pending.enabled = on ∧
        s.outs[(5 : LinkIx)].pendingFlag = flag ∧ s.outs[(5 : LinkIx)].current.enabled = true ∧ s.hold.holdreq = holdreq) ∧
      ready.bank.state ≠ .starting ∧ State.reset.bank.state = .starting ∧ State.reset.outs[(5 : LinkIx)].state = .waiting :=
  ⟨fun _ _ _ _ _ _ _ => ⟨rfl, rfl, rfl, rfl, rfl, rfl, rfl, rfl⟩, by decide +kernel, rfl, rfl⟩

theorem witness_AFrameCompletes :
    (withOut (outIn .running (some []) 3 false true false) false).outs[(5 : LinkIx)].frame = some [] ∧
      (withOut (outIn .running (some []) 3 false true false) false).outs[(5 : LinkIx)].state = .running ∧
      (let s := withOut (outIn .stopping (some []) 3 false true false) true;
        s.held = false ∧ s.outs[(5 : LinkIx)].frame = some [] ∧ s.outs[(5 : LinkIx)].state = .stopping ∧
          s.hold.holdreq = true ∧ s.hold.holdack = false ∧
          ∃ j : LinkIx, j ≠ 5 ∧ (s.outs[j].state = .running ∨ s.outs[j].state = .stopping)) ∧
      (let s : State := { withOut (outIn .off none 0 false true false) true with
          outs := (Vector.replicate 6 (outIn .off none 0 false true false)).set 5
            (outIn .stopping (some []) 3 false true false) };
        s.outs[(5 : LinkIx)].state = .stopping ∧
          ∀ j : LinkIx, j ≠ 5 → s.outs[j].state ≠ .running ∧ s.outs[j].state ≠ .stopping) := by
  decide +kernel

theorem witness_HoldreqStopsAndFreesTheLinks :
    (∀ o, (withOut o false).held = false ∧ (withOut o false).hold = ⟨false, false, false⟩) ∧
      (withOut (outIn .running (some []) 3 false true false) false).outs[(0 : LinkIx)].frame.isSome = true ∧
      (withOut (outIn .running none 3 false true false) false).outs[(0 : LinkIx)].frame.isSome = false ∧
      (withOut (outIn .held none 0 true true false) true).held = false ∧
      (withOut (outIn .held none 0 true true false) true).hold.line = true :=
  ⟨fun _ => ⟨rfl, rfl⟩, rfl, rfl, rfl, rfl⟩

/-! Settings, status, replies and the invariants -/

theorem witness_ASetKeepsAManagingInput :
    ready.Serves head ∧ (3 : Word).toNat = (3 : PortIx).val ∧
      managing (ready.mgmt.inputs.set 0 { ready.mgmt.inputs[(0 : PortIx)] with enabled := false }) = false ∧
      managing (ready.mgmt.inputs.set 0 { ready.mgmt.inputs[(0 : PortIx)] with permit := false }) = false ∧
      managing (ready.mgmt.inputs.set 3 { ready.mgmt.inputs[(3 : PortIx)] with permit := true }) = true ∧
      managing (ready.mgmt.inputs.set 3 { ready.mgmt.inputs[(3 : PortIx)] with enabled := true }) = true ∧
      ready.mgmt.inputs[(3 : PortIx)].enabled = true ∧
      managing (ready.mgmt.inputs.set 3 { ready.mgmt.inputs[(3 : PortIx)] with enabled := false }) = true ∧
      ready.mgmt.inputs[(3 : PortIx)].enabled ≠ false := by
  refine ⟨ready_serves, ?_⟩
  decide +kernel

theorem witness_ASetReplacesTheValuesItCarries :
    ready.Serves head ∧ (3 : Word).toNat = (3 : PortIx).val ∧ 1 ≤ (1000 : Word).toNat ∧ (1000 : Word).toNat ≤ 1000 ∧
      (60000 : Word).toNat ≤ 60000 ∧ (1009 : Word).toNat + 16 * [(0 : Word)].length ≤ 1025 ∧
      (1 : Word).toNat + 16 * (List.replicate 64 (0 : Word)).length ≤ 1025 ∧
      (17 : Word).toNat + [(10000 : Word)].length ≤ 18 ∧ (10000 : Word).toNat ≤ 10000 ∧ bankWord none = 0xFFFF ∧
      bankWord (some 3) = 3 ∧ (3 : Word).toNat = (3 : Fin 4).val ∧ (5 : Word).toNat = (5 : LinkIx).val ∧
      (16 : Word).toNat = Resolution.r16.bits := by
  refine ⟨ready_serves, ?_⟩
  decide +kernel

theorem witness_StatusReadSnapshotClearEventsAndRestart :
    ready.InStep head ∧ ready.ports[(0 : PortIx)].replies.length < 4 ∧ ready.Serves head ∧
      (let taken := { ready with ports := ready.ports.set 0 ready.ports[(0 : PortIx)].tookGood };
        (taken.statusData 3 0 3 0 0).isSome = true ∧ taken.statusData 13 0 0 0 0 = none) ∧
      12 < (13 : Word).toNat ∧ 3 < (4 : Word).toNat ∧ (3 : Word).toNat = (3 : PortIx).val ∧
      (961 : Word).toNat + (64 : Word).toNat = 1 + 1024 ∧ 1 + 1024 < (961 : Word).toNat + (65 : Word).toNat ∧
      (641 : Word).toNat + (128 : Word).toNat = 1 + 768 ∧ (0 : Word).toNat + (64 : Word).toNat = 0 + 64 ∧
      (17 : Word).toNat + (1 : Word).toNat = 0 + 18 ∧ (5 : Word).toNat = (5 : LinkIx).val ∧ ¬1 ≤ (0 : Word).toNat ∧ 9 < (10 : Word).toNat ∧
      (4 : Word).toNat ≤ 4 ∧ 0 + 64 < (1 : Word).toNat + (64 : Word).toNat ∧ 5 < (6 : Word).toNat ∧
      0 + 18 < (17 : Word).toNat + (2 : Word).toNat := by
  refine ⟨ready_serves.inStep, by decide +kernel, ready_serves, ?_⟩
  decide +kernel

/-- A port that sends the first of its replies. -/
def sendingPort (restart : Bool) : Port :=
  { lockedPort with replies := [{ replyTo head 0x1A .accepted with restart := restart }], sending := some [3] }

theorem witness_AReplyFrameCompletes (restart : Bool) :
    let s := withPort (sendingPort restart)
    s.held = false ∧ s.ports[(3 : PortIx)].sending = some [3] ∧
      s.ports[(3 : PortIx)].replies = [{ replyTo head 0x1A .accepted with restart := restart }] ∧
      ({ replyTo head 0x1A .accepted with restart := restart } : Reply).restart = restart ∧
      ∀ e, s.memPort.engine = some e → e.kind.writes = false :=
  ⟨rfl, rfl, rfl, rfl, fun _ h => by simp [withPort, ready] at h⟩

/-- A reset by request while the Memory Port writes. -/
def sendingInWrite : State := { withPort (sendingPort true) with
  memPort := { MemPort.reset with engine := some (engineAt .cellWrite 0 509) } }

theorem witness_AReplyFrameCompletes_cut :
    sendingInWrite.held = false ∧ sendingInWrite.ports[(3 : PortIx)].sending = some [3] ∧
      sendingInWrite.ports[(3 : PortIx)].replies = [{ replyTo head 0x1A .accepted with restart := true }] ∧
      sendingInWrite.memPort.engine = some (engineAt .cellWrite 0 509) ∧ (engineAt .cellWrite 0 509).kind.writes = true ∧
      (engineAt .cellWrite 0 509).place + (Cut.mk 2 true).accesses < (sendingInWrite.txnWords
        (engineAt .cellWrite 0 509)).length ∧ Memory.wf sendingInWrite.mem :=
  ⟨rfl, rfl, rfl, rfl, rfl, by simp [State.txnWords, engineAt], Memory.wf_nil⟩

theorem witness_ACheckWordSeesAnyChangeOfOneWord : (0 : Word) ≠ 0x8000 := by decide

theorem ready_ownersRight : ready.playback.ownersRight := by
  intro c o h
  have : ready.playback.owner[c] = none := by simp [ready, State.reset, Playback.reset]
  rw [this] at h
  cases h

theorem free_ordersRight {pb : Playback} (h : ∀ n : SlotIx, pb.slots[n] = .free) : pb.ordersRight :=
  ⟨fun n o ho => by simp [h n, Slot.order?, Slot.fade?] at ho, fun m _ o ho => by simp [h m, Slot.order?, Slot.fade?] at ho⟩

theorem fullSlots_ordersRight : fullSlots.playback.ordersRight := by
  have hs (n : SlotIx) : fullSlots.playback.slots[n].order? = some (n.val + 1) := by
    revert n
    decide +kernel
  have hc : fullSlots.playback.activeCount = 6 := by decide +kernel
  refine ⟨fun n o h => ?_, fun m n o h1 h2 => ?_⟩
  · rw [hs, Option.some.injEq] at h
    have := n.isLt
    omega
  · rw [hs, Option.some.injEq] at h1 h2
    exact Fin.ext (by omega)

/-- A step from a state that meets every invariant. -/
theorem witness_EveryStepKeepsTheInvariants :
    step ready = .next ready.idle ∧ Memory.wf ready.mem ∧ ready.alertRight ∧ ready.holdRight ∧
      (∀ p : PortIx, ready.ports[p].bounded) ∧ ready.managed ∧ ready.playback.ownersRight ∧
      ready.playback.ordersRight ∧ ready.memPort.granted ∧ ready.directoriesRight := by
  refine ⟨rfl, Memory.wf_nil, rfl, (fun h => by cases h), fun p => ?_,
    (by show managing _ = true; decide +kernel),
    ready_ownersRight, free_ordersRight (by decide +kernel), (fun _ => ⟨rfl, rfl⟩), rfl, fun _ h => by cases h⟩
  have : ready.ports[p] = lockedPort := by simp [ready]
  rw [this]
  exact ⟨by decide, by simp [lockedPort, Port.reset], by decide⟩

end Sys2Proof.Machine
end

