-- ==== Sys2Proof/Proofs/FadesAndCurves.lean ====
section
/-! Fades and curves stay between their ends (R13, R50, R51): both are the same truncating interpolation between two words. -/

namespace Sys2Proof.Machine

/-! ### Interpolation -/

/-- The word k n-ths of the way from s to t, truncated toward s: the arithmetic of a fade (R51) and of a curve (R13). -/
def interpolate (s t : Word) (k n : Nat) : Word :=
  BitVec.ofInt 16 ((s.toNat : Int) + (((t.toNat : Int) - (s.toNat : Int)) * (k : Int)).tdiv (n : Int))

/-- A part of a distance x, truncated toward zero, lies between 0 and x, whichever sign x has. -/
theorem part_between {k n : Nat} (x : Int) (hk : k ≤ n) : min 0 x ≤ (x * k).tdiv n ∧ (x * k).tdiv n ≤ max 0 x := by
  have natPart (m : Nat) : m * k / n ≤ m := Nat.div_le_of_le_mul (by rw [Nat.mul_comm n]; exact Nat.mul_le_mul_left m hk)
  obtain ⟨m, rfl | rfl⟩ := Int.eq_nat_or_neg x
  · have up : ((m : Int) * k).tdiv n = (m * k / n : Nat) := by norm_cast
    have := natPart m
    generalize m * k / n = part at *
    omega
  · have down : (-(m : Int) * k).tdiv n = -((m * k / n : Nat) : Int) := by
      rw [Int.neg_mul, Int.neg_tdiv]
      norm_cast
    have := natPart m
    generalize m * k / n = part at *
    omega

/-- The formula never leaves the range of a word, so the word is the formula's value. -/
theorem interpolate_toNat {s t : Word} {k n : Nat} (hk : k ≤ n) :
    ((interpolate s t k n).toNat : Int) = s.toNat + (((t.toNat : Int) - s.toNat) * k).tdiv n := by
  have hpart := part_between ((t.toNat : Int) - s.toNat) hk
  have hs := s.isLt
  have ht := t.isLt
  rw [interpolate, BitVec.toNat_ofInt]
  omega

theorem interpolate_between {s t : Word} {k n : Nat} (hk : k ≤ n) :
    min s.toNat t.toNat ≤ (interpolate s t k n).toNat ∧ (interpolate s t k n).toNat ≤ max s.toNat t.toNat := by
  have hpart := part_between ((t.toNat : Int) - s.toNat) hk
  have hval := interpolate_toNat (s := s) (t := t) hk
  omega

@[simp] theorem interpolate_zero (s t : Word) (n : Nat) : interpolate s t 0 n = s := by
  simp [interpolate]

/-! ### Fades (R50, R51) -/

theorem fadeBetween_during {s t : Level} {d time e : Nat} (hd : d ≤ e) (he : e < d + time) :
    fadeBetween s t d time e = interpolate s t (e - d) time := by
  have h1 : ¬ e < d := by omega
  have h2 : ¬ d + time ≤ e := by omega
  simp [fadeBetween, interpolate, h1, h2]

theorem fadeBetween_during_toNat {s t : Level} {d time e : Nat} (hd : d ≤ e) (he : e < d + time) :
    ((fadeBetween s t d time e).toNat : Int) = s.toNat + (((t.toNat : Int) - s.toNat) * (e - d)).tdiv time := by
  rw [fadeBetween_during hd he, interpolate_toNat (by omega), Nat.cast_sub hd]

/-- At every elapsed time, by the three phases of a fade. -/
theorem fadeBetween_between (s t : Level) (d time e : Nat) :
    min s.toNat t.toNat ≤ (fadeBetween s t d time e).toNat ∧ (fadeBetween s t d time e).toNat ≤ max s.toNat t.toNat := by
  obtain before | after | ⟨hd, he⟩ : e < d ∨ d + time ≤ e ∨ (d ≤ e ∧ e < d + time) := by omega
  · rw [fadeBetween_before before]
    omega
  · rw [fadeBetween_after after]
    omega
  · rw [fadeBetween_during hd he]
    exact interpolate_between (by omega)

theorem Fade.level_up {f : Fade} {s t : Level} (h : s.toNat < t.toNat) :
    f.level s t = fadeBetween s t f.du f.tu f.elapsed :=
  if_pos h

theorem Fade.level_down {f : Fade} {s t : Level} (h : t.toNat < s.toNat) :
    f.level s t = fadeBetween s t f.dd f.td f.elapsed :=
  (if_neg (Nat.lt_asymm h)).trans (if_pos h)

@[simp] theorem Fade.level_same (f : Fade) (t : Level) : f.level t t = t := by
  simp [Fade.level]

/-! ### Curves (R12, R13) -/

@[simp] theorem TableSet.curveLevel_zero (t : TableSet) (x : Level) : t.curveLevel 0 x = x :=
  if_pos rfl

theorem TableSet.curveLevel_of_ne_zero {t : TableSet} {k : Fin 8} (hk : k ≠ 0) (x : Level) :
    t.curveLevel k x =
      interpolate (t.point k (x.toNat / 4096)) (t.point k (x.toNat / 4096 + 1)) (x.toNat % 4096) 4096 :=
  if_neg hk

/-- Settles O20: a fade phase by phase, a slot by the sign of T − S, a curve segment by segment. -/
theorem fadesAndCurvesStayBetweenTheirEnds : Obligations.FadesAndCurvesStayBetweenTheirEnds := by
  refine ⟨fun s t d time e => ?fade, fun f s t => ?slot, fun t k x => ⟨?passed, fun hk => ?curve⟩⟩
  case fade =>
    exact ⟨fadeBetween_before, fadeBetween_after, fadeBetween_during_toNat, fadeBetween_between s t d time e⟩
  case slot =>
    exact ⟨Fade.level_up, Fade.level_down, fun h => h ▸ Fade.level_same f s⟩
  case passed =>
    rintro rfl
    exact t.curveLevel_zero x
  case curve =>
    have inSegment : x.toNat % 4096 ≤ 4096 := by omega
    rw [TableSet.curveLevel_of_ne_zero hk x]
    obtain ⟨lower, upper⟩ := interpolate_between inSegment
    refine ⟨lower, upper, fun start => ?_, interpolate_toNat inSegment⟩
    rw [start, interpolate_zero]

end Sys2Proof.Machine
end

