-- ==== Sys2Proof/Proofs/CircuitTable.lean ====
section
/-! A circuit resolved through the two layers, its raw level and its mode stage, row by row (R8, R9, R11, R15). -/

namespace Sys2Proof.Machine

/-! ### The effective entry (R8) -/

theorem TableSet.entry_of_prod {t : TableSet} {c : Circ} {e : PatchEntry} (h : t.prodPatch[c] = some e) :
    t.entry c = some e := by
  rw [TableSet.entry, h, Option.some_or]

theorem TableSet.entry_of_house {t : TableSet} {c : Circ} (h : t.prodPatch[c] = none) :
    t.entry c = t.housePatch[c] := by
  rw [TableSet.entry, h, Option.none_or]

/-! ### The effective record (R9) -/

theorem TableSet.record_of_prod {t : TableSet} {c : Circ} {r : CircuitRecord} (h : t.prodCircuits[c] = some r) :
    t.record c = r := by
  rw [TableSet.record, h, Option.some_or, Option.getD_some]

theorem TableSet.record_of_house {t : TableSet} {c : Circ} {r : CircuitRecord} (hp : t.prodCircuits[c] = none)
    (hh : t.houseCircuits[c] = some r) : t.record c = r := by
  rw [TableSet.record, hp, Option.none_or, hh, Option.getD_some]

theorem TableSet.record_of_none {t : TableSet} {c : Circ} (hp : t.prodCircuits[c] = none)
    (hh : t.houseCircuits[c] = none) : t.record c = .default := by
  rw [TableSet.record, hp, Option.none_or, hh, Option.getD_none]

/-! ### The raw level (R11) -/

/-- A proportion is at most 100, so the scaled level is still a word. -/
theorem PatchEntry.apply_toNat (e : PatchEntry) (m : Level) :
    (e.apply m).toNat = m.toNat * e.proportion.val / 100 := by
  have hp : e.proportion.val ≤ 100 := Nat.le_of_lt_succ e.proportion.isLt
  have hle : m.toNat * e.proportion.val ≤ m.toNat * 100 := Nat.mul_le_mul_left _ hp
  have hm := m.isLt
  rw [PatchEntry.apply, BitVec.toNat_ofNat]
  omega

@[simp] theorem rawLevel_none (merged : Chan → Level) : rawLevel merged none = 0 := rfl

@[simp] theorem rawLevel_some (merged : Chan → Level) (e : PatchEntry) :
    rawLevel merged (some e) = e.apply (merged e.channel) := rfl

/-! ### The mode stage, one lemma for each row of R15 -/

theorem TableSet.modeStage_unused {t : TableSet} {r : CircuitRecord} {raw : Level} (hm : r.mode = .unused) :
    t.modeStage r raw = 0 := by
  simp [TableSet.modeStage, hm]

theorem TableSet.modeStage_park {t : TableSet} {r : CircuitRecord} {raw l : Level} (hm : r.mode ≠ .unused)
    (hp : r.park = some l) : t.modeStage r raw = l := by
  cases mode : r.mode with
  | unused => exact absurd mode hm
  | dim => simp [TableSet.modeStage, mode, hp]
  | switch => simp [TableSet.modeStage, mode, hp]

theorem TableSet.modeStage_dim {t : TableSet} {r : CircuitRecord} {raw : Level} (hm : r.mode = .dim)
    (hp : r.park = none) : t.modeStage r raw = t.curveLevel r.curve raw := by
  simp [TableSet.modeStage, hm, hp]

theorem TableSet.modeStage_switch {t : TableSet} {r : CircuitRecord} {raw : Level} (hm : r.mode = .switch)
    (hp : r.park = none) : t.modeStage r raw = if r.threshold.toNat ≤ raw.toNat then 65535 else 0 := by
  simp [TableSet.modeStage, hm, hp, BitVec.le_def]

/-- Settles O35: the layers by which of them holds the circuit, the mode stage by the row of R15 that applies. -/
theorem entryRecordAndModeOfACircuit : Obligations.EntryRecordAndModeOfACircuit := by
  refine ⟨fun t c merged => ⟨fun _ => TableSet.entry_of_prod, TableSet.entry_of_house, fun _ => TableSet.record_of_prod,
    fun _ => TableSet.record_of_house, TableSet.record_of_none, fun e patched => ?patched, fun unpatched => ?unpatched⟩,
    fun t r raw => ⟨TableSet.modeStage_unused, fun _ => TableSet.modeStage_park, TableSet.modeStage_dim,
      fun hm hp on => ?on, fun hm hp off => ?off⟩⟩
  case patched => rw [patched, rawLevel_some, e.apply_toNat]
  case unpatched => rw [unpatched, rawLevel_none]
  case on => rw [TableSet.modeStage_switch hm hp, if_pos on]
  case off => rw [TableSet.modeStage_switch hm hp, if_neg (Nat.not_le_of_lt off)]

end Sys2Proof.Machine
end

