-- ==== Sys2Proof/Proofs/RecordBuffer.lean ====
section
/-! The record buffer of a port written and read in runs of words (R35, R36): each request's decision, case by case, then the
whole state after it. -/

namespace Sys2Proof.Machine

/-! ### A run of words in a buffer -/

/-- The buffer after a write, place by place. -/
theorem setRun_words {n : Nat} (v : Vector Word n) (first : Nat) (ws : List Word) (i : Fin n) :
    (setRun v first ws)[i] =
      if first ≤ i.val ∧ i.val < first + ws.length then at' ws (i.val - first) else v[i] := by
  obtain inside | outside : (first ≤ i.val ∧ i.val < first + ws.length) ∨ (i.val < first ∨ first + ws.length ≤ i.val) := by
    omega
  · have hi : i.val - first < ws.length := by omega
    rw [if_pos inside, at', List.getD_eq_getElem ws 0 hi]
    exact setRun_inside v first ws i.val i.isLt inside.1 hi
  · rw [if_neg (by omega)]
    exact setRun_outside v first ws i.val i.isLt outside

/-! ### CUE DATA WRITE (R35) -/

theorem decideCueDataWrite_fits {offset : Word} {ws : List Word} (hw : 1 ≤ ws.length)
    (hfit : offset.toNat + ws.length ≤ 512) (p : PortIx) (s : State) :
    decideCueDataWrite p (offset :: ws) s =
      done (s.modPort p fun q => { q with record := setRun q.record offset.toNat ws }) := by
  cases ws with
  | nil => exact absurd hw (by decide)
  | cons w ws => exact if_pos hfit

theorem decideCueDataWrite_past {offset : Word} {ws : List Word} (hpast : 512 < offset.toNat + ws.length)
    (p : PortIx) (s : State) : decideCueDataWrite p (offset :: ws) s = refuse s .badArgument := by
  cases ws with
  | nil => rfl
  | cons w ws => exact if_neg (Nat.not_le_of_lt hpast)

theorem exec_cueDataWrite_fits {s : State} {h : FrameHead} (hs : s.Serves h) {offset : Word} {ws : List Word}
    (hw : 1 ≤ ws.length) (hl : ws.length ≤ 126) (hfit : offset.toNat + ws.length ≤ 512) :
    exec (.cueDataWrite h (offset :: ws)) s = .next { s with
      ports := s.ports.set h.port (Port.enqueue (replyTo h 0x05 .done)
        { s.ports[h.port].tookGood with record := setRun s.ports[h.port].record offset.toNat ws }) } := by
  have hargs : (offset :: ws).length ≤ 127 := Nat.succ_le_succ hl
  calc exec (.cueDataWrite h (offset :: ws)) s
      = .next (s.takeRequest h 0x05 (offset :: ws) decideCueDataWrite) := rfl
    _ = .next (((s.modPort h.port Port.tookGood).modPort h.port fun q =>
          { q with record := setRun q.record offset.toNat ws }).modPort h.port (Port.enqueue (replyTo h 0x05 .done))) := by
        rw [State.takeRequest_serves hs rfl hargs, decideCueDataWrite_fits hw hfit]
        rfl
    _ = _ := by
        rw [State.modPort_modPort, State.modPort_modPort]
        rfl

theorem exec_cueDataWrite_past {s : State} {h : FrameHead} (hs : s.Serves h) {offset : Word} {ws : List Word}
    (hl : ws.length ≤ 126) (hpast : 512 < offset.toNat + ws.length) :
    exec (.cueDataWrite h (offset :: ws)) s = .next { s with
      ports := s.portsAfter h.port (replyTo h 0x05 .badArgument) } := by
  have hargs : (offset :: ws).length ≤ 127 := Nat.succ_le_succ hl
  exact congrArg Host.Outcome.next (State.takeRequest_refused hs rfl hargs (decideCueDataWrite_past hpast h.port _))

/-! ### CUE DATA READ (R36) -/

theorem decideCueDataRead_fits {offset count : Word} (h1 : 1 ≤ count.toNat) (h128 : count.toNat ≤ 128)
    (hfit : offset.toNat + count.toNat ≤ 512) (p : PortIx) (s : State) :
    decideCueDataRead p [offset, count] s =
      { state := s, result := .done, data := getRun s.ports[p].record offset.toNat count.toNat } :=
  if_pos ⟨h1, h128, hfit⟩

theorem decideCueDataRead_bad {offset count : Word}
    (hbad : count.toNat = 0 ∨ 128 < count.toNat ∨ 512 < offset.toNat + count.toNat) (p : PortIx) (s : State) :
    decideCueDataRead p [offset, count] s = refuse s .badArgument :=
  if_neg (by omega)

/-- Counting the frame that brings the request leaves the buffer as it stands. -/
theorem State.frameTaken_record (s : State) (p : PortIx) : (s.frameTaken p).ports[p].record = s.ports[p].record := by
  rw [State.frameTaken_get]
  rfl

theorem exec_cueDataRead_fits {s : State} {h : FrameHead} (hs : s.Serves h) {offset count : Word}
    (h1 : 1 ≤ count.toNat) (h128 : count.toNat ≤ 128) (hfit : offset.toNat + count.toNat ≤ 512) :
    exec (.cueDataRead h [offset, count]) s = .next { s with
      ports := s.portsAfter h.port { replyTo h 0x06 .done with
        data := (s.ports[h.port].record.toList.drop offset.toNat).take count.toNat } } := by
  have hargs : [offset, count].length ≤ 127 := by simp
  have hd := decideCueDataRead_fits h1 h128 hfit h.port (s.frameTaken h.port)
  rw [State.frameTaken_record] at hd
  calc exec (.cueDataRead h [offset, count]) s
      = .next (s.takeRequest h 0x06 [offset, count] decideCueDataRead) := rfl
    _ = _ := by
        rw [State.takeRequest_keepsPorts hs rfl hargs hd rfl]
        rfl

theorem exec_cueDataRead_bad {s : State} {h : FrameHead} (hs : s.Serves h) {offset count : Word}
    (hbad : count.toNat = 0 ∨ 128 < count.toNat ∨ 512 < offset.toNat + count.toNat) :
    exec (.cueDataRead h [offset, count]) s = .next { s with
      ports := s.portsAfter h.port (replyTo h 0x06 .badArgument) } := by
  have hargs : [offset, count].length ≤ 127 := by simp
  exact congrArg Host.Outcome.next (State.takeRequest_refused hs rfl hargs (decideCueDataRead_bad hbad h.port _))

/-- Settles O23: a write and a read, each by whether its run lies within the 512 places. -/
theorem theRecordBufferIsWrittenAndRead : Obligations.TheRecordBufferIsWrittenAndRead := by
  intro h offset ws count s hs hw hl
  refine ⟨fun hfit => ?written, exec_cueDataWrite_past hs hl, exec_cueDataRead_fits hs, exec_cueDataRead_bad hs⟩
  case written =>
    exact ⟨setRun s.ports[h.port].record offset.toNat ws, exec_cueDataWrite_fits hs hw hl hfit,
      setRun_words s.ports[h.port].record offset.toNat ws⟩

end Sys2Proof.Machine
end

