-- ==== Sys2Proof/Proofs/GoRequests.lean ====
section
/-! A GO decided (R53, R55): its checks in order, each with its reply; the room that an accepted GO finds or makes; then the
whole state after it. -/

namespace Sys2Proof.Machine

/-! ### A request in step that tests 1 to 3 refuse (R203) -/

theorem State.takeRequest_notAdmitted {s : State} {h : FrameHead} (hs : s.InStep h)
    (room : s.ports[h.port].replies.length < 4) {code : Word} {args : List Word} (hl : args.length ≤ 127) {r : Result}
    (ha : s.admission h.port code = some r) (decide : PortIx → List Word → State → Decision) :
    s.takeRequest h code args decide = { s with ports := s.portsAfter h.port (replyTo h code r) } := by
  have hroom : ¬4 ≤ (s.frameTaken h.port).ports[h.port].replies.length := by
    rw [State.frameTaken_get]
    exact Nat.not_le_of_lt room
  have hadm : (s.frameTaken h.port).admission h.port code = some r := ha
  calc s.takeRequest h code args decide
      = State.manage h.port h.seq code args decide (s.frameTaken h.port) := by
        simp only [State.takeRequest, hl, if_true]
        exact State.receiveGood_inStep hs _
    _ = (s.frameTaken h.port).modPort h.port (Port.enqueue (replyTo h code r)) := by
        simp only [State.manage, hroom, if_false, hadm]
        rfl
    _ = _ := by
        rw [State.frameTaken, State.modPort_modPort]
        rfl

theorem State.admission_notPermitted {s : State} {p : PortIx} {code : Word} (hc : assignedCode code = true)
    (hr : code ≠ codeStatusRead) (hp : s.mgmt.inputs[p].permit = false) : s.admission p code = some .notPermitted := by
  simp [State.admission, hc, hr, hp, -Fin.getElem_fin]

theorem State.admission_starting {s : State} {p : PortIx} {code : Word} (hc : assignedCode code = true)
    (hr : code ≠ codeStatusRead) (hp : s.mgmt.inputs[p].permit = true) (hb : s.bank.state = .starting) :
    s.admission p code = some .starting := by
  simp [State.admission, hc, hr, hp, hb, -Fin.getElem_fin]

/-! ### The slots -/

theorem Slot.isFetching_of_free {x : Slot} (h : x = .free) : x.isFetching = false := by rw [h]; rfl

/-- A slot with a start order is FADING or PAUSED. -/
theorem Slot.isFetching_of_order {x : Slot} {k : Nat} (h : x.order? = some k) : x.isFetching = false := by
  cases x with
  | fetching f => exact absurd h (by simp [Slot.order?, Slot.fade?])
  | free | fading f | paused f => rfl

@[simp] theorem Slot.mapOrder_isFree (g : Nat → Nat) (x : Slot) : (x.mapOrder g).isFree = x.isFree := by
  cases x <;> rfl

theorem Playback.allFetching_iff (pb : Playback) :
    pb.slots.toList.all Slot.isFetching = true ↔ ∀ n : SlotIx, pb.slots[n].isFetching = true := by
  rw [List.all_eq_true]
  constructor
  · exact fun h n => h _ (Vector.mem_toList_iff.2 (Vector.getElem_mem n.isLt))
  · intro h x hx
    obtain ⟨i, hi, rfl⟩ := Vector.getElem_of_mem (Vector.mem_toList_iff.1 hx)
    exact h ⟨i, hi⟩

/-- One slot that is not FETCHING is enough. -/
theorem Playback.not_allFetching {pb : Playback} {n : SlotIx} (h : pb.slots[n].isFetching = false) :
    pb.slots.toList.all Slot.isFetching = false := by
  rw [Bool.eq_false_iff, Ne, pb.allFetching_iff]
  exact fun hall => Bool.false_ne_true (h.symm.trans (hall n))

theorem Playback.lowestFree?_eq_none_iff (pb : Playback) :
    pb.lowestFree? = none ↔ ∀ n : SlotIx, pb.slots[n].isFree = false := by
  simp [Playback.lowestFree?]

/-! ### Room for a GO (R55, R56) -/

theorem Playback.forceCompleted_slot (pb : Playback) (n : SlotIx) : (pb.forceCompleted n).slots[n] = .free := by
  simp [Playback.forceCompleted]

theorem Playback.forceCompleted_isFree_other (pb : Playback) {n m : SlotIx} (h : m ≠ n) :
    (pb.forceCompleted n).slots[m].isFree = pb.slots[m].isFree := by
  simp [Playback.forceCompleted, h]

/-- The slot force-completed when none was FREE is the only FREE one. -/
theorem Playback.forceCompleted_lowestFree? {pb : Playback} (full : pb.lowestFree? = none) (n : SlotIx) :
    (pb.forceCompleted n).lowestFree? = some n := by
  cases found : (pb.forceCompleted n).lowestFree? with
  | none =>
    have := (Playback.lowestFree?_eq_none_iff _).1 found n
    rw [pb.forceCompleted_slot n] at this
    exact absurd this (by decide)
  | some m =>
    have free := Playback.lowestFree?_free found
    by_cases hm : m = n
    · rw [hm]
    · have other := pb.forceCompleted_isFree_other hm
      rw [free, pb.lowestFree?_eq_none_iff.1 full m] at other
      exact absurd other (by decide)

theorem State.makeRoom_free {s : State} {n : SlotIx} (h : s.playback.lowestFree? = some n) : s.makeRoom = s := by
  simp only [State.makeRoom, h]

theorem State.makeRoom_full {s : State} {n : SlotIx} (full : s.playback.lowestFree? = none)
    (oldest : s.playback.oldest? = some n) :
    s.makeRoom = { s with
      playback := s.playback.forceCompleted n
      mgmt := s.mgmt.raise .forcedCompletion } := by
  simp only [State.makeRoom, full, oldest, Playback.complete_oldest oldest]
  rfl

/-! ### An accepted GO (R55) -/

/-- A GO takes the slot that its room leaves lowest, and its fetch joins the Memory Port. -/
theorem State.acceptGo_room {s : State} {n : SlotIx} (hg : s.makeRoom.memPort.granted)
    (hn : s.makeRoom.playback.lowestFree? = some n) (b : BankIx) (e : DirEntry) (limit : Option Nat) :
    s.acceptGo b e limit = { s.makeRoom with
      playback := s.makeRoom.playback.taken n e limit
      memPort := s.makeRoom.memPort.fetchJoined ⟨n, b, e.cell⟩ } := by
  simp only [State.acceptGo, hn]
  exact State.joinFetch_granted (s := { s.makeRoom with playback := s.makeRoom.playback.take n e limit }) hg _

theorem State.acceptGo_free {s : State} {n : SlotIx} (hg : s.memPort.granted) (hn : s.playback.lowestFree? = some n)
    (b : BankIx) (e : DirEntry) (limit : Option Nat) :
    s.acceptGo b e limit = { s with
      playback := s.playback.taken n e limit
      memPort := s.memPort.fetchJoined ⟨n, b, e.cell⟩ } := by
  have room := State.makeRoom_free hn
  have h := State.acceptGo_room (s := s) (n := n) (by rwa [room]) (by rwa [room]) b e limit
  rwa [room] at h

theorem State.acceptGo_full {s : State} {n : SlotIx} (hg : s.memPort.granted) (full : s.playback.lowestFree? = none)
    (oldest : s.playback.oldest? = some n) (b : BankIx) (e : DirEntry) (limit : Option Nat) :
    s.acceptGo b e limit = { s with
      playback := (s.playback.forceCompleted n).taken n e limit
      mgmt := s.mgmt.raise .forcedCompletion
      memPort := s.memPort.fetchJoined ⟨n, b, e.cell⟩ } := by
  have room := State.makeRoom_full full oldest
  have h := State.acceptGo_room (s := s) (n := n) (by rwa [room])
    (by rw [room]; exact Playback.forceCompleted_lowestFree? full n) b e limit
  rwa [room] at h

/-! ### Checks 3 to 7 (R53) -/

theorem State.inChangeover_iff (s : State) : s.inChangeover = true ↔ s.opKind = some .changeover := beq_iff_eq

theorem State.inChangeover_eq_false_iff (s : State) : s.inChangeover = false ↔ s.opKind ≠ some .changeover :=
  beq_eq_false_iff_ne

section
variable {s : State} {t : GoTarget}

theorem State.goCheck_changeover (hc : s.inChangeover = true) : s.goCheck t = .error .busy := by
  simp only [State.goCheck, hc, if_true]

theorem State.goCheck_checkActive (hc : s.inChangeover = false) (hl : s.lamp.active = true) :
    s.goCheck t = .error .checkActive := by
  simp [State.goCheck, hc, hl]

theorem State.goCheck_noBank (hc : s.inChangeover = false) (hl : s.lamp.active = false) (hb : s.tables.liveBank = none) :
    s.goCheck t = .error .noBank := by
  simp [State.goCheck, hc, hl, hb]

theorem State.goCheck_noCue (hc : s.inChangeover = false) (hl : s.lamp.active = false) (hb : s.tables.liveBank ≠ none)
    (hr : s.playback.resolve t = none) : s.goCheck t = .error .noCue := by
  obtain ⟨b, hb⟩ := Option.ne_none_iff_exists'.1 hb
  simp [State.goCheck, hc, hl, hb, hr]

theorem State.goCheck_allFetching (hc : s.inChangeover = false) (hl : s.lamp.active = false)
    (hb : s.tables.liveBank ≠ none) (hr : s.playback.resolve t ≠ none)
    (hf : ∀ n : SlotIx, s.playback.slots[n].isFetching = true) : s.goCheck t = .error .busy := by
  obtain ⟨b, hb⟩ := Option.ne_none_iff_exists'.1 hb
  obtain ⟨e, hr⟩ := Option.ne_none_iff_exists'.1 hr
  have hall := s.playback.allFetching_iff.2 hf
  simp only [State.goCheck, hc, hl, hb, hr, hall, if_true, Bool.false_eq_true, if_false]

theorem State.goCheck_ok {b : BankIx} {e : DirEntry} {n : SlotIx} (hc : s.inChangeover = false)
    (hl : s.lamp.active = false) (hb : s.tables.liveBank = some b) (hr : s.playback.resolve t = some e)
    (hf : s.playback.slots[n].isFetching = false) : s.goCheck t = .ok (b, e) := by
  have hall := Playback.not_allFetching hf
  simp only [State.goCheck, hc, hl, hb, hr, hall, Bool.false_eq_true, if_false]

end

/-! ### The whole state after a GO -/

theorem decideGo_error {target number limit : Word} {s : State} {r : Result}
    (h : s.goCheck (goTargetOf target number) = .error r) (p : PortIx) :
    decideGo p [target, number, limit] s = refuse s r := by
  simp only [decideGo, h]

theorem decideGo_ok {target number limit : Word} {s : State} {b : BankIx} {e : DirEntry}
    (h : s.goCheck (goTargetOf target number) = .ok (b, e)) (p : PortIx) :
    decideGo p [target, number, limit] s = accepted (s.acceptGo b e (overrideOf limit)) := by
  simp only [decideGo, h]

section
variable {s : State} {h : FrameHead} {target number limit : Word}

theorem exec_go_notAdmitted {r : Result} (hs : s.InStep h) (room : s.ports[h.port].replies.length < 4)
    (ha : s.admission h.port 0x01 = some r) :
    exec (.go h [target, number, limit]) s = .next { s with ports := s.portsAfter h.port (replyTo h 0x01 r) } :=
  congrArg Host.Outcome.next (State.takeRequest_notAdmitted hs room (by simp) ha decideGo)

theorem exec_go_refused {r : Result} (hs : s.Serves h) (hc : s.goCheck (goTargetOf target number) = .error r) :
    exec (.go h [target, number, limit]) s = .next { s with ports := s.portsAfter h.port (replyTo h 0x01 r) } :=
  congrArg Host.Outcome.next
    (State.takeRequest_refused hs rfl (by simp) (decideGo_error (s := s.frameTaken h.port) hc h.port))

/-- A GO accepted: what it does starts from the port's count of its frame, which playback does not see. -/
theorem exec_go_accepted {b : BankIx} {e : DirEntry} {t : State} (hs : s.Serves h)
    (hc : s.goCheck (goTargetOf target number) = .ok (b, e))
    (ht : (s.frameTaken h.port).acceptGo b e (overrideOf limit) = t) (hports : t.ports = (s.frameTaken h.port).ports) :
    exec (.go h [target, number, limit]) s = .next { t with
      ports := s.portsAfter h.port (replyTo h 0x01 .accepted) } := by
  have hd := decideGo_ok (limit := limit) (s := s.frameTaken h.port) hc h.port
  rw [ht] at hd
  exact congrArg Host.Outcome.next (State.takeRequest_keepsPorts hs rfl (by simp) hd hports)

end

/-- Settles O13: the entry is taken into the lowest FREE slot, or into the oldest fade's, force-completed to make one. -/
theorem anAcceptedGoSetsASlotFetching : Obligations.AnAcceptedGoSetsASlotFetching := by
  intro h target number limit s b e n hs hg hc hl hb hr
  refine ⟨fun free => ?free, fun full oldest => ?full⟩
  case free =>
    have notFetching := Slot.isFetching_of_free (Playback.lowestFree?_free free)
    exact exec_go_accepted hs (State.goCheck_ok hc hl hb hr notFetching)
      (State.acceptGo_free (s := s.frameTaken h.port) hg free b e _) rfl
  case full =>
    have notFetching := Slot.isFetching_of_order (Playback.oldest?_order oldest)
    exact exec_go_accepted hs (State.goCheck_ok hc hl hb hr notFetching)
      (State.acceptGo_full (s := s.frameTaken h.port) hg full oldest b e _) rfl

/-- Settles O14: checks 1 and 2 by the admission of a request, checks 3 to 7 by `goCheck`, each when those before it pass. -/
theorem goIsRefusedByTheFirstCheckThatFails : Obligations.GoIsRefusedByTheFirstCheckThatFails := by
  intro h target number limit s hs room
  refine ⟨fun hp => ?notPermitted, fun hp hb => ?starting, fun hp hb => ?_⟩
  case notPermitted => exact exec_go_notAdmitted hs room (State.admission_notPermitted rfl (by decide) hp)
  case starting => exact exec_go_notAdmitted hs room (State.admission_starting rfl (by decide) hp hb)
  have serves : s.Serves h := ⟨hs, room, hp, hb⟩
  simp only [← s.inChangeover_iff, ← s.inChangeover_eq_false_iff]
  exact ⟨fun hc => exec_go_refused serves (State.goCheck_changeover hc),
    fun hc hl => exec_go_refused serves (State.goCheck_checkActive hc hl),
    fun hc hl hb => exec_go_refused serves (State.goCheck_noBank hc hl hb),
    fun hc hl hb hr => exec_go_refused serves (State.goCheck_noCue hc hl hb hr),
    fun hc hl hb hr hf => exec_go_refused serves (State.goCheck_allFetching hc hl hb hr hf)⟩

end Sys2Proof.Machine
end

