-- ==== Sys2Proof/Proofs/PauseAndResume.lean ====
section
/-! PAUSE and RESUME (R69–R72, R218): the decision about one slot, by what the slot is, and about ALL; then the whole state after
each request. -/

namespace Sys2Proof.Machine

/-! ### The slot that a word names -/

theorem finOf?_of_toNat {n : Nat} {w : Word} {i : Fin n} (h : w.toNat = i.val) : finOf? n w = some i := by
  have hlt : w.toNat < n := h ▸ i.isLt
  simp only [finOf?, hlt, dif_pos]
  exact congrArg some (Fin.ext h)

theorem finOf?_toNat {n : Nat} {w : Word} {i : Fin n} (h : finOf? n w = some i) : w.toNat = i.val := by
  unfold finOf? at h
  split at h
  · cases h; rfl
  · cases h

/-! ### One slot (R69, R71) -/

section
variable {s : State} {w : Word}

theorem State.pauseSlot_fading {n : SlotIx} {f : Fade} (hw : w.toNat = n.val) (hf : s.playback.slots[n] = .fading f) :
    s.pauseSlot w =
      done { s with playback := { s.playback with slots := s.playback.slots.set n (.paused f) } } := by
  simp only [State.pauseSlot, finOf?_of_toNat hw, hf]

theorem State.resumeSlot_paused {n : SlotIx} {f : Fade} (hw : w.toNat = n.val) (hf : s.playback.slots[n] = .paused f) :
    s.resumeSlot w =
      done { s with playback := { s.playback with slots := s.playback.slots.set n (.fading f) } } := by
  simp only [State.resumeSlot, finOf?_of_toNat hw, hf]

theorem State.pauseSlot_other (h : ∀ (n : SlotIx) (f : Fade), w.toNat = n.val → s.playback.slots[n] ≠ .fading f) :
    s.pauseSlot w = refuse s .notActive := by
  unfold State.pauseSlot
  split
  · next n named =>
    split
    · next f fading => exact absurd fading (h n f (finOf?_toNat named))
    · rfl
  · rfl

theorem State.resumeSlot_other (h : ∀ (n : SlotIx) (f : Fade), w.toNat = n.val → s.playback.slots[n] ≠ .paused f) :
    s.resumeSlot w = refuse s .notActive := by
  unfold State.resumeSlot
  split
  · next n named =>
    split
    · next f paused => exact absurd paused (h n f (finOf?_toNat named))
    · rfl
  · rfl

theorem decidePause_slot (hw : w ≠ slotAll) (p : PortIx) : decidePause p [w] s = s.pauseSlot w := if_neg hw

theorem decideResume_slot (hw : w ≠ slotAll) (p : PortIx) : decideResume p [w] s = s.resumeSlot w := if_neg hw

theorem decidePause_all (p : PortIx) : decidePause p [slotAll] s = done s.pauseAll := by
  rw [decidePause, if_pos rfl]

theorem decideResume_all (p : PortIx) : decideResume p [slotAll] s = done s.resumeAll := by
  rw [decideResume, if_pos rfl]

end

/-! ### The whole state after a request of one slot -/

section
variable {s : State} {h : FrameHead} {w : Word}

theorem exec_pause_fading (hs : s.Serves h) (hw : w ≠ slotAll) {n : SlotIx} {f : Fade} (hn : w.toNat = n.val)
    (hf : s.playback.slots[n] = .fading f) :
    exec (.pause h [w]) s = .next { s with
      ports := s.portsAfter h.port (replyTo h 0x02 .done)
      playback := { s.playback with slots := s.playback.slots.set n (.paused f) } } :=
  congrArg Host.Outcome.next (State.takeRequest_keepsPorts hs rfl (by simp)
    ((decidePause_slot hw h.port).trans (State.pauseSlot_fading (s := s.frameTaken h.port) hn hf)) rfl)

theorem exec_resume_paused (hs : s.Serves h) (hw : w ≠ slotAll) {n : SlotIx} {f : Fade} (hn : w.toNat = n.val)
    (hf : s.playback.slots[n] = .paused f) :
    exec (.resume h [w]) s = .next { s with
      ports := s.portsAfter h.port (replyTo h 0x03 .done)
      playback := { s.playback with slots := s.playback.slots.set n (.fading f) } } :=
  congrArg Host.Outcome.next (State.takeRequest_keepsPorts hs rfl (by simp)
    ((decideResume_slot hw h.port).trans (State.resumeSlot_paused (s := s.frameTaken h.port) hn hf)) rfl)

theorem exec_pause_other (hs : s.Serves h) (hw : w ≠ slotAll)
    (hf : ∀ (n : SlotIx) (f : Fade), w.toNat = n.val → s.playback.slots[n] ≠ .fading f) :
    exec (.pause h [w]) s = .next { s with ports := s.portsAfter h.port (replyTo h 0x02 .notActive) } :=
  congrArg Host.Outcome.next (State.takeRequest_refused hs rfl (by simp)
    ((decidePause_slot hw h.port).trans (State.pauseSlot_other (s := s.frameTaken h.port) hf)))

theorem exec_resume_other (hs : s.Serves h) (hw : w ≠ slotAll)
    (hf : ∀ (n : SlotIx) (f : Fade), w.toNat = n.val → s.playback.slots[n] ≠ .paused f) :
    exec (.resume h [w]) s = .next { s with ports := s.portsAfter h.port (replyTo h 0x03 .notActive) } :=
  congrArg Host.Outcome.next (State.takeRequest_refused hs rfl (by simp)
    ((decideResume_slot hw h.port).trans (State.resumeSlot_other (s := s.frameTaken h.port) hf)))

/-! ### ALL (R70, R72) -/

/-- Two owners that decide a request alike leave the same state. -/
theorem State.takeRequest_sameDecision {s : State} {h : FrameHead} (hs : s.Serves h) {code : Word}
    (hc : assignedCode code = true) {args : List Word} (hl : args.length ≤ 127)
    {decide decide' : PortIx → List Word → State → Decision}
    (hd : decide h.port args (s.frameTaken h.port) = decide' h.port args (s.frameTaken h.port)) :
    s.takeRequest h code args decide = s.takeRequest h code args decide' := by
  rw [State.takeRequest_serves hs hc hl, State.takeRequest_serves hs hc hl, hd]

theorem exec_pauseAll (hs : s.Serves h) :
    exec (.pauseAll h) s = .next { s.pauseAll with ports := s.portsAfter h.port (replyTo h 0x02 .done) } :=
  congrArg Host.Outcome.next
    (State.takeRequest_keepsPorts hs rfl (by simp) (t := (s.frameTaken h.port).pauseAll) rfl rfl)

theorem exec_resumeAll (hs : s.Serves h) :
    exec (.resumeAll h) s = .next { s.resumeAll with ports := s.portsAfter h.port (replyTo h 0x03 .done) } :=
  congrArg Host.Outcome.next
    (State.takeRequest_keepsPorts hs rfl (by simp) (t := (s.frameTaken h.port).resumeAll) rfl rfl)

/-- PAUSE with the word of ALL is PAUSE ALL (R218). -/
theorem exec_pause_all (hs : s.Serves h) : exec (.pause h [slotAll]) s = exec (.pauseAll h) s :=
  congrArg Host.Outcome.next (State.takeRequest_sameDecision hs rfl (by simp) (decidePause_all h.port))

/-- RESUME with the word of ALL is RESUME ALL (R218). -/
theorem exec_resume_all (hs : s.Serves h) : exec (.resume h [slotAll]) s = exec (.resumeAll h) s :=
  congrArg Host.Outcome.next (State.takeRequest_sameDecision hs rfl (by simp) (decideResume_all h.port))

end

/-- Settles O16: one slot by whether it is FADING, PAUSED or neither, then ALL, which the word FFFF hex is. -/
theorem pauseAndResumeHoldAndReleaseFades : Obligations.PauseAndResumeHoldAndReleaseFades := by
  refine ⟨fun h w s hs hw => ?slot, fun h s hs => ⟨exec_pauseAll hs, exec_pause_all hs⟩,
    fun h s hs => ⟨exec_resumeAll hs, exec_resume_all hs⟩⟩
  case slot =>
    exact ⟨fun _ _ => exec_pause_fading hs hw, fun _ _ => exec_resume_paused hs hw, exec_pause_other hs hw,
      exec_resume_other hs hw⟩

end Sys2Proof.Machine
end

