-- ==== Sys2Proof/Proofs/Sweeps.lean ====
section
/-! A LEVEL frame at the sweep assembler of its port (R82–R85, R94): the page of parts 1 and 2 by whether a sweep is begun, the
promotion of part 3, then the whole state after a frame in step. -/

namespace Sys2Proof.Machine

/-! ### Parts 1 and 2: SWEEP-START and the page (R83, R84, R86) -/

theorem Port.startSweep_eq (q : Port) :
    q.startSweep = { q with
      sweeping := true, assembly := noLevels
      counters := { q.counters with
        aborted := if q.sweeping then countUp q.counters.aborted else q.counters.aborted } } := by
  cases sweep : q.sweeping <;> simp [Port.startSweep, Port.abortSweep, sweep]

theorem Port.writePage_idle {q : Port} (idle : q.sweeping = false) (base : Nat) (levels : List Level) :
    q.writePage base levels = q := by
  simp [Port.writePage, idle]

theorem Port.writePage_sweeping {q : Port} (sweep : q.sweeping = true) {base : Word} {levels : List Level}
    (form : levelForm base levels = true) :
    q.writePage base.toNat levels = { q with assembly := pageOver base levels q.assembly } := by
  rw [Port.writePage, if_pos sweep, setRun_page form]

theorem Port.takePage_ignored {q : Port} {flags : Word} (noStart : sweepStart flags = false) (idle : q.sweeping = false)
    (base : Word) (levels : List Level) : q.takePage base flags levels = q := by
  simp [Port.takePage, noStart, Port.writePage_idle idle]

/-- The port whose sweep has taken a page: begun over an empty set by SWEEP-START, which aborts a sweep in progress. -/
def Port.withPage (base flags : Word) (levels : List Level) (q : Port) : Port :=
  { q with
    sweeping := true
    assembly := pageOver base levels (if sweepStart flags then noLevels else q.assembly)
    counters := { q.counters with
      aborted := if sweepStart flags && q.sweeping then countUp q.counters.aborted else q.counters.aborted } }

@[simp] theorem Port.withPage_sweeping (base flags : Word) (levels : List Level) (q : Port) :
    (q.withPage base flags levels).sweeping = true := rfl

@[simp] theorem Port.withPage_source (base flags : Word) (levels : List Level) (q : Port) :
    (q.withPage base flags levels).source = q.source := rfl

theorem Port.takePage_begun {q : Port} {base flags : Word} {levels : List Level} (form : levelForm base levels = true)
    (begun : (sweepStart flags || q.sweeping) = true) : q.takePage base flags levels = q.withPage base flags levels := by
  cases start : sweepStart flags with
  | true =>
    simp only [Port.takePage, Port.withPage, start, if_true, Bool.true_and, Port.startSweep_eq]
    rw [Port.writePage_sweeping rfl form]
  | false =>
    have sweep : q.sweeping = true := by simpa [start] using begun
    simp only [Port.takePage, Port.withPage, start, Bool.false_and, Bool.false_eq_true, if_false]
    rw [Port.writePage_sweeping sweep form, ← sweep]

/-! ### Part 3: SWEEP-END and the promotion (R85, R94) -/

theorem SourceState.returns_iff (x : SourceState) : x.returns = true ↔ x = .holding ∨ x = .fading ∨ x = .lost := by
  cases x <;> simp [SourceState.returns]

section
variable {s : State} {p : PortIx} {base flags : Word} {levels : List Level}

theorem State.takeLevels_ignored (noStart : sweepStart flags = false) (idle : s.ports[p].sweeping = false) :
    s.takeLevels p base flags levels = s := by
  have same : s.modPort p (Port.takePage base flags levels) = s :=
    (State.modPort_congr p (g := fun q => q) (Port.takePage_ignored noStart idle base levels)).trans (State.modPort_id p s)
  simp only [State.takeLevels, same, idle, Bool.and_false, Bool.false_eq_true, if_false]

theorem State.takeLevels_written (form : levelForm base levels = true)
    (begun : (sweepStart flags || s.ports[p].sweeping) = true) (noEnd : sweepEnd flags = false) :
    s.takeLevels p base flags levels = s.modPort p (Port.withPage base flags levels) := by
  simp only [State.takeLevels, noEnd, Bool.false_and, Bool.false_eq_true, if_false]
  exact State.modPort_congr p (Port.takePage_begun form begun)

theorem State.takeLevels_completed (form : levelForm base levels = true)
    (begun : (sweepStart flags || s.ports[p].sweeping) = true) (ended : sweepEnd flags = true) :
    s.takeLevels p base flags levels = State.raiseIf s.ports[p].source.returns (.sourceChange p)
      (s.modPort p fun q => (q.withPage base flags levels).promote s.mgmt.inputs[p].lossN) := by
  have paged := State.modPort_congr p (Port.takePage_begun form begun)
  simp only [State.takeLevels, paged, State.modPort_get, State.modPort_modPort, State.modPort_mgmt, ended,
    Port.withPage_sweeping, Port.withPage_source, Bool.and_self, if_true]

end

/-! ### The whole state after a LEVEL frame in step -/

theorem exec_levelFrame_inStep {h : FrameHead} {base : Word} {levels : List Level} {s : State} (inStep : s.InStep h)
    (form : levelForm base levels = true) (flags : Word) :
    exec (.levelFrame h base flags levels) s = .next ((s.frameTaken h.port).takeLevels h.port base flags levels) := by
  rw [← State.receiveGood_inStep inStep (State.takeLevels h.port base flags levels)]
  simp only [exec, execLevelFrame, form, if_true]

/-- Settles O9: a frame in step is delivered on the port that has counted it, and acts there part by part. -/
theorem aLevelFrameActsInThreeParts : Obligations.ALevelFrameActsInThreeParts := by
  intro h base flags levels s inStep form q page aborted
  rw [exec_levelFrame_inStep inStep form]
  have counted := s.frameTaken_get h.port
  refine ⟨fun noStart idle => ?ignored, fun begun noEnd => ?written, fun begun ended => ?completed⟩
  case ignored => rw [State.takeLevels_ignored noStart (by rw [counted]; exact idle), State.frameTaken_eq]
  case written =>
    rw [State.takeLevels_written form (by rw [counted]; exact begun) noEnd, State.frameTaken, State.modPort_modPort]
    rfl
  case completed =>
    rw [State.takeLevels_completed form (by rw [counted]; exact begun) ended, counted, State.frameTaken,
      State.modPort_modPort]
    by_cases returned : q.source = .holding ∨ q.source = .fading ∨ q.source = .lost
    · have raises : (Port.tookGood q).source.returns = true := (SourceState.returns_iff _).2 returned
      rw [raises, State.raiseIf_true, if_pos returned]
      rfl
    · have quiet : (Port.tookGood q).source.returns = false :=
        Bool.eq_false_iff.2 fun raises => returned ((SourceState.returns_iff _).1 raises)
      rw [quiet, State.raiseIf_false, if_neg returned]
      rfl

end Sys2Proof.Machine
end

