-- ==== Sys2Proof/Proofs/Merge.lean ====
section
/-! The merge (R88, R100, R101): what each input contributes to a channel, and the greatest level found by going through the
inputs one by one. -/

namespace Sys2Proof.Machine

/-! ### The greatest of a level and some offered ones -/

/-- One step of the merge: the greater of the level so far and the one offered, if any. -/
def louder (m : Level) : Option Level → Level
  | some l => if m < l then l else m
  | none => m

theorem louder_some_toNat (m l : Level) : (louder m (some l)).toNat = max m.toNat l.toNat := by
  by_cases h : m.toNat < l.toNat
  · rw [louder, if_pos (BitVec.lt_def.2 h)]
    omega
  · rw [louder, if_neg (mt BitVec.lt_def.1 h)]
    omega

theorem le_louder (m : Level) (o : Option Level) : m.toNat ≤ (louder m o).toNat := by
  cases o with
  | none => exact Nat.le_refl _
  | some l => rw [louder_some_toNat]; exact Nat.le_max_left ..

theorem louder_eq (m : Level) (o : Option Level) : louder m o = m ∨ o = some (louder m o) := by
  cases o with
  | none => exact .inl rfl
  | some l =>
    by_cases h : m < l
    · exact .inr (by rw [louder, if_pos h])
    · exact .inl (by rw [louder, if_neg h])

section
variable {α : Type} (offer : α → Option Level)

/-- The greatest of a level and of all that a list of sources offers. -/
def loudest (m : Level) (ps : List α) : Level := ps.foldl (fun m p => louder m (offer p)) m

theorem loudest_cons (m : Level) (p : α) (ps : List α) :
    loudest offer m (p :: ps) = loudest offer (louder m (offer p)) ps := rfl

theorem le_loudest (ps : List α) (m : Level) : m.toNat ≤ (loudest offer m ps).toNat := by
  induction ps generalizing m with
  | nil => exact Nat.le_refl _
  | cons p ps ih => exact (le_louder m (offer p)).trans (ih _)

theorem offer_le_loudest {ps : List α} {p : α} {l : Level} (hp : p ∈ ps) (hl : offer p = some l) (m : Level) :
    l.toNat ≤ (loudest offer m ps).toNat := by
  induction ps generalizing m with
  | nil => cases hp
  | cons p' ps ih =>
    obtain rfl | later := List.mem_cons.1 hp
    · have taken : l.toNat ≤ (louder m (offer p)).toNat := by
        rw [hl, louder_some_toNat]
        exact Nat.le_max_right ..
      exact taken.trans (le_loudest offer ps _)
    · exact ih later _

theorem loudest_attained (ps : List α) (m : Level) :
    loudest offer m ps = m ∨ ∃ p ∈ ps, offer p = some (loudest offer m ps) := by
  induction ps generalizing m with
  | nil => exact .inl rfl
  | cons p ps ih =>
    rw [loudest_cons]
    obtain first | ⟨p', later, offered⟩ := ih (louder m (offer p))
    · rw [first]
      exact (louder_eq m (offer p)).imp_right fun offered => ⟨p, List.mem_cons_self, offered⟩
    · exact .inr ⟨p', List.mem_cons_of_mem p later, offered⟩

end

/-! ### The contribution of an input (R88, R100, R101) -/

theorem SourceState.contributes_iff (x : SourceState) : x.contributes = true ↔ x = .live ∨ x = .holding ∨ x = .fading := by
  cases x <;> simp [SourceState.contributes]

/-- A loss factor is at most full, so the scaled level is still a word. -/
theorem scaledLevel_toNat (l factor : Word) :
    (BitVec.ofNat 16 (l.toNat * factor.toNat / 65535)).toNat = l.toNat * factor.toNat / 65535 := by
  have hle : l.toNat * factor.toNat ≤ l.toNat * 65535 := Nat.mul_le_mul_left _ (by omega)
  have hl := l.isLt
  rw [BitVec.toNat_ofNat]
  omega

/-- An input drives a channel at a level: it is LIVE, HOLDING or FADING, accepts the channel, and has it in its live set. -/
def State.Drives (s : State) (p : PortIx) (c : Chan) (l : Level) : Prop :=
  (s.ports[p].source = .live ∨ s.ports[p].source = .holding ∨ s.ports[p].source = .fading) ∧
    s.mgmt.inputs[p].accept[c] = true ∧ s.ports[p].live[c] = some l

theorem State.contribution_eq_some_iff (s : State) (p : PortIx) (c : Chan) (k : Level) :
    s.ports[p].contribution s.mgmt.inputs[p] c = some k ↔
      ∃ l, s.Drives p c l ∧ k.toNat = l.toNat * s.ports[p].factor.toNat / 65535 := by
  simp only [Port.contribution, State.Drives, ← SourceState.contributes_iff, Option.ite_none_right_eq_some,
    Bool.and_eq_true, Option.map_eq_some_iff]
  constructor
  · rintro ⟨⟨active, accepted⟩, l, driven, rfl⟩
    exact ⟨l, ⟨active, accepted, driven⟩, scaledLevel_toNat ..⟩
  · rintro ⟨l, ⟨active, accepted, driven⟩, scaled⟩
    exact ⟨⟨active, accepted⟩, l, driven, BitVec.eq_of_toNat_eq ((scaledLevel_toNat ..).trans scaled.symm)⟩

theorem State.merged_eq (s : State) (c : Chan) :
    s.merged c =
      loudest (fun p => s.ports[p].contribution s.mgmt.inputs[p] c) (s.playback.level c) (List.finRange 4) :=
  rfl

/-- Settles O36: the merge goes through all four inputs, and takes the loudest of what they contribute. -/
theorem theMergeTakesTheGreatestLevel : Obligations.TheMergeTakesTheGreatestLevel := by
  intro s c contributes
  rw [State.merged_eq]
  refine ⟨le_loudest _ _ _, fun p l drives => ?bound, (loudest_attained _ _ _).imp_right ?attained⟩
  case bound =>
    rw [← scaledLevel_toNat]
    exact offer_le_loudest _ (List.mem_finRange p)
      ((s.contribution_eq_some_iff p c _).2 ⟨l, drives, scaledLevel_toNat ..⟩) _
  case attained =>
    rintro ⟨p, -, offered⟩
    exact ⟨p, (s.contribution_eq_some_iff p c _).1 offered⟩

end Sys2Proof.Machine
end

