-- ==== Sys2Proof/Proofs/BankRefusals.lean ====
section
/-! The bank operations refused (R37, R38, R129, R133, R139, R141, R142): each request's decision at the first of its checks
that fails, then the whole state after the refusals. -/

namespace Sys2Proof.Machine

/-! ### What the checks read -/

theorem finOf?_eq_none {n : Nat} {w : Word} (h : n ≤ w.toNat) : finOf? n w = none := dif_neg (Nat.not_lt.2 h)

theorem finOf?_eq_some {n : Nat} {w : Word} (h : w.toNat < n) : finOf? n w = some ⟨w.toNat, h⟩ := dif_pos h

theorem isCue_eq_false {w : Word} (h : w = 0 ∨ 9999 < w.toNat) : isCue w = false := by
  refine decide_eq_false fun ⟨atLeast, atMost⟩ => ?_
  obtain rfl | above := h
  · exact absurd atLeast (by decide)
  · exact absurd atMost (Nat.not_le_of_lt above)

theorem Slot.isFree_iff (x : Slot) : x.isFree = true ↔ x = .free := by
  cases x <;> simp [Slot.isFree]

theorem Playback.allFree_iff (pb : Playback) : pb.allFree = true ↔ ∀ n : SlotIx, pb.slots[n] = .free := by
  simp only [Playback.allFree, List.all_eq_true, Slot.isFree_iff]
  constructor
  · exact fun all n => all _ (Vector.mem_toList_iff.2 (Vector.getElem_mem n.isLt))
  · intro all x member
    obtain ⟨i, hi, rfl⟩ := Vector.getElem_of_mem (Vector.mem_toList_iff.1 member)
    exact all ⟨i, hi⟩

/-! ### The conditions of R133, in order -/

section
variable {s : State} (b : BankIx)

theorem changeoverCheck_checkActive (hl : s.lamp.active = true) : changeoverCheck b s = some .checkActive := if_pos hl

theorem changeoverCheck_slotsActive (hl : s.lamp.active = false) (hf : ∃ n : SlotIx, s.playback.slots[n] ≠ .free) :
    changeoverCheck b s = some .slotsActive := by
  have notAll : s.playback.allFree = false := by
    rw [← Bool.not_eq_true, Playback.allFree_iff]
    exact not_forall.2 hf
  simp [changeoverCheck, hl, notAll]

theorem changeoverCheck_stagingEdited (hl : s.lamp.active = false) (hf : ∀ n : SlotIx, s.playback.slots[n] = .free)
    (he : s.tables.stage = .edited) : changeoverCheck b s = some .stagingEdited := by
  simp [changeoverCheck, hl, s.playback.allFree_iff.2 hf, he]

end

/-! ### The decisions -/

section
variable {s : State} {w : Word} {cue : Word} {kind : OpKind} {check : BankIx → State → Option Result}
  {prepare : State → State} (p : PortIx)

theorem decideBankOp_busy (hb : s.bank.state ≠ .idle) : decideBankOp kind check prepare p [w] s = refuse s .busy :=
  if_pos hb

theorem decideBankOp_noBank (hi : s.bank.state = .idle) (hw : 3 < w.toNat) :
    decideBankOp kind check prepare p [w] s = refuse s .badArgument := by
  simp [decideBankOp, hi, finOf?_eq_none hw]

theorem decideBankOp_checked {b : BankIx} {r : Result} (hi : s.bank.state = .idle) (hw : w.toNat = b.val)
    (hc : check b s = some r) : decideBankOp kind check prepare p [w] s = refuse s r := by
  simp [decideBankOp, hi, finOf?_of_toNat hw, hc]

theorem decideChangeover_checked {r : Result} (hi : s.bank.state = .idle) (hw : w.toNat < 4)
    (hc : ∀ b, changeoverCheck b s = some r) : decideChangeover p [w] s = refuse s r :=
  decideBankOp_checked (b := ⟨w.toNat, hw⟩) p hi rfl (hc _)

theorem decideFormat_live {b : BankIx} (hi : s.bank.state = .idle) (hw : w.toNat = b.val)
    (hb : s.tables.liveBank = some b) : decideFormat p [w] s = refuse s .bankLive :=
  decideBankOp_checked p hi hw (if_pos hb)

theorem decideSaveHouse_busy (hb : s.bank.state ≠ .idle) : decideSaveHouse p [] s = refuse s .busy := if_pos hb

theorem decideCueOp_busy (hb : s.bank.state ≠ .idle) : decideCueOp kind p [w, cue] s = refuse s .busy := if_pos hb

theorem decideCueOp_noBank (hi : s.bank.state = .idle) (hw : 3 < w.toNat) :
    decideCueOp kind p [w, cue] s = refuse s .badArgument := by
  simp [decideCueOp, hi, finOf?_eq_none hw]

theorem decideCueOp_noCue (hi : s.bank.state = .idle) (hw : w.toNat < 4) (hc : isCue cue = false) :
    decideCueOp kind p [w, cue] s = refuse s .badArgument := by
  simp [decideCueOp, hi, finOf?_eq_some hw, hc]

theorem decideStoreCue_busy (hb : s.bank.state ≠ .idle) : decideStoreCue p [w] s = refuse s .busy := if_pos hb

theorem decideStoreCue_noBank (hi : s.bank.state = .idle) (hw : 3 < w.toNat) :
    decideStoreCue p [w] s = refuse s .badArgument := by
  simp [decideStoreCue, hi, finOf?_eq_none hw]

theorem decideStoreCue_noRecord (hi : s.bank.state = .idle) (hr : CueRecord.of? s.ports[p].record.toList = none) :
    decideStoreCue p [w] s = refuse s .badArgument := by
  simp [decideStoreCue, hi, hr, -Fin.getElem_fin]

end

/-! ### The whole state after a refusal -/

/-- The outcome of an instruction whose request is in step, and whose owner refuses it once its frame is counted (R206). -/
theorem exec_refused {s : State} {h : FrameHead} (hs : s.Serves h) {i : Instr} {code : Word} {args : List Word}
    {decide : PortIx → List Word → State → Decision} {r : Result}
    (hd : decide h.port args (s.frameTaken h.port) = refuse (s.frameTaken h.port) r)
    (hi : exec i s = .next (s.takeRequest h code args decide) := by rfl) (hc : assignedCode code = true := by rfl)
    (hl : args.length ≤ 127 := by simp) :
    exec i s = .next { s with ports := s.portsAfter h.port (replyTo h code r) } :=
  hi.trans (congrArg Host.Outcome.next (State.takeRequest_refused hs hc hl hd))

/-- A STORE CUE finds in its port's buffer the record that stood there before its frame came. -/
theorem decideStoreCue_frameTaken_noRecord {s : State} {h : FrameHead} {w : Word} (hi : s.bank.state = .idle)
    (hr : CueRecord.of? s.ports[h.port].record.toList = none) :
    decideStoreCue h.port [w] (s.frameTaken h.port) = refuse (s.frameTaken h.port) .badArgument :=
  decideStoreCue_noRecord h.port hi (by rw [State.frameTaken_record]; exact hr)

/-- Settles O29: each operation by the first of its checks that fails, on the state that has counted the request's frame. -/
theorem bankOperationsAreRefusedInOrder : Obligations.BankOperationsAreRefusedInOrder := by
  intro h w cue s hs
  refine ⟨fun busy => ?busy, fun idle outside => ?noBank, fun idle inside => ?ofItsKind⟩
  case busy =>
    have notIdle : (s.frameTaken h.port).bank.state ≠ .idle := by simp [busy]
    exact ⟨exec_refused hs (decideStoreCue_busy _ notIdle), exec_refused hs (decideCueOp_busy _ notIdle),
      exec_refused hs (decideCueOp_busy _ notIdle), exec_refused hs (decideBankOp_busy _ notIdle),
      exec_refused hs (decideBankOp_busy _ notIdle), exec_refused hs (decideSaveHouse_busy _ notIdle),
      exec_refused hs (decideBankOp_busy _ notIdle)⟩
  case noBank =>
    exact ⟨exec_refused hs (decideStoreCue_noBank _ idle outside),
      exec_refused hs (decideCueOp_noBank _ idle outside),
      exec_refused hs (decideCueOp_noBank _ idle outside),
      exec_refused hs (decideBankOp_noBank _ idle outside),
      exec_refused hs (decideBankOp_noBank _ idle outside),
      exec_refused hs (decideBankOp_noBank _ idle outside)⟩
  case ofItsKind =>
    have isBank : w.toNat < 4 := Nat.lt_succ_of_le inside
    refine ⟨fun noCue => ?cue, fun noRecord => exec_refused hs (decideStoreCue_frameTaken_noRecord idle noRecord),
      fun active => ?checkActive, fun inactive taken => ?slotsActive, fun inactive free edited => ?stagingEdited, ?live⟩
    case cue =>
      have notCue := isCue_eq_false noCue
      exact ⟨exec_refused hs (decideCueOp_noCue _ idle isBank notCue),
        exec_refused hs (decideCueOp_noCue _ idle isBank notCue)⟩
    case checkActive =>
      exact exec_refused hs (decideChangeover_checked _ idle isBank fun b => changeoverCheck_checkActive b active)
    case slotsActive =>
      exact exec_refused hs (decideChangeover_checked _ idle isBank fun b => changeoverCheck_slotsActive b inactive taken)
    case stagingEdited =>
      exact exec_refused hs
        (decideChangeover_checked _ idle isBank fun b => changeoverCheck_stagingEdited b inactive free edited)
    case live =>
      rintro ⟨b, live, named⟩
      exact exec_refused hs (decideFormat_live _ idle named live)

end Sys2Proof.Machine
end

