-- ==== Sys2Proof/Proofs/LampCheck.lean ====
section
/-! A lamp check started, moved and ended (R178–R181, R183, R184): the members of a set, the search for the nearest one in each
direction, each request's decision, then the whole state after it. -/

namespace Sys2Proof.Machine

/-! ### Membership of the sets (R178) -/

theorem Mode.ne_unused_iff (m : Mode) : m ≠ .unused ↔ m = .dim ∨ m = .switch := by
  cases m <;> simp

theorem TableSet.member_all_iff (t : TableSet) (c : Circ) :
    t.member .all c = true ↔ (t.record c).mode = .dim ∨ (t.record c).mode = .switch := by
  simp [TableSet.member, TableSet.mode, Mode.ne_unused_iff]

theorem TableSet.member_patched_iff (t : TableSet) (c : Circ) :
    t.member .patched c = true ↔
      ((t.record c).mode = .dim ∨ (t.record c).mode = .switch) ∧ ∃ e, t.entry c = some e ∧ 0 < e.proportion.val := by
  cases patch : t.entry c with
  | none => simp [TableSet.member, patch]
  | some e => simp [TableSet.member, TableSet.mode, Mode.ne_unused_iff, patch]

/-! ### The nearest member in each direction (R180, R181, R183) -/

/-- The last index that passes a test is the first one found from the end downwards. -/
theorem getLast?_filter_finRange {n : Nat} (p : Fin n → Bool) :
    ((List.finRange n).filter p).getLast? = Fin.findRev? p := by
  rw [List.getLast?_filter, List.finRange_reverse, List.find?_map, ← Fin.find?_eq_find?_finRange]
  exact Fin.map_rev_find?

section
variable {t : TableSet} {set : CheckSet}

theorem TableSet.memberFrom?_eq_some_iff {lo : Nat} {c : Circ} :
    t.memberFrom? set lo = some c ↔
      (lo ≤ c.val ∧ t.member set c = true) ∧ ∀ d : Circ, d < c → lo ≤ d.val → t.member set d = false := by
  rw [TableSet.memberFrom?, ← Fin.find?_eq_find?_finRange, Fin.find?_eq_some_iff]
  simp

theorem TableSet.memberFrom?_eq_none_iff {lo : Nat} :
    t.memberFrom? set lo = none ↔ ∀ c : Circ, lo ≤ c.val → t.member set c = false := by
  rw [TableSet.memberFrom?, ← Fin.find?_eq_find?_finRange, Fin.find?_eq_none_iff]
  simp

theorem TableSet.memberBelow?_eq_some_iff {c d : Circ} :
    t.memberBelow? set c = some d ↔
      (d < c ∧ t.member set d = true) ∧ ∀ x : Circ, d < x → x < c → t.member set x = false := by
  rw [TableSet.memberBelow?, getLast?_filter_finRange, Fin.findRev?_eq_some_iff]
  simp

theorem TableSet.memberBelow?_eq_none_iff {c : Circ} :
    t.memberBelow? set c = none ↔ ∀ x : Circ, x < c → t.member set x = false := by
  rw [TableSet.memberBelow?, getLast?_filter_finRange, Fin.findRev?_eq_none_iff]
  simp

end

/-! ### The parameters of CHECK START (R179, R224) -/

theorem numberOf?_eq_none {n : Nat} {w : Word} (h : w = 0 ∨ n < w.toNat) : numberOf? n w = none := by
  refine dif_neg fun ⟨atLeast, atMost⟩ => ?_
  obtain rfl | above := h
  · exact absurd atLeast (by decide)
  · exact absurd atMost (Nat.not_le_of_lt above)

theorem numberOf?_of_number {c : Circ} {w : Word} (h : Circ.number c = w.toNat) : numberOf? 768 w = some c := by
  have value : w.toNat = c.val + 1 := h.symm
  simp [numberOf?, value]

@[simp] theorem checkSetOf?_code (x : CheckSet) : checkSetOf? x.code = some x := by
  cases x <;> rfl

@[simp] theorem checkModeOf?_code (x : CheckMode) : checkModeOf? x.code = some x := by
  cases x <;> rfl

theorem word_ne_of_one_lt {w : Word} (h : 1 < w.toNat) : w ≠ 0 ∧ w ≠ 1 := by
  constructor <;> (rintro rfl; exact absurd h (by decide))

theorem checkSetOf?_eq_none {w : Word} (h : 1 < w.toNat) : checkSetOf? w = none := by
  obtain ⟨notPatched, notAll⟩ := word_ne_of_one_lt h
  rw [checkSetOf?, if_neg notPatched, if_neg notAll]

theorem checkModeOf?_eq_none {w : Word} (h : 1 < w.toNat) : checkModeOf? w = none := by
  obtain ⟨notAuto, notStep⟩ := word_ne_of_one_lt h
  rw [checkModeOf?, if_neg notAuto, if_neg notStep]

theorem checkParamsOf?_eq_none {level dwell set start mode : Word}
    (h : dwell = 0 ∨ 6000 < dwell.toNat ∨ 1 < set.toNat ∨ 1 < mode.toNat ∨ start = 0 ∨ 768 < start.toNat) :
    checkParamsOf? level dwell set start mode = none := by
  obtain rfl | long | badSet | badMode | badStart := h
  · rfl
  · exact if_neg fun ⟨_, atMost⟩ => absurd atMost (Nat.not_le_of_lt long)
  · simp [checkParamsOf?, checkSetOf?_eq_none badSet]
  · simp [checkParamsOf?, checkModeOf?_eq_none badMode]
  · simp [checkParamsOf?, numberOf?_eq_none badStart]

/-- The words that carry a set of parameters: each in its code, the dwell in its range. -/
structure CheckParams.CarriedBy (k : CheckParams) (level dwell set start mode : Word) : Prop where
  level   : k.level = level
  dwell   : k.dwell = dwell.toNat
  inRange : 1 ≤ k.dwell ∧ k.dwell ≤ 6000
  start   : Circ.number k.start = start.toNat
  set     : k.set.code = set
  mode    : k.mode.code = mode

theorem checkParamsOf?_carried {k : CheckParams} {level dwell set start mode : Word}
    (h : k.CarriedBy level dwell set start mode) : checkParamsOf? level dwell set start mode = some k := by
  obtain ⟨rfl, hdwell, inRange, hstart, rfl, rfl⟩ := h
  simp [checkParamsOf?, ← hdwell, inRange, numberOf?_of_number hstart]

/-! ### The Lamp Check Unit moved and stopped (R180, R181, R184) -/

section
variable {l : Lamp} {k : CheckParams}

theorem Lamp.moveTo_eq (params : l.params = some k) (c : Circ) : l.moveTo k c = ⟨some k, some c, k.dwell⟩ := by
  rw [Lamp.moveTo, params]

theorem Lamp.stop_eq (params : l.params = some k) : l.stop = ⟨some k, none, 0⟩ := by
  rw [Lamp.stop, params]

end

section
variable {s : State} {k : CheckParams} {c : Circ}

theorem State.advanceCheck_next {d : Circ} (params : s.lamp.params = some k)
    (next : s.tables.live.memberFrom? k.set (c.val + 1) = some d) :
    s.advanceCheck k c = { s with lamp := ⟨some k, some d, k.dwell⟩ } := by
  unfold State.advanceCheck
  rw [next, ← Lamp.moveTo_eq params]

theorem State.advanceCheck_end (params : s.lamp.params = some k)
    (last : s.tables.live.memberFrom? k.set (c.val + 1) = none) :
    s.advanceCheck k c = { s with lamp := ⟨some k, none, 0⟩, mgmt := s.mgmt.raise .checkDone } := by
  unfold State.advanceCheck
  rw [last, ← Lamp.stop_eq params]
  rfl

end

/-! ### The decisions -/

section
variable {s : State} {level dwell set start mode : Word} {k : CheckParams} (p : PortIx)

theorem decideCheckStart_badParameter (bad : checkParamsOf? level dwell set start mode = none) :
    decideCheckStart p [level, dwell, set, start, mode] s = refuse s .badArgument := by
  simp only [decideCheckStart, bad]

theorem decideCheckStart_changeover (read : checkParamsOf? level dwell set start mode = some k)
    (changing : s.inChangeover = true) :
    decideCheckStart p [level, dwell, set, start, mode] s = refuse s .busy := by
  simp only [decideCheckStart, read, changing, if_true]

theorem decideCheckStart_slotsActive (read : checkParamsOf? level dwell set start mode = some k)
    (steady : s.inChangeover = false) (taken : ∃ n : SlotIx, s.playback.slots[n] ≠ .free) :
    decideCheckStart p [level, dwell, set, start, mode] s = refuse s .slotsActive := by
  have notAll : s.playback.allFree = false := by
    rw [← Bool.not_eq_true, Playback.allFree_iff]
    exact not_forall.2 taken
  simp [decideCheckStart, read, steady, notAll]

theorem decideCheckStart_noMember (read : checkParamsOf? level dwell set start mode = some k)
    (steady : s.inChangeover = false) (free : ∀ n : SlotIx, s.playback.slots[n] = .free)
    (noMember : s.tables.live.memberFrom? k.set k.start.val = none) :
    decideCheckStart p [level, dwell, set, start, mode] s = refuse s .badArgument := by
  simp [decideCheckStart, read, steady, s.playback.allFree_iff.2 free, noMember]

theorem decideCheckStart_first {c : Circ} (read : checkParamsOf? level dwell set start mode = some k)
    (steady : s.inChangeover = false) (free : ∀ n : SlotIx, s.playback.slots[n] = .free)
    (first : s.tables.live.memberFrom? k.set k.start.val = some c) :
    decideCheckStart p [level, dwell, set, start, mode] s =
      done { s with lamp := ⟨some k, some c, k.dwell⟩ } := by
  simp [decideCheckStart, read, steady, s.playback.allFree_iff.2 free, first]

end

section
variable {s : State} {k : CheckParams} {c : Circ} (p : PortIx)

theorem decideCheckNext_active (params : s.lamp.params = some k) (under : s.lamp.under = some c) :
    decideCheckNext p [] s = done (s.advanceCheck k c) := by
  simp only [decideCheckNext, params, under]

theorem decideCheckPrevious_active (params : s.lamp.params = some k) (under : s.lamp.under = some c) :
    decideCheckPrevious p [] s = done { s with
      lamp := ⟨some k, some ((s.tables.live.memberBelow? k.set c).getD c), k.dwell⟩ } := by
  simp only [decideCheckPrevious, under, params, Lamp.moveTo_eq params]

theorem decideCheckStop_active (params : s.lamp.params = some k) (under : s.lamp.under = some c) :
    decideCheckStop p [] s = done { s with lamp := ⟨some k, none, 0⟩ } := by
  simp [decideCheckStop, Lamp.active, under, Lamp.stop_eq params]

theorem decideCheckNext_idle (idle : s.lamp.under = none) : decideCheckNext p [] s = refuse s .notActive := by
  cases params : s.lamp.params <;> simp only [decideCheckNext, params, idle]

theorem decideCheckPrevious_idle (idle : s.lamp.under = none) : decideCheckPrevious p [] s = refuse s .notActive := by
  cases params : s.lamp.params <;> simp only [decideCheckPrevious, params, idle]

theorem decideCheckStop_idle (idle : s.lamp.under = none) : decideCheckStop p [] s = refuse s .notActive := by
  simp [decideCheckStop, Lamp.active, idle]

end

/-! ### The whole state after a request carried out -/

/-- The outcome of an instruction whose request is in step, and whose owner carries it out in the event, leaving the ports alone
(R206). -/
theorem exec_done {s t : State} {h : FrameHead} (hs : s.Serves h) {i : Instr} {code : Word} {args : List Word}
    {decide : PortIx → List Word → State → Decision} (hd : decide h.port args (s.frameTaken h.port) = done t)
    (hports : t.ports = (s.frameTaken h.port).ports := by rfl)
    (hi : exec i s = .next (s.takeRequest h code args decide) := by rfl) (hc : assignedCode code = true := by rfl)
    (hl : args.length ≤ 127 := by simp) :
    exec i s = .next { t with ports := s.portsAfter h.port (replyTo h code .done) } :=
  hi.trans (congrArg Host.Outcome.next (State.takeRequest_keepsPorts hs hc hl hd hports))

section
variable {s : State} {h : FrameHead} {k : CheckParams} {c d : Circ}

theorem exec_checkNext_moves (hs : s.Serves h) (params : s.lamp.params = some k) (under : s.lamp.under = some c)
    (next : s.tables.live.memberFrom? k.set (c.val + 1) = some d) :
    exec (.checkNext h []) s = .next { s with
      ports := s.portsAfter h.port (replyTo h 0x13 .done), lamp := ⟨some k, some d, k.dwell⟩ } :=
  exec_done hs ((decideCheckNext_active (s := s.frameTaken h.port) h.port params under).trans
    (congrArg done (State.advanceCheck_next (s := s.frameTaken h.port) params next)))

theorem exec_checkNext_ends (hs : s.Serves h) (params : s.lamp.params = some k) (under : s.lamp.under = some c)
    (last : s.tables.live.memberFrom? k.set (c.val + 1) = none) :
    exec (.checkNext h []) s = .next { s with
      ports := s.portsAfter h.port (replyTo h 0x13 .done), lamp := ⟨some k, none, 0⟩
      mgmt := s.mgmt.raise .checkDone } :=
  exec_done hs ((decideCheckNext_active (s := s.frameTaken h.port) h.port params under).trans
    (congrArg done (State.advanceCheck_end (s := s.frameTaken h.port) params last)))

theorem exec_checkPrevious_active (hs : s.Serves h) (params : s.lamp.params = some k) (under : s.lamp.under = some c)
    (back : (s.tables.live.memberBelow? k.set c).getD c = d) :
    exec (.checkPrevious h []) s = .next { s with
      ports := s.portsAfter h.port (replyTo h 0x14 .done), lamp := ⟨some k, some d, k.dwell⟩ } := by
  subst back
  exact exec_done hs (decideCheckPrevious_active (s := s.frameTaken h.port) h.port params under)

theorem exec_checkStop_active (hs : s.Serves h) (params : s.lamp.params = some k) (under : s.lamp.under = some c) :
    exec (.checkStop h []) s = .next { s with
      ports := s.portsAfter h.port (replyTo h 0x15 .done), lamp := ⟨some k, none, 0⟩ } :=
  exec_done hs (decideCheckStop_active (s := s.frameTaken h.port) h.port params under)

end

/-- Settles O39: each condition of R179 when those before it pass, then the search for the first member. -/
theorem checkStartBeginsAtTheFirstMember : Obligations.CheckStartBeginsAtTheFirstMember := by
  refine ⟨fun t c => ⟨t.member_all_iff c, t.member_patched_iff c⟩, ?_⟩
  intro h level dwell set start mode s hs refused
  refine ⟨fun bad => exec_refused hs (decideCheckStart_badParameter _ (checkParamsOf?_eq_none bad)), ?_⟩
  intro k hlevel hdwell atLeast atMost hstart hset hmode
  have read := checkParamsOf?_carried ⟨hlevel, hdwell, ⟨atLeast, atMost⟩, hstart, hset, hmode⟩
  refine ⟨fun changing => ?busy, fun steady taken => ?slotsActive, fun steady free noMember => ?noMember,
    fun c steady free above member first => ?first⟩
  case busy => exact exec_refused hs (decideCheckStart_changeover _ read changing)
  case slotsActive => exact exec_refused hs (decideCheckStart_slotsActive _ read steady taken)
  case noMember =>
    exact exec_refused hs
      (decideCheckStart_noMember _ read steady free (TableSet.memberFrom?_eq_none_iff.2 noMember))
  case first =>
    have found : s.tables.live.memberFrom? k.set k.start.val = some c :=
      TableSet.memberFrom?_eq_some_iff.2 ⟨⟨above, member⟩, fun d below fromStart => first d fromStart below⟩
    rw [← hdwell]
    exact exec_done hs (decideCheckStart_first (s := s.frameTaken h.port) _ read steady free found)

/-- Settles O40: in ACTIVE by whether there is a member in the direction asked for, then IDLE. -/
theorem checkRequestsMoveOrEndTheCheck : Obligations.CheckRequestsMoveOrEndTheCheck := by
  intro h s hs
  refine ⟨fun k c params under => ⟨fun d above member between => ?next, fun noneAbove => ?ends,
    fun d below member between => ?previous, fun noneBelow => ?stays, exec_checkStop_active hs params under⟩,
    fun idle => ⟨exec_refused hs (decideCheckNext_idle _ idle), exec_refused hs (decideCheckPrevious_idle _ idle),
      exec_refused hs (decideCheckStop_idle _ idle)⟩⟩
  case next =>
    exact exec_checkNext_moves hs params under
      (TableSet.memberFrom?_eq_some_iff.2 ⟨⟨above, member⟩, fun x before after => between x after before⟩)
  case ends => exact exec_checkNext_ends hs params under (TableSet.memberFrom?_eq_none_iff.2 noneAbove)
  case previous =>
    have found := TableSet.memberBelow?_eq_some_iff.2 ⟨⟨below, member⟩, between⟩
    exact exec_checkPrevious_active hs params under (by rw [found, Option.getD_some])
  case stays =>
    have notFound := TableSet.memberBelow?_eq_none_iff.2 noneBelow
    exact exec_checkPrevious_active hs params under (by rw [notFound, Option.getD_none])

end Sys2Proof.Machine
end

