-- ==== Sys2Proof/Proofs/HeldPart.lean ====
section
/-! A command of a frame that ends, and a part held in reset (R105, R107, R217): what is dropped changes nothing but what the
receiver knows. -/

namespace Sys2Proof.Machine

/-! ### Frames that end (R105, R107) -/

/-- A command that ends a frame on a forward lane hands it to its port's link receiver, whatever it carries. -/
theorem exec_frameEnd {i : Instr} {p : PortIx} {stale : Bool} (h : i.frameEnd? = some (p, stale)) :
    ∃ take, ∀ s, exec i s = .next (s.endFrame p stale take) := by
  cases request : i.request? with
  | some r =>
    have ends : (r.head.port, r.head.stale) = (p, stale) := by
      cases i with
      | levelFrame | badCheckFrame => cases request
      | _ => simpa [Instr.frameEnd?, request] using h
    cases ends
    exact ⟨_, exec_request_byCode request⟩
  | none =>
    cases i with
    | levelFrame | badCheckFrame =>
      cases h
      exact ⟨_, fun _ => rfl⟩
    | _ => simp [Instr.frameEnd?, request] at h

/-- The link receiver forgets a dropped frame. -/
theorem State.endFrame_dropped {s : State} {p : PortIx} {stale : Bool}
    (h : s.held = true ∨ s.mgmt.inputs[p].enabled = false ∨ s.ports[p].receiver = .dropping ∨
      (s.ports[p].receiver = .noFrame ∧ stale = true)) (take : State → State) :
    s.endFrame p stale take = { s with ports := s.ports.set p { s.ports[p] with receiver := .noFrame } } := by
  refine State.endFrame_drops ?_ take
  unfold State.dropsFrame
  obtain held | disabled | dropping | ⟨noFrame, old⟩ := h
  · simp [held]
  · simp [disabled, -Fin.getElem_fin]
  · simp [dropping, -Fin.getElem_fin]
  · simp [noFrame, old, -Fin.getElem_fin]

/-- Settles O6: every command of a frame goes through the link receiver, which drops it. -/
theorem aDroppedFrameChangesNothing : Obligations.ADroppedFrameChangesNothing := by
  intro i p stale s ends dropped
  obtain ⟨take, hexec⟩ := exec_frameEnd ends
  rw [hexec, State.endFrame_dropped dropped]

/-! ### A part held in reset (R217) -/

/-- Two states that differ at most in the HOLDREQ line and in what the receivers know of the frames on their lanes. -/
structure State.DeafTo (s t : State) : Prop where
  rest  : t = { s with ports := t.ports, hold := { s.hold with line := t.hold.line } }
  ports : ∀ p : PortIx, t.ports[p] = { s.ports[p] with receiver := t.ports[p].receiver }

theorem State.DeafTo.refl (s : State) : s.DeafTo s := ⟨rfl, fun _ => rfl⟩

theorem State.DeafTo.modReceiver (s : State) (p : PortIx) (r : Receiver) :
    s.DeafTo (s.modPort p fun q => { q with receiver := r }) := by
  refine ⟨rfl, fun m => ?_⟩
  by_cases hm : m = p
  · subst hm
    rw [State.modPort_get]
  · have other : (s.modPort p fun q => { q with receiver := r }).ports[m] = s.ports[m] :=
      Vector.getElem_set_ne p.isLt m.isLt fun h => hm (Fin.ext h.symm)
    rw [other]

theorem State.DeafTo.modLine (s : State) (b : Bool) : s.DeafTo { s with hold := { s.hold with line := b } } :=
  ⟨rfl, fun _ => rfl⟩

/-- A frame cut while the line is held: the receiver then drops the new frame. -/
theorem State.newFrame_held {s : State} (held : s.held = true) (p : PortIx) (stale : Bool) (take : State → State) :
    State.newFrame p (s.endFrame p stale take) = s.modPort p fun q => { q with receiver := .dropping } := by
  rw [State.endFrame_drops (by simp [State.dropsFrame, held])]
  simp [State.newFrame, held, State.modPort_modPort]

/-- Settles O5: a frame that ends is dropped, HOLDREQ only moves its line, and every other command waits for the part to run. -/
theorem aHeldPartTakesNoEvent : Obligations.AHeldPartTakesNoEvent := by
  intro i s held notReleased
  suffices deaf : ∃ t, exec i s = .next t ∧ s.DeafTo t by
    obtain ⟨t, hexec, rest, ports⟩ := deaf
    exact ⟨t, hexec, rest, ports⟩
  cases ends : i.frameEnd? with
  | some lane =>
    obtain ⟨take, hexec⟩ := exec_frameEnd ends
    exact ⟨_, hexec s, by rw [State.endFrame_dropped (.inl held)]; exact .modReceiver s _ _⟩
  | none =>
    cases i with
    | resetLineReleased => exact absurd rfl notReleased
    | frameCut p stale => exact ⟨_, rfl, by rw [State.newFrame_held held]; exact .modReceiver s _ _⟩
    | holdreqAsserted =>
      cases line : s.hold.line with
      | true => exact ⟨s, by simp [exec, execHoldreqAsserted, line], .refl s⟩
      | false => exact ⟨_, by simp [exec, execHoldreqAsserted, line, held], .modLine s true⟩
    | holdreqDeasserted =>
      cases line : s.hold.line with
      | false => exact ⟨s, by simp [exec, execHoldreqDeasserted, line], .refl s⟩
      | true => exact ⟨_, by simp [exec, execHoldreqDeasserted, line, held], .modLine s false⟩
    | resetLineAsserted | replyFrameComplete | portInterval | lossTimerRunsOut | holdRunsOut | fadeRunsOut
    | playbackInterval | slotCompletes | followFires | fetchComplete | segmentComplete | rdyFault | refresh
    | lampCheckInterval | dwellExpires | outputFrameTimer | outputFrameComplete =>
      exact ⟨s, congrArg Host.Outcome.next (State.whenRunning_held _ s held), .refl s⟩
    | _ => cases ends

end Sys2Proof.Machine
end

