-- ==== Sys2Proof/Proofs/SlotOrders.lean ====
section
/-! The start orders of the fade slots (R49): in a playback whose orders are the numbers 1 to k, each order is one above the number
of active slots before it; so the orders that are left close up when slots become FREE. -/

namespace Sys2Proof.Machine

@[simp] theorem tab_get {α : Type} {n : Nat} (f : Fin n → α) (i : Fin n) : (tab f)[i] = f i := tab_getElem f i.val i.isLt

theorem set_get {α : Type} {n : Nat} (v : Vector α n) (i j : Fin n) (x : α) :
    (v.set i x)[j] = if j = i then x else v[j] := by
  simp only [Fin.getElem_fin, Vector.getElem_set, Fin.ext_iff, eq_comm]

/-! ### Counting slots -/

/-- How many slots are in a set. -/
def slotCount (p : SlotIx → Bool) : Nat := (List.finRange 6).countP p

theorem slotCount_eq_card (p : SlotIx → Bool) : slotCount p = (Finset.univ.filter fun n => p n = true).card := by
  rw [slotCount, List.countP_eq_length_filter, ← List.toFinset_card_of_nodup ((List.nodup_finRange 6).filter p)]
  congr 1
  ext n
  simp

theorem slotCount_congr {p q : SlotIx → Bool} (h : ∀ n, p n = q n) : slotCount p = slotCount q := by
  rw [funext h]

/-- A set of slots is counted in two parts. -/
theorem slotCount_split (p q : SlotIx → Bool) :
    slotCount p = slotCount (fun n => p n && q n) + slotCount (fun n => p n && !q n) := by
  simp only [slotCount_eq_card, Bool.and_eq_true, Bool.not_eq_true', ← Bool.not_eq_true]
  rw [← Finset.filter_filter, ← Finset.filter_filter, Finset.card_filter_add_card_filter_not]

theorem slotCount_mono {p q : SlotIx → Bool} (h : ∀ n, p n = true → q n = true) : slotCount p ≤ slotCount q := by
  rw [slotCount, slotCount]
  exact List.countP_mono_left fun n _ => h n

/-- A set with a slot more is larger. -/
theorem slotCount_lt {p q : SlotIx → Bool} (h : ∀ n, p n = true → q n = true) {n : SlotIx} (hp : p n = false)
    (hq : q n = true) : slotCount p < slotCount q := by
  rw [slotCount_eq_card, slotCount_eq_card]
  refine Finset.card_lt_card (Finset.ssubset_iff_subset_ne.2 ⟨fun m => by simpa using h m, fun same => ?_⟩)
  have : n ∈ Finset.univ.filter fun m => p m = true := same ▸ (by simpa using hq)
  simp [hp] at this

/-! ### Orders -/

namespace Playback

/-- The slots whose start order is below a number. -/
def startedBefore (slots : Vector Slot 6) (o : Nat) (n : SlotIx) : Bool := slots[n].order?.any (· < o)

theorem startedBefore_iff {slots : Vector Slot 6} {o : Nat} {n : SlotIx} :
    startedBefore slots o n = true ↔ ∃ k, slots[n].order? = some k ∧ k < o := by
  cases order : slots[n].order? <;> simp [startedBefore, order, -Fin.getElem_fin]

theorem activeCount_eq (pb : Playback) : pb.activeCount = slotCount fun n => pb.slots[n].order?.isSome := by
  have slots : pb.slots.toList = (List.finRange 6).map fun n => pb.slots[n] := by
    apply List.ext_getElem <;> simp
  rw [activeCount, slots, slotCount, List.filter_map, List.length_map, List.countP_eq_length_filter]
  congr 2
  funext n
  simp [Slot.order?]

/-- Among the orders 1 to k, each is one above the number of slots before it. -/
theorem order_eq_rank {pb : Playback} (h : pb.ordersRight) {n : SlotIx} {o : Nat} (hn : pb.slots[n].order? = some o) :
    o = slotCount (startedBefore pb.slots o) + 1 := by
  obtain ⟨inRange, distinct⟩ := h
  let order (m : SlotIx) : Nat := pb.slots[m].order?.getD 0
  have orderOf {m : SlotIx} {k : Nat} (hm : pb.slots[m].order? = some k) : order m = k := by simp only [order, hm, Option.getD_some]
  let active : Finset SlotIx := Finset.univ.filter fun m => pb.slots[m].order?.isSome = true
  have mem_active {m : SlotIx} : m ∈ active ↔ ∃ k, pb.slots[m].order? = some k := by
    simp only [active, Finset.mem_filter, Finset.mem_univ, true_and, Option.isSome_iff_exists]
  have injective : Set.InjOn order active := by
    intro l hl m hm same
    obtain ⟨k, hk⟩ := mem_active.1 hl
    obtain ⟨k', hk'⟩ := mem_active.1 hm
    rw [orderOf hk, orderOf hk'] at same
    exact distinct l m k hk (same ▸ hk')
  have all : active.image order = Finset.Icc 1 pb.activeCount := by
    refine Finset.eq_of_subset_of_card_le (fun k hk => ?_) ?_
    · obtain ⟨m, hm, rfl⟩ := Finset.mem_image.1 hk
      obtain ⟨k, hk⟩ := mem_active.1 hm
      rw [orderOf hk]
      exact Finset.mem_Icc.2 (inRange m k hk)
    · rw [Finset.card_image_of_injOn injective, Nat.card_Icc, activeCount_eq, slotCount_eq_card, Nat.add_sub_cancel]
  have before : (Finset.univ.filter fun m => startedBefore pb.slots o m = true).image order = Finset.Icc 1 (o - 1) := by
    ext k
    simp only [Finset.mem_image, Finset.mem_filter, Finset.mem_univ, true_and, startedBefore_iff, Finset.mem_Icc]
    constructor
    · rintro ⟨m, ⟨k', hk', below⟩, rfl⟩
      rw [orderOf hk']
      have := inRange m k' hk'
      omega
    · intro hk
      have := inRange n o hn
      obtain ⟨m, hm, rfl⟩ := Finset.mem_image.1 (all ▸ Finset.mem_Icc.2 ⟨hk.1, by omega⟩ : k ∈ active.image order)
      obtain ⟨k, hk'⟩ := mem_active.1 hm
      rw [orderOf hk'] at hk ⊢
      exact ⟨m, ⟨k, hk', by omega⟩, orderOf hk'⟩
  have count : slotCount (startedBefore pb.slots o) = o - 1 := by
    rw [slotCount_eq_card, ← Nat.add_sub_cancel (n := o - 1) (m := 1), ← Nat.card_Icc, ← before,
      Finset.card_image_of_injOn]
    refine injective.mono fun m hm => ?_
    obtain ⟨k, hk, -⟩ := startedBefore_iff.1 (Finset.mem_filter.1 (Finset.mem_coe.1 hm)).2
    exact mem_active.2 ⟨k, hk⟩
  have := inRange n o hn
  omega

/-- A playback in which no two slots share an order and each order is one above the number of slots before it has its orders
right. -/
theorem ordersRight_of_rank {pb : Playback}
    (rank : ∀ (n : SlotIx) (o : Nat), pb.slots[n].order? = some o → o = slotCount (startedBefore pb.slots o) + 1)
    (distinct : ∀ (m n : SlotIx) (o : Nat), pb.slots[m].order? = some o → pb.slots[n].order? = some o → m = n) :
    pb.ordersRight := by
  refine ⟨fun n o hn => ?_, distinct⟩
  have := rank n o hn
  have fewer : slotCount (startedBefore pb.slots o) < slotCount fun m => pb.slots[m].order?.isSome := by
    refine slotCount_lt (n := n) (fun m hm => ?_) ?_ (by simp only [hn, Option.isSome_some])
    · obtain ⟨k, hk, -⟩ := startedBefore_iff.1 hm
      simp only [hk, Option.isSome_some]
    · simp [startedBefore, hn, -Fin.getElem_fin]
  rw [activeCount_eq]
  omega

end Playback

/-! ### Slots made FREE -/

@[simp] theorem Slot.order?_free : Slot.order? .free = none := rfl

@[simp] theorem Slot.order?_fetching (f : Fetch) : Slot.order? (.fetching f) = none := rfl

@[simp] theorem Slot.order?_fading (f : Fade) : Slot.order? (.fading f) = some f.order := rfl

@[simp] theorem Slot.order?_paused (f : Fade) : Slot.order? (.paused f) = some f.order := rfl

@[simp] theorem Slot.order?_mapOrder (g : Nat → Nat) (x : Slot) : (x.mapOrder g).order? = x.order?.map g := by
  cases x <;> rfl

@[simp] theorem Slot.fade?_mapOrder_isSome (g : Nat → Nat) (x : Slot) : (x.mapOrder g).fade?.isSome = x.fade?.isSome := by
  cases x <;> rfl

theorem Slot.order?_isSome (x : Slot) : x.order?.isSome = x.fade?.isSome := by cases x <;> rfl

namespace Playback

variable {pb : Playback}

/-- The slots before an order among those that become FREE. -/
theorem gone_below (pb : Playback) (p : SlotIx → Bool) (o : Nat) :
    (((List.finRange 6).filterMap fun n => if p n then pb.slots[n].order? else none).filter fun g => decide (g < o)).length
      = slotCount fun n => startedBefore pb.slots o n && p n := by
  rw [List.filter_filterMap, List.length_filterMap_eq_countP, slotCount]
  refine List.countP_congr fun n _ => ?_
  cases order : pb.slots[n].order? <;> cases p n <;>
    simp [startedBefore, order, Option.filter, -Fin.getElem_fin]

theorem freeSlots_slot (pb : Playback) (p : SlotIx → Bool) (n : SlotIx) :
    (pb.freeSlots p).slots[n] = if p n then .free
      else pb.slots[n].mapOrder fun o => o - slotCount fun m => startedBefore pb.slots o m && p m := by
  simp only [freeSlots, gone_below, tab_get]

theorem freeSlots_order? (pb : Playback) (p : SlotIx → Bool) (n : SlotIx) :
    (pb.freeSlots p).slots[n].order? =
      if p n then none else pb.slots[n].order?.map fun o => o - slotCount fun m => startedBefore pb.slots o m && p m := by
  rw [freeSlots_slot]
  cases p n <;> simp

/-- The orders that are left close up. -/
theorem freeSlots_ordersRight (h : pb.ordersRight) (p : SlotIx → Bool) : (pb.freeSlots p).ordersRight := by
  have kept {n : SlotIx} {k : Nat} (hn : (pb.freeSlots p).slots[n].order? = some k) :
      p n = false ∧ ∃ o, pb.slots[n].order? = some o ∧
        k = slotCount (fun m => startedBefore pb.slots o m && !p m) + 1 := by
    rw [freeSlots_order?] at hn
    cases hp : p n with
    | true => simp [hp] at hn
    | false =>
      rw [hp, if_neg Bool.false_ne_true] at hn
      obtain ⟨o, ho, rfl⟩ := Option.map_eq_some_iff.1 hn
      refine ⟨rfl, o, ho, ?_⟩
      have rank := order_eq_rank h ho
      have split := slotCount_split (startedBefore pb.slots o) p
      omega
  have ordered {m n : SlotIx} {j k : Nat} (hm : pb.slots[m].order? = some j) (hpm : p m = false) (lt : j < k) :
      slotCount (fun l => startedBefore pb.slots j l && !p l) < slotCount (fun l => startedBefore pb.slots k l && !p l) := by
    refine slotCount_lt (n := m) (fun l hl => ?_) ?_ ?_
    · obtain ⟨before, stays⟩ := Bool.and_eq_true_iff.1 hl
      obtain ⟨i, hi, below⟩ := startedBefore_iff.1 before
      exact Bool.and_eq_true_iff.2 ⟨startedBefore_iff.2 ⟨i, hi, by omega⟩, stays⟩
    · simp [startedBefore, hm, -Fin.getElem_fin]
    · simp [startedBefore, hm, hpm, lt, -Fin.getElem_fin]
  have distinct : ∀ (m n : SlotIx) (k : Nat), (pb.freeSlots p).slots[m].order? = some k →
      (pb.freeSlots p).slots[n].order? = some k → m = n := by
    intro m n k hm hn
    obtain ⟨hpm, i, hi, him⟩ := kept hm
    obtain ⟨hpn, j, hj, hjn⟩ := kept hn
    obtain lt | rfl | gt := Nat.lt_trichotomy i j
    · have := ordered (n := n) hi hpm lt
      omega
    · exact h.2 m n i hi hj
    · have := ordered (n := m) hj hpn gt
      omega
  refine ordersRight_of_rank (fun n k hn => ?_) distinct
  obtain ⟨hpn, o, ho, rfl⟩ := kept hn
  refine congrArg (· + 1) (slotCount_congr fun m => ?_)
  rw [Bool.eq_iff_iff, startedBefore_iff, freeSlots_order?, Bool.and_eq_true_iff, startedBefore_iff]
  cases hpm : p m with
  | true => simp
  | false =>
    cases hm : pb.slots[m].order? with
    | none => simp
    | some i =>
      have rank := order_eq_rank h hm
      have split := slotCount_split (startedBefore pb.slots i) p
      have closed : i - slotCount (fun l => startedBefore pb.slots i l && p l) =
          slotCount (fun l => startedBefore pb.slots i l && !p l) + 1 := by omega
      simp only [Option.some.injEq, exists_eq_left', Bool.not_false, and_true, Bool.false_eq_true, if_false, Option.map_some,
        closed, Nat.add_lt_add_iff_right]
      constructor
      · exact ordered (n := n) hm hpm
      · intro lt
        by_contra ge
        obtain rfl | gt := Nat.eq_or_lt_of_le (Nat.not_lt.1 ge)
        · exact Nat.lt_irrefl _ lt
        · have := ordered (n := m) ho hpn gt
          omega

end Playback

end Sys2Proof.Machine
end

