-- ==== Sys2Proof/Proofs/Channels.lean ====
section
/-! What the operations of the Playback Unit keep (R46–R49): channels are owned only by active slots, and the start orders are the
numbers 1 to k. -/

namespace Sys2Proof.Machine

theorem slotCount_one (n : SlotIx) : slotCount (· == n) = 1 := by
  revert n
  decide

namespace Playback

/-- A change of playback that keeps its two invariants and its directory. -/
structure Keeps (pb pb' : Playback) : Prop where
  directory : pb'.directory = pb.directory
  owners    : pb.ownersRight → pb'.ownersRight
  orders    : pb.ordersRight → pb'.ordersRight

theorem Keeps.refl (pb : Playback) : pb.Keeps pb := ⟨rfl, id, id⟩

theorem Keeps.trans {a b c : Playback} (h : a.Keeps b) (h' : b.Keeps c) : a.Keeps c :=
  ⟨h'.directory.trans h.directory, h'.owners ∘ h.owners, h'.orders ∘ h.orders⟩

/-! ### Changes that move no order -/

theorem ordersRight_congr {pb pb' : Playback} (h : ∀ n : SlotIx, pb'.slots[n].order? = pb.slots[n].order?)
    (right : pb.ordersRight) : pb'.ordersRight := by
  have count : pb'.activeCount = pb.activeCount := by
    rw [activeCount_eq, activeCount_eq]
    exact slotCount_congr fun n => by rw [h n]
  refine ⟨fun n o hn => ?_, fun m n o hm hn => right.2 m n o (h m ▸ hm) (h n ▸ hn)⟩
  rw [count]
  exact right.1 n o (h n ▸ hn)

theorem Keeps.of_orders {pb pb' : Playback} (directory : pb'.directory = pb.directory) (owner : pb'.owner = pb.owner)
    (h : ∀ n : SlotIx, pb'.slots[n].order? = pb.slots[n].order?) : pb.Keeps pb' := by
  refine ⟨directory, fun right c o hc => ?_, ordersRight_congr h⟩
  rw [owner] at hc
  rw [← Slot.order?_isSome, h, Slot.order?_isSome]
  exact right c o hc

theorem setSlot_get (pb : Playback) (n m : SlotIx) (x : Slot) :
    ({ pb with slots := pb.slots.set n x } : Playback).slots[m] = if m = n then x else pb.slots[m] :=
  set_get pb.slots n m x

/-- A slot replaced by one of the same start order, or by one with none where there was none. -/
theorem Keeps.setSlot (pb : Playback) {n : SlotIx} {x : Slot} (h : x.order? = pb.slots[n].order?) :
    pb.Keeps { pb with slots := pb.slots.set n x } := by
  refine .of_orders rfl rfl fun m => ?_
  rw [setSlot_get]
  split
  · next same => rw [same, h]
  · rfl

theorem Keeps.mapSlots (pb : Playback) {g : Slot → Slot} (h : ∀ x, (g x).order? = x.order?) :
    pb.Keeps (pb.mapSlots g) :=
  .of_orders rfl rfl fun n => by simp only [Playback.mapSlots, tab_get, h]

/-! ### Slots that complete -/

theorem restChannels_owner (pb : Playback) (p : SlotIx → Bool) (c : Chan) :
    (pb.restChannels p).owner[c] = pb.owner[c].filter fun o => !p o.slot := by
  simp only [restChannels, tab_get]
  cases pb.owner[c] with
  | none => rfl
  | some o => cases stays : p o.slot <;> simp [Option.filter, stays]

@[simp] theorem restChannels_slots (pb : Playback) (p : SlotIx → Bool) : (pb.restChannels p).slots = pb.slots := by
  simp only [restChannels]

@[simp] theorem complete_directory (pb : Playback) (p : SlotIx → Bool) : (pb.complete p).directory = pb.directory := by
  simp only [complete, freeSlots, restChannels]

@[simp] theorem complete_owner (pb : Playback) (p : SlotIx → Bool) : (pb.complete p).owner = (pb.restChannels p).owner := by
  simp only [complete, freeSlots]

theorem Keeps.complete (pb : Playback) (p : SlotIx → Bool) : pb.Keeps (pb.complete p) := by
  refine ⟨pb.complete_directory p, fun right c o hc => ?_, fun right => freeSlots_ordersRight (pb := pb.restChannels p) ?_ p⟩
  case refine_2 => exact ordersRight_congr (fun n => by rw [restChannels_slots]) right
  rw [complete_owner] at hc
  rw [restChannels_owner, Option.filter_eq_some_iff] at hc
  obtain ⟨owned, stays⟩ := hc
  have stays : p o.slot = false := by simpa using stays
  rw [Playback.complete, freeSlots_slot, stays, if_neg Bool.false_ne_true, Slot.fade?_mapOrder_isSome, restChannels_slots]
  exact right c o owned

/-! ### The claim (R61–R64) -/

theorem ownsSome_iff {owner : Vector (Option Owned) 1024} {n : SlotIx} :
    ownsSome owner n = true ↔ ∃ (c : Chan) (o : Owned), owner[c] = some o ∧ o.slot = n := by
  simp only [ownsSome, List.any_eq_true, Vector.mem_toList_iff, beq_iff_eq, Option.map_eq_some_iff]
  constructor
  · rintro ⟨_, member, o, rfl, slot⟩
    obtain ⟨i, hi, found⟩ := Vector.getElem_of_mem member
    exact ⟨⟨i, hi⟩, o, found, slot⟩
  · rintro ⟨c, o, found, slot⟩
    exact ⟨_, Vector.getElem_mem c.isLt, o, found, slot⟩

section
variable {pb : Playback} {n : SlotIx} {k : Claim}

/-- The active slots that a claim leaves with no channel. -/
def leftEmpty (pb : Playback) (n : SlotIx) (k : Claim) (m : SlotIx) : Bool :=
  m != n && pb.slots[m].fade?.isSome && !ownsSome (pb.ownerAfter n k) m

theorem takeChannels_slot (pb : Playback) (n : SlotIx) (k : Claim) (m : SlotIx) :
    (pb.takeChannels n k).slots[m] = if pb.leftEmpty n k m then .free
      else pb.slots[m].mapOrder fun o => o - slotCount fun j => startedBefore pb.slots o j && pb.leftEmpty n k j :=
  freeSlots_slot { pb with owner := pb.ownerAfter n k } (pb.leftEmpty n k) m

theorem takeChannels_ordersRight (right : pb.ordersRight) : (pb.takeChannels n k).ordersRight :=
  have owned : ({ pb with owner := pb.ownerAfter n k } : Playback).ordersRight :=
    ordersRight_congr (pb := pb) (fun _ => by simp only) right
  freeSlots_ordersRight (pb := { pb with owner := pb.ownerAfter n k }) owned (pb.leftEmpty n k)

theorem ownerAfter_get (pb : Playback) (n : SlotIx) (k : Claim) (c : Chan) :
    (pb.ownerAfter n k)[c] = if pb.claims k c then some ⟨n, pb.level c, (k.lookLevel? c).getD 0⟩ else pb.owner[c] := by
  simp only [ownerAfter, tab_get]

@[simp] theorem takeChannels_owner (pb : Playback) (n : SlotIx) (k : Claim) :
    (pb.takeChannels n k).owner = pb.ownerAfter n k := by simp only [takeChannels, freeSlots]

@[simp] theorem takeChannels_resting (pb : Playback) (n : SlotIx) (k : Claim) :
    (pb.takeChannels n k).resting = pb.resting := by simp only [takeChannels, freeSlots]

@[simp] theorem takeChannels_directory (pb : Playback) (n : SlotIx) (k : Claim) :
    (pb.takeChannels n k).directory = pb.directory := by simp only [takeChannels, freeSlots]

/-- The claimant itself is not freed by its claim. -/
theorem takeChannels_claimant (pb : Playback) (n : SlotIx) (k : Claim) (idle : pb.slots[n].order? = none) :
    (pb.takeChannels n k).slots[n].order? = none := by
  rw [takeChannels_slot]
  simp [leftEmpty, idle, -Fin.getElem_fin]

/-- After the claim every slot but the claimant that owns a channel is active. -/
theorem takeChannels_active (right : pb.ownersRight) {c : Chan} {o : Owned} (hc : (pb.ownerAfter n k)[c] = some o)
    (other : o.slot ≠ n) : (pb.takeChannels n k).slots[o.slot].fade?.isSome = true := by
  have owns : ownsSome (pb.ownerAfter n k) o.slot = true := ownsSome_iff.2 ⟨c, o, hc, rfl⟩
  have before : pb.owner[c] = some o := by
    rw [ownerAfter_get] at hc
    split at hc
    · cases hc
      exact absurd rfl other
    · exact hc
  rw [takeChannels_slot, leftEmpty, owns]
  simpa [-Fin.getElem_fin] using right c o before

/-- A slot that starts last takes the next order. -/
theorem ordersRight_start (right : pb.ordersRight) (idle : pb.slots[n].order? = none) {f : Fade}
    (last : f.order = pb.activeCount + 1) : ({ pb with slots := pb.slots.set n (.fading f) } : Playback).ordersRight := by
  have order (m : SlotIx) : ({ pb with slots := pb.slots.set n (.fading f) } : Playback).slots[m].order? =
      if m = n then some f.order else pb.slots[m].order? := by
    rw [setSlot_get]
    split <;> rfl
  have count : ({ pb with slots := pb.slots.set n (.fading f) } : Playback).activeCount = pb.activeCount + 1 := by
    rw [activeCount_eq, activeCount_eq, slotCount_split _ (· != n), Nat.add_comm]
    simp only [order]
    have others : slotCount (fun m => (if m = n then some f.order else pb.slots[m].order?).isSome && m != n) =
        slotCount fun m => pb.slots[m].order?.isSome := by
      refine slotCount_congr fun m => ?_
      by_cases hm : m = n
      · simp [hm, idle, -Fin.getElem_fin]
      · simp [hm]
    have one : slotCount (fun m => (if m = n then some f.order else pb.slots[m].order?).isSome && !(m != n)) = 1 := by
      have : ∀ m, ((if m = n then some f.order else pb.slots[m].order?).isSome && !(m != n)) = (m == n) := by
        intro m
        by_cases hm : m = n <;> simp [hm, bne]
      rw [slotCount_congr this]
      exact slotCount_one n
    rw [others, one, Nat.add_comm]
  refine ⟨fun m o hm => ?_, fun l m o hl hm => ?_⟩
  · rw [count]
    rw [order] at hm
    split at hm
    · cases hm
      omega
    · have := right.1 m o hm
      omega
  · rw [order] at hl hm
    split at hl <;> split at hm
    · next h h' => rw [h, h']
    · cases hl
      have := right.1 m _ hm
      omega
    · cases hm
      have := right.1 l _ hl
      omega
    · exact right.2 l m o hl hm

theorem claim_ordersRight (right : pb.ordersRight) (idle : pb.slots[n].order? = none) (k : Claim) :
    (pb.claim n k).ordersRight := by
  have idle' := pb.takeChannels_claimant n k idle
  have right' := takeChannels_ordersRight (n := n) (k := k) right
  have freed := (Keeps.setSlot (pb.takeChannels n k) (x := .free) idle'.symm)
  unfold Playback.claim
  dsimp only
  split
  · exact ordersRight_congr (fun m => by rw [restChannels_slots]) (freed.orders right')
  · refine ordersRight_start right' idle' (congrArg (· + 1) ?_)
    rw [activeCount_eq, activeCount_eq]
    refine slotCount_congr fun m => ?_
    rw [setSlot_get]
    split
    · next same => rw [same, idle']; rfl
    · rfl

theorem claim_ownersRight (right : pb.ownersRight) (n : SlotIx) (k : Claim) : (pb.claim n k).ownersRight := by
  intro c o hc
  unfold Playback.claim at hc ⊢
  dsimp only at hc ⊢
  split at hc
  · next atOnce =>
    rw [restChannels_owner, Option.filter_eq_some_iff, takeChannels_owner] at hc
    obtain ⟨owned, other⟩ := hc
    have other : o.slot ≠ n := by simpa using other
    rw [if_pos atOnce, setSlot_get, if_neg other, restChannels_slots]
    exact takeChannels_active right owned other
  · next later =>
    rw [if_neg later, setSlot_get]
    split
    · rfl
    · next other => exact takeChannels_active right hc other

theorem Keeps.claim (pb : Playback) {n : SlotIx} (idle : pb.slots[n].order? = none) (k : Claim) :
    pb.Keeps (pb.claim n k) := by
  refine ⟨?_, fun right => claim_ownersRight right n k, fun right => claim_ordersRight right idle k⟩
  unfold Playback.claim
  dsimp only
  split <;> simp only [restChannels, takeChannels_directory]

end

/-! ### GO, the follow and the end of a fetch -/

theorem Keeps.take (pb : Playback) {n : SlotIx} (free : pb.slots[n] = .free) (e : DirEntry) (limit : Option Nat) :
    pb.Keeps (pb.take n e limit) :=
  (Keeps.setSlot pb (x := .fetching ⟨e.cue, e.cell, limit, pb.lastTaken, pb.takenLink⟩) (by rw [free]; rfl)).trans
    (.of_orders rfl rfl fun _ => rfl)

theorem Keeps.takeUp (pb : Playback) (r : CueRecord) : pb.Keeps (pb.takeUp r) := by
  unfold Playback.takeUp
  split
  · exact .of_orders rfl rfl fun _ => rfl
  · exact .refl pb

theorem Keeps.advance (pb : Playback) : pb.Keeps pb.advance :=
  (Keeps.mapSlots pb fun x => by cases x <;> rfl).trans (.complete _ _)

theorem Keeps.pauseAll (pb : Playback) (b : Bool) : pb.Keeps ((pb.mapSlots Slot.pause).pauseFollow b) :=
  (Keeps.mapSlots pb fun x => by cases x <;> rfl).trans (.of_orders rfl rfl fun _ => rfl)

theorem Keeps.resumeAll (pb : Playback) (b : Bool) : pb.Keeps ((pb.mapSlots Slot.resume).pauseFollow b) :=
  (Keeps.mapSlots pb fun x => by cases x <;> rfl).trans (.of_orders rfl rfl fun _ => rfl)

end Playback

end Sys2Proof.Machine
end

