-- ==== Sys2Proof/Proofs/Keeps.lean ====
section
/-! What a change of the part keeps of the invariants of `Safety`, said once for each shared operation of the state. A step is a chain
of such changes, so each invariant is read off one chain. -/

namespace Sys2Proof.Machine

/-! ### The relations -/

/-- What is sound of an operation record: its directory (R30), and, of a STORE CUE, its cue number and its cell (R38, R39). -/
def OpRecord.right (op : OpRecord) : Prop :=
  soundEntries op.header.entries = true ∧
    (op.kind = .storeCue → 1 ≤ op.cue ∧ op.cue ≤ 9999 ∧
      (op.segment = 1 ∨ (10 ≤ op.cell ∧ op.cell ≤ 255 ∧ ∀ d ∈ op.header.entries, d.cell ≠ op.cell)))

theorem State.directoriesRight_iff (s : State) : s.directoriesRight ↔
    soundEntries s.playback.directory = true ∧ ∀ op, s.bank.op = some op → op.right := Iff.rfl

/-- A change of the part that keeps every invariant but what waits at the Memory Port. -/
structure State.Keeps (s t : State) : Prop where
  held        : t.held = s.held
  mem         : Memory.wf s.mem → Memory.wf t.mem
  alert       : s.alertRight → t.alertRight
  hold        : s.holdRight → t.holdRight
  ports       : ∀ p : PortIx, s.ports[p].bounded → t.ports[p].bounded
  managed     : s.managed → t.managed
  owners      : s.playback.ownersRight → t.playback.ownersRight
  orders      : s.playback.ordersRight → t.playback.ordersRight
  directories : s.directoriesRight → t.directoriesRight

/-- A change of the part that keeps every invariant. -/
structure State.Works (s t : State) : Prop extends State.Keeps s t where
  granted : s.memPort.granted → t.memPort.granted

/-- A change of the part that keeps every invariant and every reply queue, as the owner of a request makes it. -/
structure State.Decides (s t : State) : Prop extends State.Works s t where
  replies : ∀ p : PortIx, t.ports[p].replies = s.ports[p].replies

theorem State.Keeps.trans {s t u : State} (h : s.Keeps t) (h' : t.Keeps u) : s.Keeps u where
  held := h'.held.trans h.held
  mem := h'.mem ∘ h.mem
  alert := h'.alert ∘ h.alert
  hold := h'.hold ∘ h.hold
  ports p := h'.ports p ∘ h.ports p
  managed := h'.managed ∘ h.managed
  owners := h'.owners ∘ h.owners
  orders := h'.orders ∘ h.orders
  directories := h'.directories ∘ h.directories

theorem State.Works.trans {s t u : State} (h : s.Works t) (h' : t.Works u) : s.Works u :=
  ⟨h.toKeeps.trans h'.toKeeps, h'.granted ∘ h.granted⟩

theorem State.Decides.trans {s t u : State} (h : s.Decides t) (h' : t.Decides u) : s.Decides u :=
  ⟨h.toWorks.trans h'.toWorks, fun p => (h'.replies p).trans (h.replies p)⟩

/-- A part that runs goes on running. -/
theorem State.Keeps.running {s t : State} (h : s.Keeps t) (hr : s.held = false) : t.held = false := h.held.trans hr

theorem State.Decides.refl (s : State) : s.Decides s := ⟨⟨⟨rfl, id, id, id, fun _ => id, id, id, id, id⟩, id⟩, fun _ => rfl⟩

theorem State.Works.refl (s : State) : s.Works s := (State.Decides.refl s).toWorks

theorem State.Keeps.refl (s : State) : s.Keeps s := (State.Works.refl s).toKeeps

/-! ### One field at a time -/

namespace State.Decides

/-- The blocks of which no invariant speaks, and the queue. -/
theorem rest (s : State) (tables : Tables) (levels : Levels) (lamp : Lamp) (timers : Timers) (pending : List Instr) :
    s.Decides { s with tables := tables, levels := levels, lamp := lamp, timers := timers, pending := pending } :=
  ⟨⟨⟨rfl, id, id, id, fun _ => id, id, id, id, id⟩, id⟩, fun _ => rfl⟩

/-- What the Bank Controller holds besides its operation record. -/
theorem bank (s : State) (state : CtlState) (buffer : Vector Word 512) (header : Option LastHeader) :
    s.Decides { s with bank := { s.bank with state := state, buffer := buffer, lastHeader := header } } :=
  ⟨⟨⟨rfl, id, id, id, fun _ => id, id, id, id, id⟩, id⟩, fun _ => rfl⟩

theorem setPlayback {s : State} {pb : Playback} (h : s.playback.Keeps pb) : s.Decides { s with playback := pb } := by
  refine ⟨⟨⟨rfl, id, id, id, fun _ => id, id, h.owners, h.orders, ?_⟩, id⟩, fun _ => rfl⟩
  rintro ⟨directory, ops⟩
  exact ⟨h.directory ▸ directory, ops⟩

theorem setMgmt {s : State} {m : Mgmt} (managed : s.managed → managing m.inputs = true)
    (alert : s.alertRight → ({ s with mgmt := m } : State).alertRight) : s.Decides { s with mgmt := m } :=
  ⟨⟨⟨rfl, id, alert, id, fun _ => id, managed, id, id, id⟩, id⟩, fun _ => rfl⟩

theorem setMemPort {s : State} {m : MemPort} (h : s.memPort.granted → m.granted) : s.Decides { s with memPort := m } :=
  ⟨⟨⟨rfl, id, id, id, fun _ => id, id, id, id, id⟩, h⟩, fun _ => rfl⟩

/-- Links none of which starts to drive while HOLDREQ is asserted. -/
theorem setOuts {s : State} {outs : Vector OutPort 6}
    (h : s.hold.holdreq = true → ∀ k : LinkIx, s.outs[k].drives = false → outs[k].drives = false) :
    s.Decides { s with outs := outs } := by
  refine ⟨⟨⟨rfl, id, id, fun right acked => ?_, fun _ => id, id, id, id, id⟩, id⟩, fun _ => rfl⟩
  obtain ⟨asked, quiet⟩ := right acked
  refine ⟨asked, ?_⟩
  simp only [State.anyDrives, List.any_eq_false, Vector.mem_toList_iff, Bool.not_eq_true] at quiet ⊢
  intro o member
  obtain ⟨i, hi, rfl⟩ := Vector.getElem_of_mem member
  exact h asked ⟨i, hi⟩ (quiet _ (Vector.getElem_mem hi))

theorem setHold {s : State} {hold : Hold} (h : s.holdRight → hold.holdack = true → hold.holdreq = true ∧ s.anyDrives = false) :
    s.Decides { s with hold := hold } :=
  ⟨⟨⟨rfl, id, id, h, fun _ => id, id, id, id, id⟩, id⟩, fun _ => rfl⟩

end State.Decides

/-! ### Ports -/

/-- A change of a port that leaves its reply queue and its transmitter as they stand, and its window bounded. -/
structure Port.Keeps (q q' : Port) : Prop where
  replies : q'.replies = q.replies
  sending : q'.sending = q.sending
  window  : q.window.length ≤ 16 → q'.window.length ≤ 16

theorem Port.Keeps.refl (q : Port) : q.Keeps q := ⟨rfl, rfl, id⟩

theorem Port.Keeps.trans {a b c : Port} (h : a.Keeps b) (h' : b.Keeps c) : a.Keeps c :=
  ⟨h'.replies.trans h.replies, h'.sending.trans h.sending, h'.window ∘ h.window⟩

theorem Port.Keeps.bounded {q q' : Port} (h : q.Keeps q') (hq : q.bounded) : q'.bounded := by
  obtain ⟨few, sends, window⟩ := hq
  exact ⟨h.replies ▸ few, by rw [h.sending, h.replies]; exact sends, h.window window⟩

theorem State.modPort_other {p m : PortIx} (h : m ≠ p) (f : Port → Port) (s : State) :
    (s.modPort p f).ports[m] = s.ports[m] := Vector.getElem_set_ne p.isLt m.isLt fun same => h (Fin.ext same.symm)

/-- A port changed so that it stays bounded. -/
theorem State.Works.modPort {s : State} {p : PortIx} {f : Port → Port} (h : s.ports[p].bounded → (f s.ports[p]).bounded) :
    s.Works (s.modPort p f) := by
  refine ⟨⟨rfl, id, id, id, fun m right => ?_, id, id, id, id⟩, id⟩
  by_cases hm : m = p
  · subst hm
    rw [State.modPort_get]
    exact h right
  · rwa [State.modPort_other hm]

theorem State.Decides.modPort {s : State} {p : PortIx} {f : Port → Port} (h : s.ports[p].Keeps (f s.ports[p])) :
    s.Decides (s.modPort p f) := by
  refine ⟨.modPort h.bounded, fun m => ?_⟩
  by_cases hm : m = p
  · subst hm
    rw [State.modPort_get, h.replies]
  · rw [State.modPort_other hm]

theorem State.Decides.setPorts {s : State} {ports : Vector Port 4} (h : ∀ p : PortIx, s.ports[p].Keeps ports[p]) :
    s.Decides { s with ports := ports } :=
  ⟨⟨⟨rfl, id, id, id, fun p => (h p).bounded, id, id, id, id⟩, id⟩, fun p => (h p).replies⟩

/-! ### Events -/

theorem State.Decides.raise {s : State} (hr : s.held = false) (e : Event) : s.Decides (s.raise e) :=
  .setMgmt id fun _ => State.raise_alertRight e hr

theorem State.Decides.raiseIf {s : State} (hr : s.held = false) (b : Bool) (e : Event) : s.Decides (s.raiseIf b e) := by
  cases b with
  | true => exact .raise hr e
  | false => exact .refl s

/-- A change, then an event that it may raise. -/
theorem State.Decides.andRaiseIf {s t : State} (h : s.Decides t) (hr : s.held = false) (b : Bool) (e : Event) :
    s.Decides (t.raiseIf b e) :=
  h.trans (.raiseIf (h.running hr) b e)

theorem State.Decides.andRaise {s t : State} (h : s.Decides t) (hr : s.held = false) (e : Event) : s.Decides (t.raise e) :=
  h.trans (.raise (h.running hr) e)

/-- The Management Unit changed but for the inputs' enabling and permits and for what decides ALERT. -/
theorem State.Decides.mgmtRest {s : State} {m : Mgmt} (inputs : m.inputs = s.mgmt.inputs) (flags : m.flags = s.mgmt.flags)
    (enables : m.enables = s.mgmt.enables) (alert : m.alertLow = s.mgmt.alertLow) : s.Decides { s with mgmt := m } :=
  .setMgmt (fun managed => inputs ▸ managed) fun right => State.alertRight_congr right rfl flags enables alert

/-! ### Inputs (R209) -/

theorem managing_iff (inputs : Vector InputSettings 4) :
    managing inputs = true ↔ ∃ p : PortIx, inputs[p].enabled = true ∧ inputs[p].permit = true := by
  simp only [managing, List.any_eq_true, Vector.mem_toList_iff, Bool.and_eq_true]
  constructor
  · rintro ⟨_, member, on⟩
    obtain ⟨i, hi, rfl⟩ := Vector.getElem_of_mem member
    exact ⟨⟨i, hi⟩, on⟩
  · rintro ⟨p, on⟩
    exact ⟨_, Vector.getElem_mem p.isLt, on⟩

/-- Inputs replaced so that one still may manage. -/
theorem State.Decides.inputs {s : State} {inputs : Vector InputSettings 4}
    (h : managing s.mgmt.inputs = true → managing inputs = true) :
    s.Decides { s with mgmt := { s.mgmt with inputs := inputs } } :=
  .setMgmt h fun right => State.alertRight_congr right rfl rfl rfl rfl

/-- A setting of an input other than its enabling and its permit. -/
theorem State.Decides.modInput {s : State} {p : PortIx} {f : InputSettings → InputSettings}
    (enabled : ∀ i, (f i).enabled = i.enabled) (permit : ∀ i, (f i).permit = i.permit) : s.Decides (s.modInput p f) := by
  refine .inputs fun managed => ?_
  rw [managing_iff] at managed ⊢
  obtain ⟨m, on⟩ := managed
  refine ⟨m, ?_⟩
  by_cases hm : m = p
  · subst hm
    simpa [enabled, permit] using on
  · rwa [Fin.getElem_fin, Vector.getElem_set_ne p.isLt m.isLt fun same => hm (Fin.ext same.symm)]

/-! ### The Memory Port and bank operations -/

theorem State.Keeps.setMemPort (s : State) (m : MemPort) : s.Keeps { s with memPort := m } :=
  ⟨rfl, id, id, id, fun _ => id, id, id, id, id⟩

/-- A change that ends with the arbiter's grant leaves nothing waiting while the engine is IDLE. -/
theorem State.Keeps.thenGrant {s t : State} (h : s.Keeps t) : s.Works t.grant := by
  refine ⟨h.trans ?_, fun _ => t.grant_granted⟩
  rw [State.grant_frame t]
  exact ⟨rfl, id, id, id, fun _ => id, id, id, id, id⟩

theorem State.grant_ports (s : State) : s.grant.ports = s.ports := by rw [State.grant_frame]

theorem State.Decides.joinFetch (s : State) (f : FetchReq) : s.Decides (s.joinFetch f) :=
  ⟨(State.Keeps.setMemPort s _).thenGrant, fun p => by rw [State.joinFetch, State.grant_ports]⟩

/-- An operation record comes to stand as the one in progress. -/
theorem State.Keeps.op {s : State} {op : Option OpRecord} (h : s.directoriesRight → ∀ o, op = some o → o.right) :
    s.Keeps { s with bank := { s.bank with op := op } } :=
  ⟨rfl, id, id, id, fun _ => id, id, id, id, fun right => ⟨right.1, h right⟩⟩

theorem State.Keeps.handOver {s : State} {op : OpRecord} (h : s.directoriesRight → op.right) : s.Keeps (s.handOver op) :=
  (State.Keeps.op (op := some op) fun right _ ho => Option.some.inj ho ▸ h right).trans (.setMemPort _ _)

theorem State.Decides.beginOp {s : State} {op : OpRecord} (h : op.right) : s.Decides (s.beginOp op) := by
  refine ⟨State.Keeps.thenGrant ?_, fun p => by rw [State.beginOp, State.grant_ports]; rfl⟩
  exact (State.Decides.bank s .busy s.bank.buffer s.bank.lastHeader).toKeeps.trans (.handOver fun _ => h)

/-- A record of an operation that has read nothing yet holds no directory. -/
theorem OpRecord.right_of_fresh {op : OpRecord} (fresh : op.cell0 = none)
    (store : op.kind = .storeCue → 1 ≤ op.cue ∧ op.cue ≤ 9999 ∧ op.segment = 1) : op.right := by
  refine ⟨?_, fun kind => ?_⟩
  · rw [OpRecord.header, fresh]
    rfl
  · obtain ⟨lo, hi, first⟩ := store kind
    exact ⟨lo, hi, .inl first⟩

end Sys2Proof.Machine
end

