-- ==== Sys2Proof/Proofs/Decisions.lean ====
section
/-! What the owner of a request does keeps every invariant and every reply queue (R203, R204): one lemma for each decision. -/

namespace Sys2Proof.Machine

theorem State.Decides.done {s t : State} (h : s.Decides t) : s.Decides (done t).state := h

theorem State.Decides.accepted {s t : State} (h : s.Decides t) : s.Decides (accepted t).state := h

/-! ### Playback -/

/-- Room for a GO or a RELEASE: a slot force-completed when none is FREE (R55, R56). -/
theorem State.Decides.makeRoom {s : State} (hr : s.held = false) : s.Decides s.makeRoom := by
  unfold State.makeRoom
  split
  · exact (State.Decides.setPlayback (.complete _ _)).andRaise hr _
  · exact .refl s

theorem State.Decides.acceptGo {s : State} (hr : s.held = false) (b : BankIx) (e : DirEntry) (limit : Option Nat) :
    s.Decides (s.acceptGo b e limit) := by
  unfold State.acceptGo
  dsimp only
  split
  · next n free =>
    exact (State.Decides.makeRoom hr).trans
      ((State.Decides.setPlayback (.take _ (Playback.lowestFree?_free free) e limit)).trans (.joinFetch _ _))
  · exact .makeRoom hr

theorem State.Decides.claim {s : State} (hr : s.held = false) {n : SlotIx} (idle : s.playback.slots[n].order? = none)
    (k : Claim) : s.Decides (s.claim n k) :=
  (State.Decides.setPlayback (.claim _ idle k)).andRaiseIf hr _ _

theorem State.Decides.release {s : State} (hr : s.held = false) (t : Nat) : s.Decides (s.release t) := by
  have room := State.Decides.makeRoom hr
  unfold State.release
  dsimp only
  split
  · next n free =>
    have idle : s.makeRoom.playback.slots[n].order? = none := by rw [Playback.lowestFree?_free free]; rfl
    exact room.trans ((State.Decides.claim (room.running hr) idle _).trans
      (.setPlayback (.of_orders rfl rfl fun _ => rfl)))
  · exact room

section
variable {s : State} (hr : s.held = false) (p : PortIx) (args : List Word)
include hr

theorem decideGo_decides : s.Decides (decideGo p args s).state := by
  unfold decideGo
  split
  · split
    · exact .accepted (.acceptGo hr _ _ _)
    · exact .refl s
  · exact .refl s

theorem decideRelease_decides : s.Decides (decideRelease p args s).state := by
  unfold decideRelease
  split
  · split
    · exact .refl s
    · split
      · exact .refl s
      · exact .done (.release hr _)
  · exact .refl s

omit hr

theorem State.pauseSlot_decides (w : Word) : s.Decides (s.pauseSlot w).state := by
  unfold State.pauseSlot
  split
  · split
    · next fading => exact .done (.setPlayback (.setSlot _ (by rw [fading]; rfl)))
    · exact .refl s
  · exact .refl s

theorem State.resumeSlot_decides (w : Word) : s.Decides (s.resumeSlot w).state := by
  unfold State.resumeSlot
  split
  · split
    · next paused => exact .done (.setPlayback (.setSlot _ (by rw [paused]; rfl)))
    · exact .refl s
  · exact .refl s

theorem decidePause_decides : s.Decides (decidePause p args s).state := by
  unfold decidePause
  split
  · split
    · exact .done (.setPlayback (.pauseAll _ _))
    · exact s.pauseSlot_decides _
  · exact .refl s

theorem decideResume_decides : s.Decides (decideResume p args s).state := by
  unfold decideResume
  split
  · split
    · exact .done (.setPlayback (.resumeAll _ _))
    · exact s.resumeSlot_decides _
  · exact .refl s

/-! ### Record buffers and the tables -/

theorem decideCueDataWrite_decides : s.Decides (decideCueDataWrite p args s).state := by
  unfold decideCueDataWrite
  split
  · split
    · exact .done (.modPort ⟨rfl, rfl, id⟩)
    · exact .refl s
  · exact .refl s

theorem decideCueDataRead_decides : s.Decides (decideCueDataRead p args s).state := by
  unfold decideCueDataRead
  split
  · split <;> exact .refl s
  · exact .refl s

theorem State.Decides.flagLinks (old new : TableSet) : s.Decides (s.flagLinks old new) :=
  .setOuts fun _ k quiet => by rw [tab_get]; exact quiet

theorem decideEdit_decides : s.Decides (decideEdit p args s).state := by
  unfold decideEdit
  split
  · split
    · split
      · exact .refl s
      · split
        · exact .refl s
        · split
          · exact .refl s
          · split
            · exact .refl s
            · split
              · exact .done (.rest s _ _ _ _ _)
              · exact .refl s
    · exact .refl s
  · exact .refl s

theorem decideUpdate_decides : s.Decides (decideUpdate p args s).state := by
  unfold decideUpdate
  split
  · split
    · exact .refl s
    · exact (State.Decides.rest s _ _ _ _ _).trans (.flagLinks _ _)
  · exact .refl s

theorem decideDiscard_decides : s.Decides (decideDiscard p args s).state := by
  unfold decideDiscard
  split
  · split
    · exact .refl s
    · exact .done (.rest s _ _ _ _ _)
  · exact .refl s

theorem decideReadTable_decides : s.Decides (decideReadTable p args s).state := by
  unfold decideReadTable
  split
  · split
    · split <;> exact .refl s
    · exact .refl s
  · exact .refl s

/-! ### Bank operations -/

theorem decideBankOp_decides {kind : OpKind} {check : BankIx → State → Option Result} {prepare : State → State}
    (notStore : kind ≠ .storeCue) (h : s.Decides (prepare s)) : s.Decides (decideBankOp kind check prepare p args s).state := by
  unfold decideBankOp
  split
  · split
    · exact .refl s
    · split
      · split
        · exact .refl s
        · exact h.trans (.beginOp (OpRecord.right_of_fresh rfl fun store => absurd store notStore))
      · exact .refl s
  · exact .refl s

theorem decideChangeover_decides : s.Decides (decideChangeover p args s).state :=
  decideBankOp_decides p args (by decide) (.rest s _ _ _ _ _)

theorem decideSave_decides : s.Decides (decideSave p args s).state := decideBankOp_decides p args (by decide) (.refl s)

theorem decideFormat_decides : s.Decides (decideFormat p args s).state := decideBankOp_decides p args (by decide) (.refl s)

theorem decideSaveHouse_decides : s.Decides (decideSaveHouse p args s).state := by
  unfold decideSaveHouse
  split
  · split
    · exact .refl s
    · exact .accepted (.beginOp (OpRecord.right_of_fresh rfl fun store => nomatch store))
  · exact .refl s

/-- The cue number of a valid record is in range (R29). -/
theorem CueRecord.of?_cue {ws : List Word} {r : CueRecord} (h : CueRecord.of? ws = some r) : 1 ≤ r.cue ∧ r.cue ≤ 9999 := by
  unfold CueRecord.of? at h
  split at h
  · next valid =>
    split at h
    · cases h
      simp only [Bool.and_eq_true, isCue, decide_eq_true_eq] at valid
      exact valid.1.1.1.1.1.1.1
    · cases h
  · cases h

theorem decideStoreCue_decides : s.Decides (decideStoreCue p args s).state := by
  unfold decideStoreCue
  split
  · split
    · exact .refl s
    · split
      · next valid =>
        have ⟨lo, hi⟩ := CueRecord.of?_cue valid
        exact .accepted (.beginOp (OpRecord.right_of_fresh rfl fun _ => ⟨lo, hi, rfl⟩))
      · exact .refl s
  · exact .refl s

theorem decideCueOp_decides {kind : OpKind} (notStore : kind ≠ .storeCue) : s.Decides (decideCueOp kind p args s).state := by
  unfold decideCueOp
  split
  · split
    · exact .refl s
    · split
      · split
        · exact .accepted (.beginOp (OpRecord.right_of_fresh rfl fun store => absurd store notStore))
        · exact .refl s
      · exact .refl s
  · exact .refl s

/-! ### Lamp check -/

theorem decideCheckStart_decides : s.Decides (decideCheckStart p args s).state := by
  unfold decideCheckStart
  split
  · split
    · exact .refl s
    · split
      · exact .refl s
      · split
        · exact .refl s
        · split
          · exact .done (.rest s _ _ _ _ _)
          · exact .refl s
  · exact .refl s

theorem State.Decides.advanceCheck (hr : s.held = false) (k : CheckParams) (c : Circ) : s.Decides (s.advanceCheck k c) := by
  unfold State.advanceCheck
  split
  · exact .rest s _ _ _ _ _
  · exact (State.Decides.rest s _ _ _ _ _).andRaise hr _

theorem decideCheckNext_decides (hr : s.held = false) : s.Decides (decideCheckNext p args s).state := by
  unfold decideCheckNext
  split
  · split
    · exact .done (.advanceCheck hr _ _)
    · exact .refl s
  · exact .refl s

theorem decideCheckPrevious_decides : s.Decides (decideCheckPrevious p args s).state := by
  unfold decideCheckPrevious
  split
  · split
    · exact .done (.rest s _ _ _ _ _)
    · exact .refl s
  · exact .refl s

theorem decideCheckStop_decides : s.Decides (decideCheckStop p args s).state := by
  unfold decideCheckStop
  split
  · split
    · exact .done (.rest s _ _ _ _ _)
    · exact .refl s
  · exact .refl s

/-! ### SET (R207–R209) -/

/-- A change of the enabling of an input that leaves some input to manage (R98, R99, R209). -/
theorem State.Decides.setEnabled (hr : s.held = false) {i : PortIx} {on : Bool}
    (h : managing (s.mgmt.inputs.set i { s.mgmt.inputs[i] with enabled := on }) = true) : s.Decides (s.setEnabled i on) := by
  have set : s.Decides (s.modInput i fun j => { j with enabled := on }) := .inputs fun _ => h
  unfold State.setEnabled
  split
  · exact .refl s
  · dsimp only
    split
    · exact set.trans (.modPort ⟨rfl, rfl, id⟩)
    · exact (set.trans (.modPort ⟨rfl, rfl, id⟩)).andRaiseIf hr _ _

theorem decideSetInputEnable_decides (hr : s.held = false) : s.Decides (decideSetInputEnable p args s).state := by
  unfold decideSetInputEnable
  split
  · split
    · unfold protectedSet
      split
      · next manages => exact .done (.setEnabled hr manages)
      · exact .refl s
    · exact .refl s
  · exact .refl s

theorem decideSetInputPermit_decides : s.Decides (decideSetInputPermit p args s).state := by
  unfold decideSetInputPermit
  split
  · split
    · unfold protectedSet
      split
      · next manages => exact .done (.inputs fun _ => manages)
      · exact .refl s
    · exact .refl s
  · exact .refl s

theorem decideSetAutoResync_decides : s.Decides (decideSetAutoResync p args s).state := by
  unfold decideSetAutoResync
  split
  · split
    · exact .done (.modInput (fun _ => rfl) fun _ => rfl)
    · exact .refl s
  · exact .refl s

theorem decideSetLossTimes_decides : s.Decides (decideSetLossTimes p args s).state := by
  unfold decideSetLossTimes
  split
  · split
    · exact .done (.modInput (fun _ => rfl) fun _ => rfl)
    · exact .refl s
  · exact .refl s

theorem decideSetAcceptMask_decides : s.Decides (decideSetAcceptMask p args s).state := by
  unfold decideSetAcceptMask
  split
  · split
    · dsimp only
      split
      · exact .done (.modInput (fun _ => rfl) fun _ => rfl)
      · exact .refl s
    · exact .refl s
  · exact .refl s

/-- A setting of a link: its state, and so whether it drives, stands. -/
theorem State.Decides.modOut {k : LinkIx} {f : OutPort → OutPort}
    (h : s.hold.holdreq = true → s.outs[k].drives = false → (f s.outs[k]).drives = false) : s.Decides (s.modOut k f) := by
  refine .setOuts fun asked m quiet => ?_
  by_cases hm : m = k
  · subst hm
    rw [Fin.getElem_fin, Vector.getElem_set_self]
    exact h asked quiet
  · rwa [Fin.getElem_fin, Vector.getElem_set_ne k.isLt m.isLt fun same => hm (Fin.ext same.symm)]

theorem decideSetOutputLink_decides : s.Decides (decideSetOutputLink p args s).state := by
  unfold decideSetOutputLink
  split
  · split
    · exact .done (.modOut fun _ quiet => quiet)
    · exact .refl s
  · exact .refl s

theorem decideSetBudget_decides : s.Decides (decideSetBudget p args s).state := by
  unfold decideSetBudget
  split
  · split
    · split
      · exact .done (.mgmtRest rfl rfl rfl rfl)
      · exact .refl s
    · exact .refl s
  · exact .refl s

theorem decideSetStartBank_decides : s.Decides (decideSetStartBank p args s).state := by
  unfold decideSetStartBank
  split
  · split
    · exact .done (.mgmtRest rfl rfl rfl rfl)
    · exact .refl s
  · exact .refl s

/-- The Management Unit with ALERT decided afresh (R213). -/
theorem State.Decides.redecided (hr : s.held = false) {m : Mgmt} (inputs : m.inputs = s.mgmt.inputs) :
    s.Decides { s with mgmt := m.redecide } :=
  .setMgmt (fun managed => inputs ▸ managed) fun _ => by simp [State.alertRight, Mgmt.redecide, hr]

theorem decideSetEventEnables_decides (hr : s.held = false) : s.Decides (decideSetEventEnables p args s).state := by
  unfold decideSetEventEnables
  split
  · exact .done (.redecided hr rfl)
  · exact .refl s

theorem decideSetMemoryTiming_decides : s.Decides (decideSetMemoryTiming p args s).state := by
  unfold decideSetMemoryTiming
  split
  · split
    · exact .done (.setMemPort id)
    · exact .refl s
  · exact .refl s

/-! ### The requests of the Management Unit -/

theorem decideSnapshot_decides : s.Decides (decideSnapshot p args s).state := by
  unfold decideSnapshot
  split
  · exact .done (.setPorts fun p => by rw [tab_get]; exact ⟨rfl, rfl, id⟩)
  · exact .refl s

theorem decideStatusRead_decides : s.Decides (decideStatusRead p args s).state := by
  unfold decideStatusRead
  split
  · split <;> exact .refl s
  · exact .refl s

theorem decideClearEvents_decides (hr : s.held = false) : s.Decides (decideClearEvents p args s).state := by
  unfold decideClearEvents
  split
  · exact .done (.redecided hr rfl)
  · exact .refl s

theorem decideRestart_decides : s.Decides (decideRestart p args s).state := by
  unfold decideRestart
  split <;> exact .refl s

theorem decideSet_decides (hr : s.held = false) : s.Decides (decideSet p args s).state := by
  unfold decideSet
  split
  · split
    · exact decideSetInputEnable_decides p _ hr
    · exact decideSetInputPermit_decides p _
    · exact decideSetAutoResync_decides p _
    · exact decideSetLossTimes_decides p _
    · exact decideSetAcceptMask_decides p _
    · exact decideSetOutputLink_decides p _
    · exact decideSetBudget_decides p _
    · exact decideSetStartBank_decides p _
    · exact decideSetEventEnables_decides p _ hr
    · exact decideSetMemoryTiming_decides p _
    · exact .refl s
  · exact .refl s

/-- Every request, by its code. -/
theorem decideByCode_decides (hr : s.held = false) (code : Word) : s.Decides (decideByCode code p args s).state := by
  unfold decideByCode
  split
  · exact decideGo_decides hr p args
  · exact decidePause_decides p args
  · exact decideResume_decides p args
  · exact decideRelease_decides hr p args
  · exact decideCueDataWrite_decides p args
  · exact decideCueDataRead_decides p args
  · exact decideStoreCue_decides p args
  · exact decideCueOp_decides p args (by decide)
  · exact decideCueOp_decides p args (by decide)
  · exact decideEdit_decides p args
  · exact decideUpdate_decides p args
  · exact decideDiscard_decides p args
  · exact decideReadTable_decides p args
  · exact decideChangeover_decides p args
  · exact decideSave_decides p args
  · exact decideSaveHouse_decides p args
  · exact decideFormat_decides p args
  · exact decideCheckStart_decides p args
  · exact decideCheckNext_decides p args hr
  · exact decideCheckPrevious_decides p args
  · exact decideCheckStop_decides p args
  · exact decideSet_decides p args hr
  · exact decideSnapshot_decides p args
  · exact decideStatusRead_decides p args
  · exact decideClearEvents_decides p args hr
  · exact decideRestart_decides p args
  · exact .refl s

end

end Sys2Proof.Machine
end

