-- ==== Sys2Proof/Proofs/Receptions.lean ====
section
/-! What the ports do with frames and replies keeps every invariant (R82–R93, R104–R118, R205): sweeps, the interval of an input, the
sync machine, the taking of a request, and the completion of a reply frame. -/

namespace Sys2Proof.Machine

/-! ### Changes of one port -/

namespace Port.Keeps

theorem abortSweep (q : Port) : q.Keeps q.abortSweep := by
  unfold Port.abortSweep
  split
  · exact ⟨rfl, rfl, id⟩
  · exact .refl q

theorem writePage (base : Nat) (levels : List Level) (q : Port) : q.Keeps (q.writePage base levels) := by
  unfold Port.writePage
  split
  · exact ⟨rfl, rfl, id⟩
  · exact .refl q

theorem takePage (base flags : Word) (levels : List Level) (q : Port) : q.Keeps (q.takePage base flags levels) := by
  refine .trans ?_ (writePage _ _ _)
  split
  · exact (abortSweep q).trans ⟨rfl, rfl, id⟩
  · exact .refl q

theorem promote (n : Nat) (q : Port) : q.Keeps (q.promote n) := ⟨rfl, rfl, id⟩

theorem enterFading (f : Nat) (q : Port) : q.Keeps (q.enterFading f) := by
  unfold Port.enterFading
  dsimp only
  split <;> exact ⟨rfl, rfl, id⟩

theorem enterHolding (i : InputSettings) (q : Port) : q.Keeps (q.enterHolding i) := by
  unfold Port.enterHolding
  dsimp only
  have holding : q.Keeps { q with source := .holding, hold := 0, factor := 65535 } := ⟨rfl, rfl, id⟩
  split
  · exact holding.trans (enterFading _ _)
  · exact holding

theorem interval (i : InputSettings) (q : Port) : q.Keeps (q.interval i) := by
  unfold Port.interval
  split
  · split
    · exact enterHolding i q
    · exact ⟨rfl, rfl, id⟩
  · split
    · exact .refl q
    · have counted : q.Keeps { q with hold := q.hold + 1 } := ⟨rfl, rfl, id⟩
      dsimp only
      split
      · exact counted.trans (enterFading _ _)
      · exact counted
  · dsimp only
    split <;> exact ⟨rfl, rfl, id⟩
  · exact .refl q

end Port.Keeps

/-- The window never holds more than 16 outcomes (R112). -/
theorem pushMark_length (w : List FrameMark) (m : FrameMark) : (pushMark w m).length ≤ 16 := by
  simp only [pushMark, List.length_drop, List.length_append, List.length_singleton]
  omega

namespace Port.Keeps

theorem syncGood (seq : Word) (q : Port) : q.Keeps (q.syncGood seq) := by
  unfold Port.syncGood
  split
  · exact ⟨rfl, rfl, id⟩
  · split
    · dsimp only
      split
      · exact ⟨rfl, rfl, fun _ => Nat.zero_le _⟩
      · exact ⟨rfl, rfl, id⟩
    · exact ⟨rfl, rfl, id⟩
  · exact ⟨rfl, rfl, fun _ => pushMark_length _ _⟩

theorem syncBad (q : Port) : q.Keeps q.syncBad := by
  unfold Port.syncBad
  dsimp only
  split
  · exact ⟨rfl, rfl, id⟩
  · exact ⟨rfl, rfl, id⟩
  · exact ⟨rfl, rfl, fun _ => pushMark_length _ _⟩

end Port.Keeps

/-! ### Sweeps and the interval of an input (R82–R93) -/

theorem State.Decides.takeLevels {s : State} (hr : s.held = false) (p : PortIx) (base flags : Word) (levels : List Level) :
    s.Decides (s.takeLevels p base flags levels) := by
  have paged : s.Decides (s.modPort p (Port.takePage base flags levels)) := .modPort (.takePage _ _ _ _)
  unfold State.takeLevels
  dsimp only
  split
  · exact (paged.trans (.modPort (.promote _ _))).andRaiseIf hr _ _
  · exact paged

theorem State.Decides.portTick {s : State} (hr : s.held = false) (p : PortIx) : s.Decides (s.portTick p) :=
  ((State.Decides.modPort (f := Port.interval s.mgmt.inputs[p]) (.interval _ _)).trans (.rest _ _ _ _ _ _)).andRaiseIf hr _ _

/-! ### The sync machine (R108–R114) -/

section
variable {s : State} (hr : s.held = false) (p : PortIx)
include hr

theorem State.Decides.syncPort {f : Port → Port} (h : s.ports[p].Keeps (f s.ports[p])) : s.Decides (s.syncPort p f) :=
  (State.Decides.modPort h).andRaiseIf hr _ _

theorem State.Decides.leaveLocked : s.Decides (s.leaveLocked p) := by
  unfold State.leaveLocked
  split
  · have hunt : s.ports[p].Keeps { s.ports[p] with sync := .hunt } := ⟨rfl, rfl, id⟩
    exact .syncPort hr p (hunt.trans (.abortSweep _))
  · exact .refl s

theorem State.Decides.receiveBad : s.Decides (s.receiveBad p) := by
  have synced : s.Decides (s.syncPort p Port.syncBad) := .syncPort hr p (.syncBad _)
  unfold State.receiveBad
  dsimp only
  split
  · exact synced.trans (.leaveLocked (synced.running hr) p)
  · exact synced

/-- A good frame, whatever the delivery does that keeps the invariants. -/
theorem State.Works.receiveGood (seq : Word) {deliver : State → State}
    (h : ∀ t : State, t.held = false → t.Works (deliver t)) : s.Works (s.receiveGood p seq deliver) := by
  have counted : s.ports[p].Keeps ((s.ports[p].syncGood seq).countGood (s.ports[p].isGap seq)) :=
    (Port.Keeps.syncGood seq _).trans ⟨rfl, rfl, id⟩
  have synced := State.Decides.syncPort (f := fun q => (q.syncGood seq).countGood (s.ports[p].isGap seq)) hr p counted
  unfold State.receiveGood
  dsimp only
  generalize (s.syncPort p fun q => (q.syncGood seq).countGood (s.ports[p].isGap seq)) = t at *
  have aborted : s.Works (if s.ports[p].isGap seq then t.modPort p Port.abortSweep else t) := by
    split
    · exact (synced.trans (.modPort (.abortSweep _))).toWorks
    · exact synced.toWorks
  generalize (if s.ports[p].isGap seq then t.modPort p Port.abortSweep else t) = t at *
  have delivered : s.Works (if s.ports[p].delivers seq then deliver t else t) := by
    split
    · exact aborted.trans (h t (aborted.running hr))
    · exact aborted
  split
  · exact delivered.trans (State.Decides.leaveLocked (delivered.running hr) p).toWorks
  · exact delivered

/-! ### Requests (R203–R205) -/

omit hr in
/-- A reply joins a queue that has room. -/
theorem Port.bounded_enqueue {q : Port} (room : q.replies.length < 4) (r : Reply) (h : q.bounded) : (q.enqueue r).bounded := by
  obtain ⟨-, sends, window⟩ := h
  unfold Port.enqueue Port.startReply
  cases sending : q.sending with
  | some ws => exact ⟨by simpa using room, by simp, window⟩
  | none =>
    have empty : q.replies = [] := by simpa [sending] using sends
    simp only [empty, List.nil_append]
    exact ⟨by simp, by simp, window⟩

theorem State.Works.manage (seq code : Word) (args : List Word) {decide : PortIx → List Word → State → Decision}
    (h : s.Decides (decide p args s).state) : s.Works (State.manage p seq code args decide s) := by
  unfold State.manage
  split
  · have counted : s.ports[p].Keeps { s.ports[p] with
        counters := { s.ports[p].counters with dropped := countUp s.ports[p].counters.dropped } } := ⟨rfl, rfl, id⟩
    exact ((State.Decides.modPort counted).andRaise hr _).toWorks
  · next room =>
    dsimp only
    have decided : s.Decides (match s.admission p code with
        | some r => refuse s r
        | none => decide p args s).state := by
      split
      · exact .refl s
      · exact h
    refine decided.toWorks.trans (.modPort (Port.bounded_enqueue ?_ _))
    rw [decided.replies]
    omega

end

/-! ### The link receiver (R104–R107) -/

theorem State.Decides.receiver (s : State) (p : PortIx) (r : Receiver) :
    s.Decides (s.modPort p fun q => { q with receiver := r }) := .modPort ⟨rfl, rfl, id⟩

/-- A frame that ends is taken only while the part runs. -/
theorem State.Works.endFrame {s : State} (p : PortIx) (stale : Bool) {take : State → State}
    (h : ∀ t : State, t.held = false → t.Works (take t)) : s.Works (s.endFrame p stale take) := by
  have forgotten := (State.Decides.receiver s p .noFrame).toWorks
  unfold State.endFrame
  dsimp only
  split
  · exact forgotten
  · next taken =>
    have hr : s.held = false := by
      simp only [State.dropsFrame, Bool.or_eq_true, not_or, Bool.not_eq_true] at taken
      exact taken.1.1.1
    exact forgotten.trans (h _ hr)

/-- A request, decided by its code. -/
theorem State.Works.takeRequest (s : State) (head : FrameHead) (code : Word) (args : List Word) :
    s.Works (s.takeRequest head code args (decideByCode code)) := by
  refine .endFrame _ _ fun t hr => ?_
  split
  · exact .receiveGood hr _ _ fun u hu => .manage hu _ _ _ _ (decideByCode_decides _ _ hu code)
  · exact (State.Decides.receiveBad hr _).toWorks

theorem State.Works.receiveWords {s : State} (hr : s.held = false) (p : PortIx) (ws : List Word) :
    s.Works (s.receiveWords p ws) := by
  unfold State.receiveWords
  split
  · exact .receiveGood hr _ _ fun u hu => (State.Decides.takeLevels hu _ _ _ _).toWorks
  · next code _ _ => exact .receiveGood hr _ _ fun u hu => .manage hu _ _ _ _ (decideByCode_decides _ _ hu code)
  · exact (State.Decides.receiveBad hr _).toWorks

/-! ### Replies (R118) -/

/-- A reply that was being sent leaves its queue. -/
theorem Port.bounded_completeReply {q : Port} {ws : List Word} (sending : q.sending = some ws) (h : q.bounded) :
    q.completeReply.bounded := by
  obtain ⟨few, sends, window⟩ := h
  have queued : q.replies ≠ [] := sends.1 (by rw [sending]; rfl)
  obtain ⟨r, rs, hq⟩ := List.exists_cons_of_ne_nil queued
  have few' : rs.length ≤ 4 := by
    have : (r :: rs).length ≤ 4 := hq ▸ few
    exact Nat.le_of_succ_le this
  unfold Port.completeReply Port.startReply
  rw [hq]
  cases rs with
  | nil => exact ⟨by simp, by simp, window⟩
  | cons r' rs => exact ⟨few', by simp, window⟩

end Sys2Proof.Machine
end

