-- ==== Sys2Proof/Proofs/StoredSettings.lean ====
section
/-! A sound settings record taken at start-up (R146), input by input and then in one piece: each changed item has the effects that a
SET of it has. -/

namespace Sys2Proof.Machine

/-! ### The shape of a sound record -/

theorem allSome_map_some {α : Type} : ∀ {xs : List (Option α)} {ys : List α}, allSome xs = some ys → xs = ys.map some
  | [], _, h => by cases h; rfl
  | x :: xs, ys, h => by
    unfold allSome at h
    split at h
    · next rest =>
      cases h
      rw [List.map_cons, ← allSome_map_some rest]
    · cases h

theorem allSome_length {α : Type} {xs : List (Option α)} {ys : List α} (h : allSome xs = some ys) : ys.length = xs.length := by
  rw [allSome_map_some h, List.length_map]

theorem exists_ofFn {α : Type} {n : Nat} {l : List α} (h : l.length = n) : ∃ f : Fin n → α, l = List.ofFn f :=
  ⟨fun i => l[i.val]'(h ▸ i.isLt), List.ext_getElem (by simp [h]) (by simp)⟩

/-- A sound record holds four inputs, one of which may manage, six links and eighteen budgets. -/
theorem StoredSettings.of?_shape {ws : List Word} {r : StoredSettings} (h : StoredSettings.of? ws = some r) :
    ∃ (ins : PortIx → StoredInput) (links : LinkIx → LinkSettings) (budgets : GroupIx → Nat) (start : Option BankIx),
      r = ⟨List.ofFn ins, List.ofFn links, List.ofFn budgets, start⟩ ∧
        ∃ p, (ins p).enabled = true ∧ (ins p).permit = true := by
  unfold StoredSettings.of? at h
  split at h
  · next is ls bs start hi hl hb _ =>
    split at h
    · next manages =>
      cases h
      obtain ⟨ins, rfl⟩ := exists_ofFn (n := 4) (allSome_length hi)
      obtain ⟨links, rfl⟩ := exists_ofFn (n := 6) (allSome_length hl)
      obtain ⟨budgets, rfl⟩ := exists_ofFn (n := 18) (allSome_length hb)
      obtain ⟨_, member, on⟩ := List.any_eq_true.1 manages
      obtain ⟨p, rfl⟩ := (List.mem_ofFn' _ _).1 member
      exact ⟨ins, links, budgets, start, rfl, p, by simpa using on⟩
    · cases h
  · cases h

/-! ### One input -/

/-- The settings of an input after a stored record's. -/
def StoredInput.over (i : StoredInput) (old : InputSettings) : InputSettings :=
  { old with
    enabled := i.enabled, permit := i.permit, autoResync := i.autoResync
    lossN := i.lossN, lossH := i.lossH, lossF := i.lossF }

/-- A port whose input the stored record enables or disables (R98, R99). -/
def StoredInput.overPort (i : StoredInput) (old : InputSettings) (q : Port) : Port :=
  if !old.enabled && i.enabled then q.enable else if old.enabled && !i.enabled then q.disable else q

/-- The stored record disables an input whose port is not in HUNT (R114). -/
def StoredInput.unlocks (i : StoredInput) (old : InputSettings) (q : Port) : Bool :=
  old.enabled && !i.enabled && q.sync != .hunt

/-- The settings of one input taken from a stored record. -/
def State.takeInput (s : State) (p : PortIx) (i : StoredInput) : State :=
  (s.setEnabled p i.enabled).modInput p fun j =>
    { j with permit := i.permit, autoResync := i.autoResync, lossN := i.lossN, lossH := i.lossH, lossF := i.lossF }

theorem State.takeInput_eq (s : State) (p : PortIx) (i : StoredInput) :
    s.takeInput p i = State.raiseIf (i.unlocks s.mgmt.inputs[p] s.ports[p]) (.syncChange p) { s with
      ports := s.ports.set p (i.overPort s.mgmt.inputs[p] s.ports[p])
      mgmt := { s.mgmt with inputs := s.mgmt.inputs.set p (i.over s.mgmt.inputs[p]) } } := by
  have same : s.ports.set p s.ports[p] = s.ports := Vector.set_getElem_self p.isLt
  unfold State.takeInput State.setEnabled StoredInput.unlocks StoredInput.overPort
  cases was : s.mgmt.inputs[p].enabled <;> cases now : i.enabled
  case false.false | true.true => simp [was, now, State.modInput, same, StoredInput.over, -Fin.getElem_fin]
  case false.true => simp [State.modInput, State.modPort, now, StoredInput.over]
  case true.false =>
    cases hunt : s.ports[p].sync != .hunt <;>
      simp [State.modInput, State.modPort, now, StoredInput.over, State.raise, Mgmt.raise, Mgmt.redecide]

/-! ### All four inputs -/

/-- A place written, then those of a list: all of them written. -/
theorem tab_set_list {α : Type} {n : Nat} {p : Fin n} {ps : List (Fin n)} (new : p ∉ ps) (v : Vector α n) (f : Fin n → α) :
    (tab fun m => if m ∈ ps then f m else (v.set p (f p))[m]) = tab fun m => if m ∈ p :: ps then f m else v[m] := by
  refine congrArg tab (funext fun m => ?_)
  rw [set_get]
  by_cases hp : m = p
  · simp [hp, new]
  · simp [hp]

/-- The inputs of a list taken from a stored record, all at once. -/
def State.tookInputs (s : State) (ins : PortIx → StoredInput) (ps : List PortIx) : State :=
  { s with
    ports := tab fun p => if p ∈ ps then (ins p).overPort s.mgmt.inputs[p] s.ports[p] else s.ports[p]
    mgmt := (ps.filter fun p => (ins p).unlocks s.mgmt.inputs[p] s.ports[p]).foldl (fun m p => m.raise (.syncChange p))
      { s.mgmt with inputs := tab fun p => if p ∈ ps then (ins p).over s.mgmt.inputs[p] else s.mgmt.inputs[p] } }

/-- One by one is all at once: an input does not touch another's settings or port. -/
theorem State.foldl_takeInput (ins : PortIx → StoredInput) : ∀ (ps : List PortIx) (s : State), ps.Nodup →
    ps.foldl (fun s p => s.takeInput p (ins p)) s = s.tookInputs ins ps
  | [], s, _ => by
    simp only [List.foldl_nil, tookInputs, List.not_mem_nil, if_false, tab_eq_self, List.filter_nil]
  | p :: ps, s, distinct => by
    obtain ⟨new, rest⟩ := List.nodup_cons.1 distinct
    rw [List.foldl_cons, State.foldl_takeInput ins ps _ rest]
    have ports : (s.takeInput p (ins p)).ports = s.ports.set p ((ins p).overPort s.mgmt.inputs[p] s.ports[p]) := by
      rw [State.takeInput_eq, State.raiseIf_ports]
    have inputs : (s.takeInput p (ins p)).mgmt.inputs = s.mgmt.inputs.set p ((ins p).over s.mgmt.inputs[p]) := by
      rw [State.takeInput_eq, State.raiseIf_mgmt]
      split <;> rfl
    have otherPort {m : PortIx} (hm : m ∈ ps) : (s.takeInput p (ins p)).ports[m] = s.ports[m] := by
      rw [ports]
      exact Vector.getElem_set_ne p.isLt m.isLt fun same => new (Fin.ext same ▸ hm)
    have otherInput {m : PortIx} (hm : m ∈ ps) : (s.takeInput p (ins p)).mgmt.inputs[m] = s.mgmt.inputs[m] := by
      rw [inputs]
      exact Vector.getElem_set_ne p.isLt m.isLt fun same => new (Fin.ext same ▸ hm)
    have frame (ports : Vector Port 4) (mgmt : Mgmt) :
        { s.takeInput p (ins p) with ports := ports, mgmt := mgmt } = { s with ports := ports, mgmt := mgmt } := by
      rw [State.takeInput_eq]
      cases (ins p).unlocks s.mgmt.inputs[p] s.ports[p] <;> rfl
    have told : (ps.filter fun m => (ins m).unlocks (s.takeInput p (ins p)).mgmt.inputs[m] (s.takeInput p (ins p)).ports[m]) =
        ps.filter fun m => (ins m).unlocks s.mgmt.inputs[m] s.ports[m] :=
      List.filter_congr fun m hm => by rw [otherInput hm, otherPort hm]
    have allPorts : (tab fun m => if m ∈ ps then
          (ins m).overPort (s.takeInput p (ins p)).mgmt.inputs[m] (s.takeInput p (ins p)).ports[m]
        else (s.takeInput p (ins p)).ports[m]) =
        tab fun m => if m ∈ p :: ps then (ins m).overPort s.mgmt.inputs[m] s.ports[m] else s.ports[m] := by
      rw [← tab_set_list new]
      refine congrArg tab (funext fun m => ite_congr rfl (fun hm => ?_) fun _ => by rw [ports])
      rw [otherInput hm, otherPort hm]
    have allInputs : (tab fun m => if m ∈ ps then (ins m).over (s.takeInput p (ins p)).mgmt.inputs[m]
        else (s.takeInput p (ins p)).mgmt.inputs[m]) =
        tab fun m => if m ∈ p :: ps then (ins m).over s.mgmt.inputs[m] else s.mgmt.inputs[m] := by
      rw [← tab_set_list new]
      refine congrArg tab (funext fun m => ite_congr rfl (fun hm => ?_) fun _ => by rw [inputs])
      rw [otherInput hm]
    rw [State.tookInputs, told, allPorts, allInputs, frame, State.tookInputs, List.filter_cons]
    congr 1
    rw [State.takeInput_eq]
    cases tells : (ins p).unlocks s.mgmt.inputs[p] s.ports[p] <;> rfl

theorem ofFn_get? {α : Type} {n : Nat} (f : Fin n → α) (i : Fin n) : (List.ofFn f)[i.val]? = some (f i) := by
  rw [List.getElem?_ofFn, dif_pos i.isLt]

/-- The settings of a link after a stored record's: one that differs comes to be pending. -/
def OutPort.stored (l : LinkSettings) (o : OutPort) : OutPort :=
  if l = o.pending then o else { o with pending := l, pendingFlag := true }

/-- The whole record: the inputs, the links whose settings differ, the budgets and the start bank. -/
theorem State.applySettings_eq (s : State) (ins : PortIx → StoredInput) (links : LinkIx → LinkSettings)
    (budgets : GroupIx → Nat) (start : Option BankIx) :
    s.applySettings ⟨List.ofFn ins, List.ofFn links, List.ofFn budgets, start⟩ =
      let told := s.tookInputs ins (List.finRange 4)
      { told with
        outs := tab fun k => (told.outs[k]).stored (links k)
        mgmt := { told.mgmt with budgets := tab budgets, startBank := start } } := by
  have groups : (tab fun g : GroupIx => (List.ofFn budgets).getD g.val 0) = tab budgets :=
    congrArg tab (funext fun g => by rw [List.getD_eq_getElem?_getD, ofFn_get?, Option.getD_some])
  rw [← State.foldl_takeInput ins _ s (List.nodup_finRange 4)]
  simp only [State.applySettings, ofFn_get?, groups, State.takeInput, State.modOuts]
  rfl

end Sys2Proof.Machine
end

