-- ==== Sys2Proof/Proofs/Completions.lean ====
section
/-! What the end of a transaction does keeps every invariant (R58, R59, R130–R147, R192, R197, R200): the Playback Unit at the end of a
fetch, the Bank Controller at the end of each segment, and the memory clock. -/

namespace Sys2Proof.Machine

/-! ### The end of a fetch (R58, R59) -/

section
variable {s : State} (hr : s.held = false)
include hr

theorem State.Decides.failFetch {n : SlotIx} {f : Fetch} (fetching : s.playback.slots[n] = .fetching f) :
    s.Decides (s.failFetch n f) := by
  refine State.Decides.andRaise (.setPlayback ?_) hr _
  have freed : s.playback.Keeps { s.playback with slots := s.playback.slots.set n .free } :=
    .setSlot _ (by rw [fetching]; rfl)
  dsimp only
  split
  · exact freed.trans (.of_orders rfl rfl fun _ => rfl)
  · exact freed

theorem State.Decides.takeFetch (n : SlotIx) (h : Option Handed) : s.Decides (s.takeFetch n h) := by
  unfold State.takeFetch
  split
  · next fetching =>
    split
    · exact (State.Decides.claim hr (by rw [fetching]; rfl) _).trans (.setPlayback (.takeUp _ _))
    · exact .failFetch hr fetching
  · exact .refl s

/-! ### The ends of a bank operation (R130, R137, R215) -/

theorem State.Keeps.endOp (reason : OpReason) : s.Keeps (s.endOp reason) := by
  unfold State.endOp
  refine State.Keeps.trans ?_ (State.Decides.raise ?_ _).toKeeps
  · exact ⟨rfl, id, fun right => State.alertRight_congr right rfl rfl rfl rfl, id, fun _ => id, id, id, id,
      fun right => ⟨right.1, fun _ no => nomatch no⟩⟩
  · exact hr

theorem State.Keeps.thenEndOp {t : State} (h : s.Keeps t) (reason : OpReason) : s.Keeps (t.endOp reason) :=
  h.trans (.endOp (h.running hr) reason)

theorem State.Keeps.failChangeover (reason : OpReason) : s.Keeps (s.failChangeover reason) :=
  State.Keeps.thenEndOp hr (State.Decides.rest s _ _ _ _ _).toKeeps reason

/-! ### Segments -/

omit hr

theorem State.directoriesRight_congr {s t : State} (directory : t.playback.directory = s.playback.directory)
    (op : t.bank.op = s.bank.op) (h : t.directoriesRight) : s.directoriesRight := by
  rw [State.directoriesRight_iff] at h ⊢
  rwa [← directory, ← op]

theorem State.Decides.readCell0 (bank : Option BankIx) (ws : List Word) : s.Decides (s.readCell0 bank ws) :=
  .bank s _ _ _

theorem State.readCell0_op (s : State) (bank : Option BankIx) (ws : List Word) :
    (s.readCell0 bank ws).bank.op = s.bank.op := by
  simp only [State.readCell0]

theorem State.readCell0_directories {bank : Option BankIx} {ws : List Word}
    (right : (s.readCell0 bank ws).directoriesRight) : s.directoriesRight :=
  State.directoriesRight_congr (t := s.readCell0 bank ws) rfl (State.readCell0_op s bank ws) right

/-- A record whose segment index moves on, of an operation other than a STORE CUE. -/
theorem OpRecord.right.of_header {op op' : OpRecord} (kind : op'.kind ≠ .storeCue) (header : op'.cell0 = op.cell0)
    (h : op.right) : op'.right := by
  refine ⟨?_, fun store => absurd store kind⟩
  rw [OpRecord.header, header]
  exact h.1

/-- A record that takes up a directory-sound cell 0, of an operation other than a STORE CUE. -/
theorem OpRecord.right.of_sound {op : OpRecord} (kind : op.kind ≠ .storeCue) {c : Cell0} (cell0 : op.cell0 = some c)
    (sound : c.sound = true) : op.right := by
  refine ⟨?_, fun store => absurd store kind⟩
  rw [OpRecord.header, cell0]
  simp only [Cell0.sound, Bool.and_eq_true] at sound
  exact sound.2

/-- A record of a STORE CUE that takes up a sound cell 0 and chooses its free cell. -/
theorem OpRecord.right.of_chosen {op : OpRecord} {c : Cell0} {n : Nat} (cell0 : op.cell0 = some c) (sound : c.sound = true)
    (cell : op.cell = n) (free : freeCell? c.entries = some n) (lo : 1 ≤ op.cue) (hi : op.cue ≤ 9999) : op.right := by
  have header : op.header = c := by rw [OpRecord.header, cell0]; rfl
  simp only [Cell0.sound, Bool.and_eq_true] at sound
  refine ⟨header ▸ sound.2, fun _ => ⟨lo, hi, .inr ?_⟩⟩
  rw [header, cell]
  exact freeCell?_spec free

/-- The directory that a STORE CUE or a DELETE CUE writes is sound, once the cell of a STORE CUE is chosen. -/
theorem OpRecord.right.newEntries {op : OpRecord} (h : op.right) (chosen : op.kind = .storeCue → op.segment ≠ 1) :
    soundEntries op.newEntries = true := by
  obtain ⟨sound, store⟩ := h
  unfold OpRecord.newEntries
  split
  · next kind =>
    obtain ⟨lo, hi, first | ⟨ten, last, free⟩⟩ := store kind
    · exact absurd first (chosen kind)
    · exact storeEntry_sound lo hi ten last free sound
  · exact removeEntry_sound op.cue sound
  · exact sound

/-- An operation other than a STORE CUE goes on, its directory as it was. -/
theorem State.Keeps.thenNext {t : State} {op op' : OpRecord} (ht : s.Keeps t) (hop : s.directoriesRight → op.right)
    (kind : op.kind ≠ .storeCue) (dir : t.playback.directory = s.playback.directory := by rfl)
    (held : t.bank.op = s.bank.op := by rfl) (kind' : op'.kind = op.kind := by rfl)
    (header : op'.cell0 = op.cell0 := by rfl) : s.Keeps (t.nextSegment op') :=
  ht.trans (.handOver fun right =>
    .of_header (kind' ▸ kind) header (hop (State.directoriesRight_congr dir held right)))

section
variable {op : OpRecord} {h : Handed} (hop : s.directoriesRight → op.right)
include hr hop

theorem State.Keeps.commit : s.Keeps (s.commit op) := by
  refine State.Keeps.thenEndOp hr (State.Keeps.trans ?_ (State.Decides.flagLinks _ _).toKeeps) _
  exact ⟨rfl, id, id, id, fun _ => id, id, id, id, fun right => ⟨(hop right).1, right.2⟩⟩

theorem State.Keeps.changeoverTake (kind : op.kind ≠ .storeCue) : s.Keeps (s.changeoverTake op h) := by
  have read : s.Keeps (s.readCell0 op.bank h.words) := (State.Decides.readCell0 _ _).toKeeps
  have loaded (t : TableSet) : s.Keeps { s with tables := { s.tables with staging := t } } :=
    (State.Decides.rest s _ _ _ _ _).toKeeps
  have tested (t : TableSet) (a b : Bool) :
      s.Keeps (State.testedAreas a b { s with tables := { s.tables with staging := t } }) :=
    (loaded t).trans (State.Decides.bank _ _ _ _).toKeeps
  unfold State.changeoverTake
  dsimp only
  split
  · split
    · next sound => exact read.trans (.handOver fun _ => .of_sound kind rfl sound.2)
    · exact read.trans (.failChangeover (read.running hr) _)
  · generalize (if op.segment ≤ 4 then _ else _ : TableSet) = staging
    split
    · exact (loaded staging).thenNext hop kind
    · split
      · exact (loaded staging).thenNext hop kind
      · split
        · refine (tested staging _ _).trans (State.Keeps.commit ?_ fun right => ?_)
          · exact hr
          · exact .of_header kind rfl (hop (State.directoriesRight_congr rfl rfl right))
        · refine (tested staging _ _).trans (State.Keeps.failChangeover ?_ _)
          exact hr

theorem State.Keeps.saveTake (kind : op.kind ≠ .storeCue) : s.Keeps (s.saveTake op h) := by
  have read : s.Keeps (s.readCell0 op.bank h.words) := (State.Decides.readCell0 _ _).toKeeps
  unfold State.saveTake
  dsimp only
  split
  · split
    · next sound => exact read.trans (.handOver fun _ => .of_sound kind rfl sound)
    · exact read.thenEndOp hr _
  · split
    · exact (State.Keeps.refl s).thenNext hop kind
    · split
      · exact (State.Keeps.refl s).thenNext hop kind
      · split
        · exact (State.Keeps.refl s).thenNext hop kind
        · exact .endOp hr _

theorem State.Keeps.formatTake (kind : op.kind ≠ .storeCue) : s.Keeps (s.formatTake op h) := by
  unfold State.formatTake
  dsimp only
  split
  · exact (State.Keeps.refl s).thenNext hop kind
  · split
    · exact (State.Keeps.refl s).thenNext hop kind
    · split
      · exact (State.Keeps.refl s).thenNext hop kind
      · exact .endOp hr _

theorem State.Keeps.saveHouseTake (kind : op.kind ≠ .storeCue) : s.Keeps (s.saveHouseTake op h) := by
  unfold State.saveHouseTake
  dsimp only
  split
  · exact (State.Keeps.refl s).thenNext hop kind
  · split
    · exact (State.Keeps.refl s).thenNext hop kind
    · split
      · exact (State.Keeps.refl s).thenNext hop kind
      · split
        · exact (State.Keeps.refl s).thenNext hop kind
        · split
          · exact (State.Keeps.refl s).thenNext hop kind
          · exact .endOp hr _

omit hr in
/-- The live directory replaced by the one that the operation wrote (R40, R41). -/
theorem State.Keeps.replaceDirectory (chosen : op.kind = .storeCue → op.segment ≠ 1) : s.Keeps (s.replaceDirectory op) := by
  unfold State.replaceDirectory
  split
  · exact ⟨rfl, id, id, id, fun _ => id, id, id, id, fun right => ⟨(hop right).newEntries chosen, right.2⟩⟩
  · exact .refl s

theorem State.Keeps.deleteTake (kind : op.kind ≠ .storeCue) : s.Keeps (s.deleteTake op h) := by
  have read : s.Keeps (s.readCell0 op.bank h.words) := (State.Decides.readCell0 _ _).toKeeps
  unfold State.deleteTake
  dsimp only
  split
  · split
    · next sound =>
      split
      · exact read.trans (.handOver fun _ => .of_sound kind rfl sound.2)
      · exact read.thenEndOp hr _
    · exact read.thenEndOp hr _
  · exact (State.Keeps.replaceDirectory hop fun store => absurd store kind).thenEndOp hr _

omit hop in
theorem State.Keeps.readTake (kind : op.kind ≠ .storeCue) : s.Keeps (s.readTake op h) := by
  have read : s.Keeps (s.readCell0 op.bank h.words) := (State.Decides.readCell0 _ _).toKeeps
  have buffered : s.Decides { s with bank := { s.bank with buffer := bufferOf h.words } } := .bank s _ _ _
  unfold State.readTake
  dsimp only
  split
  · split
    · next sound =>
      split
      · exact read.trans (.handOver fun _ => .of_sound kind rfl sound)
      · exact read.thenEndOp hr _
    · exact read.thenEndOp hr _
  · split
    · exact (buffered.trans (.modPort ⟨rfl, rfl, id⟩)).toKeeps.thenEndOp hr _
    · exact buffered.toKeeps.thenEndOp hr _

theorem State.Keeps.storeTake (kind : op.kind = .storeCue) : s.Keeps (s.storeTake op h) := by
  have read : s.Keeps (s.readCell0 op.bank h.words) := (State.Decides.readCell0 _ _).toKeeps
  unfold State.storeTake
  dsimp only
  split
  · split
    · next sound =>
      split
      · exact read.thenEndOp hr _
      · split
        · next n free =>
          refine read.trans (.handOver fun right => ?_)
          have before : s.directoriesRight := State.readCell0_directories right
          obtain ⟨lo, hi, _⟩ := (hop before).2 kind
          exact .of_chosen rfl sound.2 rfl free lo hi
        · exact read.thenEndOp hr _
    · exact read.thenEndOp hr _
  · next later =>
    split
    · refine State.Keeps.handOver fun right => ⟨(hop right).1, fun _ => ?_⟩
      have ⟨lo, hi, first⟩ := (hop right).2 kind
      exact ⟨lo, hi, .inr (first.resolve_left later)⟩
    · exact (State.Keeps.replaceDirectory hop fun _ => later).thenEndOp hr _

end

end

end Sys2Proof.Machine
end

