-- ==== Sys2Proof/Proofs/Outcomes.lean ====
section
/-! What the end of a transaction and the memory clock keep (R144–R147, R191, R192, R197, R200): every invariant, the start-up load
among the requesters. -/

namespace Sys2Proof.Machine

/-! ### The settings record of the start-up load (R146) -/

theorem StoredInput.overPort_keeps (i : StoredInput) (old : InputSettings) (q : Port) : q.Keeps (i.overPort old q) := by
  unfold StoredInput.overPort
  split
  · exact ⟨rfl, rfl, id⟩
  · split
    · exact ⟨rfl, rfl, id⟩
    · exact .refl q

section
variable {s : State} (hr : s.held = false)
include hr

theorem State.Decides.raiseAll {α : Type} (e : α → Event) (xs : List α) :
    s.Decides { s with mgmt := xs.foldl (fun m x => m.raise (e x)) s.mgmt } := by
  induction xs generalizing s with
  | nil => exact .refl s
  | cons x xs ih => exact (State.Decides.raise hr (e x)).trans (ih (s := s.raise (e x)) hr)

theorem State.Decides.portsAndInputs {ports : Vector Port 4} {inputs : Vector InputSettings 4} (told : List PortIx)
    (kept : ∀ p : PortIx, s.ports[p].Keeps ports[p]) (managed : managing inputs = true) :
    s.Decides { s with
      ports := ports
      mgmt := told.foldl (fun m p => m.raise (.syncChange p)) { s.mgmt with inputs := inputs } } := by
  have settings : s.Decides { s with ports := ports, mgmt := { s.mgmt with inputs := inputs } } :=
    (State.Decides.setPorts kept).trans (.inputs fun _ => managed)
  exact settings.trans (State.Decides.raiseAll (settings.running hr) Event.syncChange told)

omit hr in
theorem State.Decides.linksAndRest {outs : Vector OutPort 6} {m : Mgmt}
    (quiet : ∀ k : LinkIx, s.outs[k].drives = false → outs[k].drives = false) (inputs : m.inputs = s.mgmt.inputs)
    (flags : m.flags = s.mgmt.flags) (enables : m.enables = s.mgmt.enables) (alert : m.alertLow = s.mgmt.alertLow) :
    s.Decides { s with outs := outs, mgmt := m } :=
  (State.Decides.setOuts fun _ => quiet).trans (.mgmtRest inputs flags enables alert)

theorem State.Decides.tookInputs (ins : PortIx → StoredInput) (manages : ∃ p, (ins p).enabled = true ∧ (ins p).permit = true) :
    s.Decides (s.tookInputs ins (List.finRange 4)) := by
  obtain ⟨p, on⟩ := manages
  refine State.Decides.portsAndInputs hr _ (fun p => ?_) ?_
  · rw [tab_get, if_pos (List.mem_finRange p)]
    exact StoredInput.overPort_keeps _ _ _
  · rw [managing_iff]
    refine ⟨p, ?_⟩
    rw [tab_get, if_pos (List.mem_finRange p)]
    exact on

theorem State.Decides.applySettings {ws : List Word} {r : StoredSettings} (h : StoredSettings.of? ws = some r) :
    s.Decides (s.applySettings r) := by
  obtain ⟨ins, links, budgets, start, rfl, manages⟩ := StoredSettings.of?_shape h
  rw [State.applySettings_eq]
  refine (State.Decides.tookInputs hr ins manages).trans (.linksAndRest (fun k quiet => ?_) rfl rfl rfl rfl)
  rw [tab_get, OutPort.stored]
  split <;> exact quiet

omit hr in
/-- A settings record touches neither the live directory nor the operation in progress. -/
theorem State.applySettings_apart {ws : List Word} {r : StoredSettings} (h : StoredSettings.of? ws = some r) :
    (s.applySettings r).playback = s.playback ∧ (s.applySettings r).bank = s.bank := by
  obtain ⟨ins, links, budgets, start, rfl, _⟩ := StoredSettings.of?_shape h
  rw [State.applySettings_eq]
  exact ⟨rfl, rfl⟩

/-! ### The areas of the house region (R145, R146) -/

theorem State.Decides.failArea (a : HouseArea) : s.Decides (s.failArea a) :=
  State.Decides.andRaise (.rest s _ _ _ _ _) hr _

theorem State.Decides.passArea (a : HouseArea) (ws : List Word) : s.Decides (s.passArea a ws) := by
  cases a with
  | settings =>
    unfold State.passArea
    dsimp only
    split
    · next sound => exact .applySettings hr sound
    · exact .failArea hr _
  | masks =>
    refine State.Decides.inputs fun managed => ?_
    rw [managing_iff] at managed ⊢
    obtain ⟨p, on⟩ := managed
    refine ⟨p, ?_⟩
    rw [tab_get]
    exact on
  | patch | circuits | curves => exact .rest s _ _ _ _ _

omit hr

theorem State.passArea_apart (a : HouseArea) (ws : List Word) :
    (s.passArea a ws).playback = s.playback ∧ (s.passArea a ws).bank = s.bank := by
  cases a with
  | settings =>
    unfold State.passArea
    dsimp only
    split
    · next sound => exact State.applySettings_apart sound
    · exact ⟨rfl, rfl⟩
  | masks | patch | circuits | curves => exact ⟨rfl, rfl⟩

theorem State.Decides.loadHouseCell (n : Nat) (ws : List Word) : s.Decides (s.loadHouseCell n ws) := by
  unfold State.loadHouseCell
  split
  · exact .rest s _ _ _ _ _
  · exact .rest s _ _ _ _ _
  · exact .bank s _ _ _

theorem State.loadHouseCell_apart (n : Nat) (ws : List Word) :
    (s.loadHouseCell n ws).playback = s.playback ∧ (s.loadHouseCell n ws).bank.op = s.bank.op := by
  unfold State.loadHouseCell
  split <;> exact ⟨rfl, rfl⟩

/-! ### The house part and its requester (R144–R147) -/

theorem State.Keeps.houseEnd : s.Keeps s.houseEnd := by
  unfold State.houseEnd
  split
  · exact (State.Decides.bank s .idle _ _).toKeeps.trans (.op fun _ _ no => nomatch no)
  · exact (State.Decides.rest s _ _ _ _ _).toKeeps.trans
      (.handOver fun _ => OpRecord.right_of_fresh rfl fun kind => nomatch kind)

theorem State.Keeps.houseNext {op : OpRecord} (hop : s.directoriesRight → op.right) (kind : op.kind ≠ .storeCue) (n : Nat) :
    s.Keeps (s.houseNext op n) := by
  unfold State.houseNext
  split
  · exact .handOver fun right => .of_header (op := op) kind rfl (hop right)
  · exact .houseEnd

/-- The house part goes on after a change that touches neither the live directory nor the operation. -/
theorem State.Keeps.thenHouseNext {t : State} {op op' : OpRecord} (h : s.Decides t)
    (apart : t.playback = s.playback ∧ t.bank.op = s.bank.op) (hop : s.directoriesRight → op.right)
    (kind : op.kind ≠ .storeCue) (kind' : op'.kind = op.kind) (header : op'.cell0 = op.cell0) (n : Nat) :
    s.Keeps (t.houseNext op' n) :=
  h.toKeeps.trans (.houseNext (fun right => .of_header (kind' ▸ kind) header
    (hop (State.directoriesRight_congr (congrArg _ apart.1) apart.2 right))) (kind' ▸ kind) n)

include hr

theorem State.Keeps.houseTake {op : OpRecord} (hop : s.directoriesRight → op.right) (kind : op.kind ≠ .storeCue) (h : Handed) :
    s.Keeps (s.houseTake op h) := by
  have loaded := State.Decides.loadHouseCell (s := s) op.segment h.words
  have apart := State.loadHouseCell_apart (s := s) op.segment h.words
  have hl := loaded.running hr
  unfold State.houseTake
  dsimp only
  generalize (if houseArea op.segment = .settings then checkWord _ else h.crc) = computed
  generalize (if houseArea op.segment = .settings then h.words.take 5 else op.houseChecks) = checks
  refine State.Keeps.thenHouseNext ?_ ?_ hop kind ?_ ?_ _
  · split
    · split
      · exact loaded.trans (.passArea hl _ _)
      · exact loaded.trans (.failArea hl _)
    · exact loaded
  · split
    · split
      · have passed := State.passArea_apart (s := s.loadHouseCell op.segment h.words) (houseArea op.segment) h.words
        exact ⟨passed.1.trans apart.1, (congrArg _ passed.2).trans apart.2⟩
      · exact apart
    · exact apart
  · rfl
  · rfl

theorem State.Keeps.houseFault {op : OpRecord} (hop : s.directoriesRight → op.right) (kind : op.kind ≠ .storeCue) :
    s.Keeps (s.houseFault op) := by
  have failed := State.Decides.failArea hr (houseArea op.segment)
  unfold State.houseFault
  dsimp only
  split
  · exact failed.toKeeps.trans .houseEnd
  · exact .thenHouseNext failed ⟨rfl, rfl⟩ hop kind rfl rfl _

/-! ### The requester takes the outcome (R197, R200) -/

theorem State.Keeps.takeSegment (h : Option Handed) : s.Keeps (s.takeSegment h) := by
  unfold State.takeSegment
  split
  · exact .refl s
  · next op h stands =>
    have hop (right : s.directoriesRight) : op.right := right.2 op stands
    split
    · next kind => exact .changeoverTake hr hop (by simp [kind])
    · next kind => exact .saveTake hr hop (by simp [kind])
    · next kind => exact .saveHouseTake hr hop (by simp [kind])
    · next kind => exact .formatTake hr hop (by simp [kind])
    · next kind => exact .storeTake hr hop kind
    · next kind => exact .deleteTake hr hop (by simp [kind])
    · next kind => exact .readTake hr (by simp [kind])
    · next kind => exact .houseTake hr hop (by simp [kind]) h
  · next op stands =>
    have hop (right : s.directoriesRight) : op.right := right.2 op stands
    split
    · exact .failChangeover hr _
    · next kind => exact .houseFault hr hop (by simp [kind])
    · exact .endOp hr _

theorem State.Keeps.takeOutcome (e : Engine) (h : Option Handed) : s.Keeps (s.takeOutcome e h) := by
  unfold State.takeOutcome
  split
  · exact (State.Decides.takeFetch hr _ _).toKeeps
  · exact .takeSegment hr _

omit hr in
theorem State.Keeps.memory {m : Memory} {p : MemPort} (wf : Memory.wf s.mem → Memory.wf m) :
    s.Keeps { s with mem := m, memPort := p } :=
  ⟨rfl, wf, id, id, fun _ => id, id, id, id, id⟩

theorem State.Works.completeTxn (e : Engine) : s.Works (s.completeTxn e) := by
  have finished : s.Keeps (s.finish e) := .memory fun wf => State.finish_wf e wf
  exact (finished.trans (.takeOutcome (finished.running hr) _ _)).thenGrant

/-! ### The accesses and the fault (R191, R192, R200) -/

omit hr in
theorem State.Works.access : s.Works s.access := by
  refine ⟨?_, fun granted => ?_⟩
  · rw [State.access_frame]
    exact .memory State.access_wf
  · unfold State.access
    split
    · exact granted
    · next busy =>
      dsimp only
      split
      · exact fun idle => nomatch idle
      · exact granted

omit hr in
theorem State.Works.accesses (n : Nat) : s.Works (s.accesses n) := by
  induction n generalizing s with
  | zero => exact .refl s
  | succ n ih => exact State.Works.access.trans ih

omit hr in
theorem State.Works.cutAt (cut : Cut) : s.Works (s.cutAt cut) := by
  have accessed := State.Works.accesses (s := s) cut.accesses
  unfold State.cutAt
  dsimp only
  split
  · exact accessed
  · split
    · exact accessed.trans ⟨.memory (Memory.write_wf _ _ _), id⟩
    · exact accessed

theorem State.Works.faultTxn (cut : Cut) : s.Works (s.faultTxn cut) := by
  have stopped := State.Works.cutAt (s := s) cut
  unfold State.faultTxn
  dsimp only
  split
  · exact stopped
  · have faulted (m : MemPort) : s.Keeps (State.raise .memoryFault { s.cutAt cut with memPort := m }) := by
      refine (stopped.toKeeps.trans (.setMemPort _ m)).trans (State.Decides.raise ?_ _).toKeeps
      exact stopped.running hr
    exact ((faulted _).trans (.takeOutcome ((faulted _).running hr) _ _)).thenGrant

/-! ### The memory clock -/

omit hr in
theorem State.Works.clocked {m : MemPort} (busy : m.engine ≠ none) : s.Works { s with memPort := m } :=
  (State.Decides.setMemPort fun _ idle => absurd idle busy).toWorks

theorem State.Works.memoryClock : s.Works s.memoryClock := by
  unfold State.memoryClock
  split
  · exact .refl s
  · next e busy =>
    have sampled (b : Bool) (n : Nat) : s.Works { s with memPort := { s.memPort with rdy := b, samples := n } } :=
      .clocked (by rw [busy]; exact Option.some_ne_none e)
    dsimp only
    split
    · exact .clocked (Option.some_ne_none _)
    · split
      · split
        · exact (sampled _ _).trans .access
        · exact (sampled _ _).trans (.completeTxn ((sampled _ _).running hr) e)
      · split
        · exact .clocked (Option.some_ne_none _)
        · exact (sampled _ _).trans (.faultTxn ((sampled _ _).running hr) _)

omit hr in
theorem State.Works.idle : s.Works s.idle := by
  unfold State.idle
  split
  · exact .refl s
  · next running =>
    have ticked : s.Works { s with timers := s.timers.tick } := (State.Decides.rest s _ _ _ _ _).toWorks
    exact ticked.trans (.memoryClock (Bool.eq_false_iff.2 running))

end

end Sys2Proof.Machine
end

