-- ==== Sys2Proof/Proofs/Resets.lean ====
section
/-! The resets of the part (R216, R217): the transaction in progress is cut, every block takes its reset values, and the start-up load
begins. -/

namespace Sys2Proof.Machine

/-! ### The transaction in progress at a cut (R192, R201) -/

/-- The transaction in progress, if any, writes nothing. -/
def State.onlyReads (s : State) : Prop := ∀ e, s.memPort.engine = some e → e.kind.writes = false

/-- An access moves the engine and its lines, nothing else of the Memory Port. -/
theorem State.access_memPort (s : State) : s.access.memPort = { s.memPort with
    address := s.access.memPort.address, bankLines := s.access.memPort.bankLines, engine := s.access.memPort.engine } := by
  unfold State.access
  split
  · rfl
  · dsimp only
    split <;> rfl

theorem State.accesses_memPort (n : Nat) (s : State) : (s.accesses n).memPort = { s.memPort with
    address := (s.accesses n).memPort.address, bankLines := (s.accesses n).memPort.bankLines
    engine := (s.accesses n).memPort.engine } := by
  induction n generalizing s with
  | zero => rfl
  | succ n ih =>
    have one := State.access_memPort s
    have rest := ih s.access
    rw [one] at rest
    exact rest

theorem State.cutAt_memPort (cut : Cut) (s : State) : (s.cutAt cut).memPort = { s.memPort with
    address := (s.cutAt cut).memPort.address, bankLines := (s.cutAt cut).memPort.bankLines
    engine := (s.cutAt cut).memPort.engine } := by
  unfold State.cutAt
  dsimp only
  split
  · exact State.accesses_memPort _ s
  · split <;> exact State.accesses_memPort _ s

theorem State.access_reads {s : State} (h : s.onlyReads) : s.access.mem = s.mem ∧ s.access.onlyReads := by
  unfold State.access
  split
  · exact ⟨rfl, h⟩
  · next e busy =>
    have reads := h e busy
    dsimp only
    split
    · exact ⟨by simp [reads], fun e' he' => by cases he'; exact reads⟩
    · exact ⟨rfl, h⟩

theorem State.accesses_reads (n : Nat) {s : State} (h : s.onlyReads) :
    (s.accesses n).mem = s.mem ∧ (s.accesses n).onlyReads := by
  induction n generalizing s with
  | zero => exact ⟨rfl, h⟩
  | succ n ih =>
    obtain ⟨mem, reads⟩ := State.access_reads h
    obtain ⟨mem', reads'⟩ := ih reads
    exact ⟨mem'.trans mem, reads'⟩

/-- A cut of a transaction that is no write leaves the memory as it was. -/
theorem State.cutAt_reads (cut : Cut) {s : State} (h : s.onlyReads) : (s.cutAt cut).mem = s.mem := by
  obtain ⟨mem, reads⟩ := State.accesses_reads cut.accesses h
  unfold State.cutAt
  dsimp only
  split
  · exact mem
  · next e busy => simp [reads e busy, mem]

/-! ### The stop (R201, R217) -/

theorem State.stopAll_mem (cut : Cut) (s : State) : (s.stopAll cut).mem = (s.cutAt cut).mem := rfl

theorem State.resetBlocks_ports (s : State) (p : PortIx) : s.resetBlocks.ports[p] =
    { Port.reset with receiver := if s.ports[p].receiver = .noFrame then .noFrame else .dropping } := by
  rw [State.resetBlocks, tab_get]
  rfl

theorem State.resetBlocks_outs (s : State) (k : LinkIx) : s.resetBlocks.outs[k] = OutPort.reset :=
  Vector.getElem_replicate k.isLt

theorem State.stopAll_ports (cut : Cut) (s : State) (p : PortIx) : (s.stopAll cut).ports[p] =
    { Port.reset with receiver := if s.ports[p].receiver = .noFrame then .noFrame else .dropping } := by
  rw [State.stopAll, State.resetBlocks_ports, State.cutAt_frame]

theorem exec_resetLineAsserted {s : State} (hr : s.held = false) (cut : Cut) :
    exec (.resetLineAsserted cut) s = .next { s.stopAll cut with held := true, mgmt := { s.mgmt with alertLow := false } } := by
  have mgmt : (s.stopAll cut).mgmt = s.mgmt := by
    rw [State.stopAll, State.cutAt_frame]
    rfl
  simp only [exec, execResetLineAsserted, State.whenRunning_running _ _ hr, mgmt]

/-! ### The end of a reset (R144, R174, R217) -/

theorem State.endReset_mem (s : State) (cause : ResetCause) : (s.endReset cause).mem = s.mem := by
  simp [State.endReset, State.handOver, State.resetBlocks]

theorem State.endReset_eq (s : State) (cause : ResetCause) : s.endReset cause = { s.resetBlocks with
    held := false
    hold := ⟨s.hold.line, s.hold.line, s.hold.line⟩
    memPort := { MemPort.reset with rdy := s.memPort.rdy, samples := s.memPort.samples }
    bank := { BankCtl.reset with op := some OpRecord.startUp }
    mgmt := if s.hold.line then (Mgmt.reset cause).raise .holdChange else Mgmt.reset cause } := by
  cases line : s.hold.line <;> simp only [State.endReset, line] <;> rfl

theorem State.endReset_fresh (s : State) (cause : ResetCause) : s.Fresh (s.endReset cause) cause := by
  rw [State.endReset_eq]
  exact ⟨rfl, State.resetBlocks_ports s, rfl, rfl, rfl, rfl, State.resetBlocks_outs s, rfl, rfl, rfl, rfl, rfl, rfl⟩

/-- A frame in progress at the stop is still to be dropped at the end of the reset. -/
theorem Receiver.dropped_twice (r : Receiver) :
    (if (if r = Receiver.noFrame then Receiver.noFrame else .dropping) = .noFrame then Receiver.noFrame else .dropping) =
      if r = .noFrame then .noFrame else .dropping := by
  cases r <;> rfl

theorem State.restarted_fresh (cut : Cut) (s : State) (cause : ResetCause) :
    s.Fresh ((s.stopAll cut).endReset cause) cause := by
  have fresh := State.endReset_fresh (s.stopAll cut) cause
  have line : (s.stopAll cut).hold.line = s.hold.line := by rw [State.stopAll, State.cutAt_frame]; rfl
  have port := State.cutAt_memPort cut s
  have rdy : (s.stopAll cut).memPort.rdy = s.memPort.rdy := by
    rw [State.stopAll, State.resetBlocks, port]
    rfl
  have samples : (s.stopAll cut).memPort.samples = s.memPort.samples := by
    rw [State.stopAll, State.resetBlocks, port]
    rfl
  refine { fresh with
    ports := fun p => ?_, hold := line ▸ fresh.hold, memPort := ?_, mgmt := line ▸ fresh.mgmt, pending := ?_ }
  · rw [fresh.ports p, State.stopAll_ports]
    exact congrArg (fun r => { Port.reset with receiver := r }) (Receiver.dropped_twice _)
  · rw [fresh.memPort, rdy, samples]
  · rw [fresh.pending, State.stopAll, State.cutAt_frame]
    rfl

/-! ### What a reset leaves -/

/-- The invariants that hold of what a reset leaves, whatever it found. -/
structure State.Settled (t : State) : Prop where
  alert       : t.alertRight
  hold        : t.holdRight
  ports       : ∀ p : PortIx, t.ports[p].bounded
  owners      : t.playback.ownersRight
  orders      : t.playback.ordersRight
  granted     : t.memPort.granted
  directories : t.directoriesRight

theorem Port.reset_bounded (r : Receiver) : ({ Port.reset with receiver := r } : Port).bounded :=
  ⟨Nat.zero_le _, by simp [Port.reset], Nat.zero_le _⟩

theorem State.anyDrives_iff (s : State) : s.anyDrives = false ↔ ∀ k : LinkIx, s.outs[k].drives = false := by
  simp only [State.anyDrives, List.any_eq_false, Vector.mem_toList_iff, Bool.not_eq_true]
  constructor
  · exact fun quiet k => quiet _ (Vector.getElem_mem k.isLt)
  · rintro quiet o member
    obtain ⟨i, hi, rfl⟩ := Vector.getElem_of_mem member
    exact quiet ⟨i, hi⟩

theorem State.anyDrives_reset {t : State} (outs : ∀ k : LinkIx, t.outs[k] = OutPort.reset) : t.anyDrives = false :=
  t.anyDrives_iff.2 fun k => by rw [outs k]; rfl

theorem Mgmt.reset_managing (cause : ResetCause) : managing (Mgmt.reset cause).inputs = true := by
  rw [managing_iff]
  refine ⟨0, ?_⟩
  simp only [Mgmt.reset, tab_get]
  exact ⟨rfl, rfl⟩

theorem Playback.reset_owners : Playback.reset.ownersRight := by
  intro c o owned
  rw [show Playback.reset.owner[c] = none from Vector.getElem_replicate c.isLt] at owned
  cases owned

theorem Playback.reset_orders : Playback.reset.ordersRight := by
  have free (n : SlotIx) : Playback.reset.slots[n].order? = none := by
    rw [show Playback.reset.slots[n] = .free from Vector.getElem_replicate n.isLt]
    rfl
  refine ⟨fun n o started => ?_, fun m n o started _ => ?_⟩
  · exact nomatch (free n).symm.trans started
  · exact nomatch (free m).symm.trans started

theorem OpRecord.startUp_right : OpRecord.startUp.right := OpRecord.right_of_fresh rfl fun kind => nomatch kind

theorem State.Fresh.settled {s t : State} {cause : ResetCause} (h : s.Fresh t cause) : t.Settled where
  alert := by
    rw [State.alertRight, h.held, h.mgmt]
    split
    · rw [Mgmt.raise_alertLow]
      rfl
    · simp [Mgmt.reset]
  hold acked := by
    rw [h.hold] at acked ⊢
    exact ⟨acked, State.anyDrives_reset h.outs⟩
  ports p := by
    rw [h.ports p]
    exact Port.reset_bounded _
  owners := h.playback ▸ Playback.reset_owners
  orders := h.playback ▸ Playback.reset_orders
  granted := by
    rw [h.memPort]
    exact fun idle => nomatch idle
  directories := by
    rw [State.directoriesRight_iff, h.playback, h.bank]
    exact ⟨rfl, fun op stands => Option.some.inj stands ▸ OpRecord.startUp_right⟩

theorem State.Fresh.managed {s t : State} {cause : ResetCause} (h : s.Fresh t cause) : t.managed := by
  rw [State.managed, h.mgmt]
  split <;> exact Mgmt.reset_managing cause

/-- A part that the RESET line has stopped. -/
theorem State.stopped_settled (cut : Cut) (s : State) :
    ({ s.stopAll cut with held := true, mgmt := { s.mgmt with alertLow := false } } : State).Settled where
  alert := rfl
  hold acked := nomatch acked
  ports p := by
    have port := State.stopAll_ports cut s p
    rw [show ({ s.stopAll cut with held := true, mgmt := { s.mgmt with alertLow := false } } : State).ports[p] = _ from port]
    exact Port.reset_bounded _
  owners := Playback.reset_owners
  orders := Playback.reset_orders
  granted _ := ⟨rfl, rfl⟩
  directories := ⟨rfl, fun _ no => nomatch no⟩

/-! ### The commands of the resets -/

/-- Settles O60: the reset of a power-on is a reset. -/
theorem theInvariantsHoldAtReset : Obligations.TheInvariantsHoldAtReset := by
  have fresh : State.reset.Fresh State.reset .line := by
    refine ⟨rfl, fun p => ?_, rfl, rfl, rfl, rfl, fun k => Vector.getElem_replicate k.isLt, rfl, rfl, rfl, rfl, rfl, rfl⟩
    rw [show State.reset.ports[p] = Port.reset from Vector.getElem_replicate p.isLt]
    rfl
  obtain ⟨alert, hold, ports, owners, orders, granted, directories⟩ := fresh.settled
  exact ⟨Memory.wf_nil, alert, hold, ports, fresh.managed, owners, orders, granted, directories⟩

/-- Settles O4: the stop cuts the transaction in progress and resets every block; the release is the end of a reset. -/
theorem theResetLineStopsAndStartsThePart : Obligations.TheResetLineStopsAndStartsThePart := by
  refine ⟨fun cut s hr => ⟨_, exec_resetLineAsserted hr cut, ?_⟩, fun cut s e hr wf busy writes inside =>
    ⟨_, exec_resetLineAsserted hr cut, ?_⟩, fun s held => ⟨s.endReset .line, ?_, ?_, ?_⟩⟩
  · refine ⟨rfl, State.stopAll_ports cut s, rfl, rfl, rfl, rfl, State.resetBlocks_outs (s.cutAt cut), ?_, ?_, rfl, rfl, rfl, rfl, rfl, rfl, rfl,
      rfl, ?_, fun reads => State.cutAt_reads cut reads⟩
    · simp only [State.stopAll]
      rw [State.cutAt_frame]
      rfl
    · simp only [State.stopAll, State.resetBlocks, MemPort.afterReset]
      rw [State.cutAt_memPort]
    · simp only [State.stopAll]
      rw [State.cutAt_frame]
      rfl
  · obtain ⟨_, _, _, _, _, _, _, _, read⟩ := State.cutAt_next cut busy inside
    exact read writes wf
  · simp only [exec, execResetLineReleased, held, if_true]
  · exact State.endReset_fresh s .line
  · exact State.endReset_mem s .line

/-- Settles O49: a reply that is no restart reply leaves its queue; a restart reply brings the part to a reset. -/
theorem aReplyFrameCompletes : Obligations.AReplyFrameCompletes := by
  refine ⟨fun p cut s ws r rs hr sending queued plain => ?_, fun p cut s ws r rs hr sending queued restarts =>
    ⟨(s.stopAll cut).endReset .restart, ?_, State.restarted_fresh cut s .restart, fun reads => ?_,
      fun e busy writes inside wf => ?_⟩⟩
  · simp only [exec, execReplyFrameComplete, State.whenRunning_running _ _ hr, sending, queued, plain, Bool.false_eq_true, if_false]
    simp only [State.modPort, Port.completeReply, Port.startReply, queued, List.tail_cons]
    cases rs <;> rfl
  · simp only [exec, execReplyFrameComplete, State.whenRunning_running _ _ hr, sending, queued, restarts, if_true]
  · rw [State.endReset_mem, State.stopAll_mem, State.cutAt_reads cut reads]
  · obtain ⟨_, _, _, _, _, _, _, _, read⟩ := State.cutAt_next cut busy inside
    rw [State.endReset_mem, State.stopAll_mem]
    exact read writes wf

end Sys2Proof.Machine
end

