-- ==== Sys2Proof/Proofs/Steps.lean ====
section
/-! Every step keeps every invariant: a command of a part that runs is a chain of changes that keep them, a held part changes nothing
that they speak of, and a reset leaves them right. -/

namespace Sys2Proof.Machine

/-! ### The commands of a running part -/

section
variable {s : State} (hr : s.held = false)
include hr

/-! #### The Playback Unit and the Lamp Check Unit (R66, R74, R182) -/

theorem State.Decides.fireFollow : s.Decides s.fireFollow := by
  have cleared : s.Decides { s with playback := { s.playback with follow := none } } :=
    .setPlayback (.of_orders rfl rfl fun _ => rfl)
  unfold State.fireFollow
  dsimp only
  split
  · exact cleared.trans (.acceptGo (cleared.running hr) _ _ _)
  · exact cleared.andRaise hr _

theorem State.Decides.countFollow : s.Decides s.countFollow := by
  unfold State.countFollow
  split
  · exact .fireFollow hr
  · exact .setPlayback (.of_orders rfl rfl fun _ => rfl)
  · exact .refl s

theorem State.Decides.playbackTick : s.Decides s.playbackTick := by
  have advanced : s.Decides ({ s with playback := s.playback.advance } : State).restartPlayback :=
    (State.Decides.setPlayback (.advance _)).trans (.rest _ _ _ _ _ _)
  have told := advanced.andRaiseIf hr s.playback.dueNext .cueComplete
  exact told.trans (.countFollow (told.running hr))

theorem State.Decides.checkTick : s.Decides s.checkTick := by
  have restarted : s.Decides s.restartLamp := .rest s _ _ _ _ _
  unfold State.checkTick
  dsimp only
  split
  · split
    · have counted (n : Nat) : s.Decides { s.restartLamp with lamp := { s.restartLamp.lamp with remaining := n } } :=
        .rest s _ _ _ _ _
      split
      · exact (counted _).trans (.advanceCheck ((counted _).running hr) _ _)
      · exact counted _
    · exact restarted
  · exact restarted

theorem State.Decides.refresh : s.Decides s.refresh :=
  State.Decides.andRaiseIf (.rest s _ _ _ _ _) hr _ _

/-! #### The output links (R161–R172) -/

omit hr

/-- While HOLDREQ is asserted, a link that drives nothing does not start to at its frame timer. -/
theorem OutPort.expire_quiet {o : OutPort} (k : LinkIx) (t : TableSet) (l : Levels) (loading : Bool) (quiet : o.drives = false) :
    (o.expire k t l true loading).drives = false := by
  have applied : o.applyPending.state = o.state := by
    unfold OutPort.applyPending
    split <;> rfl
  cases state : o.state with
  | off =>
    simp only [OutPort.expire, state]
    split
    · split
      · rfl
      · rw [OutPort.drives, applied, state]
        rfl
    · exact quiet
  | waiting =>
    simp only [OutPort.expire, state]
    split
    · exact quiet
    · split <;> rfl
  | running | stopping => simp [OutPort.drives, state] at quiet
  | held =>
    simp only [OutPort.expire, state]
    split
    · rfl
    · exact quiet

theorem State.Decides.frameTimer (k : LinkIx) : s.Decides
    ((s.modOut k (OutPort.expire k s.tables.live s.levels s.hold.holdreq (s.bank.state == .starting))).restartFrame k) := by
  refine State.Decides.trans (.modOut fun asked quiet => ?_) (.rest _ _ _ _ _ _)
  rw [asked]
  exact OutPort.expire_quiet k _ _ _ quiet

theorem State.modOuts_get (s : State) (f : LinkIx → OutPort → OutPort) (k : LinkIx) : (s.modOuts f).outs[k] = f k s.outs[k] :=
  tab_get _ k

/-- The links and the hold control changed together. -/
theorem State.Decides.linksAndHold {outs : Vector OutPort 6} {hold : Hold}
    (h : s.holdRight → hold.holdack = true → hold.holdreq = true ∧ ∀ k : LinkIx, outs[k].drives = false) :
    s.Decides { s with outs := outs, hold := hold } := by
  refine ⟨⟨⟨rfl, id, id, fun right acked => ?_, fun _ => id, id, id, id, id⟩, id⟩, fun _ => rfl⟩
  obtain ⟨asked, quiet⟩ := h right acked
  exact ⟨asked, (State.anyDrives_iff _).2 quiet⟩

include hr

theorem State.Decides.settleHold : s.Decides s.settleHold := by
  unfold State.settleHold
  split
  · next settles =>
    simp only [Bool.and_eq_true, Bool.not_eq_true'] at settles
    refine State.Decides.andRaise (.setHold fun _ _ => ?_) hr _
    exact ⟨settles.1.1, settles.2⟩
  · exact .refl s

theorem State.Decides.frameDone (k : LinkIx) : s.Decides (s.modOut k OutPort.completeFrame).settleHold := by
  have completed : s.Decides (s.modOut k OutPort.completeFrame) := by
    refine .modOut fun _ quiet => ?_
    unfold OutPort.completeFrame
    split
    · rfl
    · exact quiet
  exact completed.trans (.settleHold (completed.running hr))

omit hr in
theorem OutPort.onHold_quiet {o : OutPort} (quiet : o.drives = false) : o.onHold.drives = false := by
  unfold OutPort.onHold
  split
  · next state _ => simp [OutPort.drives, state] at quiet
  · rfl
  · exact quiet

theorem State.Decides.holdAsked : s.Decides (State.settleHold
    { s.modOuts fun _ o => o.onHold with hold := { s.hold with line := true, holdreq := true } }) := by
  have asked : s.Decides { s.modOuts fun _ o => o.onHold with hold := { s.hold with line := true, holdreq := true } } := by
    refine .linksAndHold fun right acked => ⟨rfl, fun k => ?_⟩
    obtain ⟨_, quiet⟩ := right acked
    rw [State.modOuts_get]
    exact OutPort.onHold_quiet (s.anyDrives_iff.1 quiet k)
  exact asked.trans (.settleHold (asked.running hr))

theorem State.Decides.holdReleased (acked : Bool) : s.Decides (State.raiseIf acked .holdChange
    { s.modOuts fun _ o => o.onRelease with hold := ⟨false, false, false⟩ }) :=
  State.Decides.andRaiseIf (.linksAndHold fun _ no => Bool.noConfusion no) hr _ _

/-! #### Frames and the queue (R104, R118) -/

omit hr in
theorem State.Works.frameCut (p : PortIx) (stale : Bool) :
    s.Works (State.newFrame p (s.endFrame p stale (State.receiveBad p))) := by
  have ended : s.Works (s.endFrame p stale (State.receiveBad p)) :=
    .endFrame p stale fun _ running => (State.Decides.receiveBad running p).toWorks
  exact ended.trans (State.Decides.receiver _ p _).toWorks

omit hr in
theorem State.Works.levelFrame (p : PortIx) (stale : Bool) (seq base flags : Word) (levels : List Level) :
    s.Works (s.endFrame p stale fun s =>
      if levelForm base levels then s.receiveGood p seq (State.takeLevels p base flags levels) else s.receiveBad p) := by
  refine .endFrame p stale fun t running => ?_
  split
  · exact .receiveGood running p seq fun u hu => (State.Decides.takeLevels hu p base flags levels).toWorks
  · exact (State.Decides.receiveBad running p).toWorks

/-- The completion of a reply frame, but for a restart reply. -/
theorem exec_replyFrameComplete (p : PortIx) (cut : Cut) :
    (∃ t, exec (.replyFrameComplete p cut) s = .next t ∧ s.Works t) ∨
      exec (.replyFrameComplete p cut) s = .next ((s.stopAll cut).endReset .restart) := by
  simp only [exec, execReplyFrameComplete, State.whenRunning_running _ _ hr]
  split
  · next sending _ =>
    split
    · exact .inr rfl
    · exact .inl ⟨_, rfl, .modPort (Port.bounded_completeReply sending)⟩
  · exact .inl ⟨s, rfl, .refl s⟩

/-- A command of a part that runs, other than the two that reset it, keeps every invariant. -/
theorem exec_works {i : Instr} (notReset : ∀ cut, i ≠ .resetLineAsserted cut) (notReply : ∀ p cut, i ≠ .replyFrameComplete p cut) :
    ∃ t, exec i s = .next t ∧ s.Works t := by
  have onlyIf {c : Prop} [Decidable c] {t : State} (h : s.Works t) : s.Works (if c then t else s) := by
    split
    · exact h
    · exact .refl s
  have runs (f : State → State) (h : s.Works (f s)) : s.Works (s.whenRunning f) := by
    rwa [State.whenRunning_running f s hr]
  cases request : i.request? with
  | some r => exact ⟨_, exec_request_byCode request s, .takeRequest s r.head r.code r.args⟩
  | none =>
    cases i with
    | resetLineAsserted cut => exact absurd rfl (notReset cut)
    | replyFrameComplete p cut => exact absurd rfl (notReply p cut)
    | resetLineReleased => exact ⟨s, by simp [exec, execResetLineReleased, hr], .refl s⟩
    | levelFrame head base flags levels => exact ⟨_, rfl, .levelFrame _ _ _ _ _ _⟩
    | badCheckFrame lane words => exact ⟨_, rfl, .endFrame _ _ fun _ running => .receiveWords running _ _⟩
    | frameCut p stale => exact ⟨_, rfl, .frameCut p stale⟩
    | portInterval p => exact ⟨_, rfl, runs _ (State.Decides.portTick hr p).toWorks⟩
    | lossTimerRunsOut p | holdRunsOut p | fadeRunsOut p =>
      exact ⟨_, rfl, runs _ (onlyIf (State.Decides.portTick hr p).toWorks)⟩
    | playbackInterval => exact ⟨_, rfl, runs _ (State.Decides.playbackTick hr).toWorks⟩
    | slotCompletes | followFires => exact ⟨_, rfl, runs _ (onlyIf (State.Decides.playbackTick hr).toWorks)⟩
    | fetchComplete | segmentComplete =>
      refine ⟨_, rfl, runs _ ?_⟩
      split
      · exact onlyIf (.completeTxn hr _)
      · exact .refl s
    | rdyFault cut => exact ⟨_, rfl, runs _ (.faultTxn hr cut)⟩
    | refresh => exact ⟨_, rfl, runs _ (State.Decides.refresh hr).toWorks⟩
    | lampCheckInterval => exact ⟨_, rfl, runs _ (State.Decides.checkTick hr).toWorks⟩
    | dwellExpires => exact ⟨_, rfl, runs _ (onlyIf (State.Decides.checkTick hr).toWorks)⟩
    | outputFrameTimer k => exact ⟨_, rfl, runs _ (State.Decides.frameTimer k).toWorks⟩
    | outputFrameComplete k => exact ⟨_, rfl, runs _ (onlyIf (State.Decides.frameDone hr k).toWorks)⟩
    | holdreqAsserted =>
      cases line : s.hold.line with
      | true => exact ⟨s, by simp [exec, execHoldreqAsserted, line], .refl s⟩
      | false => exact ⟨_, by simp [exec, execHoldreqAsserted, line, hr], (State.Decides.holdAsked hr).toWorks⟩
    | holdreqDeasserted =>
      cases line : s.hold.line with
      | false => exact ⟨s, by simp [exec, execHoldreqDeasserted, line], .refl s⟩
      | true => exact ⟨_, by simp [exec, execHoldreqDeasserted, line, hr]; rfl, (State.Decides.holdReleased hr _).toWorks⟩
    | _ => cases request

end

/-! ### Every step -/

/-- A change of the part, resets included, that keeps every invariant. -/
structure State.Preserves (s t : State) : Prop where
  mem         : Memory.wf s.mem → Memory.wf t.mem
  alert       : s.alertRight → t.alertRight
  hold        : s.holdRight → t.holdRight
  ports       : (∀ p : PortIx, s.ports[p].bounded) → ∀ p : PortIx, t.ports[p].bounded
  managed     : s.managed → t.managed
  owners      : s.playback.ownersRight → t.playback.ownersRight
  orders      : s.playback.ordersRight → t.playback.ordersRight
  granted     : s.memPort.granted → t.memPort.granted
  directories : s.directoriesRight → t.directoriesRight

theorem State.Preserves.trans {s t u : State} (h : s.Preserves t) (h' : t.Preserves u) : s.Preserves u where
  mem := h'.mem ∘ h.mem
  alert := h'.alert ∘ h.alert
  hold := h'.hold ∘ h.hold
  ports := h'.ports ∘ h.ports
  managed := h'.managed ∘ h.managed
  owners := h'.owners ∘ h.owners
  orders := h'.orders ∘ h.orders
  granted := h'.granted ∘ h.granted
  directories := h'.directories ∘ h.directories

theorem State.Works.preserves {s t : State} (h : s.Works t) : s.Preserves t :=
  ⟨h.mem, h.alert, h.hold, fun bounded p => h.ports p (bounded p), h.managed, h.owners, h.orders, h.granted, h.directories⟩

theorem State.Settled.preserves {s t : State} (h : t.Settled) (mem : Memory.wf s.mem → Memory.wf t.mem)
    (managed : s.managed → t.managed) : s.Preserves t :=
  ⟨mem, fun _ => h.alert, fun _ => h.hold, fun _ => h.ports, managed, fun _ => h.owners, fun _ => h.orders,
    fun _ => h.granted, fun _ => h.directories⟩

/-- What a held part does with a command is nothing that an invariant speaks of. -/
theorem State.DeafTo.preserves {s t : State} (h : s.DeafTo t) : s.Preserves t := by
  obtain ⟨rest, ports⟩ := h
  refine ⟨?_, ?_, ?_, fun bounded p => ?_, ?_, ?_, ?_, ?_, ?_⟩
  case refine_4 =>
    rw [ports p]
    exact bounded p
  all_goals
    rw [rest]
    exact id

/-- Every command keeps every invariant. -/
theorem exec_preserves {i : Instr} {s t : State} (h : exec i s = .next t) : s.Preserves t := by
  have reach {u : State} (hu : exec i s = .next u) (kept : s.Preserves u) : s.Preserves t := by
    rw [hu] at h
    cases h
    exact kept
  cases running : s.held with
  | true =>
    by_cases released : i = .resetLineReleased
    · subst released
      have fresh := State.endReset_fresh s .line
      exact reach (by simp only [exec, execResetLineReleased, running, if_true])
        (fresh.settled.preserves (fun wf => (State.endReset_mem s .line).symm ▸ wf) fun _ => fresh.managed)
    · obtain ⟨u, hu, rest, ports⟩ := aHeldPartTakesNoEvent i s running released
      exact reach hu (State.DeafTo.preserves ⟨rest, ports⟩)
  | false =>
    by_cases line : ∃ cut, i = .resetLineAsserted cut
    · obtain ⟨cut, rfl⟩ := line
      exact reach (exec_resetLineAsserted running cut) ((s.stopped_settled cut).preserves (fun wf => State.cutAt_wf cut wf) id)
    · by_cases reply : ∃ p cut, i = .replyFrameComplete p cut
      · obtain ⟨p, cut, rfl⟩ := reply
        rcases exec_replyFrameComplete running p cut with ⟨u, hu, works⟩ | restarts
        · exact reach hu works.preserves
        · have fresh := State.restarted_fresh cut s .restart
          refine reach restarts (fresh.settled.preserves (fun wf => ?_) fun _ => fresh.managed)
          rw [State.endReset_mem, State.stopAll_mem]
          exact State.cutAt_wf cut wf
      · obtain ⟨u, hu, works⟩ := exec_works running (fun cut is => line ⟨cut, is⟩) fun p cut is => reply ⟨p, cut, is⟩
        exact reach hu works.preserves

theorem step_preserves {s t : State} (h : step s = .next t) : s.Preserves t := by
  unfold step at h
  split at h
  · next cs _ =>
    have dropped : s.Works { s with pending := cs } := (State.Decides.rest s _ _ _ _ _).toWorks
    exact dropped.preserves.trans (exec_preserves h)
  · cases h
    exact State.Works.idle.preserves

/-! ### The invariants -/

/-- Settles O52. -/
theorem everyStepKeepsTheMemoryCanonical : Obligations.EveryStepKeepsTheMemoryCanonical :=
  fun _ _ right h => (step_preserves h).mem right

/-- Settles O53. -/
theorem everyStepKeepsAlertRight : Obligations.EveryStepKeepsAlertRight :=
  fun _ _ right h => (step_preserves h).alert right

/-- Settles O54. -/
theorem everyStepKeepsHoldackRight : Obligations.EveryStepKeepsHoldackRight :=
  fun _ _ right h => (step_preserves h).hold right

/-- Settles O55. -/
theorem everyStepKeepsThePortsBounded : Obligations.EveryStepKeepsThePortsBounded :=
  fun _ _ right h => (step_preserves h).ports right

/-- Settles O56. -/
theorem everyStepKeepsAManagingInput : Obligations.EveryStepKeepsAManagingInput :=
  fun _ _ right h => (step_preserves h).managed right

/-- Settles O57. -/
theorem everyStepKeepsOwnersActive : Obligations.EveryStepKeepsOwnersActive :=
  ⟨fun _ _ right h => (step_preserves h).owners right, fun _ _ right h => (step_preserves h).orders right⟩

/-- Settles O58. -/
theorem everyStepLeavesNothingUngranted : Obligations.EveryStepLeavesNothingUngranted :=
  fun _ _ right h => (step_preserves h).granted right

/-- Settles O59. -/
theorem everyStepKeepsTheDirectoriesSound : Obligations.EveryStepKeepsTheDirectoriesSound :=
  fun _ _ right h => (step_preserves h).directories right

end Sys2Proof.Machine
end

