-- ==== Sys2Proof/Proofs/Elementary.lean ====
section
/-! The step and the reset values, and what the encodings keep: raised events, patch entries and circuit records, the check word. -/

namespace Sys2Proof.Machine

/-! ### The step (R191, R192, R197) -/

/-- Settles O1. -/
theorem stepRunsTheFrontCommand : Obligations.StepRunsTheFrontCommand := fun _ _ _ => rfl

theorem step_idle {s : State} (empty : s.pending = []) (hr : s.held = false) :
    step s = .next (State.memoryClock { s with timers := s.timers.tick }) := by
  simp only [step, empty, State.idle, hr, Bool.false_eq_true, if_false]

/-- The access that follows in a transaction, in full. -/
theorem State.access_eq {s : State} {e : Engine} (he : s.memPort.engine = some e) (h : e.place + 1 < (s.txnWords e).length) :
    s.access = { s with
      mem := if e.kind.writes then Memory.write (wordAddress e.area e.cell e.place) (at' (s.txnWords e) e.place) s.mem else s.mem
      memPort := { s.memPort.drive e.area e.cell (e.place + 1) with
        engine := some { e with
          place := e.place + 1, clock := 0, wait := s.memPort.waitOf e.area, low := 0
          crc := if e.place < coveredWords e.kind (s.txnWords e).length then crcWord e.crc (at' (s.txnWords e) e.place)
            else e.crc } } } := by
  simp only [State.access, he, h, if_true]

/-- The access that follows leaves its word, of a write, at its address. -/
theorem State.access_read {s : State} {e : Engine} (he : s.memPort.engine = some e) (h : e.place + 1 < (s.txnWords e).length)
    (wf : Memory.wf s.mem) (a : Nat) : Memory.read a s.access.mem =
      if e.kind.writes = true ∧ a = wordAddress e.area e.cell e.place then at' (s.txnWords e) e.place
      else Memory.read a s.mem := by
  rw [State.access_eq he h]
  dsimp only
  cases e.kind.writes with
  | false => simp
  | true =>
    by_cases here : a = wordAddress e.area e.cell e.place
    · subst here
      simp [Memory.read_write_same _ _ _ wf]
    · simp [Memory.read_write_other _ here, here]

/-- The Memory Port as RDY has been sampled (R192). -/
def State.sampled (s : State) : State :=
  { s with memPort := { s.memPort with rdy := Config.rdyLevel s.memPort.samples, samples := s.memPort.samples + 1 } }

section
variable {s : State} {e : Engine} (he : s.memPort.engine = some e) (due : 2 + e.wait.val ≤ e.clock + 1)
include he due

theorem State.memoryClock_next (high : Config.rdyLevel s.memPort.samples = true) (more : e.place + 1 < (s.txnWords e).length) :
    s.memoryClock = s.sampled.access := by
  have clock := State.memoryClock_samples he due
  dsimp only at clock
  rw [clock, if_pos high, if_pos more]
  rfl

theorem State.memoryClock_last (hr : s.held = false) (high : Config.rdyLevel s.memPort.samples = true)
    (last : (s.txnWords e).length ≤ e.place + 1) :
    .next s.memoryClock = exec (if e.slot.isSome then .fetchComplete else .segmentComplete) s.sampled := by
  have clock := State.memoryClock_samples he due
  dsimp only at clock
  rw [clock, if_pos high, if_neg (Nat.not_lt.2 last), exec_complete (s := s.sampled) hr he]
  rfl

theorem State.memoryClock_low (low : Config.rdyLevel s.memPort.samples = false) (few : e.low + 1 < 64) :
    s.memoryClock =
      { s.sampled with memPort := { s.sampled.memPort with engine := some { e with low := e.low + 1 } } } := by
  have clock := State.memoryClock_samples he due
  dsimp only at clock
  rw [clock, if_neg (by simp [low]), if_pos few]
  rfl

theorem State.memoryClock_fault (hr : s.held = false) (low : Config.rdyLevel s.memPort.samples = false) (many : 64 ≤ e.low + 1) :
    .next s.memoryClock = exec (.rdyFault ⟨0, Config.faultLanded s.memPort.samples⟩) s.sampled := by
  have clock := State.memoryClock_samples he due
  dsimp only at clock
  rw [clock, if_neg (by simp [low]), if_neg (Nat.not_lt.2 many), exec_rdyFault _ (s := s.sampled) hr]
  rfl

end

/-- Settles O2: the cases of the memory clock. -/
theorem anIdleStepIsOneMemoryClock : Obligations.AnIdleStepIsOneMemoryClock := by
  intro s empty
  refine ⟨fun held => ?_, fun hr idle => ?_, fun idle => ?_, fun e hr busy => ⟨?_, fun counts => ?_, fun due => ?_⟩⟩
  · simp only [step, empty, State.idle, held, if_true]
  · rw [step_idle empty hr]
    simp only [State.memoryClock, idle]
  · simp only [State.dataDrive, idle]
  · simp only [State.dataDrive, busy]
  · rw [step_idle empty hr]
    exact congrArg _ (State.memoryClock_counts (s := { s with timers := s.timers.tick }) busy counts)
  · rw [step_idle empty hr]
    refine ⟨fun high more => ⟨_, congrArg _ (State.memoryClock_next (s := { s with timers := s.timers.tick }) busy due high more),
      ?_, ?_⟩, fun high last => ?_, fun low few => ?_, fun low many => ?_⟩
    · rw [State.access_eq (s := State.sampled { s with timers := s.timers.tick }) busy more]
      rfl
    · exact State.access_read (s := State.sampled { s with timers := s.timers.tick }) busy more
    · exact State.memoryClock_last (s := { s with timers := s.timers.tick }) busy due hr high last
    · exact congrArg _ (State.memoryClock_low (s := { s with timers := s.timers.tick }) busy due low few)
    · exact State.memoryClock_fault (s := { s with timers := s.timers.tick }) busy due hr low many

/-! ### The reset (R217) -/

/-- Settles O3: each value as the reset writes it. -/
theorem resetLeavesTheValuesOfTheChapters : Obligations.ResetLeavesTheValuesOfTheChapters := by
  refine ⟨fun p => ?_, fun n => Vector.getElem_replicate n.isLt, rfl, rfl, rfl, rfl,
    fun c => ⟨Vector.getElem_replicate c.isLt, Vector.getElem_replicate c.isLt⟩, fun t ht => ?_, rfl, rfl,
    fun c => Vector.getElem_replicate c.isLt, fun g => Vector.getElem_replicate g.isLt, rfl,
    fun k => Vector.getElem_replicate k.isLt, rfl, rfl, rfl, rfl, fun k => Vector.getElem_replicate k.isLt, rfl, rfl, rfl, rfl,
    rfl, fun g => Vector.getElem_replicate g.isLt, rfl, rfl, rfl, rfl, rfl, rfl, rfl, rfl, rfl,
    fun p => Vector.getElem_replicate p.isLt, rfl, rfl, rfl, fun k => Vector.getElem_replicate k.isLt, rfl, rfl, rfl⟩
  · have port : State.reset.ports[p] = Port.reset := Vector.getElem_replicate p.isLt
    have input : State.reset.mgmt.inputs[p] = InputSettings.reset p := tab_get _ p
    rw [port, input]
    refine ⟨rfl, rfl, rfl, rfl, rfl, rfl, rfl, rfl,
      fun c => ⟨Vector.getElem_replicate c.isLt, Vector.getElem_replicate c.isLt⟩, rfl, rfl, rfl, rfl, rfl,
      fun k => Vector.getElem_replicate k.isLt, rfl, rfl, rfl, rfl, beq_iff_eq, rfl, rfl, rfl, rfl,
      fun c => Vector.getElem_replicate c.isLt⟩
  · have reset : t = TableSet.reset := by
      rcases ht with rfl | rfl <;> rfl
    subst reset
    refine ⟨fun c => ⟨Vector.getElem_replicate c.isLt, Vector.getElem_replicate c.isLt, Vector.getElem_replicate c.isLt,
      Vector.getElem_replicate c.isLt⟩, fun i => ?_⟩
    rw [TableSet.reset, defaultCurves, tab_get, BitVec.toNat_ofNat, Nat.mod_eq_of_lt (by omega)]

/-! ### Events (R212, R213) -/

theorem Event.mask_bit (e f : Event) : e.mask.getLsbD f.bit = decide (e = f) := by
  rw [Event.mask, BitVec.getLsbD_twoPow]
  by_cases same : e = f
  · simp [same, f.bit_lt]
  · have : e.bit ≠ f.bit := fun h => same (Event.bit_inj h)
    simp [same, this]

/-- Every place of a set of flags is the place of an event. -/
theorem Event.exists_bit {i : Nat} (h : i < 19) : ∃ e : Event, e.bit = i := by
  by_cases sync : i < 4
  · exact ⟨.syncChange ⟨i, sync⟩, rfl⟩
  · by_cases source : i < 8
    · exact ⟨.sourceChange ⟨i - 4, by omega⟩, by simp only [Event.bit]; omega⟩
    · have rest : i = 8 ∨ i = 9 ∨ i = 10 ∨ i = 11 ∨ i = 12 ∨ i = 13 ∨ i = 14 ∨ i = 15 ∨ i = 16 ∨ i = 17 ∨ i = 18 := by omega
      rcases rest with rfl | rfl | rfl | rfl | rfl | rfl | rfl | rfl | rfl | rfl | rfl
      exacts [⟨.cueComplete, rfl⟩, ⟨.cueFailed, rfl⟩, ⟨.forcedCompletion, rfl⟩, ⟨.budgetLimit, rfl⟩, ⟨.memoryFault, rfl⟩,
        ⟨.bankOpDone, rfl⟩, ⟨.bankOpFailed, rfl⟩, ⟨.checkDone, rfl⟩, ⟨.holdChange, rfl⟩, ⟨.houseBad, rfl⟩,
        ⟨.requestDropped, rfl⟩]

/-- Settles O50. -/
theorem aRaisedEventSetsItsFlagAlone : Obligations.ARaisedEventSetsItsFlagAlone := by
  intro e f m
  refine ⟨?_, ?_, rfl, rfl, rfl⟩
  · rw [Mgmt.raise_flags, BitVec.getLsbD_or, Event.mask_bit]
  · have low : (m.raise e).alertLow = decide ((m.raise e).flags &&& (m.raise e).enables ≠ 0) := rfl
    rw [low, decide_eq_true_iff]
    constructor
    · intro on
      by_contra none
      refine on (BitVec.eq_of_getLsbD_eq fun i hi => ?_)
      obtain ⟨g, rfl⟩ := Event.exists_bit hi
      have := fun h => none ⟨g, h⟩
      rw [BitVec.getLsbD_and]
      simpa using this
    · rintro ⟨g, set, enabled⟩ zero
      have both : ((m.raise e).flags &&& (m.raise e).enables).getLsbD g.bit = true := by
        rw [BitVec.getLsbD_and, set, enabled]
        rfl
      rw [zero] at both
      simp at both

/-! ### Patch entries and circuit records (R219, R220) -/

theorem patchOf?_words (e : PatchEntry) :
    patchOf? (0x8000#16 ||| wordOf (Chan.number e.channel)) (wordOf e.proportion.val) = some (some e) := by
  obtain ⟨⟨c, hc⟩, ⟨q, hq⟩⟩ := e
  have number : ((0x8000#16 ||| wordOf (c + 1)) &&& 0x7FFF).toNat = c + 1 := by
    have low : (0x8000#16 ||| wordOf (c + 1)) &&& 0x7FFF = wordOf (c + 1) &&& 0x7FFF := by
      rw [BitVec.and_comm, BitVec.and_or_distrib_left, BitVec.and_comm _ (wordOf _)]
      exact BitVec.zero_or
    rw [low, BitVec.toNat_and, wordOf, BitVec.toNat_ofNat]
    exact (Nat.and_two_pow_sub_one_eq_mod _ 15).trans (by omega)
  have present : (0x8000#16 ||| wordOf (c + 1)).msb = true := by
    rw [BitVec.msb_or]
    rfl
  have proportion : (wordOf q).toNat = q := by
    rw [wordOf, BitVec.toNat_ofNat]
    omega
  simp only [patchOf?, Chan.number, present, if_true]
  rw [numberOf?, dif_pos (by rw [number]; omega), finOf?_of_toNat (i := ⟨q, hq⟩) proportion]
  simp only [number, Nat.add_sub_cancel]

/-- Word 0 of a circuit record. -/
def recordFlags (m : Mode) (c : Fin 8) (g : Option GroupIx) (exempt park : Bool) : Word :=
  0x8000#16 ||| (boolWord park <<< 14) ||| (boolWord exempt <<< 13) ||| (m.code <<< 11) ||| (wordOf c.val <<< 7) ||| groupWord g

/-- The fields of word 0 do not overlap. -/
theorem recordFlags_fields (m : Mode) (exempt park : Bool) : ∀ (c : Fin 8) (g : Option GroupIx),
    (recordFlags m c g exempt park).msb = true ∧ Mode.of? ((recordFlags m c g exempt park >>> 11) &&& 3) = some m ∧
      finOf? 8 ((recordFlags m c g exempt park >>> 7) &&& 15) = some c ∧
      groupOf? (recordFlags m c g exempt park &&& 0x7F) = some g ∧
      (recordFlags m c g exempt park).getLsbD 13 = exempt ∧ (recordFlags m c g exempt park).getLsbD 14 = park := by
  cases m <;> cases exempt <;> cases park <;> decide

/-- Settles O27. -/
theorem entriesAndRecordsAreReadBack : Obligations.EntriesAndRecordsAreReadBack := by
  refine ⟨fun e => ?_, fun r => ?_⟩
  · cases e with
    | none => rfl
    | some e => simp only [patchWords, patchRun?, patchOf?_words]
  · cases r with
    | none => rfl
    | some r =>
      obtain ⟨present, mode, curve, group, exempt, park⟩ := recordFlags_fields r.mode r.exempt r.park.isSome r.curve r.group
      have load : (wordOf r.load.val).toNat = r.load.val := by
        have := r.load.isLt
        rw [wordOf, BitVec.toNat_ofNat]
        omega
      have parked : (if r.park.isSome = true then some (r.park.getD 0) else none) = r.park := by
        cases r.park <;> rfl
      rw [recordWords, ← recordFlags]
      simp only [recordRun?, recordOf?, present, mode, curve, group, exempt, park, finOf?_of_toNat load, parked, if_true]

/-! ### The check word (R2) -/

/-- The bit shifted out comes back in bit 0. -/
theorem crcBit_zero (c : Word) : (crcBit c).getLsbD 0 = c.msb := by
  unfold crcBit
  split
  · next msb => simp [msb]
  · next msb => simp [msb]

/-- A step of the CRC can be undone: bit 0 says whether the polynomial was added, and a shift loses the top bit alone. -/
theorem crcBit_injective : Function.Injective crcBit := by
  intro c d h
  have top : c.msb = d.msb := by rw [← crcBit_zero, ← crcBit_zero, h]
  have shifted : c <<< 1 = d <<< 1 := by
    unfold crcBit at h
    cases msb : d.msb with
    | true =>
      simp only [top, msb, if_true] at h
      exact (BitVec.xor_left_inj _).1 h
    | false =>
      simp only [top, msb] at h
      exact h
  refine BitVec.eq_of_getElem_eq fun i hi => ?_
  by_cases last : i = 15
  · subst last
    exact top
  · have bit := congrArg (fun v => v.getLsbD (i + 1)) shifted
    simpa [show i + 1 < 16 by omega] using bit

theorem crcBits_injective (n : Nat) : Function.Injective (crcBits n) := by
  induction n with
  | zero => exact fun _ _ h => h
  | succ n ih => exact fun _ _ h => crcBit_injective (ih h)

theorem crcRun_injective (ws : List Word) : Function.Injective fun c => crcRun c ws := by
  induction ws with
  | nil => exact fun _ _ h => h
  | cons w ws ih => exact fun c d h => BitVec.xor_left_inj w |>.1 (crcBits_injective 16 (ih h))

/-- Settles O51: the running values part at the changed word and every later step can be undone. -/
theorem aCheckWordSeesAnyChangeOfOneWord : Obligations.ACheckWordSeesAnyChangeOfOneWord := by
  intro xs ys w v differ same
  simp only [checkWord, crcRun, List.foldl_append, List.foldl_cons] at same
  have word : crcWord (crcRun 0xFFFF xs) w = crcWord (crcRun 0xFFFF xs) v := crcRun_injective ys same
  exact differ (BitVec.xor_right_inj _ |>.1 (crcBits_injective 16 word))

end Sys2Proof.Machine
end

