-- ==== Sys2Proof/Proofs/LinkFrames.lean ====
section
/-! The frames of a forward lane (R104–R115, R203–R205): bad-check frames and cut frames, good frames before LOCKED, gaps in LOCKED,
and the requests that are dropped or not admitted. -/

namespace Sys2Proof.Machine

/-! ### The commands that bring a good frame -/

theorem exec_levelFrame {h : FrameHead} {base : Word} {levels : List Level} (form : levelForm base levels = true) (flags : Word)
    (s : State) : exec (.levelFrame h base flags levels) s =
      .next (s.endFrame h.port h.stale fun s => s.receiveGood h.port h.seq (State.takeLevels h.port base flags levels)) := by
  simp only [exec, execLevelFrame, form, if_true]

theorem exec_requestFrame {i : Instr} {r : Request} (request : i.request? = some r) (fits : r.args.length ≤ 127) (s : State) :
    exec i s = .next (s.endFrame r.head.port r.head.stale fun s =>
      s.receiveGood r.head.port r.head.seq (State.manage r.head.port r.head.seq r.code r.args (decideByCode r.code))) := by
  rw [exec_request_byCode request]
  simp only [State.takeRequest, fits, if_true]

theorem exec_goodFrame {i : Instr} {h : FrameHead} (good : i.goodFrame? = some h) :
    ∃ deliver, ∀ s, exec i s = .next (s.endFrame h.port h.stale fun s => s.receiveGood h.port h.seq deliver) := by
  by_cases level : ∃ head base flags levels, i = .levelFrame head base flags levels
  · obtain ⟨head, base, flags, levels, rfl⟩ := level
    simp only [Instr.goodFrame?, Option.ite_none_right_eq_some, Option.some.injEq] at good
    obtain ⟨form, rfl⟩ := good
    exact ⟨_, exec_levelFrame form flags⟩
  · have asked : (i.request?.bind fun r => if r.args.length ≤ 127 then some r.head else none) = some h := by
      cases i with
      | levelFrame head base flags levels => exact absurd ⟨_, _, _, _, rfl⟩ level
      | _ => exact good
    simp only [Option.bind_eq_some_iff, Option.ite_none_right_eq_some, Option.some.injEq] at asked
    obtain ⟨r, request, fits, rfl⟩ := asked
    exact ⟨_, exec_requestFrame request fits⟩

/-! ### Requests at the Management Unit -/

theorem State.admission_unknown {s : State} {p : PortIx} {code : Word} (unassigned : assignedCode code = false) :
    s.admission p code = some .unknown := by
  simp [State.admission, unassigned]

section
variable {s : State} {p : PortIx} {seq code : Word} {args : List Word} {decide : PortIx → List Word → State → Decision}

theorem State.manage_full (full : 4 ≤ s.ports[p].replies.length) : State.manage p seq code args decide s = s.dropRequest p :=
  if_pos full

theorem State.manage_notAdmitted {r : Result} (room : s.ports[p].replies.length < 4) (refused : s.admission p code = some r) :
    State.manage p seq code args decide s = s.modPort p (Port.enqueue ⟨seq, code, r, [], false⟩) := by
  simp only [State.manage, Nat.not_le.2 room, if_false, refused]
  rfl

end

/-! ### A LEVEL frame at a port with no sweep in progress -/

/-- A state in which a frame has changed its port, and the Management Unit with it. -/
def State.withPortAnd (s : State) (p : PortIx) (q : Port) (m : Mgmt) : State :=
  { s with ports := s.ports.set p q, mgmt := m }

@[simp] theorem State.withPortAnd_get (s : State) (p : PortIx) (q : Port) (m : Mgmt) :
    (s.withPortAnd p q m).ports[p] = q := Vector.getElem_set_self p.isLt

theorem State.withPortAnd_modPort (s : State) (p : PortIx) (q : Port) (m : Mgmt) (f : Port → Port) :
    (s.withPortAnd p q m).modPort p f = s.withPortAnd p (f q) m := by
  rw [State.modPort, State.withPortAnd_get, State.withPortAnd]
  simp only [Vector.set_set]
  rfl

section
variable (s : State) (p : PortIx) {q : Port} (m : Mgmt) {base flags : Word} {levels : List Level}

theorem Port.withPage_begun (idle : q.sweeping = false) (start : sweepStart flags = true) :
    q.withPage base flags levels = { q with sweeping := true, assembly := pageOver base levels noLevels } := by
  simp only [Port.withPage, start, idle, Bool.and_false, Bool.false_eq_true, if_false, if_true]

theorem State.takeLevels_none (idle : q.sweeping = false) (noStart : sweepStart flags = false) :
    (s.withPortAnd p q m).takeLevels p base flags levels = s.withPortAnd p q m :=
  State.takeLevels_ignored noStart (by rw [State.withPortAnd_get, idle])

theorem State.takeLevels_begun (form : levelForm base levels = true) (idle : q.sweeping = false)
    (start : sweepStart flags = true) (noEnd : sweepEnd flags = false) :
    (s.withPortAnd p q m).takeLevels p base flags levels =
      s.withPortAnd p { q with sweeping := true, assembly := pageOver base levels noLevels } m := by
  rw [State.takeLevels_written form (by rw [start]; rfl) noEnd, State.withPortAnd_modPort, Port.withPage_begun idle start]

theorem State.takeLevels_whole (form : levelForm base levels = true) (idle : q.sweeping = false)
    (start : sweepStart flags = true) (ended : sweepEnd flags = true) :
    (s.withPortAnd p q m).takeLevels p base flags levels = s.withPortAnd p { q with
        sweeping := false, assembly := noLevels, live := pageOver base levels noLevels, source := .live
        lossTimer := m.inputs[p].lossN, hold := 0, fade := 0, factor := 65535
        counters := { q.counters with completed := countUp q.counters.completed } }
      (if q.source = .holding ∨ q.source = .fading ∨ q.source = .lost then m.raise (.sourceChange p) else m) := by
  rw [State.takeLevels_completed form (by rw [start]; rfl) ended, State.withPortAnd_modPort, Port.withPage_begun idle start,
    State.withPortAnd_get]
  simp only [← SourceState.returns_iff]
  cases q.source.returns <;> rfl

theorem State.takeLevels_sync (form : levelForm base levels = true) (idle : q.sweeping = false) :
    ((s.withPortAnd p q m).takeLevels p base flags levels).ports[p].sync = q.sync := by
  cases start : sweepStart flags with
  | false => rw [State.takeLevels_none s p m idle start, State.withPortAnd_get]
  | true =>
    cases ended : sweepEnd flags with
    | false => rw [State.takeLevels_begun s p m form idle start ended, State.withPortAnd_get]
    | true => rw [State.takeLevels_whole s p m form idle start ended, State.withPortAnd_get]

end

/-! ### Good frames before LOCKED (R109, R110) -/

/-- Settles O8: the table of the sync machine in HUNT and in ACQUIRE. -/
theorem goodFramesBeforeLock : Obligations.GoodFramesBeforeLock := by
  refine ⟨fun i h s good takes => ?_, fun h base flags levels s takes form acquire inSeq two idle start noEnd => ?_⟩
  · obtain ⟨deliver, hexec⟩ := exec_goodFrame good
    rw [hexec s]
    exact ⟨fun hunt => by rw [State.receiveGood_hunt takes hunt],
      fun acquire inSeq notTwo => by rw [State.receiveGood_acquire takes acquire inSeq notTwo],
      fun acquire outOfSeq => by rw [State.receiveGood_acquireLost takes acquire outOfSeq]⟩
  · rw [exec_levelFrame form, State.receiveGood_third takes acquire inSeq two]
    exact congrArg _ (State.takeLevels_begun s h.port _ form idle start noEnd)

/-! ### Gaps in LOCKED (R111, R112) -/

theorem Port.abortSweep_sweeping (q : Port) : q.abortSweep.sweeping = false := by
  cases sweep : q.sweeping <;> simp [Port.abortSweep, sweep]

theorem Port.abortSweep_sync (q : Port) : q.abortSweep.sync = q.sync := by
  unfold Port.abortSweep
  split <;> rfl

theorem Port.tookGap_sweeping (seq : Word) (q : Port) : (q.tookGap seq).sweeping = false := Port.abortSweep_sweeping _

theorem Port.tookGap_sync (seq : Word) (q : Port) : (q.tookGap seq).sync = q.sync := Port.abortSweep_sync _

section
variable {s : State} {h : FrameHead} (takes : s.Takes h.port h.stale) (locked : s.ports[h.port].sync = .locked)
  (gap : h.seq ≠ s.ports[h.port].expected)

/-- LOCKED lost, the sweep in progress aborted (R86, R112). -/
def State.lockLost (s : State) (p : PortIx) : State :=
  { s with
    ports := s.ports.set p (Port.abortSweep { s.ports[p] with sync := .hunt })
    mgmt := s.mgmt.raise (.syncChange p) }

/-- The window test of R112 fails once a BAD outcome has been added. -/
def State.calm (s : State) (p : PortIx) : Prop :=
  s.mgmt.inputs[p].autoResync = false ∨ badCount (pushMark s.ports[p].window .bad) < 4

include takes locked gap

theorem State.receiveGood_calm (calm : s.calm h.port) (deliver : State → State) :
    (s.endFrame h.port h.stale fun s => s.receiveGood h.port h.seq deliver) =
      deliver (s.withPortAnd h.port (s.ports[h.port].tookGap h.seq) s.mgmt) :=
  State.receiveGood_gap takes locked gap calm deliver

theorem State.receiveGood_lost (lost : ¬s.calm h.port) (deliver : State → State) :
    (s.endFrame h.port h.stale fun s => s.receiveGood h.port h.seq deliver) =
      (deliver (s.withPortAnd h.port (s.ports[h.port].tookGap h.seq) s.mgmt)).leaveLocked h.port := by
  rw [State.calm, not_or, Bool.not_eq_false, Nat.not_lt] at lost
  exact State.receiveGood_gapLost takes locked gap lost.1 lost.2 deliver

/-- A gap whose delivery is known, in both outcomes of the window test. -/
theorem exec_gap {i : Instr} {deliver : State → State} {delivered : State}
    (hexec : exec i s = .next (s.endFrame h.port h.stale fun s => s.receiveGood h.port h.seq deliver))
    (hd : deliver (s.withPortAnd h.port (s.ports[h.port].tookGap h.seq) s.mgmt) = delivered)
    (still : delivered.ports[h.port].sync = .locked) :
    (s.calm h.port → exec i s = .next delivered) ∧ (¬s.calm h.port → exec i s = .next (delivered.lockLost h.port)) := by
  subst hd
  refine ⟨fun calm => ?_, fun lost => ?_⟩
  · rw [hexec, State.receiveGood_calm takes locked gap calm]
  · rw [hexec, State.receiveGood_lost takes locked gap lost, State.leaveLocked_locked still]
    rfl

end

/-- Settles O10: the port has counted the gap and aborted its sweep; the frame acts there, and LOCKED is left if it still stands. -/
theorem aGapIsRecordedAndDelivered : Obligations.AGapIsRecordedAndDelivered := by
  intro h s takes locked gap q input calm lost
  have idle : q.sweeping = false := Port.tookGap_sweeping _ _
  have sync : q.sync = .locked := (Port.tookGap_sync _ _).trans locked
  refine ⟨?level, ?unknown, ?request⟩
  case level =>
    intro base flags levels form page delivered
    have known : State.takeLevels h.port base flags levels (s.withPortAnd h.port q s.mgmt) = delivered := by
      cases start : sweepStart flags with
      | false =>
        simp only [delivered, start, if_true]
        exact State.takeLevels_none s h.port s.mgmt idle start
      | true =>
        cases ended : sweepEnd flags with
        | false =>
          simp only [delivered, start, ended, Bool.true_eq_false, if_false, if_true]
          exact State.takeLevels_begun s h.port s.mgmt form idle start ended
        | true =>
          simp only [delivered, start, ended, Bool.true_eq_false, if_false]
          exact State.takeLevels_whole s h.port s.mgmt form idle start ended
    exact exec_gap takes locked gap (exec_levelFrame form flags s) known
      (known ▸ (State.takeLevels_sync s h.port s.mgmt form idle).trans sync)
  case unknown =>
    intro code args fits unassigned room delivered
    have admission : (s.withPortAnd h.port q s.mgmt).admission h.port code = some .unknown := State.admission_unknown unassigned
    refine exec_gap takes locked gap (i := .unknownRequest h code args)
      (exec_requestFrame (r := ⟨h, code, args⟩) rfl fits s) (delivered := delivered) ?_ ?_
    · rw [State.manage_notAdmitted (by rw [State.withPortAnd_get]; exact room) admission, State.withPortAnd_modPort]
      rfl
    · exact (congrArg Port.sync (s.withPortAnd_get h.port _ s.mgmt)).trans ((Port.enqueue_sync _ _).trans sync)
  case request =>
    intro i r request head fits delivered
    subst head
    have hexec := exec_requestFrame request fits s
    refine ⟨fun stays => ?_, fun loses still => ?_⟩
    · by_cases quiet : s.calm r.head.port
      · rw [hexec, State.receiveGood_calm takes locked gap quiet]
        rfl
      · rw [hexec, State.receiveGood_lost takes locked gap quiet]
        exact congrArg _ (State.leaveLocked_other (s := delivered) (stays.resolve_left quiet))
    · exact (exec_gap takes locked gap hexec rfl still).2 loses

/-! ### Requests dropped and not admitted (R203, R205) -/

/-- Settles O11: a full queue first, then tests 1 to 3. -/
theorem requestsAreDroppedOrAdmittedInOrder : Obligations.RequestsAreDroppedOrAdmittedInOrder := by
  refine ⟨fun i r s request fits inStep full => ?_, fun i r s request fits inStep room => ?_⟩
  · rw [exec_requestFrame request fits, State.receiveGood_inStep inStep, State.manage_full (by rw [State.frameTaken_get]; exact full),
      State.dropRequest, State.frameTaken, State.modPort_modPort]
    rfl
  · have refused {x : Result} (ha : s.admission r.head.port r.code = some x) :
        exec i s = .next { s with ports := s.portsAfter r.head.port (replyTo r.head r.code x) } := by
      rw [exec_request_byCode request, State.takeRequest_notAdmitted inStep room fits ha]
    exact ⟨fun unassigned => refused (State.admission_unknown unassigned),
      fun assigned other no => refused (State.admission_notPermitted assigned other no),
      fun assigned other yes starts => refused (State.admission_starting assigned other yes starts)⟩

/-! ### Bad-check frames and cut frames (R104–R106) -/

theorem State.syncPort_inputs (s : State) (p : PortIx) (f : Port → Port) :
    (s.syncPort p f).mgmt.inputs = s.mgmt.inputs := by
  unfold State.syncPort State.raiseIf
  split <;> rfl

theorem State.receiveBad_inputs (s : State) (p : PortIx) : (s.receiveBad p).mgmt.inputs = s.mgmt.inputs := by
  unfold State.receiveBad State.leaveLocked
  dsimp only
  split
  · split
    · rw [State.syncPort_inputs, State.syncPort_inputs]
    · exact State.syncPort_inputs s p _
  · exact State.syncPort_inputs s p _

/-- The receiver holds the new frame of a cut (R104). -/
theorem exec_frameCut {s : State} {p : PortIx} {stale : Bool} (takes : s.Takes p stale) :
    let t := s.endFrame p stale (State.receiveBad p)
    exec (.frameCut p stale) s = .next { t with ports := t.ports.set p { t.ports[p] with receiver := .receiving } } := by
  intro t
  have running : t.held = false := State.Keeps.running
    (State.Works.endFrame p stale fun _ running => (State.Decides.receiveBad running p).toWorks).toKeeps takes.running
  have enabled : t.mgmt.inputs[p].enabled = true := by
    simp only [t]
    rw [State.endFrame_takes takes, State.receiveBad_inputs]
    exact takes.enabled
  show Host.Outcome.next (State.newFrame p t) = _
  have receiving : (if t.held || !t.mgmt.inputs[p].enabled then Receiver.dropping else .receiving) = .receiving := by
    rw [running, enabled]
    rfl
  rw [State.newFrame, receiving]
  rfl

/-- A header whose kind, count or body does not fit makes no frame. -/
theorem RxFrame.ofBody_malformed {kind seq count : Word} {body : List Word}
    (malformed : (kind ≠ 1 ∧ kind ≠ 2) ∨ count = 0 ∨ 128 < count.toNat ∨ (kind = 1 ∧ body.length ≠ count.toNat + 2) ∨
      (kind = 2 ∧ body.length ≠ count.toNat) ∨
      (kind = 1 ∧ (at' body 0 = 0 ∨ 1024 < (at' body 0).toNat + count.toNat - 1))) :
    RxFrame.ofBody kind seq count body = none := by
  have zero (h : count = 0) : count.toNat = 0 := by rw [h]; rfl
  unfold RxFrame.ofBody
  split
  · next base flags levels one =>
    have kind : kind = 1 := BitVec.eq_of_toNat_eq one
    refine if_neg fun ⟨length, form⟩ => ?_
    simp only [levelForm, decide_eq_true_eq] at form
    obtain neither | none | many | ⟨_, uneven⟩ | ⟨two, _⟩ | ⟨_, far⟩ := malformed
    · exact neither.1 kind
    · have := zero none
      omega
    · omega
    · exact uneven (by simp only [List.length_cons, length])
    · exact absurd (kind.symm.trans two) (by decide)
    · have first : at' (base :: flags :: levels) 0 = base := rfl
      rw [first] at far
      obtain noBase | past := far
      · rw [noBase] at form
        exact absurd form.2.2.1 (by decide)
      · omega
  · next code args two =>
    have kind : kind = 2 := BitVec.eq_of_toNat_eq two
    refine if_neg fun ⟨length, few⟩ => ?_
    obtain neither | none | many | ⟨one, _⟩ | ⟨_, uneven⟩ | ⟨one, _⟩ := malformed
    · exact neither.2 kind
    · have := zero none
      omega
    · omega
    · exact absurd (kind.symm.trans one) (by decide)
    · exact uneven length
    · exact absurd (kind.symm.trans one) (by decide)
  · rfl

theorem RxFrame.ofBody_nil (kind seq count : Word) : RxFrame.ofBody kind seq count [] = none := by
  unfold RxFrame.ofBody
  split
  · next empty => cases empty
  · next empty => cases empty
  · rfl

theorem RxFrame.ofWords_short {ws : List Word} (short : ws.length ≤ 3) : RxFrame.ofWords ws = none := by
  unfold RxFrame.ofWords
  split
  · next kind seq count rest =>
    have none : rest = [] := List.length_eq_zero_iff.1 (by simp only [List.length_cons] at short; omega)
    rw [none, List.dropLast_nil, RxFrame.ofBody_nil, ite_self]
  · rfl

theorem exec_badCheckFrame_level {ws : List Word} {seq base flags : Word} {levels : List Level}
    (read : RxFrame.ofWords ws = some (.level seq base flags levels)) (p : PortIx) (stale : Bool) (s : State) :
    exec (.badCheckFrame ⟨p, stale⟩ ws) s =
      .next (s.endFrame p stale fun s => s.receiveGood p seq (State.takeLevels p base flags levels)) := by
  simp only [exec, execBadCheckFrame]
  congr 2
  funext t
  simp only [State.receiveWords, read]

theorem exec_badCheckFrame_request {ws : List Word} {seq code : Word} {args : List Word}
    (read : RxFrame.ofWords ws = some (.request seq code args)) (p : PortIx) (stale : Bool) (s : State) :
    exec (.badCheckFrame ⟨p, stale⟩ ws) s =
      .next (s.endFrame p stale fun s => s.receiveGood p seq (State.manage p seq code args (decideByCode code))) := by
  simp only [exec, execBadCheckFrame]
  congr 2
  funext t
  simp only [State.receiveWords, read]

/-- Settles O7: a bad-check frame by the state of its sync machine, then a cut, then what words make. -/
theorem badCheckFramesAndCutFrames : Obligations.BadCheckFramesAndCutFrames := by
  refine ⟨fun p stale ws s takes bad => ?_, fun p stale ws s takes bad => ?_, fun ws short => ?_,
    fun kind seq count body malformed => ?_, fun h base flags levels s form => ?_, fun i r s request fits => ?_⟩
  · rw [exec_badCheckFrame_none bad]
    exact ⟨fun hunt => congrArg _ (State.receiveBad_hunt takes hunt),
      fun acquire => congrArg _ (State.receiveBad_acquire takes acquire),
      fun locked calm => congrArg _ (State.receiveBad_locked takes locked calm),
      fun locked auto lost => congrArg _ (State.receiveBad_lost takes locked auto lost)⟩
  · exact ⟨_, exec_badCheckFrame_none bad p stale s, exec_frameCut takes⟩
  · rcases short with few | wrong
    · exact RxFrame.ofWords_short few
    · exact RxFrame.ofWords_badCheck wrong
  · rw [RxFrame.ofWords_withCheck, RxFrame.ofBody_malformed malformed]
  · have read : RxFrame.ofWords (withCheck ([1, h.seq, wordOf levels.length, base, flags] ++ levels)) = _ :=
      RxFrame.ofWords_level h.seq base flags form
    rw [exec_levelFrame form]
    exact exec_badCheckFrame_level read h.port h.stale s
  · have read : RxFrame.ofWords (withCheck ([2, r.head.seq, wordOf (r.args.length + 1), r.code] ++ r.args)) = _ :=
      RxFrame.ofWords_request r.head.seq r.code fits
    rw [exec_requestFrame request fits]
    exact exec_badCheckFrame_request read r.head.port r.head.stale s

end Sys2Proof.Machine
end

