-- ==== Sys2Proof/Proofs/Chunks.lean ====
section
/-! Lists in which each element stands for a fixed number of words, or each word for sixteen bits (R218–R220, R224, R226, R227). -/

namespace Sys2Proof.Machine

section
variable {α β : Type} {f : α → List β} {m : Nat} (width : ∀ a, (f a).length = m)
include width

theorem length_flatMap_width (l : List α) : (l.flatMap f).length = m * l.length := by
  simp only [List.length_flatMap, width, List.map_const', List.sum_replicate, smul_eq_mul, Nat.mul_comm]

/-- The place j of the element i of a list of elements of one width. -/
theorem getElem?_flatMap_width (l : List α) (i : Nat) {j : Nat} (hj : j < m) :
    (l.flatMap f)[m * i + j]? = l[i]?.bind fun a => (f a)[j]? := by
  induction l generalizing i with
  | nil => simp
  | cons a l ih =>
    rw [List.flatMap_cons]
    cases i with
    | zero =>
      rw [List.getElem?_append_left (by rw [width]; omega)]
      simp
    | succ i =>
      have past : m * (i + 1) + j = (f a).length + (m * i + j) := by rw [width, Nat.mul_succ]; omega
      rw [past, List.getElem?_append_right (Nat.le_add_right _ _), Nat.add_sub_cancel_left, ih]
      simp

end

/-! ### Mask words (R224) -/

theorem maskBits_length (w : Word) : (maskBits w).length = 16 := by simp [maskBits]

theorem maskBits_get {w : Word} {j : Nat} (hj : j < 16) : (maskBits w)[j]? = some (w.getLsbD j) := by
  simp [maskBits, hj]

theorem getElem?_maskBits {ws : List Word} {k : Nat} (hk : k < 16 * ws.length) :
    (ws.flatMap maskBits)[k]? = some ((at' ws (k / 16)).getLsbD (k % 16)) := by
  have inside : k / 16 < ws.length := by omega
  have bit : k % 16 < 16 := Nat.mod_lt _ (by decide)
  have place := getElem?_flatMap_width maskBits_length ws (k / 16) bit
  rw [Nat.div_add_mod] at place
  rw [place, List.getElem?_eq_getElem inside, Option.bind_some, maskBits_get bit, at', List.getD_eq_getElem ws 0 inside]

/-! ### Lists of which every value is in range -/

theorem allSome_map_of {α β : Type} {f : α → Option β} {g : α → β} : ∀ {xs : List α}, (∀ x ∈ xs, f x = some (g x)) →
    allSome (xs.map f) = some (xs.map g)
  | [], _ => rfl
  | x :: xs, h => by
    simp only [List.map_cons, allSome, h x List.mem_cons_self, allSome_map_of fun y hy => h y (List.mem_cons_of_mem x hy)]

theorem allSome_map_none {α β : Type} {f : α → Option β} {x : α} (bad : f x = none) : ∀ {xs : List α}, x ∈ xs →
    allSome (xs.map f) = none
  | y :: xs, member => by
    obtain rfl | later := List.mem_cons.1 member
    · simp only [List.map_cons, allSome, bad]
    · cases first : f y <;> simp only [List.map_cons, allSome, first, allSome_map_none bad later]

/-- A run of values written, place by place. -/
theorem setRun_eq {α : Type} {n : Nat} (v : Vector α n) (first : Nat) (xs : List α) {g : Nat → α}
    (h : ∀ k, (hk : k < xs.length) → xs[k] = g k) : setRun v first xs =
      tab fun i => if first ≤ i.val ∧ i.val < first + xs.length then g (i.val - first) else v[i] := by
  refine vector_ext_fin fun i => ?_
  rw [tab_get]
  by_cases inside : first ≤ i.val ∧ i.val < first + xs.length
  · rw [if_pos inside, ← h (i.val - first) (by omega)]
    exact setRun_inside v first xs i.val i.isLt inside.1 (by omega)
  · rw [if_neg inside]
    exact setRun_outside v first xs i.val i.isLt (by omega)

end Sys2Proof.Machine
end

