-- ==== Sys2Proof/Proofs/SetRequests.lean ====
section
/-! Requests refused for their parameter words, and the SET requests (R98–R100, R150, R167, R190, R203–R209, R213): each decision on
values out of range and in range, then the whole state. -/

namespace Sys2Proof.Machine

/-! ### Parameter words that do not fit their layout in number (R224) -/

theorem decideEdit_empty {table first : Word} (p : PortIx) (s : State) :
    decideEdit p [table, first] s = refuse s .badArgument := by
  cases named : TableName.of? table <;> simp [decideEdit, named, TableName.wholeElements]

/-- By the number of words of its layout, each request is refused by its owner. -/
theorem decideByCode_miscounted {i : Instr} {r : Request} (request : i.request? = some r) (bad : i.countFits = false)
    (p : PortIx) (s : State) : decideByCode r.code p r.args s = refuse s .badArgument := by
  cases i with
  | update head args | discard head args | saveHouse head args | checkNext head args | checkPrevious head args
  | checkStop head args | snapshot head args | restart head args =>
    cases request
    rcases args with _ | ⟨a, args⟩
    · cases bad
    · rfl
  | pause head args | resume head args | release head args | storeCue head args | changeover head args | save head args
  | format head args =>
    cases request
    rcases args with _ | ⟨a, _ | ⟨b, args⟩⟩
    · rfl
    · cases bad
    · rfl
  | cueDataRead head args | deleteCue head args | readCue head args | clearEvents head args | setInputEnable head args
  | setInputPermit head args | setAutoResync head args | setStartBank head args =>
    cases request
    rcases args with _ | ⟨a, _ | ⟨b, _ | ⟨c, args⟩⟩⟩
    · rfl
    · rfl
    · cases bad
    · rfl
  | go head args | setOutputLink head args | setEventEnables head args | setMemoryTiming head args =>
    cases request
    rcases args with _ | ⟨a, _ | ⟨b, _ | ⟨c, _ | ⟨d, args⟩⟩⟩⟩
    · rfl
    · rfl
    · rfl
    · cases bad
    · rfl
  | readTable head args | setLossTimes head args =>
    cases request
    rcases args with _ | ⟨a, _ | ⟨b, _ | ⟨c, _ | ⟨d, _ | ⟨e, args⟩⟩⟩⟩⟩
    · rfl
    · rfl
    · rfl
    · rfl
    · cases bad
    · rfl
  | checkStart head args | statusRead head args =>
    cases request
    rcases args with _ | ⟨a, _ | ⟨b, _ | ⟨c, _ | ⟨d, _ | ⟨e, _ | ⟨f, args⟩⟩⟩⟩⟩⟩
    · rfl
    · rfl
    · rfl
    · rfl
    · rfl
    · cases bad
    · rfl
  | setBudget head args =>
    cases request
    rcases args with _ | ⟨a, args⟩
    · rfl
    · simp [Instr.countFits] at bad
  | cueDataWrite head args | setAcceptMask head args =>
    cases request
    rcases args with _ | ⟨a, _ | ⟨b, args⟩⟩
    · rfl
    · rfl
    · simp [Instr.countFits] at bad
  | edit head args =>
    cases request
    rcases args with _ | ⟨a, _ | ⟨b, _ | ⟨c, args⟩⟩⟩
    · rfl
    · rfl
    · exact decideEdit_empty p s
    · simp [Instr.countFits] at bad
  | _ => cases bad

/-- A request whose words could fit its layout in number or not is one of an assigned code. -/
theorem assignedCode_of_miscounted {i : Instr} {r : Request} (request : i.request? = some r) (bad : i.countFits = false) :
    assignedCode r.code = true := by
  cases i with
  | unknownRequest head code args => cases bad
  | _ => cases request <;> rfl

/-! ### Values of settings out of range -/

theorem boolOf?_eq_none {w : Word} (h : 1 < w.toNat) : boolOf? w = none := by
  obtain ⟨notOff, notOn⟩ := word_ne_of_one_lt h
  rw [boolOf?, if_neg notOff, if_neg notOn]

theorem lossOf?_eq_none {n h f : Word}
    (bad : n = 0 ∨ 1000 < n.toNat ∨ (60000 < h.toNat ∧ h ≠ 0xFFFF) ∨ 60000 < f.toNat) : lossOf? n h f = none := by
  refine if_neg fun good => ?_
  simp only [isTime, Bool.and_eq_true, Bool.or_eq_true, decide_eq_true_eq, beq_iff_eq] at good
  obtain ⟨⟨⟨one, thousand⟩, forever⟩, fades⟩ := good
  obtain rfl | many | ⟨long, limited⟩ | slow := bad
  · exact absurd one (by decide)
  · omega
  · have := forever.resolve_left limited
    omega
  · omega

theorem numberOf?_toNat {n : Nat} {w : Word} {i : Fin n} (h : numberOf? n w = some i) : w.toNat = i.val + 1 := by
  unfold numberOf? at h
  split at h
  · cases h
    dsimp only
    omega
  · cases h

theorem resolutionOf?_eq_none {w : Word} (h : w ≠ 8 ∧ w ≠ 12 ∧ w ≠ 16) : resolutionOf? w = none := by
  obtain ⟨h8, h12, h16⟩ := h
  rw [resolutionOf?, if_neg h8, if_neg h12, if_neg h16]

theorem budgetOf?_eq_none {w : Word} (h : 10000 < w.toNat) : budgetOf? w = none := if_neg (Nat.not_le.2 h)

theorem startBankOf?_eq_none {w : Word} (h : 3 < w.toNat) (notNone : w ≠ 0xFFFF) : startBankOf? w = none := by
  rw [startBankOf?, if_neg notNone, finOf?_eq_none h]
  rfl

section
variable {w x y z : Word} (p : PortIx) (s : State)

theorem decideSetInputEnable_bad (bad : 3 < w.toNat ∨ 1 < x.toNat) :
    decideSetInputEnable p [w, x] s = refuse s .badArgument := by
  obtain input | value := bad
  · simp only [decideSetInputEnable, finOf?_eq_none input]
  · cases named : finOf? 4 w <;> simp only [decideSetInputEnable, named, boolOf?_eq_none value]

theorem decideSetInputPermit_bad (bad : 3 < w.toNat ∨ 1 < x.toNat) :
    decideSetInputPermit p [w, x] s = refuse s .badArgument := by
  obtain input | value := bad
  · simp only [decideSetInputPermit, finOf?_eq_none input]
  · cases named : finOf? 4 w <;> simp only [decideSetInputPermit, named, boolOf?_eq_none value]

theorem decideSetAutoResync_bad (bad : 3 < w.toNat ∨ 1 < x.toNat) :
    decideSetAutoResync p [w, x] s = refuse s .badArgument := by
  obtain input | value := bad
  · simp only [decideSetAutoResync, finOf?_eq_none input]
  · cases named : finOf? 4 w <;> simp only [decideSetAutoResync, named, boolOf?_eq_none value]

theorem decideSetLossTimes_bad
    (bad : 3 < w.toNat ∨ x = 0 ∨ 1000 < x.toNat ∨ (60000 < y.toNat ∧ y ≠ 0xFFFF) ∨ 60000 < z.toNat) :
    decideSetLossTimes p [w, x, y, z] s = refuse s .badArgument := by
  obtain input | times := bad
  · simp only [decideSetLossTimes, finOf?_eq_none input]
  · cases named : finOf? 4 w <;> simp only [decideSetLossTimes, named, lossOf?_eq_none times]

theorem decideSetAcceptMask_bad {ws : List Word} (some : 1 ≤ ws.length)
    (bad : 3 < w.toNat ∨ x = 0 ∨ 1025 < x.toNat + 16 * ws.length) :
    decideSetAcceptMask p (w :: x :: ws) s = refuse s .badArgument := by
  cases ws with
  | nil => rfl
  | cons v vs =>
    unfold decideSetAcceptMask
    dsimp only
    split
    · next i c input first =>
      refine if_neg ?_
      rw [length_flatMap_width maskBits_length]
      have number : x.toNat = c.val + 1 := numberOf?_toNat first
      obtain outside | zero | past := bad
      · rw [finOf?_eq_none outside] at input
        cases input
      · rw [zero] at number
        cases number
      · omega
    · rfl

theorem decideSetOutputLink_bad (bad : 5 < w.toNat ∨ 1 < x.toNat ∨ (y ≠ 8 ∧ y ≠ 12 ∧ y ≠ 16)) :
    decideSetOutputLink p [w, x, y] s = refuse s .badArgument := by
  obtain link | value | width := bad
  · simp only [decideSetOutputLink, finOf?_eq_none link]
  · cases named : finOf? 6 w <;> simp only [decideSetOutputLink, named, boolOf?_eq_none value]
  · cases named : finOf? 6 w <;> cases on : boolOf? x <;>
      simp only [decideSetOutputLink, named, on, resolutionOf?_eq_none width]

theorem decideSetBudget_bad {ws : List Word} (bad : 18 < w.toNat + ws.length ∨ ∃ v ∈ ws, 10000 < v.toNat) :
    decideSetBudget p (w :: ws) s = refuse s .badArgument := by
  cases ws with
  | nil => rfl
  | cons v vs =>
    unfold decideSetBudget
    dsimp only
    split
    · next g bs group values =>
      refine if_neg ?_
      have number : w.toNat = g.val := finOf?_toNat group
      have length : bs.length = (v :: vs).length := (allSome_length values).trans (List.length_map _)
      obtain past | ⟨x, member, much⟩ := bad
      · omega
      · rw [allSome_map_none (budgetOf?_eq_none much) member] at values
        cases values
    · rfl

theorem decideSetStartBank_bad (bad : 3 < x.toNat ∧ x ≠ 0xFFFF) :
    decideSetStartBank p [w, x] s = refuse s .badArgument := by
  simp only [decideSetStartBank, startBankOf?_eq_none bad.1 bad.2]

theorem decideSetMemoryTiming_bad (bad : 3 < x.toNat ∨ 3 < y.toNat) :
    decideSetMemoryTiming p [w, x, y] s = refuse s .badArgument := by
  obtain fast | slow := bad
  · simp only [decideSetMemoryTiming, finOf?_eq_none fast]
  · cases named : finOf? 4 x <;> simp only [decideSetMemoryTiming, named, finOf?_eq_none slow]

end

/-! ### The whole state after a refusal -/

/-- A SET row that its owner refuses. -/
theorem exec_setRefused {s : State} {h : FrameHead} (hs : s.Serves h) {i : Instr} {item : Word} {args : List Word}
    (request : i.request? = some ⟨h, 0x16, item :: args⟩) (fits : args.length ≤ 126)
    (hd : decideSet h.port (item :: args) (s.frameTaken h.port) = refuse (s.frameTaken h.port) .badArgument) :
    exec i s = .next { s with ports := s.portsAfter h.port (replyTo h 0x16 .badArgument) } :=
  exec_refused hs hd (exec_request_byCode request s) rfl (Nat.succ_le_succ fits)

/-- Settles O12: the number of the words, then each value. -/
theorem badParametersAreRefused : Obligations.BadParametersAreRefused := by
  refine ⟨fun i r s request fits bad hs => ?_, fun h w x y z ws s hs some fits => ?_⟩
  · exact exec_refused hs (decideByCode_miscounted request bad _ _) (exec_request_byCode request s)
      (assignedCode_of_miscounted request bad) fits
  · intro refused
    refine ⟨fun bad => ⟨?_, ?_, ?_⟩, fun bad => ?_, fun bad => ?_, fun bad => ?_, fun bad => ?_, fun bad => ?_, fun bad => ?_⟩
    · exact exec_setRefused hs rfl (by simp) (decideSetInputEnable_bad h.port (s.frameTaken h.port) bad)
    · exact exec_setRefused hs rfl (by simp) (decideSetInputPermit_bad h.port (s.frameTaken h.port) bad)
    · exact exec_setRefused hs rfl (by simp) (decideSetAutoResync_bad h.port (s.frameTaken h.port) bad)
    · exact exec_setRefused hs rfl (by simp) (decideSetLossTimes_bad h.port (s.frameTaken h.port) bad)
    · exact exec_setRefused hs rfl (by simp; omega) (decideSetAcceptMask_bad h.port (s.frameTaken h.port) some bad)
    · exact exec_setRefused hs rfl (by simp) (decideSetOutputLink_bad h.port (s.frameTaken h.port) bad)
    · exact exec_setRefused hs rfl (by simp; omega) (decideSetBudget_bad h.port (s.frameTaken h.port) bad)
    · exact exec_setRefused hs rfl (by simp) (decideSetStartBank_bad (w := w) h.port (s.frameTaken h.port) bad)
    · exact exec_setRefused hs rfl (by simp) (decideSetMemoryTiming_bad (w := w) h.port (s.frameTaken h.port) bad)

/-! ### Values of settings in range -/

theorem boolOf?_boolWord {v : Word} {on : Bool} (h : v = if on then 1 else 0) : boolOf? v = some on := by
  cases on <;> subst h <;> rfl

theorem lossOf?_eq_some {n l f : Word} (one : 1 ≤ n.toNat) (thousand : n.toNat ≤ 1000) (hold : l = 0xFFFF ∨ l.toNat ≤ 60000)
    (fades : f.toNat ≤ 60000) :
    lossOf? n l f = some (n.toNat, if l = 0xFFFF then none else some l.toNat, f.toNat) := by
  refine if_pos ?_
  simp only [isTime, Bool.and_eq_true, Bool.or_eq_true, decide_eq_true_eq, beq_iff_eq]
  exact ⟨⟨⟨one, thousand⟩, hold⟩, fades⟩

theorem numberOf?_eq_some {n : Nat} {w : Word} (lo : 1 ≤ w.toNat) (hi : w.toNat ≤ n) :
    numberOf? n w = some ⟨w.toNat - 1, by omega⟩ := dif_pos ⟨lo, hi⟩

theorem startBankOf?_bankWord (b : Option BankIx) : startBankOf? (bankWord b) = some b := by
  cases b with
  | none => rfl
  | some b => fin_cases b <;> rfl

theorem resolutionOf?_bits {r : Word} {res : Resolution} (h : r.toNat = res.bits) : resolutionOf? r = some res := by
  have word : r = BitVec.ofNat 16 res.bits := by rw [← h, BitVec.ofNat_toNat, BitVec.setWidth_eq]
  cases res <;> subst word <;> rfl

theorem EventSet.ofWords_bit (a b : Word) (e : Event) : (EventSet.ofWords a b).getLsbD e.bit =
    if e.bit < 16 then a.getLsbD e.bit else b.getLsbD (e.bit - 16) := by
  rw [EventSet.ofWords, BitVec.truncate_eq_setWidth, BitVec.getLsbD_setWidth, BitVec.getLsbD_append]
  simp [e.bit_lt]

/-! ### INPUT ENABLE and INPUT PERMIT (R98, R99, R209) -/

/-- A SET row that its owner carries out on blocks other than the ports. -/
theorem exec_setDone {s t : State} {h : FrameHead} (hs : s.Serves h) {i : Instr} {item : Word} {args : List Word}
    (request : i.request? = some ⟨h, 0x16, item :: args⟩) (fits : args.length ≤ 126)
    (hd : decideSet h.port (item :: args) (s.frameTaken h.port) = done t)
    (hports : t.ports = (s.frameTaken h.port).ports := by rfl) :
    exec i s = .next { t with ports := s.portsAfter h.port (replyTo h 0x16 .done) } :=
  exec_done hs hd hports (exec_request_byCode request s) rfl (Nat.succ_le_succ fits)

section
variable {s : State} {p i : PortIx} {w v : Word} {on : Bool} (named : w.toNat = i.val) (value : v = if on then 1 else 0)
include named value

theorem decideSetInputEnable_eq : decideSetInputEnable p [w, v] s =
    protectedSet s i (fun j => { j with enabled := on }) (s.setEnabled i on) := by
  simp only [decideSetInputEnable, finOf?_of_toNat named, boolOf?_boolWord value]

theorem decideSetInputPermit_eq : decideSetInputPermit p [w, v] s =
    protectedSet s i (fun j => { j with permit := on }) (s.modInput i fun j => { j with permit := on }) := by
  simp only [decideSetInputPermit, finOf?_of_toNat named, boolOf?_boolWord value]

end

theorem protectedSet_refused {s t : State} {p : PortIx} {f : InputSettings → InputSettings}
    (none : managing (s.mgmt.inputs.set p (f s.mgmt.inputs[p])) = false) : protectedSet s p f t = refuse s .badArgument := by
  rw [protectedSet, none]
  rfl

theorem protectedSet_done {s t : State} {p : PortIx} {f : InputSettings → InputSettings}
    (one : managing (s.mgmt.inputs.set p (f s.mgmt.inputs[p])) = true) : protectedSet s p f t = done t := if_pos one

theorem State.setEnabled_same {s : State} {p : PortIx} {on : Bool} (same : s.mgmt.inputs[p].enabled = on) :
    s.setEnabled p on = s := if_pos same

/-- The port of an input that is enabled or disabled (R98, R99). -/
def Port.switched (on : Bool) (q : Port) : Port := if on then q.enable else q.disable

theorem State.setEnabled_switch {s : State} {p : PortIx} {on : Bool} (other : s.mgmt.inputs[p].enabled ≠ on) :
    s.setEnabled p on =
      let m := { s.mgmt with inputs := s.mgmt.inputs.set p { s.mgmt.inputs[p] with enabled := on } }
      { s with
        ports := s.ports.set p (s.ports[p].switched on)
        mgmt := if on = false ∧ s.ports[p].sync ≠ .hunt then m.raise (.syncChange p) else m } := by
  unfold State.setEnabled
  rw [if_neg other]
  cases on with
  | true => rfl
  | false =>
    by_cases hunt : s.ports[p].sync = .hunt
    · simp only [hunt, bne_self_eq_false, ne_eq, not_true_eq_false, and_false, if_false]
      rfl
    · simp only [bne_iff_ne.2 hunt, ne_eq, hunt, not_false_eq_true, and_self, if_true]
      rfl

/-- Settles O46: refused when no input would manage, else the setting and, of a changed INPUT ENABLE, the port. -/
theorem aSetKeepsAManagingInput : Obligations.ASetKeepsAManagingInput := by
  intro h w v i on s hs named value enables permits refused
  refine ⟨fun none => ?_, fun none => ?_, fun one => ?_, fun one same => ?_, fun one other => ?_⟩
  · exact exec_setRefused hs rfl (by simp)
      ((decideSetInputEnable_eq (p := h.port) (s := s.frameTaken h.port) named value).trans (protectedSet_refused none))
  · exact exec_setRefused hs rfl (by simp)
      ((decideSetInputPermit_eq (p := h.port) (s := s.frameTaken h.port) named value).trans (protectedSet_refused none))
  · exact exec_setDone (item := 1) (args := [w, v]) hs rfl (by simp)
      ((decideSetInputPermit_eq (p := h.port) (s := s.frameTaken h.port) named value).trans (protectedSet_done one))
  · have hd := (decideSetInputEnable_eq (p := h.port) (s := s.frameTaken h.port) named value).trans (protectedSet_done one)
    rw [State.setEnabled_same (s := s.frameTaken h.port) same] at hd
    exact exec_setDone (t := s.frameTaken h.port) (item := 0) (args := [w, v]) hs rfl (by simp) hd
  · intro taken q q' ports
    have hd := (decideSetInputEnable_eq (p := h.port) (s := s.frameTaken h.port) named value).trans (protectedSet_done one)
    rw [State.setEnabled_switch (s := s.frameTaken h.port) other] at hd
    have switched : (s.frameTaken h.port).ports[i].switched on = q' := by cases on <;> rfl
    rw [exec_request_byCode (r := ⟨h, 0x16, [0, w, v]⟩) rfl, State.takeRequest_serves hs rfl (by simp)]
    dsimp only
    rw [show decideByCode 0x16 h.port [0, w, v] (s.frameTaken h.port) = _ from hd, switched]
    rfl

/-! ### The other items (R112, R150, R167, R190, R207, R213) -/

section
variable {s : State} {w : Word} (p : PortIx)

theorem decideSetAutoResync_value {v : Word} {i : PortIx} {on : Bool} (named : w.toNat = i.val)
    (value : v = if on then 1 else 0) :
    decideSetAutoResync p [w, v] s = done (s.modInput i fun j => { j with autoResync := on }) := by
  simp only [decideSetAutoResync, finOf?_of_toNat named, boolOf?_boolWord value]

theorem decideSetLossTimes_values {n l f : Word} {i : PortIx} (named : w.toNat = i.val) (one : 1 ≤ n.toNat)
    (thousand : n.toNat ≤ 1000) (hold : l = 0xFFFF ∨ l.toNat ≤ 60000) (fades : f.toNat ≤ 60000) :
    decideSetLossTimes p [w, n, l, f] s = done (s.modInput i fun j =>
      { j with lossN := n.toNat, lossH := if l = 0xFFFF then none else some l.toNat, lossF := f.toNat }) := by
  simp only [decideSetLossTimes, finOf?_of_toNat named, lossOf?_eq_some one thousand hold fades]

/-- The accept mask after a run of mask words, channel by channel. -/
theorem setRun_maskBits (accept : Vector Bool 1024) {first : Nat} (lo : 1 ≤ first) (ws : List Word) :
    setRun accept (first - 1) (ws.flatMap maskBits) = tab fun c =>
      if first ≤ Chan.number c ∧ Chan.number c < first + 16 * ws.length then
        (at' ws ((Chan.number c - first) / 16)).getLsbD ((Chan.number c - first) % 16)
      else accept[c] := by
  have bits : ∀ k, (hk : k < (ws.flatMap maskBits).length) → (ws.flatMap maskBits)[k] = (at' ws (k / 16)).getLsbD (k % 16) := by
    intro k hk
    rw [length_flatMap_width maskBits_length] at hk
    exact (List.getElem_eq_iff _).2 (getElem?_maskBits hk)
  rw [setRun_eq accept _ _ bits, length_flatMap_width maskBits_length]
  refine congrArg tab (funext fun c => ?_)
  have number : Chan.number c = c.val + 1 := rfl
  have place : Chan.number c - first = c.val - (first - 1) := by omega
  rw [place]
  exact if_congr (by omega) rfl rfl

theorem decideSetAcceptMask_values {first : Word} {ws : List Word} {i : PortIx} (named : w.toNat = i.val)
    (some : 1 ≤ ws.length) (lo : 1 ≤ first.toNat) (hi : first.toNat + 16 * ws.length ≤ 1025) :
    decideSetAcceptMask p (w :: first :: ws) s = done (s.modInput i fun j => { j with
      accept := tab fun c =>
        if first.toNat ≤ Chan.number c ∧ Chan.number c < first.toNat + 16 * ws.length then
          (at' ws ((Chan.number c - first.toNat) / 16)).getLsbD ((Chan.number c - first.toNat) % 16)
        else j.accept[c] }) := by
  cases ws with
  | nil => exact absurd some (by decide)
  | cons v vs =>
    have fits : first.toNat - 1 + ((v :: vs).flatMap maskBits).length ≤ 1024 := by
      rw [length_flatMap_width maskBits_length]
      omega
    have inside : first.toNat ≤ 1024 := by omega
    simp only [decideSetAcceptMask, finOf?_of_toNat named, numberOf?_eq_some lo inside, fits, if_true, setRun_maskBits _ lo]

theorem decideSetBudget_values {ws : List Word} (some : 1 ≤ ws.length) (inside : w.toNat + ws.length ≤ 18)
    (small : ∀ x ∈ ws, x.toNat ≤ 10000) :
    decideSetBudget p (w :: ws) s = done { s with mgmt := { s.mgmt with budgets := tab fun g =>
      if w.toNat ≤ g.val ∧ g.val < w.toNat + ws.length then (at' ws (g.val - w.toNat)).toNat else s.mgmt.budgets[g] } } := by
  cases ws with
  | nil => exact absurd some (by decide)
  | cons v vs =>
    have values : allSome ((v :: vs).map budgetOf?) = .some ((v :: vs).map BitVec.toNat) :=
      allSome_map_of fun x hx => if_pos (small x hx)
    have group : w.toNat < 18 := by
      simp only [List.length_cons] at inside
      omega
    have each : ∀ k, (hk : k < ((v :: vs).map BitVec.toNat).length) →
        ((v :: vs).map BitVec.toNat)[k] = (at' (v :: vs) k).toNat := by
      intro k hk
      rw [List.getElem_map, at', List.getD_eq_getElem _ 0 (by rwa [List.length_map] at hk)]
    simp only [decideSetBudget, finOf?_eq_some group, values, List.length_map, inside, if_true,
      setRun_eq s.mgmt.budgets w.toNat _ each]

theorem decideSetStartBank_value {v : Word} {b : Option BankIx} (word : bankWord b = v) :
    decideSetStartBank p [w, v] s = done { s with mgmt := { s.mgmt with startBank := b } } := by
  simp only [decideSetStartBank, ← word, startBankOf?_bankWord]

theorem decideSetMemoryTiming_values {v r : Word} {wp wh : Fin 4} (hp : v.toNat = wp.val) (hh : r.toNat = wh.val) :
    decideSetMemoryTiming p [w, v, r] s = done { s with memPort := { s.memPort with waitP := wp, waitH := wh } } := by
  simp only [decideSetMemoryTiming, finOf?_of_toNat hp, finOf?_of_toNat hh]

theorem decideSetOutputLink_values {v r : Word} {k : LinkIx} {on : Bool} {res : Resolution} (named : w.toNat = k.val)
    (value : v = if on then 1 else 0) (width : r.toNat = res.bits) :
    decideSetOutputLink p [w, v, r] s = done (s.modOut k fun o => { o with pending := ⟨on, res⟩, pendingFlag := true }) := by
  simp only [decideSetOutputLink, finOf?_of_toNat named, boolOf?_boolWord value, resolutionOf?_bits width]

end

/-- Settles O47: each row by the values it carries. -/
theorem aSetReplacesTheValuesItCarries : Obligations.ASetReplacesTheValuesItCarries := by
  intro h s hs ports input
  refine ⟨?autoResync, ?lossTimes, ?acceptMask, ?budget, ?startBank, ?eventEnables, ?memoryTiming, ?outputLink⟩
  case autoResync =>
    intro w v i on named value
    exact exec_setDone (item := 2) (args := [w, v]) hs rfl (by simp)
      (decideSetAutoResync_value (s := s.frameTaken h.port) h.port named value)
  case lossTimes =>
    intro w n l f i named one thousand hold fades
    exact exec_setDone (item := 3) (args := [w, n, l, f]) hs rfl (by simp)
      (decideSetLossTimes_values (s := s.frameTaken h.port) h.port named one thousand hold fades)
  case acceptMask =>
    intro w first ws i named some lo hi
    exact exec_setDone (item := 4) (args := w :: first :: ws) hs rfl (by simp; omega)
      (decideSetAcceptMask_values (s := s.frameTaken h.port) h.port named some lo hi)
  case budget =>
    intro w ws some inside small
    exact exec_setDone (item := 6) (args := w :: ws) hs rfl (by simp; omega)
      (decideSetBudget_values (s := s.frameTaken h.port) h.port some inside small)
  case startBank =>
    intro w v b word
    exact exec_setDone (item := 7) (args := [w, v]) hs rfl (by simp)
      (decideSetStartBank_value (s := s.frameTaken h.port) (w := w) h.port word)
  case eventEnables =>
    intro w a b
    exact ⟨EventSet.ofWords a b, EventSet.ofWords_bit a b,
      exec_setDone (item := 8) (args := [w, a, b]) hs rfl (by simp) rfl⟩
  case memoryTiming =>
    intro w p q wp wh hp hq
    exact exec_setDone (item := 9) (args := [w, p, q]) hs rfl (by simp)
      (decideSetMemoryTiming_values (s := s.frameTaken h.port) (w := w) h.port hp hq)
  case outputLink =>
    intro w v r k on res named value width
    exact exec_setDone (item := 5) (args := [w, v, r]) hs rfl (by simp)
      (decideSetOutputLink_values (s := s.frameTaken h.port) h.port named value width)

end Sys2Proof.Machine
end

