-- ==== Sys2Proof/Proofs/StatusRead.lean ====
section
/-! STATUS READ selector by selector (R210, R224), and SNAPSHOT, CLEAR EVENTS and RESTART (R116, R214, R216). -/

namespace Sys2Proof.Machine

/-! ### A STATUS READ decided (R203) -/

theorem State.admission_statusRead (s : State) (p : PortIx) : s.admission p 0x18 = none := by
  simp [State.admission, assignedCode, codeStatusRead]

/-- A request in step that passes tests 1 to 3: its owner decides, and the reply joins the queue. -/
theorem State.takeRequest_admitted {s : State} {h : FrameHead} (hs : s.InStep h) (room : s.ports[h.port].replies.length < 4)
    {code : Word} (admitted : s.admission h.port code = none) {args : List Word} (fits : args.length ≤ 127)
    (decide : PortIx → List Word → State → Decision) :
    s.takeRequest h code args decide =
      let d := decide h.port args (s.frameTaken h.port)
      d.state.modPort h.port (Port.enqueue ⟨h.seq, code, d.result, d.data, d.restart⟩) := by
  have hroom : ¬4 ≤ (s.frameTaken h.port).ports[h.port].replies.length := by
    rw [State.frameTaken_get]
    exact Nat.not_le_of_lt room
  have hadm : (s.frameTaken h.port).admission h.port code = none := admitted
  simp only [State.takeRequest, fits, if_true]
  rw [State.receiveGood_inStep hs]
  simp only [State.manage, hroom, if_false, hadm]

section
variable {s : State} {h : FrameHead} (hs : s.InStep h) (room : s.ports[h.port].replies.length < 4)
  {selector item inst first count : Word}
include hs room

theorem exec_statusRead_some {data : List Word}
    (read : (s.frameTaken h.port).statusData selector item inst first count = some data) :
    exec (.statusRead h [selector, item, inst, first, count]) s = .next { s with
      ports := s.portsAfter h.port { replyTo h 0x18 .done with data := data } } := by
  have decided : decideStatusRead h.port [selector, item, inst, first, count] (s.frameTaken h.port) =
      { state := s.frameTaken h.port, result := .done, data := data } := by
    simp only [decideStatusRead, read]
  show Host.Outcome.next (s.takeRequest h 0x18 _ decideStatusRead) = _
  rw [State.takeRequest_admitted hs room (s.admission_statusRead _) (by simp)]
  dsimp only
  rw [decided, State.frameTaken, State.modPort_modPort]
  rfl

theorem exec_statusRead_none (read : (s.frameTaken h.port).statusData selector item inst first count = none) :
    exec (.statusRead h [selector, item, inst, first, count]) s = .next { s with
      ports := s.portsAfter h.port (replyTo h 0x18 .badArgument) } := by
  have decided : decideStatusRead h.port [selector, item, inst, first, count] (s.frameTaken h.port) =
      refuse (s.frameTaken h.port) .badArgument := by
    simp only [decideStatusRead, read]
  show Host.Outcome.next (s.takeRequest h 0x18 _ decideStatusRead) = _
  rw [State.takeRequest_admitted hs room (s.admission_statusRead _) (by simp)]
  dsimp only
  rw [decided, State.frameTaken]
  simp only [refuse]
  rw [State.modPort_modPort]
  rfl

end

/-! ### Ranges and lists -/

/-- A range lies within the elements of its selector (R210). -/
def InRange (base size most : Nat) (first count : Word) : Prop :=
  base ≤ first.toNat ∧ 1 ≤ count.toNat ∧ count.toNat ≤ most ∧ first.toNat + count.toNat ≤ base + size

theorem rangeOf?_eq_some {base size most : Nat} {first count : Word} (h : InRange base size most first count) :
    rangeOf? base size most first count = some (first.toNat - base, count.toNat) := if_pos h

theorem rangeOf?_eq_none {base size most : Nat} {first count : Word} (h : ¬InRange base size most first count) :
    rangeOf? base size most first count = none := if_neg h

theorem toList_eq_map_finRange {α : Type} {n : Nat} (v : Vector α n) : v.toList = (List.finRange n).map fun i => v[i] := by
  refine List.ext_getElem (by simp) fun i _ _ => ?_
  simp

theorem flatMap_toList {α β : Type} {n : Nat} (v : Vector α n) (f : α → List β) :
    v.toList.flatMap f = (List.finRange n).flatMap fun i => f v[i] := by
  rw [toList_eq_map_finRange, List.flatMap_map]

/-! ### Mask words (R224) -/

theorem maskWord_bit {bs : List Bool} (few : bs.length ≤ 16) {j : Nat} (hj : j < bs.length) :
    (maskWord bs).getLsbD j = bs[j] := by
  rw [maskWord, List.take_of_length_le few]
  induction bs generalizing j with
  | nil => exact absurd hj (Nat.not_lt_zero j)
  | cons b bs ih =>
    rw [List.foldr_cons, BitVec.getLsbD_or]
    cases j with
    | zero => cases b <;> simp [boolWord]
    | succ j =>
      have inside : j < bs.length := Nat.lt_of_succ_lt_succ hj
      have low : j + 1 < 16 := Nat.lt_of_lt_of_le hj few
      have high : (boolWord b).getLsbD (j + 1) = false := by cases b <;> simp [boolWord]
      rw [high, Bool.or_false, List.getElem_cons_succ, ← ih (Nat.le_of_succ_le few) inside, BitVec.getLsbD_shiftLeft]
      simp only [low, decide_true, Bool.true_and, Nat.add_sub_cancel, Nat.not_lt.2 (Nat.le_add_left 1 j), decide_false,
        Bool.not_false]

/-- A range of the mask words of an accept mask, channel by channel. -/
theorem maskWords_range (v : Vector Bool 1024) {first count : Nat} (fits : first + count ≤ 64) :
    (((maskWords v).drop first).take count).length = count ∧
      ∀ c : Chan, first ≤ c.val / 16 → c.val / 16 < first + count →
        (at' (((maskWords v).drop first).take count) (c.val / 16 - first)).getLsbD (c.val % 16) = v[c] := by
  have all : (maskWords v).length = 64 := by simp [maskWords]
  have length : (((maskWords v).drop first).take count).length = count := by
    rw [List.length_take, List.length_drop, all]
    omega
  refine ⟨length, fun c lo hi => ?_⟩
  have hc := c.isLt
  have sixteen : (getRun v (16 * (c.val / 16)) 16).length = 16 := by
    simp only [getRun, List.length_take, List.length_drop, Vector.length_toList]
    omega
  have bit : c.val % 16 < (getRun v (16 * (c.val / 16)) 16).length := by
    rw [sixteen]
    exact Nat.mod_lt _ (by decide)
  rw [at', List.getD_eq_getElem _ 0 (by omega), List.getElem_take, List.getElem_drop]
  simp only [maskWords, List.getElem_map, List.getElem_range, Nat.add_sub_cancel' lo]
  rw [maskWord_bit (Nat.le_of_eq sixteen) bit]
  simp only [getRun, List.getElem_take, List.getElem_drop, Vector.getElem_toList, Nat.div_add_mod]
  rfl

/-! ### What counting the frame leaves for a selector to read -/

theorem State.frameTaken_port (s : State) (p i : PortIx) :
    (s.frameTaken p).ports[i] = if i = p then s.ports[p].tookGood else s.ports[i] := by
  rw [State.frameTaken_ports, set_get]

theorem State.frameTaken_source (s : State) (p i : PortIx) : (s.frameTaken p).ports[i].readSource = s.ports[i].readSource := by
  rw [State.frameTaken_port]
  split
  · next same => rw [same]; rfl
  · rfl

theorem State.frameTaken_live (s : State) (p i : PortIx) : (s.frameTaken p).ports[i].live = s.ports[i].live := by
  rw [State.frameTaken_port]
  split
  · next same => rw [same]; rfl
  · rfl

/-! ### The data of the selectors -/

section
variable (s : State)

theorem State.readGeneral_eq : s.readGeneral =
    [s.mgmt.cause.code, s.bank.state.code, kindWord s.opKind, bankWord (s.bank.op.bind OpRecord.bank),
        (s.bank.op.map fun op => wordOf op.segment).getD 0] ++
      (match s.bank.lastHeader with
        | some x => [wordOf x.bank.val, x.mark, (x.writeCount >>> 16).truncate 16, x.writeCount.truncate 16, x.count,
            x.directory.code, x.patch.code, x.circuits.code]
        | none => [0xFFFF, 0, 0, 0, 0, 0, 0, 0]) ++ [s.tables.stage.code, bankWord s.tables.liveBank] := by
  unfold State.readGeneral
  cases s.bank.op <;> cases s.bank.lastHeader <;> rfl

theorem Slot.words_eq (x : Slot) :
    let fade (state : Word) (f : Fade) : List Word :=
      [state, (f.cue.map wordOf).getD 0xFFFF, wordOf f.order] ++ longWords (BitVec.ofNat 32 f.elapsed) ++
        longWords (BitVec.ofNat 32 f.endTime)
    x.words = match x with
      | .free => [0, 0, 0, 0, 0, 0, 0]
      | .fetching f => [1, wordOf f.cue, 0, 0, 0, 0, 0]
      | .fading f => fade 2 f
      | .paused f => fade 3 f := by
  cases x with
  | free | fetching f => rfl
  | fading f | paused f =>
    cases cue : f.cue <;> simp only [Slot.words, cue] <;> rfl

theorem Playback.words_eq (pb : Playback) : pb.words = ((List.finRange 6).flatMap fun n => pb.slots[n].words) ++
    [(pb.lastTaken.map wordOf).getD 0, (pb.takenLink.map wordOf).getD 0,
      (pb.follow.map fun f => wordOf f.remaining).getD 0xFFFF, (pb.follow.map fun f => boolWord f.paused).getD 0] := by
  rw [Playback.words, flatMap_toList]
  cases pb.lastTaken <;> cases pb.takenLink <;> cases pb.follow <;> rfl

theorem Playback.channelWords_eq (pb : Playback) (c : Chan) :
    pb.channelWords c = [pb.level c, (pb.owner[c].map fun o => wordOf o.slot.val).getD 0xFFFF] := by
  unfold Playback.channelWords
  cases pb.owner[c] <;> rfl

theorem liveWords_eq (x : Option Level) : liveWords x = [if x.isSome then 0 else 0xFFFF, x.getD 0] := by
  cases x <;> rfl

theorem State.readOutputs_eq : s.readOutputs = ((List.finRange 6).flatMap fun k =>
      let o := s.outs[k]
      [o.state.code, boolWord o.frame.isSome, wordOf o.position, boolWord o.forced, boolWord o.current.enabled,
        wordOf o.current.resolution.bits, boolWord o.pending.enabled, wordOf o.pending.resolution.bits,
        boolWord o.pendingFlag]) ++
    [Config.holdreqWord s.hold.holdreq, if s.hold.holdack then 0 else 1] := by
  rw [State.readOutputs, flatMap_toList]
  rfl

theorem Lamp.words_eq (l : Lamp) : l.words = [boolWord l.under.isSome] ++
    (match l.params with
      | some k => [1, k.level, wordOf k.dwell, k.set.code, wordOf (k.start.val + 1), k.mode.code]
      | none => [0, 0, 0, 0, 0, 0]) ++
    [(l.under.map fun c => wordOf (c.val + 1)).getD 0, wordOf l.remaining] := by
  unfold Lamp.words Lamp.active
  cases l.under <;> cases l.params <;> rfl

end

/-! ### A selector refused (R210) -/

section
variable {s : State} {selector item inst first count : Word}

theorem State.statusData_unassigned (h : 12 < selector.toNat) : s.statusData selector item inst first count = none := by
  obtain ⟨n, hn⟩ : ∃ n, selector.toNat = n + 13 := ⟨selector.toNat - 13, by omega⟩
  simp only [State.statusData, hn]

theorem State.statusData_noInput (h : 3 < inst.toNat) (input : selector = 3 ∨ selector = 4 ∨ selector = 5) :
    s.statusData selector item inst first count = none := by
  have none := finOf?_eq_none (n := 4) h
  obtain rfl | rfl | rfl := input
  · exact congrArg (Option.map _) none
  · exact congrArg (Option.map _) none
  · show (match finOf? 4 inst, rangeOf? 1 1024 64 first count with
      | some i, some (a, n) => some ((getRun s.ports[i].live a n).flatMap liveWords)
      | _, _ => Option.none) = _
    rw [none]

theorem State.statusData_noChannels (out : ¬InRange 1 1024 64 first count) (channels : selector = 5 ∨ selector = 7) :
    s.statusData selector item inst first count = none := by
  have none := rangeOf?_eq_none out
  obtain rfl | rfl := channels
  · show (match finOf? 4 inst, rangeOf? 1 1024 64 first count with
      | some i, some (a, n) => some ((getRun s.ports[i].live a n).flatMap liveWords)
      | _, _ => Option.none) = _
    rw [none]
    cases finOf? 4 inst <;> rfl
  · exact congrArg (Option.map _) none

theorem State.readSettings_none (bad : 9 < item.toNat ∨ (item.toNat ≤ 4 ∧ 3 < inst.toNat) ∨
    (item = 4 ∧ ¬InRange 0 64 64 first count) ∨ (item = 5 ∧ 5 < inst.toNat) ∨ (item = 6 ∧ ¬InRange 0 18 18 first count)) :
    s.readSettings item inst first count = none := by
  obtain unassigned | ⟨small, noInput⟩ | ⟨rfl, out⟩ | ⟨rfl, noLink⟩ | ⟨rfl, out⟩ := bad
  · obtain ⟨n, hn⟩ : ∃ n, item.toNat = n + 10 := ⟨item.toNat - 10, by omega⟩
    simp only [State.readSettings, hn]
  · have none := finOf?_eq_none (n := 4) noInput
    obtain h | h | h | h | h : item.toNat = 0 ∨ item.toNat = 1 ∨ item.toNat = 2 ∨ item.toNat = 3 ∨ item.toNat = 4 := by omega
    all_goals simp only [State.readSettings, h, none, Option.map_none]
  · cases named : finOf? 4 inst <;> simp [State.readSettings, named, rangeOf?_eq_none out]
  · simp [State.readSettings, finOf?_eq_none noLink]
  · simp [State.readSettings, rangeOf?_eq_none out]

/-! ### A selector answered (R210) -/

theorem State.statusData_input {i : PortIx} (named : inst.toNat = i.val) :
    s.statusData 3 item inst first count = some s.ports[i].readLink ∧
      s.statusData 4 item inst first count = some s.ports[i].readSource := by
  have input := finOf?_of_toNat named
  exact ⟨congrArg (Option.map _) input, congrArg (Option.map _) input⟩

theorem State.statusData_live {i : PortIx} (named : inst.toNat = i.val) (inside : InRange 1 1024 64 first count) :
    s.statusData 5 item inst first count =
      some ((getRun s.ports[i].live (first.toNat - 1) count.toNat).flatMap liveWords) := by
  show (match finOf? 4 inst, rangeOf? 1 1024 64 first count with
      | some i, some (a, n) => some ((getRun s.ports[i].live a n).flatMap liveWords)
      | _, _ => Option.none) = _
  rw [finOf?_of_toNat named, rangeOf?_eq_some inside]

theorem State.statusData_channels (inside : InRange 1 1024 64 first count) : s.statusData 7 item inst first count =
    some ((((List.finRange 1024).drop (first.toNat - 1)).take count.toNat).flatMap s.playback.channelWords) :=
  congrArg (Option.map _) (rangeOf?_eq_some inside)

theorem State.statusData_image (inside : InRange 1 768 128 first count) : s.statusData 8 item inst first count =
    some (getRun s.levels.image (first.toNat - 1) count.toNat) :=
  congrArg (Option.map _) (rangeOf?_eq_some inside)

theorem State.readSettings_input {i : PortIx} (named : inst.toNat = i.val) :
    s.readSettings 0 inst first count = some [boolWord s.mgmt.inputs[i].enabled] ∧
      s.readSettings 1 inst first count = some [boolWord s.mgmt.inputs[i].permit] ∧
      s.readSettings 2 inst first count = some [boolWord s.mgmt.inputs[i].autoResync] ∧
      s.readSettings 3 inst first count =
        some [wordOf s.mgmt.inputs[i].lossN, timeWord s.mgmt.inputs[i].lossH, wordOf s.mgmt.inputs[i].lossF] := by
  have input := finOf?_of_toNat named
  exact ⟨congrArg (Option.map _) input, congrArg (Option.map _) input, congrArg (Option.map _) input,
    congrArg (Option.map _) input⟩

theorem State.readSettings_accept {i : PortIx} (named : inst.toNat = i.val) (inside : InRange 0 64 64 first count) :
    s.readSettings 4 inst first count = some (((maskWords s.mgmt.inputs[i].accept).drop first.toNat).take count.toNat) := by
  simp [State.readSettings, finOf?_of_toNat named, rangeOf?_eq_some inside]

theorem State.readSettings_link {k : LinkIx} (named : inst.toNat = k.val) : s.readSettings 5 inst first count =
    some [boolWord s.outs[k].pending.enabled, wordOf s.outs[k].pending.resolution.bits] :=
  congrArg (Option.map _) (finOf?_of_toNat named)

theorem State.readSettings_budgets (inside : InRange 0 18 18 first count) : s.readSettings 6 inst first count =
    some (((s.mgmt.budgets.toList.drop first.toNat).take count.toNat).map wordOf) :=
  congrArg (Option.map _) (rangeOf?_eq_some inside)

end

/-! ### SNAPSHOT, CLEAR EVENTS and RESTART (R116, R214, R216) -/

section
variable {s : State} {h : FrameHead} (hs : s.Serves h)
include hs

theorem exec_snapshot : exec (.snapshot h []) s = .next (((s.frameTaken h.port).modPorts fun _ q => q.takeSnapshot).modPort h.port
    (Port.enqueue (replyTo h 0x17 .done))) := by
  show Host.Outcome.next (s.takeRequest h 0x17 [] decideSnapshot) = _
  rw [State.takeRequest_serves hs rfl (by simp)]
  rfl

theorem exec_clearEvents (a b : Word) : exec (.clearEvents h [a, b]) s = .next { s with
    ports := s.portsAfter h.port (replyTo h 0x19 .done), mgmt := s.mgmt.clear (EventSet.ofWords a b) } :=
  exec_done hs (i := .clearEvents h [a, b]) (code := 0x19) (args := [a, b]) (decide := decideClearEvents) rfl

theorem exec_restart : exec (.restart h []) s = .next { s with
    ports := s.portsAfter h.port { replyTo h 0x1A .accepted with restart := true } } :=
  congrArg Host.Outcome.next (State.takeRequest_keepsPorts hs rfl (by simp) (decide := decideRestart)
    (t := s.frameTaken h.port) rfl rfl)

end

/-- Settles O48: the refusals, the data selector by selector, the codes, and the three requests that are no STATUS READ. -/
theorem statusReadSnapshotClearEventsAndRestart : Obligations.StatusReadSnapshotClearEventsAndRestart := by
  refine ⟨?statusRead, ⟨rfl, rfl, rfl, rfl, rfl, rfl, rfl, rfl, rfl, rfl, rfl, rfl⟩, fun h a b s hs => ⟨exec_snapshot hs,
    ⟨EventSet.ofWords a b, EventSet.ofWords_bit a b, exec_clearEvents hs a b⟩, exec_restart hs⟩⟩
  intro h selector item inst first count s hs room refused answers taken run
  have reads {data : List Word} (read : (s.frameTaken h.port).statusData selector item inst first count = some data) :
      answers data := exec_statusRead_some hs room read
  have refuses (read : (s.frameTaken h.port).statusData selector item inst first count = none) : refused :=
    exec_statusRead_none hs room read
  refine ⟨fun _ => reads, refuses, fun unassigned => refuses (State.statusData_unassigned unassigned),
    fun noInput input => refuses (State.statusData_noInput noInput input),
    fun channels out => refuses (State.statusData_noChannels out channels), ?noImage, ?noSettings, ?events, ?source,
    ?channels, ?image, ?general, ?settings, ?link, ?live, ?playback, ?budget, ?outputs, ?lamp, ?memory⟩
  case noImage =>
    rintro rfl out
    exact refuses (congrArg (Option.map _) (rangeOf?_eq_none out))
  case noSettings =>
    rintro rfl bad
    exact refuses (State.readSettings_none bad)
  case events =>
    rintro rfl
    exact reads rfl
  case source =>
    rintro i rfl named
    refine reads ((State.statusData_input named).2.trans ?_)
    rw [State.frameTaken_source]
    rfl
  case channels =>
    rintro rfl inside
    refine reads ((State.statusData_channels inside).trans ?_)
    rw [funext (Playback.channelWords_eq _)]
    rfl
  case image =>
    rintro rfl inside
    exact reads (State.statusData_image inside)
  case general =>
    rintro rfl
    exact reads (congrArg some (State.readGeneral_eq _))
  case settings =>
    rintro rfl
    refine ⟨fun i named => ?_, fun k => ?_, ?_, ?_, ?_, ?_⟩
    · obtain ⟨enabled, permit, auto, loss⟩ := State.readSettings_input (s := s.frameTaken h.port) (first := first)
        (count := count) named
      refine ⟨?_, ?_, ?_, ?_, ?_⟩
      · rintro rfl
        exact reads enabled
      · rintro rfl
        exact reads permit
      · rintro rfl
        exact reads auto
      · rintro rfl
        exact reads loss
      · rintro rfl inside
        obtain ⟨length, bits⟩ := maskWords_range s.mgmt.inputs[i].accept (inside.2.2.2.trans_eq (Nat.zero_add 64))
        exact ⟨_, reads (State.readSettings_accept named inside), length, bits⟩
    · rintro rfl named
      exact reads (State.readSettings_link (first := first) (count := count) named)
    · rintro rfl inside
      exact reads (State.readSettings_budgets (inst := inst) inside)
    · rintro rfl
      exact reads rfl
    · rintro rfl
      exact reads rfl
    · rintro rfl
      exact reads rfl
  case link =>
    rintro i rfl named
    exact reads (State.statusData_input named).1
  case live =>
    rintro i rfl named inside
    refine reads ((State.statusData_live named inside).trans ?_)
    rw [State.frameTaken_live, funext liveWords_eq]
    rfl
  case playback =>
    rintro rfl
    refine reads (congrArg some ((Playback.words_eq _).trans ?_))
    rw [funext fun n => Slot.words_eq ((s.frameTaken h.port).playback.slots[n])]
    rfl
  case budget =>
    rintro rfl
    exact reads rfl
  case outputs =>
    rintro rfl
    exact reads (congrArg some (State.readOutputs_eq _))
  case lamp =>
    rintro rfl
    exact reads (congrArg some (Lamp.words_eq _))
  case memory =>
    rintro rfl
    exact reads rfl

end Sys2Proof.Machine
end

