-- ==== Sys2Proof/Proofs/TableRequests.lean ====
section
/-! EDIT, UPDATE, DISCARD and READ TABLE (R123–R127): each decision by the first of its tests that fails, then the whole state. -/

namespace Sys2Proof.Machine

/-! ### What an EDIT tests (R123) -/

theorem TableName.of?_eq_none {w : Word} (h : 5 ≤ w.toNat) : TableName.of? w = none := by
  have other {n : Word} (hn : n.toNat < 5) : w ≠ n := by
    rintro rfl
    omega
  rw [TableName.of?, if_neg (other (by decide)), if_neg (other (by decide)), if_neg (other (by decide)),
    if_neg (other (by decide)), if_neg (other (by decide))]

section
variable {table first : Word} {ws : List Word} {t : TableName} {s : State} (p : PortIx)

theorem decideEdit_noTable (none : TableName.of? table = none) : decideEdit p (table :: first :: ws) s = refuse s .badArgument := by
  simp only [decideEdit, none]

theorem decideEdit_loading (named : TableName.of? table = some t) (whole : t.wholeElements ws = true)
    (loading : s.tables.stage = .loading) : decideEdit p (table :: first :: ws) s = refuse s .busy := by
  simp only [decideEdit, named, whole, loading, Bool.not_true, Bool.false_eq_true, if_false, if_true]

/-- Out of LOADING, the other tests all refuse BAD-ARGUMENT. -/
theorem decideEdit_bad (named : TableName.of? table = some t) (calm : s.tables.stage ≠ .loading)
    (bad : t.holds first.toNat (ws.length / t.width) = false ∨ (t.isProduction = true ∧ s.tables.liveBank = none) ∨
      editValues? t ws = none) : decideEdit p (table :: first :: ws) s = refuse s .badArgument := by
  simp only [decideEdit, named, calm, if_false]
  split
  · rfl
  · split
    · rfl
    · next held =>
      split
      · rfl
      · next allowed =>
        obtain outside | ⟨production, noBank⟩ | none := bad
        · simp [outside] at held
        · simp [production, noBank] at allowed
        · rw [none]

theorem decideEdit_done {v : EditValues} (named : TableName.of? table = some t) (whole : t.wholeElements ws = true)
    (calm : s.tables.stage ≠ .loading) (held : t.holds first.toNat (ws.length / t.width) = true)
    (allowed : t.isProduction = true → s.tables.liveBank ≠ none) (values : editValues? t ws = some v) :
    decideEdit p (table :: first :: ws) s = done { s with tables := { s.tables with
      staging := s.tables.staging.write t (first.toNat - t.base) v, stage := .edited } } := by
  have free : (t.isProduction && s.tables.liveBank.isNone) = false := by
    cases production : t.isProduction with
    | false => rfl
    | true => simpa [Option.isSome_iff_ne_none] using allowed production
  simp only [decideEdit, named, whole, calm, held, free, values, Bool.not_true, Bool.false_eq_true, if_false]

end

/-! ### The whole state after an EDIT -/

section
variable {s : State} {h : FrameHead} (hs : s.Serves h) {table first : Word} {ws : List Word} (few : ws.length ≤ 125)
include hs few

theorem exec_edit_refused {r : Result} (hd : decideEdit h.port (table :: first :: ws) (s.frameTaken h.port) =
    refuse (s.frameTaken h.port) r) :
    exec (.edit h (table :: first :: ws)) s = .next { s with ports := s.portsAfter h.port (replyTo h 0x0A r) } :=
  exec_refused hs hd rfl rfl (by simp only [List.length_cons]; omega)

theorem exec_edit_done {t : TableName} {v : EditValues} {staging : TableSet} (named : TableName.of? table = some t)
    (some : 1 ≤ ws.length) (whole : ws.length % t.width = 0) (calm : s.tables.stage ≠ .loading)
    (held : t.base ≤ first.toNat ∧ first.toNat + ws.length / t.width ≤ t.base + t.size)
    (allowed : t.isProduction = true → s.tables.liveBank ≠ none) (values : editValues? t ws = .some v)
    (written : s.tables.staging.write t (first.toNat - t.base) v = staging) :
    exec (.edit h (table :: first :: ws)) s = .next { s with
      ports := s.portsAfter h.port (replyTo h 0x0A .done)
      tables := { s.tables with staging := staging, stage := .edited } } :=
  written ▸ exec_done hs (decideEdit_done (s := s.frameTaken h.port) h.port named (decide_eq_true ⟨some, few, whole⟩) calm
    (decide_eq_true held) allowed values) rfl rfl rfl (by simp only [List.length_cons]; omega)

theorem exec_edit_bad {t : TableName} (named : TableName.of? table = some t) (calm : s.tables.stage ≠ .loading)
    (bad : ¬(t.base ≤ first.toNat ∧ first.toNat + ws.length / t.width ≤ t.base + t.size) ∨
      (t.isProduction = true ∧ s.tables.liveBank = none) ∨ editValues? t ws = none) :
    exec (.edit h (table :: first :: ws)) s = .next { s with ports := s.portsAfter h.port (replyTo h 0x0A .badArgument) } :=
  exec_edit_refused hs few (decideEdit_bad (s := s.frameTaken h.port) h.port named calm (bad.imp_left decide_eq_false))

end

/-! ### The tables as a request names them -/

theorem TableName.patch_of? {w : Word} (patch : w = 0 ∨ w = 2) :
    ∃ t, TableName.of? w = some t ∧ (t = .prodPatch ∨ t = .housePatch) := by
  rcases patch with rfl | rfl
  · exact ⟨.prodPatch, rfl, .inl rfl⟩
  · exact ⟨.housePatch, rfl, .inr rfl⟩

theorem TableName.records_of? {w : Word} (records : w = 1 ∨ w = 3) :
    ∃ t, TableName.of? w = some t ∧ (t = .prodCircuits ∨ t = .houseCircuits) := by
  rcases records with rfl | rfl
  · exact ⟨.prodCircuits, rfl, .inl rfl⟩
  · exact ⟨.houseCircuits, rfl, .inr rfl⟩

theorem TableName.production_of? {w : Word} (production : w = 0 ∨ w = 1) :
    ∃ t, TableName.of? w = some t ∧ t.isProduction = true := by
  rcases production with rfl | rfl
  · exact ⟨.prodPatch, rfl, rfl⟩
  · exact ⟨.prodCircuits, rfl, rfl⟩

theorem TableName.patch_shape {t : TableName} (patch : t = .prodPatch ∨ t = .housePatch) :
    t.width = 2 ∧ t.base = 1 ∧ t.base + t.size = 769 ∧ ∀ ws, editValues? t ws = (patchRun? ws).map .patch := by
  rcases patch with rfl | rfl <;> exact ⟨rfl, rfl, rfl, fun _ => rfl⟩

theorem TableName.records_shape {t : TableName} (records : t = .prodCircuits ∨ t = .houseCircuits) :
    t.width = 4 ∧ t.base = 1 ∧ t.base + t.size = 769 ∧ ∀ ws, editValues? t ws = (recordRun? ws).map .circuits := by
  rcases records with rfl | rfl <;> exact ⟨rfl, rfl, rfl, fun _ => rfl⟩

theorem exec_edit_misplaced {s : State} {h : FrameHead} (hs : s.Serves h) {table first : Word} {ws : List Word}
    (few : ws.length ≤ 125) {t : TableName} (named : TableName.of? table = some t) (calm : s.tables.stage ≠ .loading)
    (base : t.base = 1) (size : t.base + t.size = 769)
    (bad : first = 0 ∨ 769 < first.toNat + ws.length / t.width ∨ editValues? t ws = none) :
    exec (.edit h (table :: first :: ws)) s = .next { s with ports := s.portsAfter h.port (replyTo h 0x0A .badArgument) } := by
  refine exec_edit_bad hs few named calm ?_
  obtain rfl | beyond | noValues := bad
  · exact .inl (by simp [base])
  · exact .inl (by omega)
  · exact .inr (.inr noValues)

/-- Settles O24: the five tables one by one, then the refusals in order. -/
theorem anEditWritesStagingOrIsRefused : Obligations.AnEditWritesStagingOrIsRefused := by
  refine ⟨fun h first ws s hs some few calm => ?_, fun h table first ws s hs some few => ?_⟩
  · intro edited
    refine ⟨fun lo es values whole hi => ?_, fun lo rs values whole hi => ?_, fun hi => ?_⟩
    · have edits {t : TableName} {table : Word} {staging : TableSet} (named : TableName.of? table = .some t)
          (patch : t = .prodPatch ∨ t = .housePatch) (allowed : t.isProduction = true → s.tables.liveBank ≠ none)
          (written : s.tables.staging.write t (first.toNat - 1) (.patch es) = staging) : edited table staging := by
        obtain ⟨width, base, size, decoded⟩ := TableName.patch_shape patch
        exact exec_edit_done hs few named some (by rw [width, whole]) calm (by rw [size, width, base]; exact ⟨lo, hi⟩) allowed
          (by rw [decoded, values, Option.map_some]) (by rw [base, written])
      exact ⟨fun live => edits rfl (.inl rfl) (fun _ => live) (by rw [TableSet.write]),
        edits rfl (.inr rfl) nofun (by rw [TableSet.write])⟩
    · have edits {t : TableName} {table : Word} {staging : TableSet} (named : TableName.of? table = .some t)
          (records : t = .prodCircuits ∨ t = .houseCircuits) (allowed : t.isProduction = true → s.tables.liveBank ≠ none)
          (written : s.tables.staging.write t (first.toNat - 1) (.circuits rs) = staging) : edited table staging := by
        obtain ⟨width, base, size, decoded⟩ := TableName.records_shape records
        exact exec_edit_done hs few named some (by rw [width, whole]) calm (by rw [size, width, base]; exact ⟨lo, hi⟩) allowed
          (by rw [decoded, values, Option.map_some]) (by rw [base, written])
      exact ⟨fun live => edits rfl (.inl rfl) (fun _ => live) (by rw [TableSet.write]),
        edits rfl (.inr rfl) nofun (by rw [TableSet.write])⟩
    · exact exec_edit_done hs few (t := .curves) rfl some (Nat.mod_one _) calm
        ⟨Nat.zero_le _, by simpa [TableName.width, TableName.base, TableName.size] using hi⟩ nofun rfl
        (by simp only [TableSet.write, TableName.base, Nat.sub_zero])
  · intro refused
    refine ⟨fun unassigned => ?_, fun t named whole loading => ?_, fun calm => ⟨fun patch whole bad => ?_,
      fun records whole bad => ?_, fun curves beyond => ?_, fun production noBank => ?_⟩⟩
    · exact exec_edit_refused hs few (decideEdit_noTable h.port (TableName.of?_eq_none unassigned))
    · exact exec_edit_refused hs few
        (decideEdit_loading (s := s.frameTaken h.port) h.port named (decide_eq_true ⟨some, few, whole⟩) loading)
    · obtain ⟨t, named, patch⟩ := TableName.patch_of? patch
      obtain ⟨width, base, size, decoded⟩ := TableName.patch_shape patch
      exact exec_edit_misplaced hs few named calm base size (by rwa [width, decoded, Option.map_eq_none_iff])
    · obtain ⟨t, named, records⟩ := TableName.records_of? records
      obtain ⟨width, base, size, decoded⟩ := TableName.records_shape records
      exact exec_edit_misplaced hs few named calm base size (by rwa [width, decoded, Option.map_eq_none_iff])
    · subst curves
      refine exec_edit_bad hs few (t := .curves) rfl calm (.inl fun held => ?_)
      have within := held.2
      simp only [TableName.width, TableName.base, TableName.size, Nat.div_one] at within
      omega
    · obtain ⟨t, named, production⟩ := TableName.production_of? production
      exact exec_edit_bad hs few named calm (.inr (.inl ⟨production, noBank⟩))

/-! ### UPDATE and DISCARD (R124, R126) -/

section
variable {s : State} (p : PortIx)

theorem decideUpdate_done (calm : s.tables.stage ≠ .loading) : decideUpdate p [] s = done s.update := if_neg calm

theorem decideUpdate_loading (loading : s.tables.stage = .loading) : decideUpdate p [] s = refuse s .busy := if_pos loading

theorem decideDiscard_done (calm : s.tables.stage ≠ .loading) :
    decideDiscard p [] s = done { s with tables := { s.tables with staging := s.tables.live, stage := .clean } } := if_neg calm

theorem decideDiscard_loading (loading : s.tables.stage = .loading) : decideDiscard p [] s = refuse s .busy := if_pos loading

end

/-- Settles O25: each request by the one test of its decision. -/
theorem updateAndDiscardCopyWholeTables : Obligations.UpdateAndDiscardCopyWholeTables :=
  ⟨fun h _ hs => ⟨fun calm => exec_done hs (decideUpdate_done h.port calm), fun loading =>
      exec_refused hs (decideUpdate_loading h.port loading)⟩,
    fun h _ hs => ⟨fun calm => exec_done hs (decideDiscard_done h.port calm), fun loading =>
      exec_refused hs (decideDiscard_loading h.port loading)⟩⟩

/-! ### What a READ TABLE tests (R127) -/

section
variable {set table first count : Word} {t : TableName} {v : TableSet} {s : State} (p : PortIx)

theorem State.tableSet?_eq_none (beyond : 1 < set.toNat) : s.tableSet? set = none := by
  have zero : set ≠ 0 := by rintro rfl; simp at beyond
  have one : set ≠ 1 := by rintro rfl; simp at beyond
  rw [State.tableSet?, if_neg zero, if_neg one]

theorem decideReadTable_reads (chosen : s.tableSet? set = some v) (named : TableName.of? table = some t) (one : 1 ≤ count.toNat)
    (held : t.base ≤ first.toNat ∧ first.toNat + count.toNat ≤ t.base + t.size) (fits : count.toNat * t.width ≤ 128) :
    decideReadTable p [set, table, first, count] s =
      ⟨s, .done, v.read t (first.toNat - t.base) count.toNat, false⟩ := by
  simp only [decideReadTable, chosen, named]
  exact if_pos ⟨one, decide_eq_true held, fits⟩

theorem decideReadTable_unassigned (unassigned : s.tableSet? set = none ∨ TableName.of? table = none) :
    decideReadTable p [set, table, first, count] s = refuse s .badArgument := by
  simp only [decideReadTable]
  split
  · next chosen named =>
    obtain none | none := unassigned
    · rw [none] at chosen; contradiction
    · rw [none] at named; contradiction
  · rfl

theorem decideReadTable_misplaced (bad : ∀ t, TableName.of? table = some t → ¬(1 ≤ count.toNat ∧
      (t.base ≤ first.toNat ∧ first.toNat + count.toNat ≤ t.base + t.size) ∧ count.toNat * t.width ≤ 128)) :
    decideReadTable p [set, table, first, count] s = refuse s .badArgument := by
  simp only [decideReadTable]
  split
  · next chosen named => exact if_neg fun ⟨one, held, fits⟩ => bad _ named ⟨one, of_decide_eq_true held, fits⟩
  · rfl

end

/-! ### The whole state after a READ TABLE -/

section
variable {s : State} {h : FrameHead} (hs : s.Serves h) {table first count : Word}
include hs

theorem exec_readTable_reads {t : TableName} {words : TableSet → List Word} (named : TableName.of? table = some t)
    (one : 1 ≤ count.toNat) (held : t.base ≤ first.toNat ∧ first.toNat + count.toNat ≤ t.base + t.size)
    (fits : count.toNat * t.width ≤ 128) (reads : ∀ v : TableSet, v.read t (first.toNat - t.base) count.toNat = words v) :
    exec (.readTable h [0, table, first, count]) s = .next { s with
        ports := s.portsAfter h.port { replyTo h 0x0D .done with data := words s.tables.live } } ∧
      exec (.readTable h [1, table, first, count]) s = .next { s with
        ports := s.portsAfter h.port { replyTo h 0x0D .done with data := words s.tables.staging } } := by
  have of {set : Word} {v : TableSet} (chosen : s.tableSet? set = some v) :
      exec (.readTable h [set, table, first, count]) s = .next { s with
        ports := s.portsAfter h.port { replyTo h 0x0D .done with data := words v } } := by
    rw [← reads v]
    exact congrArg Host.Outcome.next (State.takeRequest_keepsPorts hs rfl (by simp) (t := s.frameTaken h.port)
      (decideReadTable_reads (s := s.frameTaken h.port) h.port chosen named one held fits) rfl)
  exact ⟨of rfl, of rfl⟩

theorem exec_readTable_refused {set : Word} (hd : decideReadTable h.port [set, table, first, count] (s.frameTaken h.port) =
    refuse (s.frameTaken h.port) .badArgument) :
    exec (.readTable h [set, table, first, count]) s = .next { s with ports := s.portsAfter h.port (replyTo h 0x0D .badArgument) } :=
  exec_refused hs hd

end

/-- A run of a table indexed from 1 to 768 that leaves the table, or whose elements fill more than 128 words. -/
theorem exec_readTable_misplaced {s : State} {h : FrameHead} (hs : s.Serves h) {set table first count : Word} {t : TableName}
    (named : TableName.of? table = some t) (base : t.base = 1) (size : t.base + t.size = 769)
    (bad : first = 0 ∨ 769 < first.toNat + count.toNat ∨ 128 < count.toNat * t.width) :
    exec (.readTable h [set, table, first, count]) s = .next { s with ports := s.portsAfter h.port (replyTo h 0x0D .badArgument) } := by
  refine exec_readTable_refused hs (decideReadTable_misplaced h.port fun u named' ⟨_, ⟨lo, hi⟩, fits⟩ => ?_)
  obtain rfl := Option.some.inj (named.symm.trans named')
  obtain rfl | beyond | many := bad
  · simp [base] at lo
  · omega
  · omega

/-- Settles O26: the five tables one by one, then the refusals. -/
theorem readTableReturnsItsRun : Obligations.ReadTableReturnsItsRun := by
  refine ⟨fun h first count s hs one => ?_, fun h set table first count s hs => ?_⟩
  · intro reads
    refine ⟨fun lo few hi => ⟨?prod, ?house⟩, fun lo few hi => ⟨?prodRecords, ?houseRecords⟩, fun hi => ?curves⟩
    case prod =>
      exact exec_readTable_reads hs (t := .prodPatch) rfl one ⟨lo, hi⟩ (by simp only [TableName.width]; omega) fun _ => rfl
    case house =>
      exact exec_readTable_reads hs (t := .housePatch) rfl one ⟨lo, hi⟩ (by simp only [TableName.width]; omega) fun _ => rfl
    case prodRecords =>
      exact exec_readTable_reads hs (t := .prodCircuits) rfl one ⟨lo, hi⟩ (by simp only [TableName.width]; omega) fun _ => rfl
    case houseRecords =>
      exact exec_readTable_reads hs (t := .houseCircuits) rfl one ⟨lo, hi⟩ (by simp only [TableName.width]; omega) fun _ => rfl
    case curves =>
      exact exec_readTable_reads hs (t := .curves) rfl one
        ⟨Nat.zero_le _, by simpa only [TableName.base, TableName.size, Nat.zero_add] using hi⟩
        (by simp only [TableName.width]; omega) fun _ => rfl
  · intro refused
    refine ⟨fun bad => ?unassigned, fun patch bad => ?patch, fun records bad => ?records, fun curves beyond => ?curves⟩
    case unassigned =>
      obtain beyond | beyond | rfl := bad
      · exact exec_readTable_refused hs (decideReadTable_unassigned h.port (.inl (State.tableSet?_eq_none beyond)))
      · exact exec_readTable_refused hs (decideReadTable_unassigned h.port (.inr (TableName.of?_eq_none beyond)))
      · exact exec_readTable_refused hs (decideReadTable_misplaced h.port fun _ _ ⟨one, _⟩ => absurd one (by decide))
    case patch =>
      obtain ⟨t, named, patch⟩ := TableName.patch_of? patch
      obtain ⟨width, base, size, -⟩ := TableName.patch_shape patch
      exact exec_readTable_misplaced hs named base size (bad.imp_right (Or.imp_right fun many => by rw [width]; omega))
    case records =>
      obtain ⟨t, named, records⟩ := TableName.records_of? records
      obtain ⟨width, base, size, -⟩ := TableName.records_shape records
      exact exec_readTable_misplaced hs named base size (bad.imp_right (Or.imp_right fun many => by rw [width]; omega))
    case curves =>
      subst curves
      refine exec_readTable_refused hs (decideReadTable_misplaced h.port fun u named ⟨_, ⟨_, hi⟩, _⟩ => ?_)
      obtain rfl : TableName.curves = u := Option.some.inj named
      simp only [TableName.base, TableName.size] at hi
      omega

end Sys2Proof.Machine
end

