-- ==== Sys2Proof/Proofs/OutputLinks.lean ====
section
/-! The output links (R161–R172): a frame start, an expiry of a frame timer state by state, the completion of a frame and the
hold control, each as the whole port, then the state it makes. -/

namespace Sys2Proof.Machine

/-! ### A frame start (R163–R167) -/

/-- The settings of a link at a frame start. -/
def OutPort.settled (o : OutPort) : LinkSettings := if o.pendingFlag then o.pending else o.current

namespace OutPort

variable {o : OutPort} {k : LinkIx} {t : TableSet} {l : Levels} {holdreq loading : Bool}

theorem applyPending_eq (o : OutPort) : o.applyPending = { o with current := o.settled, pendingFlag := false } := by
  obtain ⟨_, _, _, _, _, _, flag⟩ := o
  cases flag <;> rfl

theorem frameStart_first (start : o.position = 0 ∨ o.forced = true) : o.frameStart k t l = { o with
    current := o.settled, pendingFlag := false, forced := false, position := 1
    frame := some (cycleStartFrame o.settled.resolution (t.modeRecord k)) } := by
  rw [frameStart, if_pos start, applyPending_eq]

theorem frameStart_next (moved : o.position ≠ 0) (unforced : o.forced = false) : o.frameStart k t l = { o with
    position := if o.position = 24 then 0 else o.position + 1
    frame := some (outputLevelFrame o.position o.current.resolution (l.linkLevels k)) } :=
  if_neg (by simp [moved, unforced])

/-! ### What an expiry makes of a port, by its link state (R168, R175) -/

theorem turnsOff_eq_false (stays : o.pendingFlag = true → o.pending.enabled = true) : o.turnsOff = false := by
  cases flag : o.pendingFlag with
  | false => rw [turnsOff, flag, Bool.false_and]
  | true => rw [turnsOff, stays flag, Bool.not_true, Bool.and_false]

theorem turnsOff_eq_true (flag : o.pendingFlag = true) (off : o.pending.enabled = false) : o.turnsOff = true := by
  rw [turnsOff, flag, off]
  rfl

theorem expire_running (running : o.state = .running) (stays : o.pendingFlag = true → o.pending.enabled = true) :
    o.expire k t l holdreq loading = o.frameStart k t l := by
  simp only [expire, running, turnsOff_eq_false stays, Bool.false_eq_true, if_false]

theorem expire_turnsOff (on : o.state = .running ∨ o.state = .held) (flag : o.pendingFlag = true)
    (off : o.pending.enabled = false) : o.expire k t l holdreq loading = o.applyPending.goOff := by
  obtain state | state := on <;> simp only [expire, state, turnsOff_eq_true flag off, if_true]

theorem expire_held (held : o.state = .held) (stays : o.pendingFlag = true → o.pending.enabled = true) :
    o.expire k t l holdreq loading = if holdreq then o else frameStart k t l { o with state := .running } := by
  simp only [expire, held, turnsOff_eq_false stays, Bool.false_eq_true, if_false]

/-- An OFF link with pending settings, and a WAITING one after the start-up load, comes up by its settled settings. -/
theorem expire_comesUp (up : o.state = .off ∧ o.pendingFlag = true ∨ o.state = .waiting ∧ loading = false)
    (on : o.settled.enabled = true) : o.expire k t l holdreq loading = o.applyPending.comeUp k t l holdreq := by
  obtain ⟨state, flag⟩ | ⟨state, idle⟩ := up
  · simp only [expire, state, flag, applyPending_eq, on, if_true]
  · simp only [expire, state, idle, applyPending_eq, on, Bool.false_eq_true, if_false, if_true]

theorem expire_off_stays (state : o.state = .off) (stays : o.pendingFlag = false) :
    o.expire k t l holdreq loading = o := by
  simp only [expire, state, stays, Bool.false_eq_true, if_false]

theorem expire_off_settles (state : o.state = .off) (flag : o.pendingFlag = true) (off : o.pending.enabled = false) :
    o.expire k t l holdreq loading = o.applyPending := by
  have unset : o.settled.enabled = false := by rw [settled, flag, if_pos rfl, off]
  simp only [expire, state, flag, applyPending_eq, unset, Bool.false_eq_true, if_false, if_true]

theorem expire_waiting_stays (state : o.state = .waiting) : o.expire k t l holdreq true = o := by
  simp only [expire, state, if_true]

theorem expire_waiting_off (state : o.state = .waiting) (off : o.settled.enabled = false) :
    o.expire k t l holdreq false = o.applyPending.goOff := by
  simp only [expire, state, applyPending_eq, off, Bool.false_eq_true, if_false]

/-- A link that comes up without HOLDREQ runs from position 0 with a frame start. -/
theorem applyPending_comeUp_running : o.applyPending.comeUp k t l false = { o with
    current := o.settled, pendingFlag := false, state := .running, position := 1, forced := false
    frame := some (cycleStartFrame o.settled.resolution (t.modeRecord k)) } := by
  rw [comeUp, if_neg Bool.false_ne_true, frameStart_first (.inl rfl), applyPending_eq]
  rfl

end OutPort

/-! ### The state after an expiry -/

theorem exec_outputFrameTimer {s : State} (running : s.held = false) (k : LinkIx) {o : OutPort}
    (expires : s.outs[k].expire k s.tables.live s.levels s.hold.holdreq (s.bank.state == .starting) = o) :
    exec (.outputFrameTimer k) s = .next { s with
      outs := s.outs.set k o, timers := { s.timers with outs := s.timers.outs.set k twentyMs } } := by
  subst expires
  exact congrArg Host.Outcome.next (State.whenRunning_running _ _ running)

/-- Settles O43: the port after each expiry by the state of its link. -/
theorem anOutputFrameTimerExpires : Obligations.AnOutputFrameTimerExpires := by
  refine ⟨fun k s running state stays => ?_, fun k s running => ?_⟩
  · intro o current sent
    refine ⟨fun start => ?_, fun moved unforced => ?_⟩
    · exact exec_outputFrameTimer running k ((OutPort.expire_running state stays).trans (OutPort.frameStart_first start))
    · exact exec_outputFrameTimer running k ((OutPort.expire_running state stays).trans
        (OutPort.frameStart_next moved unforced))
  · intro o current applied goes first
    have apply : o.applyPending = applied := o.applyPending_eq
    have calm (busy : s.bank.state ≠ .starting) : (s.bank.state == .starting) = false := beq_eq_false_iff_ne.2 busy
    refine ⟨fun on flag off => ?_, fun state flag off => ?_, fun state flag => ?_, fun state loading => ?_,
      fun state idle off => ?_, fun up on => ?_, fun state stays => ⟨fun hold => ?_, fun free forced => ?_⟩⟩
    · exact exec_outputFrameTimer running k ((OutPort.expire_turnsOff on flag off).trans (congrArg OutPort.goOff apply))
    · exact exec_outputFrameTimer running k ((OutPort.expire_off_settles state flag off).trans apply)
    · exact exec_outputFrameTimer running k (OutPort.expire_off_stays state flag)
    · refine exec_outputFrameTimer running k ?_
      rw [loading]
      exact OutPort.expire_waiting_stays state
    · refine exec_outputFrameTimer running k ?_
      rw [calm idle]
      exact (OutPort.expire_waiting_off state off).trans (congrArg OutPort.goOff apply)
    · have comesUp := OutPort.expire_comesUp (k := k) (t := s.tables.live) (l := s.levels) (holdreq := s.hold.holdreq)
        (up.imp_right (And.imp_right calm)) on
      refine ⟨fun hold => exec_outputFrameTimer running k (comesUp.trans ?_), fun free =>
        exec_outputFrameTimer running k (comesUp.trans ?_)⟩
      · rw [hold, OutPort.comeUp, if_pos rfl, apply]
        rfl
      · rw [free]
        exact OutPort.applyPending_comeUp_running
    · refine exec_outputFrameTimer running k ((OutPort.expire_held state stays).trans ?_)
      rw [hold, if_pos rfl]
    · refine exec_outputFrameTimer running k ((OutPort.expire_held state stays).trans ?_)
      rw [free, if_neg Bool.false_ne_true]
      exact OutPort.frameStart_first (.inr forced)

/-! ### HOLDACK after a change of the links (R169) -/

section
variable {s : State}

theorem OutPort.drives_iff (o : OutPort) : o.drives = true ↔ o.state = .running ∨ o.state = .stopping := by
  simp only [OutPort.drives, Bool.or_eq_true, beq_iff_eq]

theorem State.settleHold_driven {k : LinkIx} (drives : s.outs[k].drives = true) : s.settleHold = s := by
  have driven : s.anyDrives = true := by
    rw [← Bool.not_eq_false]
    exact fun quiet => Bool.noConfusion (((s.anyDrives_iff.1 quiet) k).symm.trans drives)
  rw [State.settleHold, driven]
  simp

theorem State.settleHold_quiet (holdreq : s.hold.holdreq = true) (unacked : s.hold.holdack = false)
    (quiet : ∀ k : LinkIx, s.outs[k].drives = false) :
    s.settleHold = State.raise .holdChange { s with hold := { s.hold with holdack := true } } := by
  simp only [State.settleHold, holdreq, unacked, s.anyDrives_iff.2 quiet, Bool.not_false, Bool.and_self, if_true]

end

/-! ### The completion of a frame (R162, R171) -/

theorem exec_outputFrameComplete {s : State} (running : s.held = false) {k : LinkIx} {ws : List Word}
    (flight : s.outs[k].frame = some ws) {o : OutPort} (completes : s.outs[k].completeFrame = o) :
    exec (.outputFrameComplete k) s = .next (State.settleHold { s with outs := s.outs.set k o }) := by
  subst completes
  refine congrArg Host.Outcome.next ((State.whenRunning_running _ _ running).trans (if_pos ?_))
  rw [flight]
  rfl

/-- Settles O44: a RUNNING link still drives its line; a STOPPING one goes HELD, and the hold control looks at the others. -/
theorem aFrameCompletes : Obligations.AFrameCompletes := by
  intro k ws s running flight held
  refine ⟨fun state => ?_, fun state holdreq unacked => ⟨fun ⟨j, other, drives⟩ => ?_, fun quiet => ?_⟩⟩
  · refine (exec_outputFrameComplete running flight (if_neg (by rw [state]; decide))).trans
      (congrArg Host.Outcome.next (State.settleHold_driven (k := k) ?_))
    rw [OutPort.drives_iff, show (s.outs.set k { s.outs[k] with frame := none })[k] = { s.outs[k] with frame := none } from
      Vector.getElem_set_self ..]
    exact .inl state
  · refine (exec_outputFrameComplete running flight (if_pos state)).trans
      (congrArg Host.Outcome.next (State.settleHold_driven (k := j) ?_))
    rw [OutPort.drives_iff]
    rwa [show (s.outs.set k s.outs[k].goHeld)[j] = s.outs[j] from by rw [set_get, if_neg other]]
  · refine (exec_outputFrameComplete running flight (if_pos state)).trans
      (congrArg Host.Outcome.next (State.settleHold_quiet holdreq unacked fun j => ?_))
    rw [← Bool.not_eq_true, OutPort.drives_iff]
    rw [show (s.outs.set k s.outs[k].goHeld)[j] = if j = k then s.outs[k].goHeld else s.outs[j] from by rw [set_get]]
    by_cases same : j = k
    · rw [if_pos same]
      simp [OutPort.goHeld]
    · rw [if_neg same]
      exact not_or.2 (quiet j same)

/-! ### HOLDREQ (R170, R172) -/

theorem OutPort.onHold_eq (o : OutPort) : o.onHold =
    if o.state = .running then (if o.frame.isSome then { o with state := .stopping } else o.goHeld) else o := by
  obtain ⟨state, frame, _, _, _, _, _⟩ := o
  cases state <;> cases frame <;> rfl

theorem OutPort.onHold_not_running (o : OutPort) : o.onHold.state ≠ .running := by
  rw [OutPort.onHold_eq]
  split
  · split <;> simp [OutPort.goHeld]
  · assumption

theorem exec_holdreqAsserted {s : State} (running : s.held = false) (unasked : s.hold.line = false) :
    exec .holdreqAsserted s = .next (State.settleHold
      { s with outs := tab fun k => s.outs[k].onHold, hold := { s.hold with line := true, holdreq := true } }) :=
  congrArg Host.Outcome.next ((if_neg (Bool.eq_false_iff.1 unasked)).trans (if_neg (Bool.eq_false_iff.1 running)))

theorem exec_holdreqDeasserted {s : State} (running : s.held = false) (asked : s.hold.line = true) :
    exec .holdreqDeasserted s = .next (State.raiseIf s.hold.holdack .holdChange
      { s with outs := tab fun k => s.outs[k].onRelease, hold := ⟨false, false, false⟩ }) :=
  congrArg Host.Outcome.next ((if_neg (by rw [asked]; decide)).trans (if_neg (Bool.eq_false_iff.1 running)))

/-- Settles O45: every link by its own state, then the hold control. -/
theorem holdreqStopsAndFreesTheLinks : Obligations.HoldreqStopsAndFreesTheLinks := by
  refine ⟨fun s running hold => ?_, fun s running asked => ?_⟩
  · intro outs
    have links : (tab fun k => s.outs[k].onHold) = outs := congrArg tab (funext fun k => s.outs[k].onHold_eq)
    have asserted := exec_holdreqAsserted running (by rw [hold])
    rw [links, hold] at asserted
    have drives_iff (k : LinkIx) : outs[k].drives = true ↔ outs[k].state = .stopping := by
      rw [OutPort.drives_iff, or_iff_right]
      rw [← links, tab_get]
      exact OutPort.onHold_not_running _
    constructor
    case left => exact fun ⟨k, stopping⟩ => asserted.trans (congrArg Host.Outcome.next
      (State.settleHold_driven (k := k) ((drives_iff k).2 stopping)))
    case right => exact fun quiet => asserted.trans (congrArg Host.Outcome.next
      (State.settleHold_quiet rfl rfl fun k => by rw [← Bool.not_eq_true, drives_iff]; exact quiet k))
  · refine (exec_holdreqDeasserted running asked).trans ?_
    cases s.hold.holdack <;> rfl

end Sys2Proof.Machine
end

