-- ==== Sys2Proof/Proofs/Intervals.lean ====
section
/-! The intervals of an input port (R88–R96) and of the lamp check (R182): what one expiry makes of the port or the check, then
the state it makes. -/

namespace Sys2Proof.Machine

/-! ### What an interval makes of a port, by its source state -/

namespace Port

variable {q : Port} {i : InputSettings}

theorem interval_live_counts (source : q.source = .live) (time : 0 < q.lossTimer) :
    q.interval i = { q with lossTimer := q.lossTimer - 1 } := by
  simp only [interval, source, if_neg (Nat.ne_of_gt time)]

theorem interval_live_runsOut (source : q.source = .live) (out : q.lossTimer = 0) : q.interval i = q.enterHolding i := by
  simp only [interval, source, out, if_true]

theorem interval_holding_counts {H : Nat} (source : q.source = .holding) (lossH : i.lossH = some H) (short : q.hold + 1 < H) :
    q.interval i = { q with hold := q.hold + 1 } := by
  simp only [interval, source, lossH, if_neg (Nat.not_le_of_lt short)]

theorem interval_holding_runsOut {H : Nat} (source : q.source = .holding) (lossH : i.lossH = some H) (due : H ≤ q.hold + 1) :
    q.interval i = enterFading i.lossF { q with hold := q.hold + 1 } := by
  simp only [interval, source, lossH, if_pos due]

theorem interval_fading_counts (source : q.source = .fading) (short : q.fade + 1 < i.lossF) :
    q.interval i = { q with fade := q.fade + 1, factor := fadeFactor (q.fade + 1) i.lossF } := by
  simp only [interval, source, if_neg (Nat.not_le_of_lt short)]

theorem interval_fading_runsOut (source : q.source = .fading) (due : i.lossF ≤ q.fade + 1) :
    q.interval i = lose { q with fade := q.fade + 1 } := by
  simp only [interval, source, if_pos due]

theorem interval_still
    (still : q.source = .disabled ∨ q.source = .absent ∨ q.source = .lost ∨ (q.source = .holding ∧ i.lossH = none)) :
    q.interval i = q := by
  obtain source | source | source | ⟨source, forever⟩ := still
  · simp only [interval, source]
  · simp only [interval, source]
  · simp only [interval, source]
  · simp only [interval, source, forever]

theorem enterFading_fades {F : Nat} (some : F ≠ 0) : q.enterFading F = { q with source := .fading, fade := 0, factor := 65535 } :=
  if_neg some

theorem enterFading_loses : q.enterFading 0 = { q with source := .lost, fade := 0, live := noLevels, factor := 0 } := by
  rw [enterFading, if_pos rfl, lose]

theorem enterHolding_holds (some : i.lossH ≠ .some 0) :
    q.enterHolding i = { q with source := .holding, hold := 0, factor := 65535 } := if_neg some

theorem enterHolding_passes (zero : i.lossH = some 0) :
    q.enterHolding i = enterFading i.lossF { q with source := .holding, hold := 0, factor := 65535 } := if_pos zero

/-! ### When it raises SOURCE-CHANGE (R96) -/

theorem intervalRaises_runsOut (source : q.source = .live) (out : q.lossTimer = 0) : q.intervalRaises i = true := by
  simp [intervalRaises, source, out]

theorem intervalRaises_lost {q' : Port} (interval : q.interval i = q') (some : q.source ≠ .lost) (lost : q'.source = .lost) :
    q.intervalRaises i = true := by
  simp [intervalRaises, interval, some, lost]

theorem intervalRaises_eq_false {q' : Port} (interval : q.interval i = q') (time : q.source = .live → q.lossTimer ≠ 0)
    (kept : q'.source = .lost → q.source = .lost) : q.intervalRaises i = false := by
  rw [← Bool.not_eq_true]
  simp only [intervalRaises, interval, Bool.or_eq_true, Bool.and_eq_true, beq_iff_eq, bne_iff_ne]
  rintro (⟨source, out⟩ | ⟨some, lost⟩)
  · exact time source out
  · exact some (kept lost)

end Port

/-! ### The state after an interval of a port -/

section
variable {p : PortIx} {s : State} {q' : Port} (running : s.held = false)
  (interval : s.ports[p].interval s.mgmt.inputs[p] = q')
include running interval

theorem exec_portInterval_quiet (quiet : s.ports[p].intervalRaises s.mgmt.inputs[p] = false) :
    exec (.portInterval p) s = .next { s with
      ports := s.ports.set p q', timers := { s.timers with ports := s.timers.ports.set p tenMs } } := by
  subst interval
  refine congrArg Host.Outcome.next ((State.whenRunning_running _ _ running).trans ?_)
  simp only [State.portTick, quiet]
  rfl

theorem exec_portInterval_raises (raises : s.ports[p].intervalRaises s.mgmt.inputs[p] = true) :
    exec (.portInterval p) s = .next { s with
      ports := s.ports.set p q', mgmt := s.mgmt.raise (.sourceChange p)
      timers := { s.timers with ports := s.timers.ports.set p tenMs } } := by
  subst interval
  refine congrArg Host.Outcome.next ((State.whenRunning_running _ _ running).trans ?_)
  simp only [State.portTick, raises]
  rfl

end

section
variable {p : PortIx} {s : State}

theorem exec_lossTimerRunsOut (source : s.ports[p].source = .live) (out : s.ports[p].lossTimer = 0) :
    exec (.portInterval p) s = exec (.lossTimerRunsOut p) s := by
  have due : s.ports[p].lossDue = true := by
    rw [Port.lossDue, source, out]
    rfl
  show Host.Outcome.next _ = .next _
  simp only [State.whenRunning, due, if_true]

theorem exec_holdRunsOut {H : Nat} (source : s.ports[p].source = .holding) (lossH : s.mgmt.inputs[p].lossH = some H)
    (counted : H ≤ s.ports[p].hold + 1) : exec (.portInterval p) s = exec (.holdRunsOut p) s := by
  have due : s.ports[p].holdDue s.mgmt.inputs[p] = true := by
    simp only [Port.holdDue, lossH, source, decide_eq_true counted]
    rfl
  show Host.Outcome.next _ = .next _
  simp only [State.whenRunning, due, if_true]

theorem exec_fadeRunsOut (source : s.ports[p].source = .fading) (counted : s.mgmt.inputs[p].lossF ≤ s.ports[p].fade + 1) :
    exec (.portInterval p) s = exec (.fadeRunsOut p) s := by
  have due : s.ports[p].fadeDue s.mgmt.inputs[p] = true := by
    simp only [Port.fadeDue, source, decide_eq_true counted]
    rfl
  show Host.Outcome.next _ = .next _
  simp only [State.whenRunning, due, if_true]

end

/-- Settles O42: the port after each interval by its source state, and whether the interval raises SOURCE-CHANGE. -/
theorem aPortIntervalCountsOrRunsOut : Obligations.APortIntervalCountsOrRunsOut := by
  refine ⟨fun p s running => ?_, fun p s running => ?_⟩
  · intro q i counted
    have counts {q' : Port} (interval : q.interval i = q') (time : q.source = .live → q.lossTimer ≠ 0)
        (kept : q'.source = .lost → q.source = .lost) : counted q' :=
      exec_portInterval_quiet running interval (Port.intervalRaises_eq_false interval time kept)
    refine ⟨fun source time => ?live, fun H source lossH short => ?holding, fun source short => ?fading, fun still => ?still⟩
    case live => exact counts (Port.interval_live_counts source time) (fun _ => Nat.ne_of_gt time) id
    case holding => exact counts (Port.interval_holding_counts source lossH short) (by simp [source]) id
    case fading => exact counts (Port.interval_fading_counts source short) (by simp [source]) id
    case still =>
      refine counts (Port.interval_still still) (fun live => ?_) id
      simp [live] at still
  · intro q i goes lost raised
    have raises {c : Instr} {q' : Port} (due : exec (.portInterval p) s = exec c s) (interval : q.interval i = q')
        (raise : q.intervalRaises i = true) : goes c q' raised := by
      refine ⟨due ▸ exec_portInterval_raises running interval raise, due⟩
    refine ⟨fun source out => ?live, fun H source lossH due => ?holding, fun source due => ?fading⟩
    case live =>
      have interval := Port.interval_live_runsOut (i := i) source out
      have raise := Port.intervalRaises_runsOut (i := i) source out
      have due : exec (.portInterval p) s = exec (.lossTimerRunsOut p) s := exec_lossTimerRunsOut source out
      refine ⟨fun some => raises due (interval.trans (Port.enterHolding_holds some)) raise, fun zero some =>
        raises due ?_ raise, fun zero none => raises due ?_ raise⟩
      · exact (interval.trans (Port.enterHolding_passes zero)).trans (Port.enterFading_fades some)
      · rw [interval, Port.enterHolding_passes zero, none]
        exact Port.enterFading_loses
    case holding =>
      have interval := Port.interval_holding_runsOut source lossH due
      have due : exec (.portInterval p) s = exec (.holdRunsOut p) s := exec_holdRunsOut source lossH due
      refine ⟨fun some => ?fades, fun none => ?loses⟩
      case fades =>
        have interval := interval.trans (Port.enterFading_fades some)
        have quiet := Port.intervalRaises_eq_false interval (fun live => nomatch source.symm.trans live) nofun
        exact ⟨due ▸ exec_portInterval_quiet running interval quiet, due⟩
      case loses =>
        rw [none] at interval
        have interval := interval.trans Port.enterFading_loses
        exact raises due interval (Port.intervalRaises_lost interval (by simp [source]) rfl)
    case fading =>
      have interval := Port.interval_fading_runsOut source due
      exact raises (exec_fadeRunsOut source due) interval (Port.intervalRaises_lost interval (by simp [source]) rfl)

/-! ### The interval of the lamp check (R182) -/

section
variable {s : State}

theorem exec_lampCheckInterval (running : s.held = false) : exec .lampCheckInterval s = .next s.checkTick :=
  congrArg Host.Outcome.next (State.whenRunning_running _ _ running)

theorem State.checkTick_still (still : s.lamp.under = none ∨ (∃ k, s.lamp.params = some k ∧ k.mode = .step)) :
    s.checkTick = s.restartLamp := by
  simp only [State.checkTick, State.restartLamp]
  split
  · next k c params under =>
    obtain idle | ⟨_, stepping, mode⟩ := still
    · rw [idle] at under; contradiction
    · obtain rfl := Option.some.inj (stepping.symm.trans params)
      simp [mode]
  · rfl

variable {k : CheckParams} {c : Circ} (params : s.lamp.params = some k) (under : s.lamp.under = some c) (auto : k.mode = .auto)
include params under auto

theorem State.checkTick_counts (dwells : 2 ≤ s.lamp.remaining) :
    s.checkTick = { s with lamp := ⟨some k, some c, s.lamp.remaining - 1⟩, timers := { s.timers with lamp := tenMs } } := by
  have left : s.lamp.remaining - 1 ≠ 0 := by omega
  simp only [State.checkTick, State.restartLamp, params, under, auto, if_true, if_neg left]

theorem State.checkTick_advances (last : s.lamp.remaining = 1) : s.checkTick = State.advanceCheck k c
    { s with lamp := ⟨some k, some c, 0⟩, timers := { s.timers with lamp := tenMs } } := by
  simp only [State.checkTick, State.restartLamp, params, under, auto, last, if_true, Nat.sub_self]

theorem exec_dwellExpires (running : s.held = false) (last : s.lamp.remaining = 1) :
    exec .dwellExpires s = exec .lampCheckInterval s := by
  have due : s.lamp.dwellDue = true := by simp [Lamp.dwellDue, params, under, auto, last]
  rw [exec_lampCheckInterval running]
  refine congrArg Host.Outcome.next ((State.whenRunning_running _ _ running).trans ?_)
  rw [due, if_pos rfl]

end

/-- Settles O41: the dwell above 1, the dwell at its end by the member above, then STEP and IDLE. -/
theorem theLampCheckIntervalCountsTheDwell : Obligations.TheLampCheckIntervalCountsTheDwell := by
  intro s running timers
  refine ⟨fun k c params under auto => ⟨fun dwells => ?counts, fun last => ⟨?same, fun d above member between => ?next,
    fun noneAbove => ?ends⟩⟩, fun still => ?still⟩
  case counts =>
    exact (exec_lampCheckInterval running).trans (congrArg Host.Outcome.next (State.checkTick_counts params under auto dwells))
  case same => exact exec_dwellExpires params under auto running last
  case next =>
    have found : s.tables.live.memberFrom? k.set (c.val + 1) = some d :=
      TableSet.memberFrom?_eq_some_iff.2 ⟨⟨above, member⟩, fun x before after => between x after before⟩
    rw [exec_dwellExpires params under auto running last, exec_lampCheckInterval running,
      State.checkTick_advances params under auto last]
    exact congrArg Host.Outcome.next (State.advanceCheck_next rfl found)
  case ends =>
    have none : s.tables.live.memberFrom? k.set (c.val + 1) = none := TableSet.memberFrom?_eq_none_iff.2 noneAbove
    rw [exec_dwellExpires params under auto running last, exec_lampCheckInterval running,
      State.checkTick_advances params under auto last]
    exact congrArg Host.Outcome.next (State.advanceCheck_end rfl none)
  case still =>
    exact (exec_lampCheckInterval running).trans (congrArg Host.Outcome.next (State.checkTick_still still))

end Sys2Proof.Machine
end

