-- ==== Sys2Proof/Proofs/Refreshes.lean ====
section
/-! A refresh (R20–R25, R151–R155): the image and the group statuses circuit by circuit and group by group, and the bound that the
scaling of stage 5 keeps. -/

namespace Sys2Proof.Machine

/-! ### The image of one circuit -/

section
variable (s : State) (c : Circ)

theorem State.stage4_get : s.stage4[c] = s.lamp.override c (s.tables.live.record c) (s.tables.live.computed s.merged c) :=
  tab_get ..

theorem State.demands_get (g : GroupIx) : s.demands[g] = s.tables.live.demand g s.stage4 := tab_get ..

theorem State.refreshImage_get : s.refreshImage[c] = s.budgeted s.demands c s.stage4[c] := tab_get ..

theorem State.refreshGroups_get (g : GroupIx) : s.refreshGroups[g] =
    ⟨s.tables.live.demand g s.stage4 / 65535, overBudget s.mgmt.budgets[g] (s.tables.live.demand g s.stage4)⟩ := by
  rw [← s.demands_get]
  exact tab_get ..

end

/-! ### Stage 5 (R153) -/

theorem overBudget_iff {budget x : Nat} : overBudget budget x = true ↔ 0 < budget ∧ 65535 * budget < x := decide_eq_true_iff

/-- The scaled level of a circuit in an exceeds-budget group is no more than its level, so its word holds it. -/
theorem scaleLevel_toNat {budget x : Nat} (exceeds : 65535 * budget < x) (l : Level) :
    (scaleLevel budget x l).toNat = l.toNat * (65535 * budget) / x := by
  rw [scaleLevel, BitVec.toNat_ofNat]
  refine Nat.mod_eq_of_lt (Nat.lt_of_le_of_lt (Nat.div_le_of_le_mul ?_) l.isLt)
  rw [Nat.mul_comm x]
  exact Nat.mul_le_mul_left _ exceeds.le

section
variable {s : State} {c : Circ} {l : Level}

theorem State.budgeted_scaled {g : GroupIx} (counts : (s.tables.live.record c).countsIn g = true)
    (exceeds : overBudget s.mgmt.budgets[g] s.demands[g] = true) :
    s.budgeted s.demands c l = scaleLevel s.mgmt.budgets[g] s.demands[g] l := by
  simp only [CircuitRecord.countsIn, Bool.and_eq_true, beq_iff_eq] at counts
  obtain ⟨group, counted⟩ := counts
  simp only [State.budgeted, group, counted, exceeds, Bool.and_self, if_true]

theorem State.budgeted_kept
    (kept : ∀ g, (s.tables.live.record c).countsIn g = true → overBudget s.mgmt.budgets[g] s.demands[g] = false) :
    s.budgeted s.demands c l = l := by
  simp only [State.budgeted]
  split
  · next g group =>
    refine if_neg fun scaled => ?_
    rw [Bool.and_eq_true] at scaled
    obtain ⟨counted, exceeds⟩ := scaled
    have counts : (s.tables.live.record c).countsIn g = true := by
      simp only [CircuitRecord.countsIn, group, counted, beq_self_eq_true, Bool.and_self]
    exact Bool.noConfusion ((kept g counts).symm.trans exceeds)
  · rfl

end

/-! ### The state after a refresh -/

theorem State.raiseIf_eq (b : Bool) (e : Event) (s : State) :
    s.raiseIf b e = { s with mgmt := if b then s.mgmt.raise e else s.mgmt } := by
  cases b <;> rfl

theorem exec_refresh {s : State} (running : s.held = false) : exec .refresh s = .next { s with
    levels := ⟨s.refreshImage, s.refreshGroups⟩
    mgmt := if newlyLimited s.levels.groups s.refreshGroups then s.mgmt.raise .budgetLimit else s.mgmt
    timers := { s.timers with refresh := twentyMs } } := by
  refine congrArg Host.Outcome.next ((State.whenRunning_running _ _ running).trans ?_)
  simp only [State.refresh, State.raiseIf_eq, State.restartRefresh]

theorem newlyLimited_iff {old new : Vector GroupStatus 18} :
    newlyLimited old new = true ↔ ∃ g : GroupIx, old[g].limited = false ∧ new[g].limited = true := by
  simp only [newlyLimited, List.any_eq_true, List.mem_finRange, true_and, Bool.and_eq_true, Bool.not_eq_true']

/-- Settles O37: stage 4 and stage 5 circuit by circuit, the statuses group by group. -/
theorem aRefreshPublishesTheWholeImage : Obligations.ARefreshPublishesTheWholeImage := by
  intro s running
  refine ⟨_, exec_refresh running, rfl, fun c => ?_, fun g => s.refreshGroups_get g, ?_⟩
  · intro r computed level
    have stage4 : s.stage4[c] = level := s.stage4_get c
    refine ⟨stage4, fun g group counted budget exceeds => ?scaled, fun within => ?kept⟩
    case scaled =>
      have counts : (s.tables.live.record c).countsIn g = true := by
        rw [CircuitRecord.countsIn, show (s.tables.live.record c).group = some g from group,
          show (s.tables.live.record c).exempt = false from counted, beq_self_eq_true]
        rfl
      rw [s.refreshImage_get, State.budgeted_scaled counts (overBudget_iff.2 ⟨budget, by rwa [s.demands_get]⟩),
        s.demands_get, scaleLevel_toNat exceeds, stage4]
    case kept =>
      rw [s.refreshImage_get, State.budgeted_kept fun g counts => ?_, stage4]
      simp only [CircuitRecord.countsIn, Bool.and_eq_true, beq_iff_eq, Bool.not_eq_true'] at counts
      obtain ⟨group, counted⟩ := counts
      rw [← Bool.not_eq_true, overBudget_iff, s.demands_get]
      rintro ⟨budget, exceeds⟩
      obtain exempt | none | few := within g group
      · exact Bool.noConfusion (counted.symm.trans exempt)
      · omega
      · omega
  · exact if_congr newlyLimited_iff rfl rfl

/-! ### The bound on a published image (R153) -/

/-- Scaled down by x, levels whose weighted sum is x weigh no more than the budget: every division rounds down. -/
theorem sum_scaled_le {load level : Circ → Nat} {k x : Nat} (pos : 0 < x) (total : ∑ c, load c * level c = x) :
    ∑ c, load c * (level c * k / x) ≤ k := by
  refine Nat.le_of_mul_le_mul_left ?_ pos
  calc x * ∑ c, load c * (level c * k / x) = ∑ c, load c * (x * (level c * k / x)) := by
        rw [Finset.mul_sum]
        exact Finset.sum_congr rfl fun c _ => Nat.mul_left_comm ..
    _ ≤ ∑ c, load c * (level c * k) := Finset.sum_le_sum fun c _ => Nat.mul_le_mul_left _ (Nat.mul_div_le ..)
    _ = x * k := by
        rw [← total, Finset.sum_mul]
        exact Finset.sum_congr rfl fun c _ => (Nat.mul_assoc ..).symm

/-- The load with which a circuit counts in a group: 0 when it does not. -/
def TableSet.loadIn (t : TableSet) (g : GroupIx) (c : Circ) : Nat :=
  if (t.record c).countsIn g then (t.record c).load.val else 0

theorem TableSet.demand_eq (t : TableSet) (g : GroupIx) (image : Vector Level 768) :
    t.demand g image = ∑ c, t.loadIn g c * image[c].toNat := by
  rw [TableSet.demand, List.sum_ofFn]
  refine Finset.sum_congr rfl fun c _ => ?_
  rw [TableSet.draw, TableSet.loadIn]
  split
  · rfl
  · rw [Nat.zero_mul]

/-- Over budget, every circuit of the group is scaled; within it, none is. -/
theorem State.demand_refreshImage_le (s : State) {g : GroupIx} (budget : 0 < s.mgmt.budgets[g]) :
    s.tables.live.demand g s.refreshImage ≤ 65535 * s.mgmt.budgets[g] := by
  have alike {f : Level → Nat} (same : ∀ c, (s.tables.live.record c).countsIn g = true →
      (s.refreshImage[c]).toNat = f s.stage4[c]) : s.tables.live.demand g s.refreshImage =
        ∑ c, s.tables.live.loadIn g c * f s.stage4[c] := by
    rw [TableSet.demand_eq]
    refine Finset.sum_congr rfl fun c _ => ?_
    by_cases counts : (s.tables.live.record c).countsIn g = true
    · rw [same c counts]
    · rw [TableSet.loadIn, if_neg counts, Nat.zero_mul, Nat.zero_mul]
  cases exceeds : overBudget s.mgmt.budgets[g] s.demands[g] with
  | true =>
    obtain ⟨-, more⟩ := overBudget_iff.1 exceeds
    rw [alike (f := fun l => l.toNat * (65535 * s.mgmt.budgets[g]) / s.demands[g]) fun c counts => by
      rw [s.refreshImage_get, State.budgeted_scaled counts exceeds, scaleLevel_toNat more]]
    exact sum_scaled_le (Nat.zero_lt_of_lt more) (by rw [s.demands_get, TableSet.demand_eq])
  | false =>
    rw [alike (f := BitVec.toNat) fun c counts => ?_, ← TableSet.demand_eq, ← s.demands_get]
    · exact Nat.le_of_not_lt fun more => Bool.noConfusion (exceeds.symm.trans (overBudget_iff.2 ⟨budget, more⟩))
    · rw [s.refreshImage_get, State.budgeted_kept fun h counts' => ?_]
      simp only [CircuitRecord.countsIn, Bool.and_eq_true, beq_iff_eq] at counts counts'
      obtain rfl := Option.some.inj (counts.1.symm.trans counts'.1)
      exact exceeds

/-- Settles O38: the refresh leaves the tables and the budgets as they are. -/
theorem noPublishedImageExceedsABudget : Obligations.NoPublishedImageExceedsABudget := by
  intro s g running budget
  refine ⟨_, exec_refresh running, ?_⟩
  have kept : (if newlyLimited s.levels.groups s.refreshGroups then s.mgmt.raise .budgetLimit else s.mgmt).budgets =
      s.mgmt.budgets := by split <;> rfl
  show s.tables.live.demand g s.refreshImage ≤ 65535 * (if newlyLimited s.levels.groups s.refreshGroups then
    s.mgmt.raise .budgetLimit else s.mgmt).budgets[g]
  rw [kept]
  exact s.demand_refreshImage_le budget

end Sys2Proof.Machine
end

