-- ==== Sys2Proof/Proofs/GoTargets.lean ====
section
/-! The targets of a GO (R33, R34, R52): in a directory in ascending order, a search from the front finds the least entry of its
kind and the last of a kind is the greatest. -/

namespace Sys2Proof.Machine

/-- Entries in ascending order of their cues. -/
abbrev Ascends (es : List DirEntry) : Prop := es.Pairwise fun d e => d.cue < e.cue

theorem ascendingFrom_ascends : ∀ {es : List DirEntry} {n : Nat}, ascendingFrom n es = true →
    (∀ e ∈ es, n < e.cue) ∧ Ascends es
  | [], _, _ => ⟨nofun, .nil⟩
  | e :: es, n, asc => by
    simp only [ascendingFrom, Bool.and_eq_true, decide_eq_true_eq] at asc
    obtain ⟨⟨first, -⟩, rest⟩ := asc
    obtain ⟨above, sorted⟩ := ascendingFrom_ascends rest
    refine ⟨fun d member => ?_, List.pairwise_cons.2 ⟨above, sorted⟩⟩
    rcases List.mem_cons.1 member with rfl | member
    · exact first
    · exact first.trans (above d member)

section
variable {p : DirEntry → Bool} {e : DirEntry}

theorem find?_least : ∀ {es : List DirEntry}, Ascends es →
    (es.find? p = some e ↔ e ∈ es ∧ p e = true ∧ ∀ d ∈ es, p d = true → e.cue ≤ d.cue)
  | [], _ => by simp
  | x :: xs, sorted => by
    obtain ⟨above, rest⟩ := List.pairwise_cons.1 sorted
    cases hit : p x with
    | true =>
      rw [List.find?_cons_of_pos hit, Option.some.injEq]
      constructor
      · rintro rfl
        refine ⟨List.mem_cons_self, hit, fun d member _ => ?_⟩
        rcases List.mem_cons.1 member with rfl | member
        · exact Nat.le_refl _
        · exact (above d member).le
      · rintro ⟨member, -, least⟩
        rcases List.mem_cons.1 member with rfl | member
        · rfl
        · exact absurd (above e member) (Nat.not_lt_of_le (least x List.mem_cons_self hit))
    | false =>
      have miss : ¬p x = true := Bool.not_eq_true _ ▸ hit
      rw [List.find?_cons_of_neg miss, find?_least rest]
      constructor
      · rintro ⟨member, found, least⟩
        refine ⟨List.mem_cons_of_mem _ member, found, fun d inside also => ?_⟩
        rcases List.mem_cons.1 inside with rfl | inside
        · exact absurd also miss
        · exact least d inside also
      · rintro ⟨member, found, least⟩
        rcases List.mem_cons.1 member with rfl | member
        · exact absurd found miss
        · exact ⟨member, found, fun d inside => least d (List.mem_cons_of_mem _ inside)⟩

theorem getLast?_greatest {es : List DirEntry} (sorted : Ascends es) :
    es.getLast? = some e ↔ e ∈ es ∧ ∀ d ∈ es, d.cue ≤ e.cue := by
  rcases List.eq_nil_or_concat' es with rfl | ⟨ys, x, rfl⟩
  · simp
  · rw [List.getLast?_concat, Option.some.injEq]
    have below : ∀ y ∈ ys, y.cue < x.cue := fun y member => (List.pairwise_append.1 sorted).2.2 y member x (by simp)
    constructor
    · rintro rfl
      refine ⟨by simp, fun d member => ?_⟩
      rcases List.mem_append.1 member with member | last
      · exact (below d member).le
      · rw [List.mem_singleton.1 last]
    · rintro ⟨member, greatest⟩
      rcases List.mem_append.1 member with member | last
      · exact absurd (below e member) (Nat.not_lt_of_le (greatest x (by simp)))
      · exact (List.mem_singleton.1 last).symm

theorem filter_getLast?_greatest {es : List DirEntry} (sorted : Ascends es) :
    (es.filter p).getLast? = some e ↔ e ∈ es ∧ p e = true ∧ ∀ d ∈ es, p d = true → d.cue ≤ e.cue := by
  rw [getLast?_greatest (sorted.sublist List.filter_sublist)]
  simp only [List.mem_filter, and_imp, and_assoc]

theorem entryOf?_iff {es : List DirEntry} (sorted : Ascends es) {n : Nat} : entryOf? n es = some e ↔ e ∈ es ∧ e.cue = n := by
  rw [entryOf?, find?_least sorted]
  simp only [beq_iff_eq]
  exact ⟨fun ⟨member, cue, _⟩ => ⟨member, cue⟩, fun ⟨member, cue⟩ => ⟨member, cue, fun d _ same => by rw [cue, same]⟩⟩

end

namespace Playback

variable {pb : Playback} {n : Nat}

theorem next?_first (fresh : pb.lastTaken = none) : pb.next? = pb.directory.head? := by
  rw [next?, fresh]

theorem next?_link {l : Nat} {e : DirEntry} (sorted : Ascends pb.directory) (last : pb.lastTaken = some n)
    (link : pb.takenLink = some l) (member : e ∈ pb.directory) (cue : e.cue = l) : pb.next? = some e := by
  have found : (pb.takenLink.bind fun l => entryOf? l pb.directory) = some e := by
    rw [link, Option.bind_some, (entryOf?_iff sorted).2 ⟨member, cue⟩]
  simp only [next?, last, found]

theorem next?_above (last : pb.lastTaken = some n) (unlinked : ∀ l, pb.takenLink = some l → ∀ d ∈ pb.directory, d.cue ≠ l) :
    pb.next? = pb.directory.find? fun e => decide (n < e.cue) := by
  have none : (pb.takenLink.bind fun l => entryOf? l pb.directory) = none := by
    rw [Option.bind_eq_none_iff]
    intro l link
    simpa [entryOf?] using unlinked l link
  simp only [next?, last, none]

theorem previous?_below (last : pb.lastTaken = some n) :
    pb.resolve .previous = (pb.directory.filter fun e => decide (e.cue < n)).getLast? := by
  rw [resolve, previous?, last, Option.bind_some]

theorem previous?_fresh (fresh : pb.lastTaken = none) : pb.resolve .previous = none := by
  rw [resolve, previous?, fresh, Option.bind_none]

end Playback

/-- Settles O15: each target by the search that finds it. -/
theorem goTargetsAreResolvedByNumber : Obligations.GoTargetsAreResolvedByNumber := by
  refine ⟨fun pb asc => ⟨Playback.next?_first, fun n l e => ?link, fun n e last unlinked => ?next⟩,
    fun pb e asc => ⟨Playback.previous?_fresh, fun n last => ?previous, fun n => ?number⟩⟩
  case link => exact Playback.next?_link (ascendingFrom_ascends asc).2
  case next =>
    rw [Playback.next?_above last unlinked, find?_least (ascendingFrom_ascends asc).2]
    simp only [decide_eq_true_eq]
  case previous =>
    rw [Playback.previous?_below last, filter_getLast?_greatest (ascendingFrom_ascends asc).2]
    simp only [decide_eq_true_eq]
  case number => exact entryOf?_iff (ascendingFrom_ascends asc).2

end Sys2Proof.Machine
end

