-- ==== Sys2Proof/Proofs/Claims.lean ====
section
/-! A claim (R61–R64), slot by slot and channel by channel, and the RELEASE that is one (R76). -/

namespace Sys2Proof.Machine

namespace Playback

variable {pb : Playback} {n : SlotIx} {k : Claim}

/-- The fade that a claim puts in its slot when it takes time. -/
def claimedFade (pb : Playback) (n : SlotIx) (k : Claim) : Fade :=
  ⟨k.cue, k.scope, k.du, k.tu, k.dd, k.td, k.endTime, 0,
    (slotCount fun m => m != n && (pb.takeChannels n k).slots[m].fade?.isSome) + 1,
    pb.slots[n].priors.1, pb.slots[n].priors.2⟩

/-- The slots active beside the claimant. -/
theorem activeCount_beside (pb : Playback) (n : SlotIx) : activeCount { pb with slots := pb.slots.set n .free } =
    slotCount fun m => m != n && pb.slots[m].fade?.isSome := by
  rw [activeCount_eq]
  refine slotCount_congr fun m => ?_
  rw [setSlot_get]
  by_cases same : m = n
  · rw [if_pos same, same, bne_self_eq_false]
    rfl
  · rw [if_neg same, Slot.order?_isSome, bne_iff_ne.2 same, Bool.true_and]

theorem claim_later (later : k.endTime ≠ 0) : pb.claim n k =
    { pb.takeChannels n k with slots := (pb.takeChannels n k).slots.set n (.fading (pb.claimedFade n k)) } := by
  rw [claimedFade, ← activeCount_beside]
  simp only [claim, if_neg later]

theorem claim_atOnce (now : k.endTime = 0) : pb.claim n k = { (pb.takeChannels n k).restChannels (· == n) with
    slots := (pb.takeChannels n k).slots.set n .free } := by
  simp only [claim, if_pos now, restChannels_slots]

theorem claim_slot (pb : Playback) (n : SlotIx) (k : Claim) (m : SlotIx) : (pb.claim n k).slots[m] =
    if m = n then (if k.endTime = 0 then .free else .fading (pb.claimedFade n k)) else (pb.takeChannels n k).slots[m] := by
  by_cases now : k.endTime = 0
  · rw [claim_atOnce now, if_pos now]
    exact set_get ..
  · rw [claim_later now, if_neg now]
    exact set_get ..

theorem claim_channels (now : k.endTime = 0) :
    (pb.claim n k).owner = ((pb.takeChannels n k).restChannels (· == n)).owner ∧
      (pb.claim n k).resting = ((pb.takeChannels n k).restChannels (· == n)).resting := by
  rw [claim_atOnce now]
  simp only [and_self]

/-- The slot of a claim owns no channel but those it claims. -/
theorem claim_owner
    (unowned : ∀ (c : Chan) (o : Owned), pb.owner[c] = some o → pb.claims k c = false → o.slot ≠ n) (c : Chan) :
    (pb.claim n k).owner[c] =
      if pb.claims k c then (if k.endTime = 0 then none else some ⟨n, pb.level c, (k.lookLevel? c).getD 0⟩) else pb.owner[c] := by
  by_cases now : k.endTime = 0
  · rw [(claim_channels now).1, if_pos now, restChannels_owner, takeChannels_owner, ownerAfter_get]
    cases claimed : pb.claims k c with
    | true =>
      rw [if_pos rfl, if_pos rfl]
      simp [Option.filter]
    | false =>
      rw [if_neg Bool.false_ne_true, if_neg Bool.false_ne_true]
      cases owned : pb.owner[c] with
      | none => rfl
      | some o => simp [Option.filter, unowned c o owned claimed]
  · rw [claim_later now, if_neg now, ← ownerAfter_get, ← takeChannels_owner]

theorem restChannels_resting (pb : Playback) (p : SlotIx → Bool) (c : Chan) : (pb.restChannels p).resting[c] =
    match pb.owner[c] with
    | some o => if p o.slot then o.target else pb.resting[c]
    | none => pb.resting[c] := tab_get ..

theorem claim_resting
    (unowned : ∀ (c : Chan) (o : Owned), pb.owner[c] = some o → pb.claims k c = false → o.slot ≠ n) (c : Chan) :
    (pb.claim n k).resting[c] = if pb.claims k c ∧ k.endTime = 0 then (k.lookLevel? c).getD 0 else pb.resting[c] := by
  by_cases now : k.endTime = 0
  · rw [(claim_channels now).2, restChannels_resting, takeChannels_owner, takeChannels_resting, ownerAfter_get]
    cases claimed : pb.claims k c with
    | true => simp [now]
    | false =>
      cases owned : pb.owner[c] with
      | none => simp
      | some o => simp [unowned c o owned claimed]
  · rw [claim_later now, if_neg fun both => now both.2]
    exact congrArg (·[c]) (takeChannels_resting pb n k)

/-- A claim leaves what playback says of cues as it was. -/
theorem claim_cues (pb : Playback) (n : SlotIx) (k : Claim) : (pb.claim n k).directory = pb.directory ∧
    (pb.claim n k).lastTaken = pb.lastTaken ∧ (pb.claim n k).takenLink = pb.takenLink ∧ (pb.claim n k).follow = pb.follow := by
  by_cases now : k.endTime = 0
  · rw [claim_atOnce now]
    simp only [restChannels, takeChannels, freeSlots, and_self]
  · rw [claim_later now]
    simp only [takeChannels, freeSlots, and_self]

/-! ### What a claim does to the other slots (R62) -/

/-- A claim frees another slot when it claims every channel of it. -/
theorem ownsSome_ownerAfter {m : SlotIx} (other : m ≠ n) : ownsSome (pb.ownerAfter n k) m = true ↔
    ∃ (c : Chan) (o : Owned), pb.owner[c] = some o ∧ o.slot = m ∧ pb.claims k c = false := by
  rw [ownsSome_iff]
  refine exists_congr fun c => exists_congr fun o => ?_
  rw [ownerAfter_get]
  cases pb.claims k c with
  | true =>
    simp only [if_true, Option.some.injEq, reduceCtorEq, and_false, iff_false]
    rintro ⟨rfl, slot⟩
    exact other slot.symm
  | false => simp only [Bool.false_eq_true, if_false, and_true]

theorem takeChannels_slot_idle {m : SlotIx} (idle : pb.slots[m].fade? = none) :
    (pb.takeChannels n k).slots[m] = pb.slots[m] := by
  have stays : pb.leftEmpty n k m = false := by simp [leftEmpty, idle, -Fin.getElem_fin]
  rw [takeChannels_slot, stays, if_neg Bool.false_ne_true]
  cases slot : pb.slots[m] with
  | free | fetching f => rfl
  | fading f | paused f => simp [slot, Slot.fade?, -Fin.getElem_fin] at idle

end Playback

/-! ### The claim of a RELEASE (R76) -/

namespace Playback

variable {pb : Playback} {n : SlotIx} {t : Nat}

theorem releaseClaim_endTime (t : Nat) : (releaseClaim t).endTime = t := by
  simp only [releaseClaim, Claim.endTime, Nat.zero_add, Nat.max_self]

theorem releaseClaim_claims (pb : Playback) (t : Nat) (c : Chan) : pb.claims (releaseClaim t) c = pb.holds c := rfl

/-- A RELEASE claims every channel that is owned. -/
theorem release_unowned {c : Chan} {o : Owned} (owned : pb.owner[c] = some o) : pb.claims (releaseClaim t) c ≠ false := by
  rw [releaseClaim_claims, holds, owned]
  simp

/-- A RELEASE leaves no other slot a channel. -/
theorem release_slot_other {m : SlotIx} (other : m ≠ n) : (pb.takeChannels n (releaseClaim t)).slots[m] =
    if pb.slots[m].isFetching then pb.slots[m] else .free := by
  have empty : ownsSome (pb.ownerAfter n (releaseClaim t)) m = false := by
    rw [← Bool.not_eq_true, ownsSome_ownerAfter other]
    rintro ⟨c, o, owned, -, unclaimed⟩
    exact release_unowned owned unclaimed
  cases slot : pb.slots[m] with
  | free | fetching f => rw [takeChannels_slot_idle (by rw [slot]; rfl), slot]; rfl
  | fading f | paused f =>
    have left : pb.leftEmpty n (releaseClaim t) m = true := by
      rw [leftEmpty, empty, slot, bne_iff_ne.2 other]
      rfl
    rw [takeChannels_slot, left]
    rfl

/-- The fade of a RELEASE is the only one. -/
theorem release_fade (free : pb.slots[n] = .free) :
    pb.claimedFade n (releaseClaim t) = ⟨none, .full, 0, t, 0, t, t, 0, 1, none, none⟩ := by
  have alone : (slotCount fun m => m != n && (pb.takeChannels n (releaseClaim t)).slots[m].fade?.isSome) = 0 := by
    rw [slotCount, List.countP_eq_zero]
    intro m _
    by_cases same : m = n
    · simp [same]
    · rw [release_slot_other same]
      cases pb.slots[m] <;> simp [Slot.isFetching, Slot.fade?]
  rw [claimedFade, alone, free, releaseClaim_endTime]
  rfl

theorem claim_release (free : pb.slots[n] = .free) :
    { pb.claim n (releaseClaim t) with lastTaken := none, takenLink := none, follow := none } = pb.releasedBy n t := by
  have slots : (pb.claim n (releaseClaim t)).slots = (pb.releasedBy n t).slots := vector_ext_fin fun m => by
    rw [claim_slot, releasedBy, tab_get, releaseClaim_endTime, release_fade free]
    by_cases same : m = n
    · rw [if_pos same, if_pos same]
    · rw [if_neg same, if_neg same, release_slot_other same]
  have unowned (c : Chan) (o : Owned) (owned : pb.owner[c] = some o) (unclaimed : pb.claims (releaseClaim t) c = false) :
      o.slot ≠ n := absurd unclaimed (release_unowned owned)
  have owner : (pb.claim n (releaseClaim t)).owner = (pb.releasedBy n t).owner := vector_ext_fin fun c => by
    rw [claim_owner unowned, releasedBy, tab_get, releaseClaim_claims, releaseClaim_endTime]
    cases held : pb.holds c with
    | true =>
      by_cases now : t = 0
      · simp [now]
      · rw [if_pos rfl, if_neg now, if_pos ⟨rfl, Nat.pos_of_ne_zero now⟩]
        rfl
    | false =>
      have none : pb.owner[c] = none := by
        simp only [holds, Bool.or_eq_false_iff, Option.isSome_eq_false_iff, Option.isNone_iff_eq_none] at held
        exact held.2
      simp [none, -Fin.getElem_fin]
  have resting : (pb.claim n (releaseClaim t)).resting = (pb.releasedBy n t).resting := vector_ext_fin fun c => by
    rw [claim_resting unowned, releasedBy, tab_get, releaseClaim_claims, releaseClaim_endTime]
    rfl
  dsimp only
  rw [slots, owner, resting, (pb.claim_cues n (releaseClaim t)).1]
  rfl

end Playback

/-! ### The state after a RELEASE -/

section
variable {s : State} {t : Nat} {n : SlotIx}

/-- A RELEASE into the slot that its room leaves lowest. -/
theorem State.release_room (room : s.makeRoom.playback.lowestFree? = some n) : s.release t = { s.makeRoom with
    playback := s.makeRoom.playback.releasedBy n t
    mgmt := if t = 0 then s.makeRoom.mgmt.raise .cueComplete else s.makeRoom.mgmt } := by
  simp only [State.release, room, State.claim, State.raiseIf_eq, Playback.releaseClaim_endTime, beq_iff_eq,
    Playback.claim_release (Playback.lowestFree?_free room)]

theorem State.release_free (free : s.playback.lowestFree? = some n) : s.release t = { s with
    playback := s.playback.releasedBy n t
    mgmt := if t = 0 then s.mgmt.raise .cueComplete else s.mgmt } := by
  have room := State.makeRoom_free free
  have released := State.release_room (s := s) (t := t) (n := n) (by rwa [room])
  rwa [room] at released

theorem State.release_full (full : s.playback.lowestFree? = none) (oldest : s.playback.oldest? = some n) :
    s.release t = { s with
      playback := (s.playback.forceCompleted n).releasedBy n t
      mgmt := if t = 0 then (s.mgmt.raise .forcedCompletion).raise .cueComplete else s.mgmt.raise .forcedCompletion } := by
  have room := State.makeRoom_full full oldest
  have released := State.release_room (s := s) (t := t) (n := n)
    (by rw [room]; exact Playback.forceCompleted_lowestFree? full n)
  rwa [room] at released

end

section
variable {s : State} {w : Word} (p : PortIx)

theorem decideRelease_busy (busy : s.inChangeover = true ∨ (∀ m : SlotIx, s.playback.slots[m].isFetching = true)) :
    decideRelease p [w] s = refuse s .busy := by
  simp only [decideRelease]
  obtain changing | all := busy
  · rw [if_pos changing]
  · rw [if_pos (s.playback.allFetching_iff.2 all)]
    exact ite_self _

theorem decideRelease_done (steady : s.inChangeover = false) {n : SlotIx} (room : s.playback.slots[n].isFetching = false) :
    decideRelease p [w] s = done (s.release (clampTime w.toNat)) := by
  simp only [decideRelease, steady, Playback.not_allFetching room, Bool.false_eq_true, if_false]

end

/-- Settles O17: by the room that RELEASE finds or makes. -/
theorem releaseFadesOutAllThatPlaybackHolds : Obligations.ReleaseFadesOutAllThatPlaybackHolds := by
  intro h w s n hs t
  refine ⟨fun steady free => ?free, fun steady full oldest => ?full, fun busy => ?busy⟩
  case free =>
    exact exec_done hs ((decideRelease_done (s := s.frameTaken h.port) h.port steady
      (Slot.isFetching_of_free (Playback.lowestFree?_free free))).trans
      (congrArg done (State.release_free (s := s.frameTaken h.port) free)))
  case full =>
    exact exec_done hs ((decideRelease_done (s := s.frameTaken h.port) h.port steady
      (Slot.isFetching_of_order (Playback.oldest?_order oldest))).trans
      (congrArg done (State.release_full (s := s.frameTaken h.port) full oldest)))
  case busy => exact exec_refused hs (decideRelease_busy (s := s.frameTaken h.port) h.port busy)

end Sys2Proof.Machine
end

