-- ==== Sys2Proof/Proofs/Fetches.lean ====
section
/-! The end of a cue fetch (R57–R64): what the Playback Unit makes of the words read, and the state after the grant that follows. -/

namespace Sys2Proof.Machine

/-! ### What the Playback Unit makes of a fetch (R58, R59) -/

theorem fetchedRecord?_eq_some {cue : Nat} {h : Handed} {r : CueRecord} (valid : CueRecord.of? h.words = some r) (number : r.cue = cue)
    (check : h.words.getLast? = some h.crc) : fetchedRecord? cue h = some r := by
  simp only [fetchedRecord?, valid, if_pos (And.intro number check)]

theorem fetchedRecord?_eq_none {cue : Nat} {h : Handed}
    (bad : ∀ r, CueRecord.of? h.words = some r → r.cue ≠ cue ∨ h.words.getLast? ≠ some h.crc) : fetchedRecord? cue h = none := by
  unfold fetchedRecord?
  split
  · next r valid =>
    refine if_neg fun ⟨number, check⟩ => ?_
    obtain other | wrong := bad r valid
    · exact other number
    · exact wrong check
  · rfl

/-- Playback after the fetch of slot n has failed (R59). -/
def Playback.unfetched (pb : Playback) (n : SlotIx) (f : Fetch) : Playback :=
  { pb with
    slots := pb.slots.set n .free
    lastTaken := if pb.lastTaken = some f.cue then f.prior else pb.lastTaken
    takenLink := if pb.lastTaken = some f.cue then f.priorLink else pb.takenLink }

section
variable {s : State} {n : SlotIx} {f : Fetch} (fetching : s.playback.slots[n] = .fetching f)
include fetching

theorem State.takeFetch_passes {h : Handed} {r : CueRecord} (read : fetchedRecord? f.cue h = some r) :
    s.takeFetch n (some h) = { s with
      playback := (s.playback.claim n (r.claim f.override)).takeUp r
      mgmt := if (r.claim f.override).endTime = 0 then s.mgmt.raise .cueComplete else s.mgmt } := by
  simp only [State.takeFetch, fetching, Option.bind_some, read, State.claim, State.raiseIf_eq, beq_iff_eq]

theorem State.takeFetch_fails {h : Option Handed} (bad : h.bind (fetchedRecord? f.cue) = none) :
    s.takeFetch n h = { s with playback := s.playback.unfetched n f, mgmt := s.mgmt.raise .cueFailed } := by
  simp only [State.takeFetch, fetching, bad, State.failFetch, State.raise, Playback.unfetched]
  split <;> rfl

end

/-! ### The state after it -/

/-- The grant after a transaction that leaves the engine IDLE: the Memory Port goes on, and a cell write granted forms its words. -/
theorem State.grant_after {s u : State} {m : MemPort} (idle : u = { s with memPort := { m with engine := none } }) :
    u.grant = { s with memPort := m.wentOn, bank := { s.bank with buffer := u.grant.bank.buffer } } := by
  subst idle
  refine (State.grant_frame _).trans ?_
  rw [State.grant_memPort]

theorem State.finish_reads (s : State) {e : Engine} (reads : e.kind.writes = false) :
    s.finish e = { s with
      memPort := { s.memPort.drive e.area e.cell ((s.txnWords e).length - 1) with engine := none } } := by
  simp only [State.finish, reads, Bool.false_eq_true, if_false]

section
variable {s : State} {e : Engine} {n : SlotIx} (running : s.held = false) (engine : s.memPort.engine = some e)
  (slot : e.slot = some n) (kind : e.kind = .cueFetch)
include running engine slot kind

/-- The completion of a fetch, by the playback and the Management Unit that the Playback Unit leaves. -/
theorem exec_fetchComplete {playback : Playback} {mgmt : Mgmt}
    (takes : ∀ m : MemPort, State.takeFetch n (some (s.handed e)) { s with memPort := m } =
      { s with memPort := m, playback := playback, mgmt := mgmt }) :
    ∃ t, exec .fetchComplete s = .next t ∧ t = { s with
      playback := playback, mgmt := mgmt
      memPort := (s.memPort.drive e.area e.cell ((s.txnWords e).length - 1)).wentOn
      bank := { s.bank with buffer := t.bank.buffer } } := by
  refine ⟨s.completeTxn e, ?_, ?_⟩
  · have complete := exec_complete running engine
    rwa [slot] at complete
  · refine State.grant_after (s := { s with playback := playback, mgmt := mgmt }) ?_
    rw [s.finish_reads (by rw [kind]; rfl), State.takeOutcome, slot]
    exact takes _

/-- The fault of a fetch, likewise. -/
theorem exec_fetchFault (cut : Cut) (within : e.place + cut.accesses < (s.txnWords e).length) {playback : Playback} {mgmt : Mgmt}
    (takes : ∀ m : MemPort, State.takeFetch n none { s with memPort := m, mgmt := s.mgmt.raise .memoryFault } =
      { s with memPort := m, playback := playback, mgmt := mgmt }) :
    ∃ t, exec (.rdyFault cut) s = .next t ∧ t = { s with
      playback := playback, mgmt := mgmt
      memPort := (s.memPort.faulted e cut).wentOn
      bank := { s.bank with buffer := t.bank.buffer } } := by
  obtain ⟨e', same, faults⟩ := State.faultTxn_next cut engine within
  refine ⟨s.faultTxn cut, exec_rdyFault cut running, ?_⟩
  obtain ⟨-, -, -, -, -, -, -, unwritten, -⟩ := State.cutAt_next cut engine within
  rw [unwritten (by rw [kind]; rfl), State.takeOutcome, same.trans slot] at faults
  rw [faults]
  exact State.grant_after (s := { s with playback := playback, mgmt := mgmt }) (takes _)

end

theorem MemPort.wentOn_lastFault (m : MemPort) : m.wentOn.lastFault = m.lastFault := by
  unfold MemPort.wentOn MemPort.began
  split <;> rfl

/-- Settles O22: words that are no record, then the fault. -/
theorem aFetchThatFailsFreesItsSlot : Obligations.AFetchThatFailsFreesItsSlot := by
  intro s e n f cut running engine slot kind fetching pb
  refine ⟨fun bad => ?_, fun within => ?_⟩
  · exact exec_fetchComplete running engine slot kind fun m =>
      State.takeFetch_fails (s := { s with memPort := m }) fetching (fetchedRecord?_eq_none bad)
  · obtain ⟨t, faults, left⟩ := exec_fetchFault running engine slot kind cut within
      (playback := s.playback.unfetched n f) (mgmt := (s.mgmt.raise .memoryFault).raise .cueFailed) fun m =>
        State.takeFetch_fails (s := { s with memPort := m, mgmt := s.mgmt.raise .memoryFault }) fetching rfl
    refine ⟨t, faults, left, ?_⟩
    rw [left]
    refine (MemPort.wentOn_lastFault _).trans ?_
    rw [MemPort.faulted, slot, kind]

/-! ### A record claimed (R61–R64) -/

theorem Slot.isFree_of_fade {x : Slot} {g : Fade} (active : x.fade? = some g) : x.isFree = false := by
  cases x with
  | free | fetching f => cases active
  | fading f | paused f => rfl

namespace Playback

variable {pb pb' : Playback} {n : SlotIx} {k : Claim}

theorem takeUp_keeps (pb : Playback) (r : CueRecord) : (pb.takeUp r).slots = pb.slots ∧ (pb.takeUp r).owner = pb.owner ∧
    (pb.takeUp r).resting = pb.resting ∧ (pb.takeUp r).lastTaken = pb.lastTaken ∧ (pb.takeUp r).directory = pb.directory := by
  unfold takeUp
  split <;> exact ⟨rfl, rfl, rfl, rfl, rfl⟩

theorem takeUp_taken {r : CueRecord} (last : pb.lastTaken = some r.cue) : (pb.takeUp r).takenLink = r.link ∧
    (pb.takeUp r).follow = (r.follow.map fun x => ⟨x, false⟩).or pb.follow := by
  rw [takeUp, if_pos last]
  cases r.follow <;> exact ⟨rfl, rfl⟩

theorem takeUp_other {r : CueRecord} (last : pb.lastTaken ≠ some r.cue) : pb.takeUp r = pb := if_neg last

/-- Another active slot is free after a claim exactly when the claim left it no channel. -/
theorem takeChannels_isFree {m : SlotIx} {g : Fade} (active : pb.slots[m].fade? = some g) :
    (pb.takeChannels n k).slots[m].isFree = pb.leftEmpty n k m := by
  rw [takeChannels_slot]
  cases pb.leftEmpty n k m with
  | true => rfl
  | false =>
    rw [if_neg Bool.false_ne_true, Slot.mapOrder_isFree]
    exact Slot.isFree_of_fade active

/-- Among the slots before a start order, those freed by a claim are those it left no channel. -/
theorem freed_before (idle : pb.slots[n].fade? = none) (slots : ∀ j : SlotIx, j ≠ n →
      pb'.slots[j] = (pb.takeChannels n k).slots[j]) (o : Nat) :
    (slotCount fun j => startedBefore pb.slots o j && pb.leftEmpty n k j) =
      ((List.finRange 6).filter fun j => pb.slots[j].order?.any (· < o) && pb'.slots[j].isFree).length := by
  rw [← List.countP_eq_length_filter]
  refine slotCount_congr fun j => ?_
  cases active : pb.slots[j].fade? with
  | none => simp [startedBefore, Slot.order?, active, -Fin.getElem_fin]
  | some g =>
    have other : j ≠ n := by
      rintro rfl
      rw [idle] at active
      contradiction
    rw [slots j other, takeChannels_isFree active]
    rfl

/-- A slot that the claim leaves a channel goes on, its start order less by the slots freed before it. -/
theorem takeChannels_slot_kept {m : SlotIx} (idle : pb.slots[n].fade? = none) (other : m ≠ n)
    (kept : ∃ (c : Chan) (o : Owned), pb.owner[c] = some o ∧ o.slot = m ∧ pb.claims k c = false) (slots : ∀ j : SlotIx, j ≠ n →
      pb'.slots[j] = (pb.takeChannels n k).slots[j]) :
    pb'.slots[m] = pb.slots[m].mapOrder fun o => o - ((List.finRange 6).filter fun j =>
      pb.slots[j].order?.any (· < o) && pb'.slots[j].isFree).length := by
  have owns : pb.leftEmpty n k m = false := by
    rw [leftEmpty, (ownsSome_ownerAfter other).2 kept, Bool.not_true, Bool.and_false]
  rw [slots m other, takeChannels_slot, owns, if_neg Bool.false_ne_true]
  exact congrArg (pb.slots[m].mapOrder ·) (funext fun o => congrArg (o - ·) (freed_before idle slots o))

theorem takeChannels_slot_freed {m : SlotIx} {g : Fade} (active : pb.slots[m].fade? = some g) (other : m ≠ n)
    (freed : ∀ (c : Chan) (o : Owned), pb.owner[c] = some o → o.slot = m → pb.claims k c = true) :
    (pb.takeChannels n k).slots[m] = .free := by
  have empty : ownsSome (pb.ownerAfter n k) m = false := by
    rw [← Bool.not_eq_true, ownsSome_ownerAfter other]
    rintro ⟨c, o, owned, slot, unclaimed⟩
    exact Bool.noConfusion (unclaimed.symm.trans (freed c o owned slot))
  have left : pb.leftEmpty n k m = true := by
    rw [leftEmpty, empty, active, bne_iff_ne.2 other]
    rfl
  rw [takeChannels_slot, left, if_pos rfl]

end Playback

theorem CueRecord.claim_record (r : CueRecord) (limit : Option Nat) :
    (r.claim limit).cue = some r.cue ∧ (r.claim limit).scope = r.scope := by
  cases limit <;> exact ⟨rfl, rfl⟩

/-- Settles O21: the channels and the slots after the claim, then what `takeUp` adds. -/
theorem aFetchThatPassesIsClaimed : Obligations.AFetchThatPassesIsClaimed := by
  intro s e n f r running right engine kind slot fetching valid number check k
  obtain ⟨t, completes, left⟩ := exec_fetchComplete running engine slot kind
    (playback := (s.playback.claim n k).takeUp r) (mgmt := if k.endTime = 0 then s.mgmt.raise .cueComplete else s.mgmt) fun m =>
    State.takeFetch_passes (s := { s with memPort := m }) fetching (fetchedRecord?_eq_some valid number check)
  have playback : t.playback = (s.playback.claim n k).takeUp r := by rw [left]
  obtain ⟨slots, owner, resting, last, directory⟩ := (s.playback.claim n k).takeUp_keeps r
  obtain ⟨directory', last', link, follow⟩ := s.playback.claim_cues n k
  have idle : s.playback.slots[n].fade? = none := by rw [fetching]; rfl
  have unowned (c : Chan) (o : Owned) (owned : s.playback.owner[c] = some o) (_ : s.playback.claims k c = false) : o.slot ≠ n := by
    rintro rfl
    have active := right c o owned
    rw [idle] at active
    contradiction
  have slotOf (m : SlotIx) : t.playback.slots[m] =
      if m = n then (if k.endTime = 0 then .free else .fading (s.playback.claimedFade n k))
        else (s.playback.takeChannels n k).slots[m] := by
    rw [playback, slots, Playback.claim_slot]
  have slotOther (m : SlotIx) (other : m ≠ n) : t.playback.slots[m] = (s.playback.takeChannels n k).slots[m] := by
    rw [slotOf, if_neg other]
  refine ⟨t, completes, fun c => ?owner, fun c => ?resting, fun now => ?atOnce, fun later => ?fading, fun taken => ?taken,
    fun other => ?untaken, ?last, ?directory, fun m other still => ?still, fun m g other active => ⟨fun freed => ?freed,
    fun kept => ?kept⟩, ?state⟩
  case owner => rw [playback, owner, Playback.claim_owner unowned]
  case resting => rw [playback, resting, Playback.claim_resting unowned]
  case atOnce => rw [slotOf, if_pos rfl, if_pos now]
  case fading =>
    obtain ⟨cue, scope⟩ := r.claim_record f.override
    have beside : (slotCount fun m => m != n && (s.playback.takeChannels n k).slots[m].fade?.isSome) =
        ((List.finRange 6).filter fun m => m != n && t.playback.slots[m].fade?.isSome).length := by
      rw [← List.countP_eq_length_filter]
      refine slotCount_congr fun m => ?_
      by_cases same : m = n
      · rw [same, bne_self_eq_false, Bool.false_and, Bool.false_and]
      · rw [slotOther m same]
    rw [← beside, slotOf, if_pos rfl, if_neg later, Playback.claimedFade, fetching, ← cue, ← scope]
    rfl
  case taken =>
    rw [playback]
    obtain ⟨link', follow'⟩ := Playback.takeUp_taken (last'.trans taken)
    exact ⟨link', follow'.trans (by rw [follow])⟩
  case untaken =>
    rw [playback, Playback.takeUp_other (by rwa [last'])]
    exact ⟨link, follow⟩
  case last => rw [playback, last, last']
  case directory => rw [playback, directory, directory']
  case still => rw [slotOther m other, Playback.takeChannels_slot_idle still]
  case freed => rw [slotOther m other, Playback.takeChannels_slot_freed active other freed]
  case kept => exact Playback.takeChannels_slot_kept idle other kept slotOther
  case state =>
    rw [playback]
    exact left

end Sys2Proof.Machine
end

