-- ==== Sys2Proof/Proofs/PlaybackIntervals.lean ====
section
/-! The interval of the Playback Unit (R66, R67, R74): the slots that advance and complete, then the follow that counts or fires. -/

namespace Sys2Proof.Machine

/-! ### The slots at an interval -/

theorem Slot.advance_due {x : Slot} : x.advance.due = true ↔ ∃ f, x = .fading f ∧ f.elapsed + 1 = f.endTime := by
  cases x with
  | fading f => simp [Slot.advance, Slot.due]
  | free | fetching f | paused f => simp [Slot.advance, Slot.due]

theorem Slot.mapOrder_id (x : Slot) : x.mapOrder id = x := by cases x <;> rfl

namespace Playback

variable {pb : Playback}

/-- No slot completes at the next interval. -/
def quiet (pb : Playback) : Prop := ∀ (n : SlotIx) (f : Fade), pb.slots[n] = .fading f → f.elapsed + 1 ≠ f.endTime

theorem mapSlots_advance (pb : Playback) : pb.mapSlots Slot.advance = { pb with slots := pb.counted.slots } := by
  have slots : (pb.mapSlots Slot.advance).slots = pb.counted.slots := vector_ext_fin fun n => by
    rw [mapSlots, counted, tab_get, tab_get]
    cases pb.slots[n] <;> rfl
  rw [← slots]
  rfl

/-- Where no slot completes, completion changes nothing. -/
theorem complete_none {p : SlotIx → Bool} (none : ∀ n, p n = false) : pb.complete p = pb := by
  have slots : (pb.complete p).slots = pb.slots := vector_ext_fin fun n => by
    have kept : (slotCount fun m => startedBefore (pb.restChannels p).slots 0 m && p m) = 0 := by simp [slotCount, none]
    rw [complete, freeSlots_slot, none n, if_neg Bool.false_ne_true, restChannels_slots]
    refine Eq.trans ?_ (Slot.mapOrder_id _)
    refine congrArg (pb.slots[n].mapOrder ·) (funext fun o => ?_)
    simp [slotCount, none]
  have owner : (pb.complete p).owner = pb.owner := vector_ext_fin fun c => by
    rw [complete_owner, restChannels_owner]
    cases pb.owner[c] <;> simp [none, Option.filter]
  have resting : (pb.complete p).resting = pb.resting := vector_ext_fin fun c => by
    refine (restChannels_resting pb p c).trans ?_
    cases pb.owner[c] with
    | none => rfl
    | some o => exact if_neg (by simp [none])
  calc pb.complete p = { pb with
        slots := (pb.complete p).slots, owner := (pb.complete p).owner, resting := (pb.complete p).resting } := by
        simp only [complete, freeSlots, restChannels]
    _ = pb := by rw [slots, owner, resting]

theorem advance_due_at (pb : Playback) (n : SlotIx) : (pb.mapSlots Slot.advance).slots[n].due = pb.slots[n].advance.due := by
  simp only [mapSlots, tab_get]

theorem due_false {n : SlotIx} (early : ∀ f, pb.slots[n] = .fading f → f.elapsed + 1 ≠ f.endTime) :
    pb.slots[n].advance.due = false := by
  rw [← Bool.not_eq_true, Slot.advance_due]
  exact fun ⟨f, fading, due⟩ => early f fading due

theorem advance_quiet (quiet : pb.quiet) : pb.advance = { pb with slots := pb.counted.slots } := by
  rw [advance, complete_none fun n => by rw [advance_due_at, due_false (quiet n)], mapSlots_advance]

theorem dueNext_iff : pb.dueNext = true ↔ ∃ n : SlotIx, pb.slots[n].advance.due = true := by
  simp only [dueNext, List.any_eq_true, Vector.mem_toList_iff]
  constructor
  · rintro ⟨x, member, due⟩
    obtain ⟨i, hi, rfl⟩ := Vector.getElem_of_mem member
    exact ⟨⟨i, hi⟩, due⟩
  · exact fun ⟨n, due⟩ => ⟨_, Vector.getElem_mem n.isLt, due⟩

theorem dueNext_quiet (quiet : pb.quiet) : pb.dueNext = false := by
  rw [← Bool.not_eq_true, dueNext_iff]
  exact fun ⟨n, due⟩ => Bool.noConfusion ((due_false (quiet n)).symm.trans due)

/-- One slot completes at the interval, of start order k. -/
theorem advance_one {n : SlotIx} {f : Fade} (fading : pb.slots[n] = .fading f) (due : f.elapsed + 1 = f.endTime)
    (others : ∀ (m : SlotIx) (g : Fade), m ≠ n → pb.slots[m] = .fading g → g.elapsed + 1 ≠ g.endTime) :
    pb.advance = { pb with
      slots := tab fun m => if m = n then .free
        else pb.counted.slots[m].mapOrder fun o => if f.order < o then o - 1 else o
      owner := tab fun c => if pb.owner[c].map Owned.slot = some n then none else pb.owner[c]
      resting := tab fun c =>
        match pb.owner[c] with
        | some o => if o.slot = n then o.target else pb.resting[c]
        | none => pb.resting[c] } := by
  have one : (fun m => (pb.mapSlots Slot.advance).slots[m].due) = (· == n) := funext fun m => by
    rw [advance_due_at]
    by_cases same : m = n
    · rw [same, beq_self_eq_true, Slot.advance_due]
      exact ⟨f, fading, due⟩
    · rw [beq_eq_false_iff_ne.2 same]
      exact due_false fun g => others m g same
  have order : (pb.mapSlots Slot.advance).slots[n].order? = some f.order := by
    simp only [mapSlots, tab_get, fading]
    rfl
  rw [advance, one]
  rw [mapSlots_advance] at order ⊢
  exact complete_one order

theorem dueNext_one {n : SlotIx} {f : Fade} (fading : pb.slots[n] = .fading f) (due : f.elapsed + 1 = f.endTime) :
    pb.dueNext = true := dueNext_iff.2 ⟨n, Slot.advance_due.2 ⟨f, fading, due⟩⟩

end Playback

/-! ### The follow at an interval -/

/-- The follow after an interval at which it does not fire. -/
def Follow.counted (f : Follow) : Follow := if f.paused then f else { f with remaining := f.remaining - 1 }

theorem State.countFollow_counts {s : State} (waits : s.playback.follow ≠ some ⟨0, false⟩) :
    s.countFollow = { s with playback := { s.playback with follow := s.playback.follow.map Follow.counted } } := by
  unfold State.countFollow
  split
  · next fires => exact absurd fires waits
  · next pending => rw [pending]; rfl
  · next other =>
    have same : s.playback.follow.map Follow.counted = s.playback.follow := by
      cases follow : s.playback.follow with
      | none => rfl
      | some f =>
        obtain ⟨remaining, paused⟩ := f
        cases paused with
        | true => rfl
        | false =>
          cases remaining with
          | zero => exact absurd follow waits
          | succ m => exact absurd follow (other m)
    rw [same]

/-! ### The state after an interval -/

theorem exec_playbackInterval {s : State} (running : s.held = false) : exec .playbackInterval s = .next s.playbackTick :=
  congrArg Host.Outcome.next (State.whenRunning_running _ _ running)

theorem State.playbackTick_eq (s : State) : s.playbackTick = State.countFollow { s with
    playback := s.playback.advance
    timers := { s.timers with playback := tenMs }
    mgmt := if s.playback.dueNext then s.mgmt.raise .cueComplete else s.mgmt } := by
  rw [State.playbackTick, State.raiseIf_eq]
  rfl

theorem State.playbackTick_counts {s : State} {pb : Playback} {b : Bool} (advances : s.playback.advance = pb)
    (completes : s.playback.dueNext = b) (waits : pb.follow ≠ some ⟨0, false⟩) : s.playbackTick = { s with
      playback := { pb with follow := pb.follow.map Follow.counted }
      timers := { s.timers with playback := tenMs }
      mgmt := if b then s.mgmt.raise .cueComplete else s.mgmt } := by
  rw [State.playbackTick_eq, advances, completes]
  exact State.countFollow_counts waits

theorem exec_slotCompletes {s : State} (running : s.held = false) {n : SlotIx} {f : Fade}
    (fading : s.playback.slots[n] = .fading f) (due : f.elapsed + 1 = f.endTime) :
    exec (.slotCompletes n) s = exec .playbackInterval s := by
  rw [exec_playbackInterval running]
  refine congrArg Host.Outcome.next ((State.whenRunning_running _ _ running).trans (if_pos ?_))
  exact Slot.advance_due.2 ⟨f, fading, due⟩

/-- Settles O18: no slot completes, or one does. -/
theorem thePlaybackIntervalCountsAndCompletes : Obligations.ThePlaybackIntervalCountsAndCompletes := by
  refine ⟨fun s running quiet waits => ?counts, fun n f s running fading due others waits => ⟨?completes, ?same⟩⟩
  case counts =>
    exact (exec_playbackInterval running).trans (congrArg Host.Outcome.next
      (State.playbackTick_counts (Playback.advance_quiet quiet) (Playback.dueNext_quiet quiet) waits))
  case completes =>
    refine (exec_slotCompletes running fading due).trans ((exec_playbackInterval running).trans (congrArg Host.Outcome.next
      (State.playbackTick_counts (Playback.advance_one fading due others) (Playback.dueNext_one fading due) waits)))
  case same => exact exec_slotCompletes running fading due

/-! ### A follow that fires (R74) -/

/-- An interval at which the follow fires and no slot completes: the internal GO starts from the slots as they advanced. -/
theorem exec_followFires {s : State} (running : s.held = false) (due : s.playback.follow = some ⟨0, false⟩) :
    exec .followFires s = exec .playbackInterval s := by
  rw [exec_playbackInterval running]
  exact congrArg Host.Outcome.next ((State.whenRunning_running _ _ running).trans (if_pos due))

/-- The state in which the internal GO of a firing follow is decided. -/
def State.firing (s : State) : State := { s with
  playback := { s.playback.counted with follow := none }
  timers := { s.timers with playback := tenMs } }

theorem State.playbackTick_fires {s : State} (quiet : s.playback.quiet) (due : s.playback.follow = some ⟨0, false⟩) :
    s.playbackTick = match s.firing.goCheck .next with
      | .ok (b, e) => s.firing.acceptGo b e none
      | .error _ => s.firing.raise .cueFailed := by
  rw [State.playbackTick_eq, Playback.dueNext_quiet quiet, Playback.advance_quiet quiet, State.countFollow]
  simp only [due]
  rfl

theorem State.goCheck_error {s : State} (refused : s.inChangeover = true ∨ s.lamp.active = true ∨ s.tables.liveBank = none ∨
    s.playback.next? = none ∨ (∀ m : SlotIx, s.playback.slots[m].isFetching = true)) : ∃ r, s.goCheck .next = .error r := by
  cases steady : s.inChangeover with
  | true => exact ⟨_, State.goCheck_changeover steady⟩
  | false =>
    cases dark : s.lamp.active with
    | true => exact ⟨_, State.goCheck_checkActive steady dark⟩
    | false =>
      by_cases bank : s.tables.liveBank = none
      · exact ⟨_, State.goCheck_noBank steady dark bank⟩
      · by_cases cue : s.playback.next? = none
        · exact ⟨_, State.goCheck_noCue steady dark bank cue⟩
        · obtain changing | active | noBank | noCue | all := refused
          · exact Bool.noConfusion (steady.symm.trans changing)
          · exact Bool.noConfusion (dark.symm.trans active)
          · exact absurd noBank bank
          · exact absurd noCue cue
          · exact ⟨_, State.goCheck_allFetching steady dark bank cue all⟩

/-- Settles O19: the internal GO by the checks and the room of any other. -/
theorem aFollowFiresAnInternalGo : Obligations.AFollowFiresAnInternalGo := by
  intro s n running granted due quiet pb timers
  have fires : exec .followFires s = .next s.playbackTick := (exec_followFires running due).trans (exec_playbackInterval running)
  rw [State.playbackTick_fires quiet due] at fires
  refine ⟨fun b e steady dark bank next => ⟨fun free => ?free, fun full oldest => ?full⟩, fun refused => ?refused,
    exec_followFires running due⟩
  case free =>
    have check : s.firing.goCheck .next = .ok (b, e) :=
      State.goCheck_ok steady dark bank next (Slot.isFetching_of_free (Playback.lowestFree?_free free))
    rw [check] at fires
    exact fires.trans (congrArg Host.Outcome.next (State.acceptGo_free (s := s.firing) granted free b e none))
  case full =>
    have check : s.firing.goCheck .next = .ok (b, e) :=
      State.goCheck_ok steady dark bank next (Slot.isFetching_of_order (Playback.oldest?_order oldest))
    rw [check] at fires
    exact fires.trans (congrArg Host.Outcome.next (State.acceptGo_full (s := s.firing) granted full oldest b e none))
  case refused =>
    obtain ⟨r, check⟩ := State.goCheck_error (s := s.firing) refused
    rw [check] at fires
    exact fires

end Sys2Proof.Machine
end

