-- ==== Sys2Proof/Proofs/BankRequests.lean ====
section
/-! The bank operations accepted (R37, R38, R129, R133, R139, R141, R142): each decision when all its checks pass, then the state in
which the first segment stands at the Memory Port. -/

namespace Sys2Proof.Machine

theorem changeoverCheck_passes {s : State} (b : BankIx) (dark : s.lamp.active = false)
    (free : ∀ n : SlotIx, s.playback.slots[n] = .free) (clean : s.tables.stage ≠ .edited) : changeoverCheck b s = none := by
  simp [changeoverCheck, dark, s.playback.allFree_iff.2 free, clean]

/-! ### The decisions -/

section
variable {s : State} {w cue : Word} {b : BankIx} {kind : OpKind} {check : BankIx → State → Option Result}
  {prepare : State → State} (p : PortIx) (idle : s.bank.state = .idle)
include idle

theorem decideBankOp_accepted (named : w.toNat = b.val) (passes : check b s = none) :
    decideBankOp kind check prepare p [w] s = accepted ((prepare s).beginOp (OpRecord.new kind (some b) (some p))) := by
  simp [decideBankOp, idle, finOf?_of_toNat named, passes]

theorem decideCueOp_accepted (named : w.toNat = b.val) (low : 1 ≤ cue.toNat) (high : cue.toNat ≤ 9999) :
    decideCueOp kind p [w, cue] s = accepted (s.beginOp { OpRecord.new kind (some b) (some p) with cue := cue.toNat }) := by
  have isCue : isCue cue = true := decide_eq_true ⟨low, high⟩
  simp [decideCueOp, idle, finOf?_of_toNat named, isCue]

theorem decideStoreCue_accepted {r : CueRecord} (named : w.toNat = b.val) (valid : CueRecord.of? s.ports[p].record.toList = some r) :
    decideStoreCue p [w] s = accepted (s.beginOp { OpRecord.new .storeCue (some b) (some p) with
      cue := r.cue, record := recordBody s.ports[p].record.toList }) := by
  simp only [decideStoreCue, idle, finOf?_of_toNat named, valid]
  rfl

theorem decideFormat_accepted (named : w.toNat = b.val) (other : s.tables.liveBank ≠ some b) :
    decideFormat p [w] s = accepted (s.beginOp (OpRecord.new .format (some b) (some p))) :=
  decideBankOp_accepted p idle named (if_neg other)

theorem decideSaveHouse_accepted :
    decideSaveHouse p [] s = accepted (s.beginOp (OpRecord.new .saveHouse none (some p))) := by
  simp [decideSaveHouse, idle]

end

/-! ### The state after an acceptance -/

section
variable {s u : State} {h : FrameHead} (hs : s.Serves h) {i : Instr} {code : Word} {args : List Word}
  {decide : PortIx → List Word → State → Decision} {op : OpRecord} {g : Segment}
  (decides : decide h.port args (s.frameTaken h.port) = accepted (u.beginOp op)) (granted : u.memPort.granted)
  (offers : op.offer = g)
include hs decides granted offers

theorem exec_beginsReading (kind : g.kind = .cellRead) (hports : u.ports = (s.frameTaken h.port).ports := by rfl)
    (hi : exec i s = .next (s.takeRequest h code args decide) := by rfl) (hc : assignedCode code = true := by rfl)
    (hl : args.length ≤ 127 := by simp) :
    exec i s = .next { u with
      ports := s.portsAfter h.port (replyTo h code .accepted)
      bank := { u.bank with state := .busy, op := some op }
      memPort := u.memPort.segmentHanded g } := by
  subst offers
  rw [State.beginOp_reads granted kind] at decides
  exact hi.trans (congrArg Host.Outcome.next (State.takeRequest_keepsPorts hs hc hl decides hports))

theorem exec_beginsWriting {ws : List Word} (kind : g.kind = .cellWrite) (forms : u.formCell op = ws)
    (hports : u.ports = (s.frameTaken h.port).ports := by rfl)
    (hi : exec i s = .next (s.takeRequest h code args decide) := by rfl) (hc : assignedCode code = true := by rfl)
    (hl : args.length ≤ 127 := by simp) :
    exec i s = .next { u with
      ports := s.portsAfter h.port (replyTo h code .accepted)
      bank := { u.bank with
        state := .busy, op := some op
        buffer := if u.memPort.engine.isSome then u.bank.buffer else bufferOf ws }
      memPort := u.memPort.segmentHanded g } := by
  subst offers forms
  rw [State.beginOp_writes granted kind] at decides
  exact hi.trans (congrArg Host.Outcome.next (State.takeRequest_keepsPorts hs hc hl decides hports))

end

/-- Settles O28: the operations that begin with a read of cell 0, then the two that begin with a write. -/
theorem bankOperationsAreAccepted : Obligations.BankOperationsAreAccepted := by
  refine ⟨fun h w cue b s hs granted idle named => ?_, fun h w b s hs granted idle => ?_⟩
  · intro accepted
    refine ⟨fun r valid => ?store, fun low high => ⟨?delete, ?read⟩, fun dark free clean => ?changeover, ?save⟩
    case store =>
      have decides := decideStoreCue_accepted (s := s.frameTaken h.port) h.port idle named
        (by rw [State.frameTaken_record]; exact valid)
      rw [State.frameTaken_record] at decides
      exact exec_beginsReading (u := s.frameTaken h.port) hs decides granted rfl rfl
    case delete =>
      exact exec_beginsReading (u := s.frameTaken h.port) hs
        (decideCueOp_accepted (s := s.frameTaken h.port) h.port idle named low high) granted rfl rfl
    case read =>
      exact exec_beginsReading (u := s.frameTaken h.port) hs
        (decideCueOp_accepted (s := s.frameTaken h.port) h.port idle named low high) granted rfl rfl
    case changeover =>
      exact exec_beginsReading hs
        (u := { s.frameTaken h.port with tables := { s.tables with stage := .loading } })
        (decideBankOp_accepted (s := s.frameTaken h.port) h.port idle named
          (changeoverCheck_passes (s := s.frameTaken h.port) b dark free clean)) granted rfl rfl
    case save =>
      exact exec_beginsReading (u := s.frameTaken h.port) hs
        (decideBankOp_accepted (s := s.frameTaken h.port) h.port idle named rfl) granted rfl rfl
  · intro accepted
    refine ⟨fun named other => ?format, ?saveHouse⟩
    case format =>
      exact exec_beginsWriting (u := s.frameTaken h.port) hs
        (decideFormat_accepted (s := s.frameTaken h.port) h.port idle named other) granted rfl rfl rfl
    case saveHouse =>
      exact exec_beginsWriting (u := s.frameTaken h.port) hs
        (decideSaveHouse_accepted (s := s.frameTaken h.port) h.port idle) granted rfl rfl rfl

end Sys2Proof.Machine
end

