-- ==== Sys2Proof/Proofs/Segments.lean ====
section
/-! The end of a segment of a bank operation (R130, R197, R200): the operation goes on with its next segment, ends with a reason, or
meets the RDY fault; each says what the Bank Controller's part of the event must be, and what the event is then. -/

namespace Sys2Proof.Machine

section
variable {s : State} {e : Engine} {op : OpRecord} {kind : OpKind} {n : Nat} {txn : TxnKind}

/-! ### The Bank Controller's part, by the kind of the operation -/

/-- What an operation of a kind does with the words of a segment. -/
def OpKind.take (kind : OpKind) (op : OpRecord) (h : Handed) (t : State) : State :=
  match kind with
  | .changeover => t.changeoverTake op h
  | .save => t.saveTake op h
  | .saveHouse => t.saveHouseTake op h
  | .format => t.formatTake op h
  | .storeCue => t.storeTake op h
  | .deleteCue => t.deleteTake op h
  | .readCue => t.readTake op h
  | .startUp => t.houseTake op h

/-- What an operation of a kind does at the fault of a segment. -/
def OpKind.takeFault (kind : OpKind) (op : OpRecord) (t : State) : State :=
  match kind with
  | .changeover => t.failChangeover .memoryFault
  | .startUp => t.houseFault op
  | _ => t.endOp .memoryFault

/-- The operation in progress takes its outcome whatever the Memory Port has come to. -/
theorem State.InSegment.takes (seg : s.InSegment e op kind n txn) {t : State} (same : t.bank.op = s.bank.op) (h : Handed) :
    t.takeSegment (some h) = kind.take op h t := by
  simp only [State.takeSegment, same, seg.inProgress, seg.opKind]
  cases kind <;> rfl

theorem State.InSegment.takesFault (seg : s.InSegment e op kind n txn) {t : State} (same : t.bank.op = s.bank.op) :
    t.takeSegment none = kind.takeFault op t := by
  simp only [State.takeSegment, same, seg.inProgress, seg.opKind]
  cases kind <;> rfl

/-! ### The end of an operation -/

theorem State.endOp_eq (reason : OpReason) {t : State} (inProgress : t.bank.op = some op) : t.endOp reason = { t with
    bank := { t.bank with state := .idle, op := none }, mgmt := t.mgmt.ended reason op } := by
  simp only [State.endOp, inProgress, Option.map_some, Option.bind_some]
  cases reason <;> rfl

/-- The grant in the event in which an operation ends. -/
theorem State.endOp_grant {t u : State} (reason : OpReason) {m : MemPort} (left : t = { u with memPort := { m with engine := none } })
    (inProgress : u.bank.op = some op) : (t.endOp reason).grant = { u with
      bank := { u.bank with state := .idle, op := none }, memPort := m.wentOn, mgmt := u.mgmt.ended reason op } := by
  have busy : t.bank.op = some op := by rw [left, inProgress]
  rw [State.endOp_eq reason busy, left]
  exact State.grant_ended rfl rfl

/-! ### The completion of a segment -/

theorem State.InSegment.completes (seg : s.InSegment e op kind n txn) :
    exec .segmentComplete s = .next (State.grant (State.takeSegment (some (s.handed e)) { s with
      mem := (s.finish e).mem
      memPort := { s.memPort.drive e.area e.cell ((s.txnWords e).length - 1) with engine := none } })) :=
  State.segmentComplete_next seg.running seg.granted seg.requester

/-- The operation goes on: its part changes the rest of the part to that of `u` and hands over the next segment. -/
theorem State.InSegment.goesOn (seg : s.InSegment e op kind n txn) {u : State} {op' : OpRecord} {g : Segment}
    (part : ∀ mem m, State.takeSegment (some (s.handed e)) { s with mem := mem, memPort := m } =
      State.handOver op' { u with mem := mem, memPort := m })
    (port : u.memPort = s.memPort) (offers : op'.offer = g) :
    exec .segmentComplete s = .next { u.onWith op' g with mem := (s.finish e).mem } := by
  rw [seg.completes, part, ← port]
  refine congrArg Host.Outcome.next ((State.grant_handOver (s := { u with mem := (s.finish e).mem }) offers rfl).trans ?_)
  exact State.onWith_drive { u with mem := (s.finish e).mem } op' g _ _ _

/-- The operation ends: its part changes the rest of the part to that of `u` and ends with a reason. -/
theorem State.InSegment.ends (seg : s.InSegment e op kind n txn) {u : State} {reason : OpReason}
    (part : ∀ mem m, State.takeSegment (some (s.handed e)) { s with mem := mem, memPort := m } =
      State.endOp reason { u with mem := mem, memPort := m })
    (port : u.memPort = s.memPort) (inProgress : u.bank.op = some op) (words : u.txnWords e = s.txnWords e) :
    exec .segmentComplete s = .next { u.endedWith e reason op with mem := (s.finish e).mem } := by
  rw [seg.completes, part, ← port, ← words]
  exact congrArg Host.Outcome.next (State.endOp_grant (u := { u with mem := (s.finish e).mem }) reason rfl inProgress)

/-- A segment that reads leaves the memory as it is. -/
theorem State.InSegment.keepsMem (seg : s.InSegment e op kind n txn) (reads : txn.writes = false) : (s.finish e).mem = s.mem :=
  State.finish_mem_reads s (by rw [seg.txnKind, reads])

theorem State.InSegment.readsOn (seg : s.InSegment e op kind n .cellRead) {u : State} {op' : OpRecord} {g : Segment}
    (part : ∀ m, State.takeSegment (some (s.handed e)) { s with memPort := m } = State.handOver op' { u with memPort := m })
    (port : u.memPort = s.memPort) (offers : op'.offer = g) :
    exec .segmentComplete s = .next (u.onWith op' g) := by
  rw [seg.completes, seg.keepsMem rfl, ← port]
  refine congrArg Host.Outcome.next ((congrArg State.grant (part _)).trans ?_)
  exact (State.grant_handOver offers rfl).trans (State.onWith_drive u op' g _ _ _)

theorem State.InSegment.readsEnd (seg : s.InSegment e op kind n .cellRead) {u : State} {reason : OpReason}
    (part : ∀ m, State.takeSegment (some (s.handed e)) { s with memPort := m } = State.endOp reason { u with memPort := m })
    (port : u.memPort = s.memPort) (mem : u.mem = s.mem) (inProgress : u.bank.op = some op) :
    exec .segmentComplete s = .next (u.endedWith e reason op) := by
  have words : u.txnWords e = s.txnWords e := by simp only [State.txnWords, seg.txnKind, mem]
  rw [seg.completes, seg.keepsMem rfl, ← port, ← words]
  exact congrArg Host.Outcome.next ((congrArg State.grant (part _)).trans (State.endOp_grant reason rfl inProgress))

/-- A write ends and the operation goes on, its part changing nothing but the operation record. -/
theorem State.InSegment.writesOn (seg : s.InSegment e op kind n txn) {op' : OpRecord} {g : Segment}
    (part : ∀ t : State, kind.take op (s.handed e) t = t.handOver op') (offers : op'.offer = g) :
    ∃ t, exec .segmentComplete s = .next t ∧ t = { s.onWith op' g with mem := t.mem } :=
  ⟨_, seg.goesOn (u := s) (fun mem m => (seg.takes (t := { s with mem := mem, memPort := m }) rfl _).trans (part _)) rfl offers, rfl⟩

/-- A write ends and with it the operation. -/
theorem State.InSegment.writesEnd (seg : s.InSegment e op kind n txn) {reason : OpReason}
    (part : ∀ t : State, kind.take op (s.handed e) t = t.endOp reason) :
    ∃ t, exec .segmentComplete s = .next t ∧ t = { s.endedWith e reason op with mem := t.mem } :=
  ⟨_, seg.ends (u := s) (fun mem m => (seg.takes (t := { s with mem := mem, memPort := m }) rfl _).trans (part _)) rfl
    seg.inProgress rfl, rfl⟩

/-! ### The fault of a segment (R192, R200) -/

theorem State.InSegment.faults (seg : s.InSegment e op kind n txn) {cut : Cut} (within : e.place + cut.accesses < (s.txnWords e).length) :
    exec (.rdyFault cut) s = .next (State.grant (State.takeSegment none { s with
      mem := (s.cutAt cut).mem
      memPort := { s.memPort.faulted e cut with engine := none }
      mgmt := s.mgmt.raise .memoryFault })) := by
  obtain ⟨e', same, faulted⟩ := State.faultTxn_next cut seg.granted within
  rw [State.takeOutcome, same.trans seg.requester] at faulted
  exact (exec_rdyFault cut seg.running).trans (congrArg Host.Outcome.next faulted)

/-- The memory after the fault of a segment. -/
theorem State.InSegment.cutMem (seg : s.InSegment e op kind n txn) {cut : Cut} (within : e.place + cut.accesses < (s.txnWords e).length) :
    (txn.writes = false → (s.cutAt cut).mem = s.mem) ∧
      (txn.writes = true → Memory.wf s.mem → ∀ a, Memory.read a (s.cutAt cut).mem = s.cutRead e cut a) := by
  obtain ⟨_, _, _, _, _, _, _, reads, writes⟩ := State.cutAt_next cut seg.granted within
  rw [seg.txnKind] at reads writes
  exact ⟨reads, writes⟩

end

/-- Settles O33: every operation but a CHANGEOVER and the start-up load ends at its fault. -/
theorem aFaultEndsABankOperation : Obligations.AFaultEndsABankOperation := by
  intro s e op n kind txn cut seg notChangeover notStartUp within
  obtain ⟨reads, writes⟩ := seg.cutMem within
  have part (t : State) (same : t.bank.op = s.bank.op) : t.takeSegment none = t.endOp .memoryFault := by
    rw [seg.takesFault same]
    cases kind with
    | changeover => contradiction
    | startUp => contradiction
    | save | saveHouse | format | storeCue | deleteCue | readCue => rfl
  have ended := seg.faults within
  rw [part _ (by rfl), State.endOp_grant (u := { s with mem := (s.cutAt cut).mem, mgmt := s.mgmt.raise .memoryFault })
    .memoryFault rfl seg.inProgress] at ended
  exact ⟨_, ended, rfl, reads, writes⟩

end Sys2Proof.Machine
end

