-- ==== Sys2Proof/Proofs/CueOperations.lean ====
section
/-! The cue operations segment by segment (R37–R42): the tests of cell 0, the cell chosen, what is written, and the ends. -/

namespace Sys2Proof.Machine

/-! ### The words that a transaction leaves in the memory -/

/-- The completion of a write writes the words from its place on. -/
theorem State.finish_read {s : State} {e : Engine} (writes : e.kind.writes = true) (wf : Memory.wf s.mem) (a : Nat) :
    Memory.read a (s.finish e).mem =
      if wordAddress e.area e.cell e.place ≤ a ∧ a < wordAddress e.area e.cell (s.txnWords e).length then
        at' (s.txnWords e) (a - wordAddress e.area e.cell 0)
      else Memory.read a s.mem := by
  have mem : (s.finish e).mem = Memory.writeRun (wordAddress e.area e.cell e.place) ((s.txnWords e).drop e.place) s.mem := by
    simp only [State.finish, writes, if_true]
  have place (k : Nat) : wordAddress e.area e.cell k = wordAddress e.area e.cell 0 + k := rfl
  rw [mem, place e.place, place (s.txnWords e).length]
  generalize wordAddress e.area e.cell 0 = b
  split
  · next inside =>
    have fits : a - (b + e.place) < ((s.txnWords e).drop e.place).length := by
      rw [List.length_drop]
      omega
    have written := Memory.read_writeRun_inside _ (b + e.place) _ s.mem wf fits
    rw [show b + e.place + (a - (b + e.place)) = a from by omega, List.getElem_drop] at written
    have index : e.place + (a - (b + e.place)) = a - b := by omega
    rw [written, at', List.getD_eq_getElem?_getD]
    simp only [index]
    rw [List.getElem?_eq_getElem, Option.getD_some]
  · next outside =>
    refine Memory.read_writeRun_outside _ _ _ _ ?_
    rw [List.length_drop]
    omega

/-! ### The directory that cell 0 holds -/

theorem Cell0.sound_ascends {c : Cell0} (sound : c.sound = true) : Ascends c.entries := by
  simp only [Cell0.sound, soundEntries, Bool.and_eq_true] at sound
  exact (ascendingFrom_ascends sound.2.1).2

theorem entryOf?_eq_none_iff {cue : Nat} {es : List DirEntry} : entryOf? cue es = none ↔ ∀ d ∈ es, d.cue ≠ cue := by
  simp [entryOf?]

theorem entryOf?_isSome_iff {cue : Nat} {es : List DirEntry} : (entryOf? cue es).isSome = true ↔ ∃ d ∈ es, d.cue = cue := by
  simp [entryOf?]

/-- A cell that no entry names. -/
theorem unnamed_iff {es : List DirEntry} {n : Nat} : (!es.any fun d => d.cell == n) = true ↔ ∀ d ∈ es, d.cell ≠ n := by
  simp

theorem freeCell?_eq_some {es : List DirEntry} {n : Nat} (low : 10 ≤ n) (high : n ≤ 255) (free : ∀ d ∈ es, d.cell ≠ n)
    (lowest : ∀ m, 10 ≤ m → m < n → ∃ d ∈ es, d.cell = m) : freeCell? es = some n := by
  rw [freeCell?, List.find?_map, Option.map_eq_some_iff]
  refine ⟨n - 10, List.find?_range_eq_some.2 ⟨?_, List.mem_range.2 (by omega), fun j below => ?_⟩, by omega⟩
  · rw [Function.comp_apply, Nat.sub_add_cancel low]
    exact unnamed_iff.2 free
  · obtain ⟨d, member, cell⟩ := lowest (j + 10) (by omega) (by omega)
    rw [Bool.not_eq_true', Function.comp_apply, ← Bool.not_eq_true]
    exact fun unnamed => unnamed_iff.1 unnamed d member cell

theorem freeCell?_eq_none {es : List DirEntry} (named : ∀ m, 10 ≤ m → m ≤ 255 → ∃ d ∈ es, d.cell = m) : freeCell? es = none := by
  cases found : freeCell? es with
  | none => rfl
  | some n =>
    obtain ⟨low, high, free⟩ := freeCell?_spec found
    obtain ⟨d, member, cell⟩ := named n low high
    exact absurd cell (free d member)

/-! ### What each operation does at its segments -/

section
variable {s : State} {op : OpRecord} {h : Handed} {c : Cell0} (read : Cell0.ofWords h.words = c)

/-- The tests of STORE CUE and DELETE CUE that cell 0 fails (R37). -/
def Cell0.unfit (c : Cell0) : Prop := c.mark ≠ 0xA55A ∨ c.sound = false

theorem Cell0.unfit_iff {c : Cell0} : ¬(c.mark = markValid ∧ c.sound = true) ↔ c.unfit := by
  rw [Cell0.unfit, not_and_or, Bool.not_eq_true]
  rfl

theorem State.storeTake_unfit (first : op.segment = 1) (unfit : (Cell0.ofWords h.words).unfit) :
    s.storeTake op h = (s.readCell0 op.bank h.words).endOp .bankBad := by
  simp only [State.storeTake, first, if_true, if_neg (Cell0.unfit_iff.2 unfit)]

theorem State.deleteTake_unfit (first : op.segment = 1) (unfit : (Cell0.ofWords h.words).unfit) :
    s.deleteTake op h = (s.readCell0 op.bank h.words).endOp .bankBad := by
  simp only [State.deleteTake, first, if_true, if_neg (Cell0.unfit_iff.2 unfit)]

theorem State.readTake_unsound (first : op.segment = 1) (unsound : (Cell0.ofWords h.words).sound = false) :
    s.readTake op h = (s.readCell0 op.bank h.words).endOp .bankBad := by
  simp only [State.readTake, first, unsound, if_true, Bool.false_eq_true, if_false]

section
variable (first : op.segment = 1) (valid : c.mark = 0xA55A) (sound : c.sound = true)
include read first sound

section
include valid

/-- A new cue with every place taken, or any with every cell named (R39). -/
theorem State.storeTake_full
    (full : (∀ d ∈ c.entries, d.cue ≠ op.cue) ∧ c.entries.length = 246 ∨
      ∀ m, 10 ≤ m → m ≤ 255 → ∃ d ∈ c.entries, d.cell = m) :
    s.storeTake op h = (s.readCell0 op.bank h.words).endOp .full := by
  have fit : c.mark = markValid ∧ c.sound = true := ⟨valid, sound⟩
  simp only [State.storeTake, first, read, fit, and_self, if_true]
  split
  · rfl
  · next room =>
    obtain ⟨new, length⟩ | named := full
    · exact absurd ⟨by rw [entryOf?_eq_none_iff.2 new]; rfl, length⟩ room
    · rw [freeCell?_eq_none named]

theorem State.storeTake_chooses {n : Nat} (room : c.entries.length < 246) (free : freeCell? c.entries = some n) :
    s.storeTake op h = (s.readCell0 op.bank h.words).handOver { op with segment := 2, cell0 := some c, cell := n } := by
  have fit : c.mark = markValid ∧ c.sound = true := ⟨valid, sound⟩
  have few : ¬((entryOf? op.cue c.entries).isNone = true ∧ c.entries.length = 246) := fun full => by omega
  simp only [State.storeTake, first, read, fit, and_self, if_true, if_neg few, free, State.nextSegment]

theorem State.deleteTake_noCue (missing : ∀ d ∈ c.entries, d.cue ≠ op.cue) :
    s.deleteTake op h = (s.readCell0 op.bank h.words).endOp .noCue := by
  have fit : c.mark = markValid ∧ c.sound = true := ⟨valid, sound⟩
  simp only [State.deleteTake, first, read, fit, and_self, if_true, entryOf?_eq_none_iff.2 missing, Option.isSome_none,
    Bool.false_eq_true, if_false]

theorem State.deleteTake_finds (held : ∃ d ∈ c.entries, d.cue = op.cue) :
    s.deleteTake op h = (s.readCell0 op.bank h.words).handOver { op with segment := 2, cell0 := some c } := by
  have fit : c.mark = markValid ∧ c.sound = true := ⟨valid, sound⟩
  simp only [State.deleteTake, first, read, fit, and_self, if_true, entryOf?_isSome_iff.2 held, State.nextSegment]

end

theorem State.readTake_noCue (missing : ∀ d ∈ c.entries, d.cue ≠ op.cue) :
    s.readTake op h = (s.readCell0 op.bank h.words).endOp .noCue := by
  simp only [State.readTake, first, read, sound, if_true, entryOf?_eq_none_iff.2 missing]

theorem State.readTake_finds {d : DirEntry} (member : d ∈ c.entries) (cue : d.cue = op.cue) :
    s.readTake op h = (s.readCell0 op.bank h.words).handOver { op with segment := 2, cell0 := some c, cell := d.cell } := by
  simp only [State.readTake, first, read, sound, if_true, (entryOf?_iff (Cell0.sound_ascends sound)).2 ⟨member, cue⟩,
    State.nextSegment]

end

theorem State.storeTake_record (second : op.segment = 2) : s.storeTake op h = s.handOver { op with segment := 3 } := by
  simp only [State.storeTake, second, State.nextSegment, if_true]
  rfl

theorem State.storeTake_ends (third : op.segment = 3) : s.storeTake op h = (s.replaceDirectory op).endOp .ok := by
  simp only [State.storeTake, third]
  rfl

theorem State.deleteTake_ends (second : op.segment = 2) : s.deleteTake op h = (s.replaceDirectory op).endOp .ok := by
  simp only [State.deleteTake, second]
  rfl

theorem State.readTake_ends (second : op.segment = 2) {p : PortIx} (port : op.port = some p) {record : Vector Word 512}
    (came : bufferOf h.words = record) : s.readTake op h = State.endOp .ok { s with
      bank := { s.bank with buffer := record }
      ports := s.ports.set p { s.ports[p] with record := record } } := by
  simp only [State.readTake, second, port, came]
  rfl

theorem State.replaceDirectory_eq (bank : op.bank ≠ none) : s.replaceDirectory op = { s with
    playback := { s.playback with
      directory := if op.bank = s.tables.liveBank then op.newEntries else s.playback.directory } } := by
  by_cases live : op.bank = s.tables.liveBank
  · rw [if_pos live, State.replaceDirectory, if_pos ⟨Option.isSome_iff_ne_none.2 bank, live⟩]
  · rw [if_neg live, State.replaceDirectory, if_neg fun both => live both.2]

end

/-! ### The words of cell 0 that they write -/

theorem OpRecord.newEntries_store {op : OpRecord} (kind : op.kind = .storeCue) :
    op.newEntries = storeEntry ⟨op.cue, op.cell⟩ op.header.entries := by
  simp only [OpRecord.newEntries, kind]

theorem OpRecord.newEntries_delete {op : OpRecord} (kind : op.kind = .deleteCue) :
    op.newEntries = removeEntry op.cue op.header.entries := by
  simp only [OpRecord.newEntries, kind]

/-! ### The events -/

section
variable {s : State} {e : Engine} {op : OpRecord} {kind : OpKind} {n : Nat} {txn : TxnKind}

theorem State.readCell0_atPort (s : State) (m : MemPort) (bank : Option BankIx) (ws : List Word) :
    State.readCell0 bank ws { s with memPort := m } = { s.cell0Read bank ws with memPort := m } := by
  simp only [State.readCell0, State.cell0Read, outcomeOf]

theorem State.cell0Read_keeps (s : State) (bank : Option BankIx) (ws : List Word) : (s.cell0Read bank ws).memPort = s.memPort ∧
    (s.cell0Read bank ws).mem = s.mem ∧ (s.cell0Read bank ws).bank.op = s.bank.op := by
  simp only [State.cell0Read, and_self]

/-- After the read of cell 0, an end. -/
theorem State.InSegment.cell0Ends (seg : s.InSegment e op kind 1 .cellRead) {reason : OpReason}
    (part : ∀ t : State, t.bank.op = s.bank.op →
      t.takeSegment (some (s.handed e)) = (t.readCell0 op.bank (s.handed e).words).endOp reason) :
    exec .segmentComplete s = .next ((s.cell0Read op.bank (s.handed e).words).endedWith e reason op) := by
  obtain ⟨port, mem, inProgress⟩ := s.cell0Read_keeps op.bank (s.handed e).words
  refine seg.readsEnd (fun m => ?_) port mem (inProgress.trans seg.inProgress)
  rw [part { s with memPort := m } (by rfl), s.readCell0_atPort]

/-- After the read of cell 0, the next segment. -/
theorem State.InSegment.cell0Goes (seg : s.InSegment e op kind 1 .cellRead) {op' : OpRecord} {g : Segment}
    (part : ∀ t : State, t.bank.op = s.bank.op →
      t.takeSegment (some (s.handed e)) = (t.readCell0 op.bank (s.handed e).words).handOver op')
    (offers : op'.offer = g) :
    exec .segmentComplete s = .next ((s.cell0Read op.bank (s.handed e).words).onWith op' g) := by
  obtain ⟨port, -, -⟩ := s.cell0Read_keeps op.bank (s.handed e).words
  refine seg.readsOn (fun m => ?_) port offers
  rw [part { s with memPort := m } (by rfl), s.readCell0_atPort]

/-- A cue operation that has written cell 0 ends, the live directory replaced when its bank is live. -/
theorem State.InSegment.directoryEnds (seg : s.InSegment e op kind n txn) (bank : op.bank ≠ none)
    (part : ∀ t : State, t.bank.op = s.bank.op → t.takeSegment (some (s.handed e)) = (t.replaceDirectory op).endOp .ok) :
    exec .segmentComplete s = .next { s.endedWith e .ok op with
      mem := (s.finish e).mem
      playback := { s.playback with
        directory := if op.bank = s.tables.liveBank then op.newEntries else s.playback.directory } } := by
  refine seg.ends (u := { s with playback := { s.playback with
    directory := if op.bank = s.tables.liveBank then op.newEntries else s.playback.directory } })
    (fun mem m => (part { s with mem := mem, memPort := m } rfl).trans ?_) rfl seg.inProgress rfl
  exact congrArg (State.endOp .ok) (State.replaceDirectory_eq bank)

end

/-- Settles O32: the read of cell 0 by its tests, the record written, cell 0 written, and the read of the cue. -/
theorem cueOperationsTestTheDirectoryAndEnd : Obligations.CueOperationsTestTheDirectoryAndEnd := by
  refine ⟨fun s e op => ?first, fun s e op seg wf => ?record, fun s op => ⟨fun kind third => ?formStore,
    fun kind second => ?formDelete⟩, fun s e op p => ?last⟩
  case first =>
    intro ws c ends goes
    refine ⟨fun seg valid sound => ⟨fun new full => ?newFull, fun old full => ?oldFull⟩,
      fun n seg valid sound room low high free lowest => ?chooses, fun seg valid sound => ⟨fun missing => ?deleteNone,
      fun held => ?deletes⟩, fun seg sound => ⟨fun missing => ?readNone, fun d member cue => ?reads⟩, fun seg unsound => ?unsound,
      fun seg unfit => ?unfit⟩
    case newFull =>
      exact seg.cell0Ends fun t same => (seg.takes same _).trans
        (State.storeTake_full rfl seg.opSegment valid sound (.inl ⟨new, full⟩))
    case oldFull =>
      exact seg.cell0Ends fun t same => (seg.takes same _).trans
        (State.storeTake_full rfl seg.opSegment valid sound (.inr full))
    case chooses =>
      exact seg.cell0Goes (fun t same => (seg.takes same _).trans
        (State.storeTake_chooses rfl seg.opSegment valid sound room (freeCell?_eq_some low high free lowest)))
        (by simp [OpRecord.offer, seg.opKind, OpRecord.area])
    case deleteNone =>
      exact seg.cell0Ends fun t same => (seg.takes same _).trans
        (State.deleteTake_noCue rfl seg.opSegment valid sound missing)
    case deletes =>
      exact seg.cell0Goes (fun t same => (seg.takes same _).trans
        (State.deleteTake_finds rfl seg.opSegment valid sound held))
        (by simp [OpRecord.offer, seg.opKind, OpRecord.area])
    case readNone =>
      exact seg.cell0Ends fun t same => (seg.takes same _).trans (State.readTake_noCue rfl seg.opSegment sound missing)
    case reads =>
      exact seg.cell0Goes (fun t same => (seg.takes same _).trans
        (State.readTake_finds rfl seg.opSegment sound member cue))
        (by simp [OpRecord.offer, seg.opKind, OpRecord.area])
    case unsound =>
      exact seg.cell0Ends fun t same => (seg.takes same _).trans (State.readTake_unsound seg.opSegment unsound)
    case unfit =>
      obtain seg | seg := seg
      · exact seg.cell0Ends fun t same => (seg.takes same _).trans (State.storeTake_unfit seg.opSegment unfit)
      · exact seg.cell0Ends fun t same => (seg.takes same _).trans (State.deleteTake_unfit seg.opSegment unfit)
  case record =>
    refine ⟨_, seg.goesOn (u := s) (g := ⟨.cellWrite, op.area, 0, 0xFFFF⟩) (fun mem m =>
      (seg.takes (t := { s with mem := mem, memPort := m }) rfl _).trans (State.storeTake_record seg.opSegment)) rfl
      (by simp [OpRecord.offer, seg.opKind, OpRecord.area]), rfl, fun a => ?_⟩
    have words : s.txnWords e = op.record ++ [checkWord op.record] := by
      simp only [State.txnWords, seg.txnKind, seg.inProgress]
      rfl
    rw [State.finish_read (by rw [seg.txnKind]; rfl) wf, words, List.length_append, List.length_singleton]
    exact if_congr (and_congr_right fun _ => Nat.lt_succ_iff) rfl rfl
  case formStore =>
    rw [← OpRecord.newEntries_store kind]
    simp only [State.formCell, kind]
    rfl
  case formDelete =>
    rw [← OpRecord.newEntries_delete kind]
    simp only [State.formCell, kind]
  case last =>
    intro ended
    refine ⟨fun seg bank => ?store, fun seg bank => ?delete, fun seg port => ?read⟩
    case store =>
      rw [← OpRecord.newEntries_store seg.opKind]
      exact ⟨_, seg.directoryEnds bank fun t same => (seg.takes same _).trans (State.storeTake_ends seg.opSegment), rfl⟩
    case delete =>
      rw [← OpRecord.newEntries_delete seg.opKind]
      exact ⟨_, seg.directoryEnds bank fun t same => (seg.takes same _).trans (State.deleteTake_ends seg.opSegment), rfl⟩
    case read =>
      intro record
      have came : bufferOf (s.handed e).words = record := rfl
      clear_value record
      exact seg.readsEnd (u := { s with
          bank := { s.bank with buffer := record }
          ports := s.ports.set p { s.ports[p] with record := record } })
        (fun m => (seg.takes (t := { s with memPort := m }) rfl _).trans (State.readTake_ends seg.opSegment port came)) rfl rfl
        seg.inProgress

end Sys2Proof.Machine
end

