-- ==== Sys2Proof/Proofs/Changeovers.lean ====
section
/-! A changeover (R134–R137): each of its segments, the commit, and the failures, after which the tables stand as they did. -/

namespace Sys2Proof.Machine

/-! ### What a changeover does at its segments -/

/-- The staging tables with the cell of segment n of a changeover loaded (R135). -/
def TableSet.cellLoaded (t : TableSet) (n : Nat) (ws : List Word) : TableSet :=
  if n ≤ 4 then { t with prodPatch := loadPatchCell t.prodPatch (n - 2) ws }
  else { t with prodCircuits := loadCircuitCell t.prodCircuits (n - 5) ws }

/-- The table store after a changeover has failed (R137). -/
def Tables.restored (t : Tables) : Tables := { t with staging := t.live, stage := .clean }

/-- The table store after a changeover to `bank` has committed the staging production tables (R136). -/
def Tables.committed (t : Tables) (bank : Option BankIx) : Tables :=
  { t with
    live := { t.live with prodPatch := t.staging.prodPatch, prodCircuits := t.staging.prodCircuits }
    stage := .clean
    liveBank := bank }

section
variable {s : State} {op : OpRecord} {h : Handed}

theorem State.failChangeover_eq (s : State) (reason : OpReason) :
    s.failChangeover reason = State.endOp reason { s with tables := s.tables.restored } := rfl

theorem State.changeoverTake_passes (first : op.segment = 1) (valid : at' h.words 0 = 0xA55A)
    (sound : (Cell0.ofWords h.words).sound = true) : s.changeoverTake op h =
      (s.readCell0 op.bank h.words).handOver { op with segment := 2, cell0 := some (Cell0.ofWords h.words) } := by
  have fit : (Cell0.ofWords h.words).mark = markValid ∧ (Cell0.ofWords h.words).sound = true := ⟨valid, sound⟩
  simp only [State.changeoverTake, first, fit, and_self, if_true, State.nextSegment]

theorem State.changeoverTake_unfit (first : op.segment = 1)
    (unfit : at' h.words 0 ≠ 0xA55A ∨ (Cell0.ofWords h.words).sound = false) :
    s.changeoverTake op h = (s.readCell0 op.bank h.words).failChangeover .bankBad := by
  have unfit : (Cell0.ofWords h.words).unfit := unfit
  simp only [State.changeoverTake, first, if_true, if_neg (Cell0.unfit_iff.2 unfit)]

theorem State.changeoverTake_loads {n : Nat} (segment : op.segment = n) (low : 2 ≤ n) (high : n ≤ 9) :
    s.changeoverTake op h = State.handOver
      { op with segment := n + 1, crc := h.crc, patchCheck := if n = 4 then h.crc else op.patchCheck }
      { s with tables := { s.tables with staging := s.tables.staging.cellLoaded n h.words } } := by
  have notFirst : n ≠ 1 := by omega
  have notLast : n < 10 := by omega
  by_cases area : n = 4
  · subst area
    simp only [State.changeoverTake, segment, TableSet.cellLoaded, State.nextSegment, if_true, if_neg notFirst]
  · simp only [State.changeoverTake, segment, TableSet.cellLoaded, State.nextSegment, if_neg notFirst, if_neg area, if_pos notLast]

theorem State.changeoverTake_last (last : op.segment = 10) :
    s.changeoverTake op h =
      let tested := State.testedAreas (op.patchCheck == op.header.patchCheck) (h.crc == op.header.circCheck)
        { s with tables := { s.tables with staging := s.tables.staging.cellLoaded 10 h.words } }
      if op.patchCheck = op.header.patchCheck ∧ h.crc = op.header.circCheck then tested.commit { op with crc := h.crc }
      else tested.failChangeover .bankBad := by
  simp only [State.changeoverTake, last, TableSet.cellLoaded, Bool.and_eq_true, beq_iff_eq]
  rfl

/-- The output links after a change of the live tables (R10, R166). -/
def linksFlagged (outs : Vector OutPort 6) (old new : TableSet) : Vector OutPort 6 :=
  tab fun k => { outs[k] with forced := outs[k].forced || old.modeRecord k != new.modeRecord k }

theorem State.commit_eq (s : State) (op : OpRecord) : s.commit op = State.endOp .ok { s with
    tables := s.tables.committed op.bank
    playback := s.playback.commit op.header.entries
    outs := linksFlagged s.outs s.tables.live (s.tables.committed op.bank).live } := rfl

/-- The table store when the last cell of a changeover has come in. -/
def Tables.loaded (t : Tables) (n : Nat) (ws : List Word) : Tables := { t with staging := t.staging.cellLoaded n ws }

theorem State.changeoverTake_commits (last : op.segment = 10) (patch : op.patchCheck = op.header.patchCheck)
    (circuits : h.crc = op.header.circCheck) : s.changeoverTake op h = State.endOp .ok { s with
      tables := (s.tables.loaded 10 h.words).committed op.bank
      playback := s.playback.commit op.header.entries
      outs := linksFlagged s.outs s.tables.live ((s.tables.loaded 10 h.words).committed op.bank).live
      bank := { s.bank with
        lastHeader := s.bank.lastHeader.map fun h => { h with patch := .matched, circuits := .matched } } } := by
  rw [State.changeoverTake_last last]
  simp only [patch, circuits, and_self, if_true, beq_self_eq_true, State.commit_eq, State.testedAreas, outcomeOf, Tables.loaded]
  rfl

theorem State.changeoverTake_mismatches (last : op.segment = 10)
    (wrong : op.patchCheck ≠ op.header.patchCheck ∨ h.crc ≠ op.header.circCheck) : s.changeoverTake op h =
      State.failChangeover .bankBad { s with
        tables := s.tables.loaded 10 h.words
        bank := { s.bank with lastHeader := s.bank.lastHeader.map fun g => { g with
          patch := outcomeOf (op.patchCheck == op.header.patchCheck)
          circuits := outcomeOf (h.crc == op.header.circCheck) } } } := by
  have not : ¬(op.patchCheck = op.header.patchCheck ∧ h.crc = op.header.circCheck) := by
    rwa [not_and_or]
  rw [State.changeoverTake_last last]
  simp only [if_neg not, State.testedAreas, Tables.loaded]

end

theorem OpRecord.offer_changeover {op : OpRecord} (kind : op.kind = .changeover) {n : Nat} (segment : op.segment = n + 1) (low : 1 ≤ n) :
    op.offer = ⟨.cellRead, op.area, n, if n = 1 ∨ n = 4 then 0xFFFF else op.crc⟩ := by
  have first : (n + 1 == 1 || n + 1 == 2 || n + 1 == 5) = true ↔ n = 1 ∨ n = 4 := by
    simp only [Bool.or_eq_true, beq_iff_eq]
    omega
  simp only [OpRecord.offer, kind, segment, Nat.add_sub_cancel, first]

/-! ### The events -/

section
variable {s : State} {e : Engine} {op : OpRecord} {n : Nat}

/-- A changeover fails at the completion of a segment that leaves the rest of the part as in `u`. -/
theorem State.InSegment.changeoverFails (seg : s.InSegment e op .changeover n .cellRead) {u : State}
    (part : ∀ m, State.changeoverTake op (s.handed e) { s with memPort := m } = State.failChangeover .bankBad { u with memPort := m })
    (port : u.memPort = s.memPort) (mem : u.mem = s.mem) (inProgress : u.bank.op = some op) :
    exec .segmentComplete s = .next { u.endedWith e .bankBad op with tables := u.tables.restored } := by
  have words : u.txnWords e = s.txnWords e := by simp only [State.txnWords, seg.txnKind, mem]
  have ends := seg.readsEnd (u := { u with tables := u.tables.restored }) (reason := .bankBad)
    (fun m => (seg.takes (t := { s with memPort := m }) rfl _).trans (part m)) port mem inProgress
  exact ends

/-- The fault of a changeover's segment. -/
theorem State.InSegment.changeoverFaults (seg : s.InSegment e op .changeover n .cellRead) {cut : Cut}
    (within : e.place + cut.accesses < 512) :
    exec (.rdyFault cut) s = .next { s with
      bank := { s.bank with state := .idle, op := none }
      memPort := (s.memPort.faulted e cut).wentOn
      mgmt := (s.mgmt.raise .memoryFault).ended .memoryFault op
      tables := s.tables.restored } := by
  have length : (s.txnWords e).length = 512 := by
    simp only [State.txnWords, seg.txnKind, Memory.readRun_length]
  have within : e.place + cut.accesses < (s.txnWords e).length := by rwa [length]
  have faulted := seg.faults within
  rw [seg.takesFault (by rfl), (seg.cutMem within).1 rfl] at faulted
  refine faulted.trans (congrArg Host.Outcome.next ?_)
  exact State.endOp_grant (u := { s with tables := s.tables.restored, mgmt := s.mgmt.raise .memoryFault }) .memoryFault rfl
    seg.inProgress

end

/-- Settles O31: the segments that load, the commit, then the three failures. -/
theorem aChangeoverCommitsWholeOrNotAtAll : Obligations.AChangeoverCommitsWholeOrNotAtAll := by
  refine ⟨fun s e op n => ?loads, fun s e op seg patch circuits => ?commits, fun s e op cut n => ?fails⟩
  case loads =>
    intro ws crc
    refine ⟨fun seg valid sound => ?first, fun seg low high => ?next⟩
    case first =>
      exact seg.cell0Goes (fun t same => (seg.takes same _).trans (State.changeoverTake_passes seg.opSegment valid sound))
        (OpRecord.offer_changeover (n := 1) (by exact seg.opKind) (by rfl) (Nat.le_refl 1))
    case next =>
      refine seg.readsOn (fun m => (seg.takes (t := { s with memPort := m }) rfl _).trans
        (State.changeoverTake_loads seg.opSegment low high)) rfl ?_
      refine (OpRecord.offer_changeover (n := n) (by exact seg.opKind) (by rfl) (by omega)).trans ?_
      have first : n = 1 ∨ n = 4 ↔ n = 4 := by omega
      simp only [first]
      rfl
  case commits =>
    intro live
    have tables : (s.tables.loaded 10 (s.handed e).words).committed op.bank =
        ⟨live, { s.tables.staging with prodCircuits := live.prodCircuits }, .clean, op.bank⟩ := by
      simp [Tables.loaded, Tables.committed, TableSet.cellLoaded, live]
    have commits := seg.readsEnd (u := { s with
        tables := (s.tables.loaded 10 (s.handed e).words).committed op.bank
        playback := s.playback.commit op.header.entries
        outs := linksFlagged s.outs s.tables.live ((s.tables.loaded 10 (s.handed e).words).committed op.bank).live
        bank := { s.bank with
          lastHeader := s.bank.lastHeader.map fun h => { h with patch := .matched, circuits := .matched } } })
      (fun m => (seg.takes (t := { s with memPort := m }) rfl _).trans
        (State.changeoverTake_commits (s := { s with memPort := m }) seg.opSegment patch circuits)) rfl rfl seg.inProgress
    rw [tables] at commits
    exact ⟨_, commits, fun k => tab_get .., rfl⟩
  case fails =>
    intro ws outcome failed
    refine ⟨fun seg unfit => ?first, fun seg wrong => ?last, fun seg within => seg.changeoverFaults within⟩
    case first =>
      obtain ⟨port, mem, inProgress⟩ := s.cell0Read_keeps op.bank ws
      refine (seg.changeoverFails (fun m => ?_) port mem (inProgress.trans seg.inProgress)).trans ?_
      · rw [State.changeoverTake_unfit seg.opSegment unfit, s.readCell0_atPort]
      · simp only [State.cell0Read]
        rfl
    case last =>
      have fails := seg.changeoverFails (u := { s with
          tables := s.tables.loaded 10 ws
          bank := { s.bank with lastHeader := s.bank.lastHeader.map fun g => { g with
            patch := outcomeOf (op.patchCheck == op.header.patchCheck)
            circuits := outcomeOf ((s.handed e).crc == op.header.circCheck) } } })
        (fun m => State.changeoverTake_mismatches (s := { s with memPort := m }) seg.opSegment wrong) rfl rfl seg.inProgress
      simp only [State.endedWith, Tables.restored, Tables.loaded, State.txnWords] at fails ⊢
      exact fails

end Sys2Proof.Machine
end

