-- ==== Sys2Proof/Proofs/CellWords.lean ====
section
/-! The words of every cell that SAVE, FORMAT and SAVE HOUSE write, place by place (R139–R142, R226, R227). -/

namespace Sys2Proof.Machine

/-! ### Words by their places -/

theorem at'_append_left {xs ys : List Word} {i : Nat} (inside : i < xs.length) : at' (xs ++ ys) i = at' xs i :=
  List.getD_append xs ys 0 i inside

theorem at'_append_right {xs ys : List Word} (i : Nat) : at' (xs ++ ys) (xs.length + i) = at' ys i := by
  rw [at', List.getD_append_right _ _ _ _ (Nat.le_add_right _ _), Nat.add_sub_cancel_left]
  rfl

theorem at'_zeros (n i : Nat) : at' (List.replicate n 0) i = 0 := by
  rw [at', List.getD_eq_getElem?_getD, List.getElem?_replicate]
  split <;> rfl

/-- Past the words laid out, a cell is zero. -/
theorem at'_past {xs : List Word} {n i : Nat} (past : xs.length ≤ i) : at' (xs ++ List.replicate n 0) i = 0 := by
  obtain ⟨j, rfl⟩ := Nat.exists_eq_add_of_le past
  rw [at'_append_right, at'_zeros]

theorem at'_of_getElem? {xs : List Word} {i : Nat} {w : Word} (place : xs[i]? = some w) : at' xs i = w := by
  rw [at', List.getD_eq_getElem?_getD, place, Option.getD_some]

theorem at'_map_toList {α : Type} {n : Nat} (v : Vector α n) (f : α → Word) (i : Fin n) : at' (v.toList.map f) i.val = f v[i] := by
  refine at'_of_getElem? ?_
  rw [List.getElem?_map, Vector.getElem?_toList, Vector.getElem?_eq_getElem i.isLt]
  rfl

theorem getRun_get {α : Type} {n : Nat} (v : Vector α n) {first count : Nat} (i : Fin n) (lo : first ≤ i.val)
    (hi : i.val < first + count) : (getRun v first count)[i.val - first]? = some v[i] := by
  rw [getRun, List.getElem?_take_of_lt (by omega), List.getElem?_drop, Nat.add_sub_cancel' lo, Vector.getElem?_toList,
    Vector.getElem?_eq_getElem i.isLt]
  rfl

section
variable {α : Type} {f : α → List Word} {m : Nat} (width : ∀ a, (f a).length = m)
include width

/-- A word of a run of elements of one width. -/
theorem at'_elements {n : Nat} (v : Vector α n) {first count : Nat} (i : Fin n) (lo : first ≤ i.val) (hi : i.val < first + count)
    {j : Nat} (hj : j < m) : at' ((getRun v first count).flatMap f) (m * (i.val - first) + j) = at' (f v[i]) j := by
  have place := getElem?_flatMap_width width (getRun v first count) (i.val - first) hj
  rw [getRun_get v i lo hi, Option.bind_some] at place
  rw [at', List.getD_eq_getElem?_getD, place, ← List.getD_eq_getElem?_getD]
  rfl

/-- The words of one element of a list of elements of one width. -/
theorem chunk_flatMap (l : List α) {i : Nat} (hi : i < l.length) : ((l.flatMap f).drop (m * i)).take m = f l[i] := by
  induction l generalizing i with
  | nil => exact absurd hi (Nat.not_lt_zero i)
  | cons a l ih =>
    cases i with
    | zero => rw [Nat.mul_zero, List.drop_zero, List.flatMap_cons, ← width a, List.take_left]; rfl
    | succ i =>
      have past : m * (i + 1) = (f a).length + m * i := by rw [width, Nat.mul_succ, Nat.add_comm]
      rw [past, List.flatMap_cons, List.drop_length_add_append]
      exact ih (Nat.lt_of_succ_lt_succ hi)

end

theorem chunk_toList {α : Type} {f : α → List Word} {m n : Nat} (width : ∀ a, (f a).length = m) (v : Vector α n) (i : Fin n) :
    ((v.toList.flatMap f).drop (m * i.val)).take m = f v[i] :=
  (chunk_flatMap width v.toList (by simp)).trans (congrArg f (Vector.getElem_toList _))

/-! ### The cells of the tables -/

theorem patchWords_length (e : Option PatchEntry) : (patchWords e).length = 2 := by cases e <;> rfl

theorem recordWords_length (r : Option CircuitRecord) : (recordWords r).length = 4 := by cases r <;> rfl

theorem patchCell_at (v : Vector (Option PatchEntry) 768) (c : Circ) {j : Nat} (hj : j < 2) :
    at' (patchCell v (c.val / 256)) (2 * (c.val % 256) + j) = at' (patchWords v[c]) j := by
  have place := at'_elements patchWords_length v (first := 256 * (c.val / 256)) (count := 256) c (by omega) (by omega) hj
  rwa [show c.val - 256 * (c.val / 256) = c.val % 256 from by omega] at place

theorem circuitCell_at (v : Vector (Option CircuitRecord) 768) (c : Circ) {j : Nat} (hj : j < 4) :
    at' (circuitCell v (c.val / 128)) (4 * (c.val % 128) + j) = at' (recordWords v[c]) j := by
  have place := at'_elements recordWords_length v (first := 128 * (c.val / 128)) (count := 128) c (by omega) (by omega) hj
  rwa [show c.val - 128 * (c.val / 128) = c.val % 128 from by omega] at place

/-- The words of a cell of a patch, entry by entry. -/
theorem patchCell_words {ws : List Word} {v : Vector (Option PatchEntry) 768} {c : Circ} {i : Nat} (formed : ws = patchCell v i)
    (cell : i = c.val / 256) : ∀ j, j < 2 → at' ws (2 * (c.val % 256) + j) = at' (patchWords v[c]) j := by
  subst formed cell
  exact fun j hj => patchCell_at v c hj

/-- The words of a cell of a circuit table, record by record. -/
theorem circuitCell_words {ws : List Word} {v : Vector (Option CircuitRecord) 768} {c : Circ} {i : Nat}
    (formed : ws = circuitCell v i) (cell : i = c.val / 128) :
    ∀ j, j < 4 → at' ws (4 * (c.val % 128) + j) = at' (recordWords v[c]) j := by
  subst formed cell
  exact fun j hj => circuitCell_at v c hj

theorem curveCell_at (v : Vector Word 119) : (∀ i : Fin 119, at' (curveCell v) i.val = v[i]) ∧
    ∀ i, 119 ≤ i → at' (curveCell v) i = 0 := by
  have length : v.toList.length = 119 := by simp
  refine ⟨fun i => ?_, fun i past => at'_past (by rwa [length])⟩
  rw [curveCell, at'_append_left (by rw [length]; exact i.isLt)]
  simpa using at'_map_toList v id i

/-! ### The cell of the accept masks -/

theorem maskWords_length (v : Vector Bool 1024) : (maskWords v).length = 64 := by simp [maskWords]

theorem maskWords_bit (v : Vector Bool 1024) (c : Chan) : (at' (maskWords v) (c.val / 16)).getLsbD (c.val % 16) = v[c] := by
  obtain ⟨-, bits⟩ := maskWords_range v (first := 0) (count := 64) (by omega)
  have bit := bits c (Nat.zero_le _) (by omega)
  rwa [List.drop_zero, Nat.sub_zero, List.take_of_length_le (maskWords_length v).le] at bit

theorem maskCell_at (inputs : Vector InputSettings 4) : (∀ (p : PortIx) (c : Chan),
      (at' (maskCell inputs) (64 * p.val + c.val / 16)).getLsbD (c.val % 16) = inputs[p].accept[c]) ∧
    ∀ i, 256 ≤ i → at' (maskCell inputs) i = 0 := by
  have length : (inputs.toList.flatMap fun i => maskWords i.accept).length = 256 := by
    rw [length_flatMap_width fun i : InputSettings => maskWords_length i.accept]
    simp
  refine ⟨fun p c => ?_, fun i past => at'_past (by rwa [length])⟩
  have word : c.val / 16 < 64 := by omega
  have place := getElem?_flatMap_width (fun i : InputSettings => maskWords_length i.accept) inputs.toList p.val word
  rw [Vector.getElem?_toList, Vector.getElem?_eq_getElem p.isLt, Option.bind_some] at place
  rw [maskCell, at'_append_left (by omega), at', List.getD_eq_getElem?_getD, place, ← List.getD_eq_getElem?_getD]
  exact maskWords_bit inputs[p].accept c

/-! ### House cell 0 -/

theorem inputWords_length (i : InputSettings) : (inputWords i).length = 6 := rfl

theorem linkWords_length (o : OutPort) : (linkWords o.pending).length = 2 := rfl

/-- The words of the house settings, input by input, link by link, group by group, and the start bank (R227). -/
theorem settingsWords_at (s : State) : (settingsWords s).length = 55 ∧
    (∀ p : PortIx, ((settingsWords s).drop (6 * p.val)).take 6 = inputWords s.mgmt.inputs[p]) ∧
    (∀ k : LinkIx, ((settingsWords s).drop (24 + 2 * k.val)).take 2 = linkWords s.outs[k].pending) ∧
    (∀ g : GroupIx, at' (settingsWords s) (36 + g.val) = wordOf s.mgmt.budgets[g]) ∧
    at' (settingsWords s) 54 = bankWord s.mgmt.startBank := by
  have inputs : (s.mgmt.inputs.toList.flatMap inputWords).length = 24 := by
    rw [length_flatMap_width inputWords_length]
    simp
  have links : (s.outs.toList.flatMap fun o => linkWords o.pending).length = 12 := by
    rw [length_flatMap_width linkWords_length]
    simp
  have groups : (s.mgmt.budgets.toList.map wordOf).length = 18 := by simp
  simp only [settingsWords, List.append_assoc]
  refine ⟨by simp only [List.length_append, inputs, links, groups, List.length_singleton], fun p => ?_, fun k => ?_, fun g => ?_, ?_⟩
  · rw [List.drop_append_of_le_length (by omega), List.take_append_of_le_length (by rw [List.length_drop]; omega)]
    exact chunk_toList inputWords_length s.mgmt.inputs p
  · rw [← inputs, List.drop_length_add_append, List.drop_append_of_le_length (by omega),
      List.take_append_of_le_length (by rw [List.length_drop]; omega)]
    exact chunk_toList linkWords_length s.outs k
  · rw [show 36 + g.val = (s.mgmt.inputs.toList.flatMap inputWords).length +
        ((s.outs.toList.flatMap fun o => linkWords o.pending).length + g.val) from by omega,
      at'_append_right, at'_append_right, at'_append_left (by omega), at'_map_toList]
  · rw [show 54 = (s.mgmt.inputs.toList.flatMap inputWords).length + ((s.outs.toList.flatMap fun o => linkWords o.pending).length +
        ((s.mgmt.budgets.toList.map wordOf).length + 0)) from by omega, at'_append_right, at'_append_right, at'_append_right]
    rfl

end Sys2Proof.Machine
end

