-- ==== Sys2Proof/Proofs/Saves.lean ====
section
/-! SAVE, FORMAT and SAVE HOUSE (R130, R139–R142): when the words of a cell are formed, what they are, and the segments of each. -/

namespace Sys2Proof.Machine

/-! ### When the words of a cell are formed (R130) -/

/-- A cell's words are read from the live tables, the settings and the operation record. -/
theorem State.formCell_congr {s t : State} (op : OpRecord) (live : t.tables.live = s.tables.live) (outs : t.outs = s.outs)
    (inputs : t.mgmt.inputs = s.mgmt.inputs) (budgets : t.mgmt.budgets = s.mgmt.budgets) (start : t.mgmt.startBank = s.mgmt.startBank) :
    t.formCell op = s.formCell op := by
  simp only [State.formCell, settingsWords, live, outs, inputs, budgets, start]

/-- What a cue fetch's end may change: playback and the flags, which no cell holds. -/
structure State.SettingsKept (s t : State) : Prop where
  tables  : t.tables = s.tables
  outs    : t.outs = s.outs
  bank    : t.bank = s.bank
  memPort : t.memPort = s.memPort
  inputs  : t.mgmt.inputs = s.mgmt.inputs
  budgets : t.mgmt.budgets = s.mgmt.budgets
  start   : t.mgmt.startBank = s.mgmt.startBank

theorem State.SettingsKept.refl (s : State) : s.SettingsKept s := ⟨rfl, rfl, rfl, rfl, rfl, rfl, rfl⟩

theorem State.SettingsKept.raised (s : State) (b : Bool) (e : Event) (pb : Playback) :
    s.SettingsKept (State.raiseIf b e { s with playback := pb }) := by
  cases b <;> exact ⟨rfl, rfl, rfl, rfl, rfl, rfl, rfl⟩

theorem State.takeFetch_keepsSettings (s : State) (n : SlotIx) (h : Option Handed) : s.SettingsKept (s.takeFetch n h) := by
  unfold State.takeFetch
  split
  · split
    · next f _ _ r _ =>
      obtain ⟨tables, outs, bank, memPort, inputs, budgets, start⟩ :=
        State.SettingsKept.raised s ((r.claim f.override).endTime == 0) .cueComplete (s.playback.claim n (r.claim f.override))
      exact ⟨tables, outs, bank, memPort, inputs, budgets, start⟩
    · exact .raised s true .cueFailed _
  · exact .refl s

/-- The grant, at an IDLE engine with no fetch waiting, of a cell write. -/
theorem State.grant_cellWrite {s : State} {g : Segment} {op : OpRecord} (idle : s.memPort.engine = none) (queue : s.memPort.queue = [])
    (waits : s.memPort.bankSlot = some g) (kind : g.kind = .cellWrite) (inProgress : s.bank.op = some op) :
    s.grant.bank = { s.bank with buffer := bufferOf (s.formCell op) } := by
  simp only [State.grant, idle, queue, waits, kind, inProgress]

/-- The end of a fetch with a cell write waiting. -/
theorem exec_fetchComplete_grants {s : State} {e : Engine} {op : OpRecord} {g : Segment} (running : s.held = false)
    (engine : s.memPort.engine = some e) (fetch : e.slot ≠ none) (queue : s.memPort.queue = []) (waits : s.memPort.bankSlot = some g)
    (kind : g.kind = .cellWrite) (inProgress : s.bank.op = some op) :
    ∃ t, exec .fetchComplete s = .next t ∧ t.bank = { s.bank with buffer := bufferOf (s.formCell op) } ∧
      t.memPort = (s.memPort.drive e.area e.cell ((s.txnWords e).length - 1)).wentOn := by
  obtain ⟨n, slot⟩ := Option.ne_none_iff_exists'.1 fetch
  have completes := exec_complete running engine
  rw [slot] at completes
  have kept := State.takeFetch_keepsSettings (s.finish e) n (some (s.handed e))
  have event : s.completeTxn e = (State.takeFetch n (some (s.handed e)) (s.finish e)).grant := by
    simp only [State.completeTxn, State.takeOutcome, slot]
  generalize State.takeFetch n (some (s.handed e)) (s.finish e) = t at kept event
  refine ⟨t.grant, completes.trans (congrArg Host.Outcome.next event), ?_, ?_⟩
  · refine (State.grant_cellWrite (g := g) (op := op) (by rw [kept.memPort]; rfl) (by rw [kept.memPort]; exact queue)
      (by rw [kept.memPort]; exact waits) kind (by rw [kept.bank]; exact inProgress)).trans ?_
    rw [kept.bank, State.formCell_congr op (congrArg Tables.live kept.tables) kept.outs kept.inputs kept.budgets kept.start]
    rfl
  · have left : t = { t with memPort := { s.memPort.drive e.area e.cell ((s.txnWords e).length - 1) with engine := none } } :=
      congrArg (fun m => { t with memPort := m }) kept.memPort
    rw [State.grant_after left]

/-! ### What the words of each cell are -/

section
variable {s : State} {op : OpRecord}

theorem State.formCell_save (kind : op.kind = .save) : s.formCell op =
    if op.segment = 2 then Cell0.toWords { op.header with mark := markWriting }
    else if op.segment ≤ 5 then patchCell s.tables.live.prodPatch (op.segment - 3)
    else if op.segment ≤ 11 then circuitCell s.tables.live.prodCircuits (op.segment - 6)
    else Cell0.toWords { op.header with
      mark := markValid, writeCount := countUp op.header.writeCount, patchCheck := op.patchCheck, circCheck := op.circCheck } := by
  simp only [State.formCell, kind]

theorem State.formCell_format (kind : op.kind = .format) : s.formCell op =
    if op.segment = 1 then (emptyCell0 markWriting emptyPatchCheck emptyCircuitCheck).toWords
    else if op.segment ≤ 10 then List.replicate 512 0
    else (emptyCell0 markValid op.patchCheck op.circCheck).toWords := by
  simp only [State.formCell, kind]

/-- House cell 0 with its checks (R142, R227). -/
def houseHeader (s : State) (op : OpRecord) : List Word :=
  [checkWord (settingsWords s), op.maskCheck, op.patchCheck, op.circCheck, op.curveCheck] ++ List.replicate 3 0 ++ settingsWords s
    ++ List.replicate 449 0

theorem State.formCell_saveHouse (kind : op.kind = .saveHouse) : s.formCell op =
    if op.segment = 1 then maskCell s.mgmt.inputs
    else if op.segment ≤ 4 then patchCell s.tables.live.housePatch (op.segment - 2)
    else if op.segment ≤ 10 then circuitCell s.tables.live.houseCircuits (op.segment - 5)
    else if op.segment = 11 then curveCell s.tables.live.curves
    else houseHeader s op := by
  simp only [State.formCell, kind, houseHeader]

/-- House cell 0 as the words of its header and of its settings, then zeros. -/
theorem houseHeader_at (s : State) (op : OpRecord) :
    (houseHeader s op).take 8 = [checkWord (((houseHeader s op).drop 8).take 55), op.maskCheck, op.patchCheck, op.circCheck,
      op.curveCheck, 0, 0, 0] ∧
    (∀ p : PortIx, ((houseHeader s op).drop (8 + 6 * p.val)).take 6 = inputWords s.mgmt.inputs[p]) ∧
    (∀ k : LinkIx, ((houseHeader s op).drop (32 + 2 * k.val)).take 2 = linkWords s.outs[k].pending) ∧
    (∀ g : GroupIx, at' (houseHeader s op) (44 + g.val) = wordOf s.mgmt.budgets[g]) ∧
    at' (houseHeader s op) 62 = bankWord s.mgmt.startBank ∧ ∀ i, 63 ≤ i → at' (houseHeader s op) i = 0 := by
  obtain ⟨length, inputs, links, groups, start⟩ := settingsWords_at s
  let head := [checkWord (settingsWords s), op.maskCheck, op.patchCheck, op.circCheck, op.curveCheck, 0, 0, 0]
  have form : houseHeader s op = head ++ (settingsWords s ++ List.replicate 449 0) := rfl
  have settings (a n : Nat) (fits : a + n ≤ 55) :
      ((houseHeader s op).drop (8 + a)).take n = ((settingsWords s).drop a).take n := by
    rw [form, show 8 + a = head.length + a from rfl, List.drop_length_add_append, List.drop_append_of_le_length (by omega),
      List.take_append_of_le_length (by rw [List.length_drop]; omega)]
  have word (i : Nat) (fits : i < 55) : at' (houseHeader s op) (8 + i) = at' (settingsWords s) i := by
    rw [form, show 8 + i = head.length + i from rfl, at'_append_right, at'_append_left (by rwa [length])]
  refine ⟨?_, fun p => ?_, fun k => ?_, fun g => ?_, ?_, fun i past => ?_⟩
  · have record : ((houseHeader s op).drop 8).take 55 = settingsWords s := by
      have all := settings 0 55 (Nat.le_refl _)
      rwa [List.drop_zero, List.take_of_length_le length.le] at all
    rw [record]
    rfl
  · rw [settings (6 * p.val) 6 (by omega), inputs]
  · rw [show 32 + 2 * k.val = 8 + (24 + 2 * k.val) from by omega, settings _ 2 (by omega), links]
  · rw [show 44 + g.val = 8 + (36 + g.val) from by omega, word _ (by omega), groups]
  · exact (word 54 (by omega)).trans start
  · obtain ⟨j, rfl⟩ := Nat.exists_eq_add_of_le past
    rw [form, show 63 + j = head.length + ((settingsWords s).length + j) from by rw [length]; exact Nat.add_assoc 8 55 j,
      at'_append_right, at'_append_right, at'_zeros]

end

/-! ### The segments of each operation -/

section
variable {s : State} {op : OpRecord} {h : Handed} {n : Nat}

theorem State.saveTake_unsound (first : op.segment = 1) (unsound : (Cell0.ofWords h.words).sound = false) :
    s.saveTake op h = (s.readCell0 op.bank h.words).endOp .bankBad := by
  simp only [State.saveTake, first, unsound, if_true, Bool.false_eq_true, if_false]

theorem State.saveTake_sound (first : op.segment = 1) (sound : (Cell0.ofWords h.words).sound = true) : s.saveTake op h =
    (s.readCell0 op.bank h.words).handOver { op with segment := 2, cell0 := some (Cell0.ofWords h.words) } := by
  simp only [State.saveTake, first, sound, if_true, State.nextSegment]

theorem State.saveTake_writes (segment : op.segment = n) (low : 2 ≤ n) (high : n ≤ 11) : s.saveTake op h = s.handOver { op with
    segment := n + 1, crc := h.crc
    patchCheck := if n = 5 then h.crc else op.patchCheck
    circCheck := if n = 11 then h.crc else op.circCheck } := by
  have notFirst : n ≠ 1 := by omega
  have notLast : n < 12 := by omega
  by_cases patch : n = 5
  · subst patch
    simp [State.saveTake, segment, State.nextSegment]
  · by_cases circuits : n = 11
    · subst circuits
      simp [State.saveTake, segment, State.nextSegment]
    · simp only [State.saveTake, segment, State.nextSegment, if_neg notFirst, if_neg patch, if_neg circuits, if_pos notLast]

theorem State.saveTake_ends (last : op.segment = 12) : s.saveTake op h = s.endOp .ok := by
  simp [State.saveTake, last]

theorem State.formatTake_writes (segment : op.segment = n) (high : n ≤ 10) : s.formatTake op h = s.handOver { op with
    segment := n + 1, crc := h.crc
    patchCheck := if n = 4 then h.crc else op.patchCheck
    circCheck := if n = 10 then h.crc else op.circCheck } := by
  have notLast : n < 11 := by omega
  by_cases patch : n = 4
  · subst patch
    simp [State.formatTake, segment, State.nextSegment]
  · by_cases circuits : n = 10
    · subst circuits
      simp [State.formatTake, segment, State.nextSegment]
    · simp only [State.formatTake, segment, State.nextSegment, if_neg patch, if_neg circuits, if_pos notLast]

theorem State.formatTake_ends (last : op.segment = 11) : s.formatTake op h = s.endOp .ok := by
  simp [State.formatTake, last]

theorem State.saveHouseTake_writes (segment : op.segment = n) (high : n ≤ 11) : s.saveHouseTake op h = s.handOver { op with
    segment := n + 1, crc := h.crc
    maskCheck := if n = 1 then h.crc else op.maskCheck
    patchCheck := if n = 4 then h.crc else op.patchCheck
    circCheck := if n = 10 then h.crc else op.circCheck
    curveCheck := if n = 11 then h.crc else op.curveCheck } := by
  have notLast : n < 12 := by omega
  by_cases masks : n = 1
  · subst masks
    simp [State.saveHouseTake, segment, State.nextSegment]
  · by_cases patch : n = 4
    · subst patch
      simp [State.saveHouseTake, segment, State.nextSegment]
    · by_cases circuits : n = 10
      · subst circuits
        simp [State.saveHouseTake, segment, State.nextSegment]
      · by_cases curves : n = 11
        · subst curves
          simp [State.saveHouseTake, segment, State.nextSegment]
        · simp only [State.saveHouseTake, segment, State.nextSegment, if_neg masks, if_neg patch, if_neg circuits, if_neg curves,
            if_pos notLast]

theorem State.saveHouseTake_ends (last : op.segment = 12) : s.saveHouseTake op h = s.endOp .ok := by
  simp [State.saveHouseTake, last]

end

/-! ### The segments they hand over -/

section
variable {op : OpRecord} {n : Nat}

theorem OpRecord.offer_save (kind : op.kind = .save) (segment : op.segment = n + 1) (low : 2 ≤ n) (high : n ≤ 11) :
    op.offer = if n = 11 then ⟨.cellWrite, op.area, 0, 0xFFFF⟩
      else ⟨.cellWrite, op.area, n - 1, if n == 2 || n == 5 then 0xFFFF else op.crc⟩ := by
  simp only [OpRecord.offer, kind, segment]
  by_cases last : n = 11
  · simp [last]
  · have notLast : ¬(n + 1 = 2 ∨ 12 ≤ n + 1) := by omega
    have notFirst : n ≠ 0 := by omega
    simp only [if_neg notLast, if_neg last]
    simp [notFirst]

theorem OpRecord.offer_format (kind : op.kind = .format) (segment : op.segment = n + 1) (low : 1 ≤ n) (high : n ≤ 10) :
    op.offer = if n = 10 then ⟨.cellWrite, op.area, 0, 0xFFFF⟩
      else ⟨.cellWrite, op.area, n, if n == 1 || n == 4 then 0xFFFF else op.crc⟩ := by
  simp only [OpRecord.offer, kind, segment]
  by_cases last : n = 10
  · simp [last]
  · have notLast : ¬(n + 1 = 1 ∨ 11 ≤ n + 1) := by omega
    simp only [if_neg notLast, if_neg last, Nat.add_sub_cancel]
    simp

theorem OpRecord.offer_saveHouse (kind : op.kind = .saveHouse) (segment : op.segment = n + 1) (low : 1 ≤ n) (high : n ≤ 11) :
    op.offer = if n = 11 then ⟨.cellWrite, op.area, 0, 0xFFFF⟩
      else ⟨.cellWrite, op.area, n + 1, if n == 1 || n == 4 || n == 10 then 0xFFFF else op.crc⟩ := by
  have notFirst : n ≠ 0 := by omega
  simp only [OpRecord.offer, kind, segment]
  by_cases last : n = 11
  · simp [last]
  · have notLast : ¬12 ≤ n + 1 := by omega
    simp only [if_neg notLast, if_neg last]
    simp [notFirst]

end

/-- Settles O30: when a cell is written and formed, what its words are, then the segments of the three operations. -/
theorem aSaveWritesItsCellsSegmentBySegment : Obligations.ASaveWritesItsCellsSegmentBySegment := by
  refine ⟨fun s e op running wf engine bank kind inProgress => ?written,
    fun s e op g running engine fetch queue waits kind inProgress => ?formed, fun s op => ?words, fun s e op n => ?segments⟩
  case written =>
    have completes := exec_complete running engine
    rw [bank] at completes
    refine ⟨s.completeTxn e, completes, fun a => ?_⟩
    have words : s.txnWords e = s.bank.buffer.toList := by simp only [State.txnWords, kind]
    rw [State.completeTxn, State.grant_mem, State.takeOutcome_mem, State.finish_read (by rw [kind]; rfl) wf, words]
    simp only [Vector.length_toList]
  case formed => exact exec_fetchComplete_grants running engine fetch queue waits kind inProgress
  case words =>
    intro ws m patched recorded
    have patchArea (c : Circ) : c.val / 256 < 3 := by omega
    have circuitArea (c : Circ) : c.val / 128 < 6 := by omega
    refine ⟨fun kind => ?save, fun kind => ?format, fun kind => ?saveHouse⟩
    case save =>
      have formed : ws = _ := State.formCell_save kind
      refine ⟨fun second => ?_, fun c cell => ?_, fun c cell => ?_, fun last => ?_⟩
      · rw [formed, if_pos second]
        rfl
      · have area := patchArea c
        refine patchCell_words (i := m - 3) ?_ (by omega)
        rw [formed, if_neg (by omega), if_pos (by omega)]
      · have area := circuitArea c
        refine circuitCell_words (i := m - 6) ?_ (by omega)
        rw [formed, if_neg (by omega), if_neg (by omega), if_pos (by omega)]
      · rw [formed, if_neg (by omega), if_neg (by omega), if_neg (by omega)]
        rfl
    case format =>
      have formed : ws = _ := State.formCell_format kind
      refine ⟨fun first => ?_, fun low high => ?_, fun last => ?_⟩
      · rw [formed, if_pos first, emptyPatchCheck, emptyCircuitCheck, markWriting]
      · rw [formed, if_neg (by omega), if_pos high]
      · rw [formed, if_neg (by omega), if_neg (by omega), markValid]
    case saveHouse =>
      have formed : ws = _ := State.formCell_saveHouse kind
      refine ⟨fun first => ?_, fun c cell => ?_, fun c cell => ?_, fun curves => ?_, fun last => ?_⟩
      · rw [formed, if_pos first]
        exact maskCell_at s.mgmt.inputs
      · have area := patchArea c
        refine patchCell_words (i := m - 2) ?_ (by omega)
        rw [formed, if_neg (by omega), if_pos (by omega)]
      · have area := circuitArea c
        refine circuitCell_words (i := m - 5) ?_ (by omega)
        rw [formed, if_neg (by omega), if_neg (by omega), if_pos (by omega)]
      · rw [formed, if_neg (by omega), if_neg (by omega), if_neg (by omega), if_pos curves]
        exact curveCell_at s.tables.live.curves
      · rw [formed, if_neg (by omega), if_neg (by omega), if_neg (by omega), if_neg (by omega)]
        exact houseHeader_at s op
  case segments =>
    intro ws crc goes write
    refine ⟨fun seg => ⟨fun unsound => ?saveBad, fun sound => ?saveReads⟩, fun seg low high => ?saveWrites, fun seg => ?saveEnds,
      fun seg low high => ?formatWrites, fun seg => ?formatEnds, fun seg low high => ?houseWrites, fun seg => ?houseEnds⟩
    case saveBad =>
      exact seg.cell0Ends fun t same => (seg.takes same _).trans (State.saveTake_unsound seg.opSegment unsound)
    case saveReads =>
      exact seg.cell0Goes (fun t same => (seg.takes same _).trans (State.saveTake_sound seg.opSegment sound))
        (by simp [OpRecord.offer, seg.opKind, OpRecord.area, write])
    case saveWrites =>
      exact seg.writesOn (fun _ => State.saveTake_writes seg.opSegment low high)
        (OpRecord.offer_save (by exact seg.opKind) rfl low high)
    case formatWrites =>
      exact seg.writesOn (fun _ => State.formatTake_writes seg.opSegment high)
        (OpRecord.offer_format (by exact seg.opKind) rfl low high)
    case houseWrites =>
      exact seg.writesOn (fun _ => State.saveHouseTake_writes seg.opSegment high)
        (OpRecord.offer_saveHouse (by exact seg.opKind) rfl low high)
    case saveEnds => exact seg.writesEnd fun _ => State.saveTake_ends seg.opSegment
    case formatEnds => exact seg.writesEnd fun _ => State.formatTake_ends seg.opSegment
    case houseEnds => exact seg.writesEnd fun _ => State.saveHouseTake_ends seg.opSegment

end Sys2Proof.Machine
end

