-- ==== Sys2Proof/Proofs/HousePart.lean ====
section
/-! The house part of the start-up load (R144–R147): what a cell does as it comes in, the areas that pass and fail, the settings
record, the faults, and the end of the load. -/

namespace Sys2Proof.Machine

/-! ### The areas -/

theorem houseArea_patch {n : Nat} (low : 3 ≤ n) (high : n ≤ 5) : houseArea n = .patch := by
  rw [houseArea, if_neg (by omega), if_neg (by omega), if_pos high]

theorem houseArea_circuits {n : Nat} (low : 6 ≤ n) (high : n ≤ 11) : houseArea n = .circuits := by
  rw [houseArea, if_neg (by omega), if_neg (by omega), if_neg (by omega), if_pos high]

theorem houseArea_later {n : Nat} (later : 2 ≤ n) : houseArea n ≠ .settings := by
  unfold houseArea
  rw [if_neg (by omega)]
  split
  · nofun
  · split
    · nofun
    · split <;> nofun

section
variable {s : State} {op : OpRecord} {h : Handed} {n : Nat}

/-- A cell of the house region after the settings cell as it comes in: with the last of its area the area passes or fails. -/
def State.areaTaken (s : State) (op : OpRecord) (h : Handed) : State :=
  if op.segment = (houseArea op.segment).last then
    if h.crc = at' op.houseChecks (houseArea op.segment).index then
      (s.loadHouseCell op.segment h.words).passArea (houseArea op.segment) h.words
    else (s.loadHouseCell op.segment h.words).failArea (houseArea op.segment)
  else s.loadHouseCell op.segment h.words

theorem State.houseTake_later (later : 2 ≤ op.segment) :
    s.houseTake op h = (s.areaTaken op h).houseNext { op with crc := h.crc } (op.segment + 1) := by
  simp only [State.houseTake, State.areaTaken, if_neg (houseArea_later later)]

theorem State.houseNext_on {t : State} {m : Nat} (more : m ≤ 12) : t.houseNext op m = t.handOver { op with segment := m } := if_pos more

theorem State.houseNext_end {t : State} : t.houseNext op 13 = t.houseEnd := if_neg (by decide)

theorem State.areaTaken_inside (segment : op.segment = n) (inside : n ≠ (houseArea n).last) :
    s.areaTaken op h = s.loadHouseCell n h.words := by
  rw [State.areaTaken, segment, if_neg inside]

theorem State.areaTaken_passes (segment : op.segment = n) (last : n = (houseArea n).last)
    (check : h.crc = at' op.houseChecks (houseArea n).index) :
    s.areaTaken op h = (s.loadHouseCell n h.words).passArea (houseArea n) h.words := by
  rw [State.areaTaken, segment, if_pos last, if_pos check]

theorem State.areaTaken_fails (segment : op.segment = n) (last : n = (houseArea n).last)
    (check : h.crc ≠ at' op.houseChecks (houseArea n).index) :
    s.areaTaken op h = (s.loadHouseCell n h.words).failArea (houseArea n) := by
  rw [State.areaTaken, segment, if_pos last, if_neg check]

/-! ### The cells as they come in -/

theorem State.loadHouseCell_patch {ws : List Word} (area : houseArea n = .patch) : s.loadHouseCell n ws = { s with
    tables := { s.tables with staging := { s.tables.staging with
      housePatch := loadPatchCell s.tables.staging.housePatch (n - 3) ws } } } := by
  simp only [State.loadHouseCell, area]

theorem State.loadHouseCell_circuits {ws : List Word} (area : houseArea n = .circuits) : s.loadHouseCell n ws = { s with
    tables := { s.tables with staging := { s.tables.staging with
      houseCircuits := loadCircuitCell s.tables.staging.houseCircuits (n - 6) ws } } } := by
  simp only [State.loadHouseCell, area]

theorem State.loadHouseCell_other {ws : List Word} (noPatch : houseArea n ≠ .patch) (noCircuits : houseArea n ≠ .circuits) :
    s.loadHouseCell n ws = { s with bank := { s.bank with buffer := bufferOf ws } } := by
  unfold State.loadHouseCell
  split
  · contradiction
  · contradiction
  · rfl

end

theorem OpRecord.offer_startUp {op : OpRecord} (kind : op.kind = .startUp) {n : Nat} (segment : op.segment = n + 1) :
    op.offer = ⟨.cellRead, op.area, n, if n = 0 ∨ n = 1 ∨ n = 2 ∨ n = 5 ∨ n = 11 then 0xFFFF else op.crc⟩ := by
  have first : (n + 1 == 1 || n + 1 == 2 || n + 1 == 3 || n + 1 == 6 || n + 1 == 12) = true ↔
      n = 0 ∨ n = 1 ∨ n = 2 ∨ n = 5 ∨ n = 11 := by
    simp only [Bool.or_eq_true, beq_iff_eq]
    omega
  simp only [OpRecord.offer, kind, segment, Nat.add_sub_cancel, first]

/-! ### The events -/

theorem State.houseEnd_noBank {t : State} (start : t.mgmt.startBank = none) :
    t.houseEnd = { t with bank := { t.bank with state := .idle, op := none } } := by
  rw [State.houseEnd, start]

theorem State.houseEnd_startBank {t : State} {b : BankIx} (start : t.mgmt.startBank = some b) :
    t.houseEnd = State.handOver (OpRecord.new .changeover (some b) none)
      { t with tables := { t.tables with stage := .loading } } := by
  rw [State.houseEnd, start]

theorem State.loadEnded_noBank {u : State} {m : MemPort} (start : u.mgmt.startBank = none) :
    u.loadEnded m = { u with bank := { u.bank with state := .idle, op := none }, memPort := m.wentOn } := by
  rw [State.loadEnded, start]

/-- No segment of a change of bank that has just been handed over is a cell write, so the cell buffer stays. -/
theorem State.loadEnded_startBank {u : State} {m : MemPort} {b : BankIx} (start : u.mgmt.startBank = some b) :
    u.loadEnded m = State.onWith { u with tables := { u.tables with stage := .loading }, memPort := m }
      (OpRecord.new .changeover (some b) none) ⟨.cellRead, .prod b, 0, 0xFFFF⟩ := by
  have noWrite : ¬ (m.queue = [] ∧ TxnKind.cellRead = .cellWrite) := fun h => nomatch h.2
  rw [State.loadEnded, start, State.onWith, if_neg noWrite]

/-- The grant in the event in which the house part ends. -/
theorem State.houseEnd_grant {t u : State} {m : MemPort} (left : t = { u with memPort := { m with engine := none } }) :
    t.houseEnd.grant = u.loadEnded m := by
  subst left
  cases start : u.mgmt.startBank with
  | none =>
    rw [State.houseEnd_noBank (by exact start), State.loadEnded_noBank start]
    exact State.grant_ended (m := m) rfl rfl
  | some b =>
    rw [State.houseEnd_startBank (by exact start), State.loadEnded_startBank start]
    exact State.grant_handOver (s := { u with tables := { u.tables with stage := .loading } }) rfl rfl

section
variable {s : State} {e : Engine} {op : OpRecord} {n : Nat}

/-- A cell of the start-up load comes in, and the load goes on. -/
theorem State.InSegment.houseGoes (seg : s.InSegment e op .startUp n .cellRead) {u : State} (low : 2 ≤ n) (high : n ≤ 11)
    (part : ∀ m, State.areaTaken { s with memPort := m } op (s.handed e) = { u with memPort := m }) (port : u.memPort = s.memPort) :
    exec .segmentComplete s = .next (u.onWith { op with segment := n + 1, crc := (s.handed e).crc }
      ⟨.cellRead, op.area, n, if n = 2 ∨ n = 5 ∨ n = 11 then 0xFFFF else (s.handed e).crc⟩) := by
  refine seg.readsOn (fun m => (seg.takes (t := { s with memPort := m }) rfl _).trans ?_) port ?_
  · refine (State.houseTake_later (by rwa [seg.opSegment])).trans ?_
    rw [part, seg.opSegment, State.houseNext_on (by omega)]
  · refine (OpRecord.offer_startUp (n := n) (by exact seg.opKind) rfl).trans ?_
    have first : (n = 0 ∨ n = 1 ∨ n = 2 ∨ n = 5 ∨ n = 11) ↔ n = 2 ∨ n = 5 ∨ n = 11 := by omega
    simp only [first]
    rfl

/-- The last cell of the house part comes in, and the part ends. -/
theorem State.InSegment.houseEnds (seg : s.InSegment e op .startUp 12 .cellRead) {u : State}
    (part : ∀ m, State.areaTaken { s with memPort := m } op (s.handed e) = { u with memPort := m }) :
    exec .segmentComplete s = .next (u.loadEnded (s.memPort.drive e.area e.cell ((s.txnWords e).length - 1))) := by
  rw [seg.completes, seg.keepsMem rfl, seg.takes (by rfl)]
  refine congrArg Host.Outcome.next ?_
  have ends (m : MemPort) : OpKind.startUp.take op (s.handed e) { s with memPort := m } = State.houseEnd { u with memPort := m } := by
    refine (State.houseTake_later (by rw [seg.opSegment]; decide)).trans ?_
    rw [part, seg.opSegment, State.houseNext_end]
  exact (congrArg State.grant (ends _)).trans (State.houseEnd_grant rfl)

end

/-! ### An area that fails (R145) -/

/-- The staging tables after the area of segment n has failed. -/
def Tables.areaFailed (t : Tables) (n : Nat) : TableSet :=
  if 3 ≤ n ∧ n ≤ 5 then { t.staging with housePatch := t.live.housePatch }
  else if 6 ≤ n ∧ n ≤ 11 then { t.staging with houseCircuits := t.live.houseCircuits }
  else t.staging

theorem State.failArea_eq (s : State) {n : Nat} (low : 1 ≤ n) (high : n ≤ 12) : s.failArea (houseArea n) = { s with
    tables := { s.tables with staging := s.tables.areaFailed n }, mgmt := s.mgmt.raise .houseBad } := by
  by_cases patch : 3 ≤ n ∧ n ≤ 5
  · rw [houseArea_patch patch.1 patch.2, Tables.areaFailed, if_pos patch]
    rfl
  · by_cases circuits : 6 ≤ n ∧ n ≤ 11
    · rw [houseArea_circuits circuits.1 circuits.2, Tables.areaFailed, if_neg patch, if_pos circuits]
      rfl
    · rw [Tables.areaFailed, if_neg patch, if_neg circuits]
      have other : n = 1 ∨ n = 2 ∨ n = 12 := by omega
      obtain rfl | rfl | rfl := other <;> rfl

/-- The segment that follows the area of a segment which faults. -/
def afterFault (n : Nat) : Nat := if n = 2 then 3 else if n ≤ 5 then 6 else 12

theorem houseArea_last {n : Nat} (low : 2 ≤ n) (high : n ≤ 11) : (houseArea n).last + 1 = afterFault n := by
  unfold afterFault
  by_cases masks : n = 2
  · rw [masks]
    rfl
  · by_cases patch : n ≤ 5
    · rw [houseArea_patch (by omega) patch, if_neg masks, if_pos patch]
      rfl
    · rw [houseArea_circuits (by omega) high, if_neg masks, if_neg patch]
      rfl

theorem afterFault_first {n : Nat} : afterFault n = 3 ∨ afterFault n = 6 ∨ afterFault n = 12 := by
  unfold afterFault
  split
  · exact .inl rfl
  · split
    · exact .inr (.inl rfl)
    · exact .inr (.inr rfl)

theorem OpRecord.offer_afterFault {op : OpRecord} (kind : op.kind = .startUp) {n : Nat} (segment : op.segment = afterFault n) :
    op.offer = ⟨.cellRead, op.area, afterFault n - 1, 0xFFFF⟩ := by
  simp only [OpRecord.offer, kind, segment]
  obtain first | first | first := afterFault_first (n := n)
  · rw [first]
    rfl
  · rw [first]
    rfl
  · rw [first]
    rfl

section
variable {s : State} {e : Engine} {op : OpRecord} {n : Nat}

theorem State.houseFault_ends {t : State} (segment : op.segment = n) (edge : n = 1 ∨ n = 12) :
    t.houseFault op = (t.failArea (houseArea n)).houseEnd := by
  rw [State.houseFault, segment]
  obtain rfl | rfl := edge
  · rfl
  · rfl

theorem State.houseFault_goes {t : State} (segment : op.segment = n) (low : 2 ≤ n) (high : n ≤ 11) :
    t.houseFault op = (t.failArea (houseArea n)).handOver { op with segment := afterFault n } := by
  simp only [State.houseFault, segment, if_neg (houseArea_later low), houseArea_last low high]
  refine State.houseNext_on ?_
  obtain first | first | first := afterFault_first (n := n) <;> omega

/-- The state in which the part goes on after the fault of a cell of the start-up load. -/
def State.houseFaulted (s : State) (e : Engine) (cut : Cut) (n : Nat) : State := { s with
  memPort := s.memPort.faulted e cut
  mgmt := (s.mgmt.raise .memoryFault).raise .houseBad
  tables := { s.tables with staging := s.tables.areaFailed n } }

theorem State.InSegment.houseFaults (seg : s.InSegment e op .startUp n .cellRead) {cut : Cut} (low : 1 ≤ n) (high : n ≤ 12)
    (within : e.place + cut.accesses < 512) {f : State → State}
    (part : ∀ t : State, t.houseFault op = f (t.failArea (houseArea n))) :
    exec (.rdyFault cut) s = .next (State.grant (f { s.houseFaulted e cut n with
      memPort := { s.memPort.faulted e cut with engine := none } })) := by
  have length : (s.txnWords e).length = 512 := by simp only [State.txnWords, seg.txnKind, Memory.readRun_length]
  have within : e.place + cut.accesses < (s.txnWords e).length := by rwa [length]
  have faulted := seg.faults within
  rw [seg.takesFault (by rfl), (seg.cutMem within).1 rfl, OpKind.takeFault, part, State.failArea_eq _ low high] at faulted
  exact faulted

end

end Sys2Proof.Machine
end

