-- ==== Sys2Proof/Proofs/HouseSettings.lean ====
section
/-! The settings cell of the start-up load (R146), and the house part as a whole. -/

namespace Sys2Proof.Machine

/-! ### The settings record in one piece -/

theorem Mgmt.foldl_raise_settings (es : List Event) (m : Mgmt) (budgets : Vector Nat 18) (start : Option BankIx) :
    { es.foldl (fun m e => m.raise e) m with budgets := budgets, startBank := start } =
      es.foldl (fun m e => m.raise e) { m with budgets := budgets, startBank := start } := by
  induction es generalizing m with
  | nil => rfl
  | cons e es ih => rw [List.foldl_cons, List.foldl_cons, ih]; rfl

theorem State.applySettings_whole (s : State) (ins : PortIx → StoredInput) (links : LinkIx → LinkSettings) (budgets : GroupIx → Nat)
    (start : Option BankIx) : s.applySettings ⟨List.ofFn ins, List.ofFn links, List.ofFn budgets, start⟩ = { s with
      ports := tab fun p => (ins p).overPort s.mgmt.inputs[p] s.ports[p]
      outs := tab fun k => (s.outs[k]).stored (links k)
      mgmt := ((List.finRange 4).filter fun p => (ins p).unlocks s.mgmt.inputs[p] s.ports[p]).foldl
        (fun m p => m.raise (.syncChange p))
        { s.mgmt with
          inputs := tab fun p => (ins p).over s.mgmt.inputs[p]
          budgets := tab budgets, startBank := start } } := by
  rw [State.applySettings_eq]
  simp only [State.tookInputs, List.mem_finRange, if_true]
  have raised := Mgmt.foldl_raise_settings (((List.finRange 4).filter fun p =>
    (ins p).unlocks s.mgmt.inputs[p] s.ports[p]).map Event.syncChange)
    { s.mgmt with inputs := tab fun p => (ins p).over s.mgmt.inputs[p] } (tab budgets) start
  simp only [List.foldl_map] at raised
  rw [raised]

/-! ### The settings cell as it comes in -/

theorem at'_take_zero (ws : List Word) {n : Nat} (some : 0 < n) : at' (ws.take n) 0 = at' ws 0 := by
  rw [at', List.getD_eq_getElem?_getD, List.getElem?_take_of_lt some, ← List.getD_eq_getElem?_getD, at']

section
variable {s : State} {op : OpRecord} {h : Handed}

/-- The record with which the load goes on from the settings cell. -/
def OpRecord.pastSettings (op : OpRecord) (h : Handed) : OpRecord :=
  { op with segment := 2, crc := h.crc, houseChecks := h.words.take 5 }

theorem State.houseTake_settings (first : op.segment = 1) : s.houseTake op h =
    State.handOver (op.pastSettings h) (if checkWord ((h.words.drop 8).take 55) = at' h.words 0 then
      (State.passArea .settings h.words { s with bank := { s.bank with buffer := bufferOf h.words } })
    else (State.failArea .settings { s with bank := { s.bank with buffer := bufferOf h.words } })) := by
  rw [← at'_take_zero h.words (n := 5) (by decide)]
  simp only [State.houseTake, first, OpRecord.pastSettings]
  rfl

theorem State.houseTake_badSettings (first : op.segment = 1)
    (bad : at' h.words 0 ≠ checkWord ((h.words.drop 8).take 55) ∨ StoredSettings.of? ((h.words.drop 8).take 55) = none) :
    s.houseTake op h = State.handOver (op.pastSettings h) { s with
      bank := { s.bank with buffer := bufferOf h.words }, mgmt := s.mgmt.raise .houseBad } := by
  rw [State.houseTake_settings first]
  by_cases check : checkWord ((h.words.drop 8).take 55) = at' h.words 0
  · have unsound := bad.resolve_left fun differs => differs check.symm
    rw [if_pos check]
    simp only [State.passArea, unsound]
    rfl
  · rw [if_neg check]
    rfl

theorem State.houseTake_goodSettings (first : op.segment = 1) {r : StoredSettings}
    (check : at' h.words 0 = checkWord ((h.words.drop 8).take 55)) (sound : StoredSettings.of? ((h.words.drop 8).take 55) = some r) :
    s.houseTake op h = State.handOver (op.pastSettings h)
      (State.applySettings r { s with bank := { s.bank with buffer := bufferOf h.words } }) := by
  rw [State.houseTake_settings first, if_pos check.symm]
  simp only [State.passArea, sound]

end

section
variable {s : State} {e : Engine} {op : OpRecord}

/-- The settings cell comes in, and the load goes on. -/
theorem State.InSegment.settingsGo (seg : s.InSegment e op .startUp 1 .cellRead) {u : State}
    (part : ∀ m, State.houseTake op (s.handed e) { s with memPort := m } =
      State.handOver (op.pastSettings (s.handed e)) { u with memPort := m })
    (port : u.memPort = s.memPort) :
    exec .segmentComplete s = .next (u.onWith (op.pastSettings (s.handed e)) ⟨.cellRead, op.area, 1, 0xFFFF⟩) :=
  seg.readsOn (fun m => (seg.takes (t := { s with memPort := m }) rfl _).trans (part m)) port
    (OpRecord.offer_startUp (n := 1) (by exact seg.opKind) rfl)

end

/-- Settles O34: the cells after the settings by their areas, the settings cell, then the faults. -/
theorem aHousePatchLoadsOrKeepsItsDefaults : Obligations.AHousePatchLoadsOrKeepsItsDefaults := by
  refine ⟨fun s e op n seg => ?cells, fun s e op seg => ?settings, fun s e op n cut seg within => ?faults⟩
  case cells =>
    intro ws crc goes buffered bad staged t patch circuits masked curves curved ends
    refine ⟨?masks, ?patchInside, ?patchLast, fun low high => ?circuitsInside, ?circuitsLast, ?curves⟩
    case masks =>
      rintro rfl
      refine ⟨fun check => ?_, fun check => ?_⟩
      · refine seg.houseGoes (u := masked) (by decide) (by decide) (fun m => ?_) rfl
        rw [State.areaTaken_passes seg.opSegment rfl check, State.loadHouseCell_other (by decide) (by decide)]
        rfl
      · refine seg.houseGoes (u := bad buffered) (by decide) (by decide) (fun m => ?_) rfl
        rw [State.areaTaken_fails seg.opSegment rfl check, State.loadHouseCell_other (by decide) (by decide)]
        rfl
    case patchInside =>
      intro inside
      have low : 3 ≤ n := by omega
      have area := houseArea_patch low (by omega : n ≤ 5)
      refine seg.houseGoes (u := staged { t with housePatch := patch }) (by omega) (by omega) (fun m => ?_) rfl
      rw [State.areaTaken_inside seg.opSegment (by rw [area]; exact (by omega : n ≠ 5)), State.loadHouseCell_patch area]
    case patchLast =>
      rintro rfl
      refine ⟨fun check => ?_, fun check => ?_⟩
      · refine seg.houseGoes (u := { s with tables := { s.tables with
          live := { s.tables.live with housePatch := patch }, staging := { t with housePatch := patch } } })
          (by decide) (by decide) (fun m => ?_) rfl
        rw [State.areaTaken_passes seg.opSegment rfl check, State.loadHouseCell_patch rfl]
        rfl
      · refine seg.houseGoes (u := bad (staged { t with housePatch := s.tables.live.housePatch })) (by decide) (by decide)
          (fun m => ?_) rfl
        rw [State.areaTaken_fails seg.opSegment rfl check, State.loadHouseCell_patch rfl]
        rfl
    case circuitsInside =>
      have area := houseArea_circuits low (by omega : n ≤ 11)
      refine seg.houseGoes (u := staged { t with houseCircuits := circuits }) (by omega) (by omega) (fun m => ?_) rfl
      rw [State.areaTaken_inside seg.opSegment (by rw [area]; exact (by omega : n ≠ 11)), State.loadHouseCell_circuits area]
    case circuitsLast =>
      rintro rfl
      refine ⟨fun check => ?_, fun check => ?_⟩
      · refine seg.houseGoes (u := { s with tables := { s.tables with
          live := { s.tables.live with houseCircuits := circuits }, staging := { t with houseCircuits := circuits } } })
          (by decide) (by decide) (fun m => ?_) rfl
        rw [State.areaTaken_passes seg.opSegment rfl check, State.loadHouseCell_circuits rfl]
        rfl
      · refine seg.houseGoes (u := bad (staged { t with houseCircuits := s.tables.live.houseCircuits })) (by decide) (by decide)
          (fun m => ?_) rfl
        rw [State.areaTaken_fails seg.opSegment rfl check, State.loadHouseCell_circuits rfl]
        rfl
    case curves =>
      rintro rfl
      refine ⟨fun check => ?_, fun check => ?_⟩
      · refine seg.houseEnds (u := curved) (fun m => ?_)
        rw [State.areaTaken_passes seg.opSegment rfl check, State.loadHouseCell_other (by decide) (by decide)]
        rfl
      · refine seg.houseEnds (u := bad buffered) (fun m => ?_)
        rw [State.areaTaken_fails seg.opSegment rfl check, State.loadHouseCell_other (by decide) (by decide)]
        rfl
  case settings =>
    intro ws settings goes
    refine ⟨fun bad => ?_, fun ins links budgets start check sound => ?_⟩
    · exact seg.settingsGo (u := { s with mgmt := s.mgmt.raise .houseBad, bank := { s.bank with buffer := bufferOf ws } })
        (fun m => State.houseTake_badSettings seg.opSegment bad) rfl
    · intro off on
      have taken (m : MemPort) := State.houseTake_goodSettings (s := { s with memPort := m }) (h := s.handed e) seg.opSegment check sound
      simp only [State.applySettings_whole] at taken
      exact seg.settingsGo taken rfl
  case faults =>
    intro t u first
    refine ⟨fun edge => ?_, fun low high => ?_⟩
    · refine (seg.houseFaults (f := State.houseEnd) (by omega) (by omega) within fun t =>
        State.houseFault_ends seg.opSegment edge).trans (congrArg Host.Outcome.next ?_)
      exact State.houseEnd_grant (u := u) (m := s.memPort.faulted e cut) rfl
    · refine (seg.houseFaults (f := State.handOver { op with segment := afterFault n }) (by omega) (by omega) within fun t =>
        State.houseFault_goes seg.opSegment low high).trans (congrArg Host.Outcome.next ?_)
      exact State.grant_handOver (s := u) (m := s.memPort.faulted e cut) (OpRecord.offer_afterFault (by exact seg.opKind) rfl) rfl

end Sys2Proof.Machine
end
